-- ==== Sys2Proof/Word.lean ====
section
/-! DEFINITION. The words of the block: bytes, 16-bit register values, 32-bit DMA words and addresses, 64-bit command
words (00_scope.md R14, R15; 20_memory.md R92). -/

namespace Sys2Proof

/-- One byte of DMA or host memory. -/
abbrev Byte := BitVec 8

/-- A 16-bit register value (R14). -/
abbrev Half := BitVec 16

/-- A 32-bit descriptor word or physical address (R14, R91). -/
abbrev Word := BitVec 32

/-- A 64-bit command word (R140). -/
abbrev Cmd := BitVec 64

end Sys2Proof
end

