-- ==== Sys2Proof/Syntax.lean ====
section
/-! DEFINITION. The commands, the block's instructions (00_scope.md R4; 30_encoding.md R143): one constructor per row
of the opcode table. -/

namespace Sys2Proof

/-- The two rings (R141: `ring = 0` is RX, `ring = 1` is TX). -/
inductive Ring
  | rx | tx
  deriving DecidableEq, Repr

/-- The commands of R143 with their operands (R142). `exp` and `len` are numbers the block counts with; their
widths (4 and 12 bits) are checked by `Instr.wf`. -/
inductive Instr
  | rdcsr (idx : Half)
  | wrcsr (idx val : Half)
  | rdbcr (idx : Half)
  | wrbcr (idx val : Half)
  | rreset
  | attach
  | openDev (mac : BitVec 48)
  | close
  | detach
  | ralloc (ring : Ring) (exp : Nat)
  | rfree (ring : Ring)
  | xmit (addr : Word) (len : Nat)
  | reclaim
  | drain
  | irq
  | dtask
  deriving DecidableEq, Repr

end Sys2Proof
end

