-- ==== Sys2Proof/WellFormed.lean ====
section
/-! DEFINITION. The syntactic checks on a command: each operand fits the field of its format (30_encoding.md R141). -/

namespace Sys2Proof

/-- R141: `exp` is `cw[3:0]` and `len` is `cw[43:32]`; every other operand has its field's width by type. -/
def Instr.wf : Instr → Bool
  | .rdcsr _ => true
  | .wrcsr _ _ => true
  | .rdbcr _ => true
  | .wrbcr _ _ => true
  | .rreset => true
  | .attach => true
  | .openDev _ => true
  | .close => true
  | .detach => true
  | .ralloc _ exp => decide (exp < 16)
  | .rfree _ => true
  | .xmit _ len => decide (len < 4096)
  | .reclaim => true
  | .drain => true
  | .irq => true
  | .dtask => true

end Sys2Proof
end

