-- ==== Sys2Proof/Decode.lean ====
section
/-! DEFINITION. The decoder of command words and, after it, the encoder, both written from 30_encoding.md R140 to R145.
The decoder is total: a word spells exactly one command, or is rejected by name. -/

namespace Sys2Proof

/-- Why a word spells no command (R144): both are `REFUSED_ENCODING`. -/
inductive DecodeError
  | reservedOpcode
  | reservedBits
  deriving DecidableEq, Repr

/-- What the decoder answers. -/
inductive Decoded
  | ok (i : Instr)
  | error (e : DecodeError)
  deriving DecidableEq, Repr

/-- R140: the opcode, `cw[63:56]`. -/
def opcodeOf (cw : Cmd) : Byte := cw.extractLsb' 56 8

/-- R141 formats R and W: `idx = cw[15:0]`. -/
def idxOf (cw : Cmd) : Half := cw.extractLsb' 0 16

/-- R141 format W: `val = cw[31:16]`. -/
def valOf (cw : Cmd) : Half := cw.extractLsb' 16 16

/-- R141 format M: `mac = cw[47:0]`. -/
def macOf (cw : Cmd) : BitVec 48 := cw.extractLsb' 0 48

/-- R141 format F: `addr = cw[31:0]`. -/
def addrOf (cw : Cmd) : Word := cw.extractLsb' 0 32

/-- R141 format F: `len = cw[43:32]`. -/
def lenOf (cw : Cmd) : Nat := (cw.extractLsb' 32 12).toNat

/-- R141 format A: `exp = cw[3:0]`. -/
def expOf (cw : Cmd) : Nat := (cw.extractLsb' 0 4).toNat

/-- R141 formats A and S: `ring = cw[8]`, 0 = RX, 1 = TX. -/
def ringOf (cw : Cmd) : Ring := if cw.getLsbD 8 then .tx else .rx

/-- R141: the reserved bits of each format, as a mask over the word. -/
def reservedN : Cmd := 0x00FFFFFFFFFFFFFF#64
def reservedR : Cmd := 0x00FFFFFFFFFF0000#64
def reservedW : Cmd := 0x00FFFFFF00000000#64
def reservedM : Cmd := 0x00FF000000000000#64
def reservedF : Cmd := 0x00FFF00000000000#64
def reservedA : Cmd := 0x00FFFFFFFFFFFEF0#64
def reservedS : Cmd := 0x00FFFFFFFFFFFEFF#64

/-- R144: a known opcode with a nonzero reserved bit spells no command. -/
def checked (cw reserved : Cmd) (i : Instr) : Decoded :=
  if cw &&& reserved = 0#64 then .ok i else .error .reservedBits

/-- R143, R144, R145: the decoder. -/
def decode (cw : Cmd) : Decoded :=
  match (opcodeOf cw).toNat with
  | 0x01 => checked cw reservedR (.rdcsr (idxOf cw))
  | 0x02 => checked cw reservedW (.wrcsr (idxOf cw) (valOf cw))
  | 0x03 => checked cw reservedR (.rdbcr (idxOf cw))
  | 0x04 => checked cw reservedW (.wrbcr (idxOf cw) (valOf cw))
  | 0x05 => checked cw reservedN .rreset
  | 0x10 => checked cw reservedN .attach
  | 0x11 => checked cw reservedM (.openDev (macOf cw))
  | 0x12 => checked cw reservedN .close
  | 0x13 => checked cw reservedN .detach
  | 0x18 => checked cw reservedA (.ralloc (ringOf cw) (expOf cw))
  | 0x19 => checked cw reservedS (.rfree (ringOf cw))
  | 0x20 => checked cw reservedF (.xmit (addrOf cw) (lenOf cw))
  | 0x21 => checked cw reservedN .reclaim
  | 0x22 => checked cw reservedN .drain
  | 0x30 => checked cw reservedN .irq
  | 0x31 => checked cw reservedN .dtask
  | _ => .error .reservedOpcode

/-- The word with opcode `op` and operand bits `low`. -/
def commandWord (op : Byte) (low : Cmd) : Cmd := (op.setWidth 64 <<< 56) ||| low

/-- R141 formats A and S: the ring bit. -/
def ringBit : Ring → Cmd
  | .rx => 0#64
  | .tx => 0x100#64

/-- The word of a well-formed command, from R141 and R143. -/
def encode : Instr → Cmd
  | .rdcsr idx => commandWord 0x01#8 (idx.setWidth 64)
  | .wrcsr idx val => commandWord 0x02#8 ((val.setWidth 64 <<< 16) ||| idx.setWidth 64)
  | .rdbcr idx => commandWord 0x03#8 (idx.setWidth 64)
  | .wrbcr idx val => commandWord 0x04#8 ((val.setWidth 64 <<< 16) ||| idx.setWidth 64)
  | .rreset => commandWord 0x05#8 0#64
  | .attach => commandWord 0x10#8 0#64
  | .openDev mac => commandWord 0x11#8 (mac.setWidth 64)
  | .close => commandWord 0x12#8 0#64
  | .detach => commandWord 0x13#8 0#64
  | .ralloc ring exp => commandWord 0x18#8 (ringBit ring ||| BitVec.ofNat 64 exp)
  | .rfree ring => commandWord 0x19#8 (ringBit ring)
  | .xmit addr len => commandWord 0x20#8 ((BitVec.ofNat 64 len <<< 32) ||| addr.setWidth 64)
  | .reclaim => commandWord 0x21#8 0#64
  | .drain => commandWord 0x22#8 0#64
  | .irq => commandWord 0x30#8 0#64
  | .dtask => commandWord 0x31#8 0#64

/-- The command the decoder reads from a word given as the opcode table numbers bits: bit 0 the least significant,
every bit above `nbits` zero (all rows of this table have 64 bits, R140). -/
def decodeTableWord (nbits w : Nat) : Option Instr :=
  match decode (BitVec.ofNat 64 (w % 2 ^ nbits)) with
  | .ok i => some i
  | .error _ => none

end Sys2Proof
end

