-- ==== Sys2Proof/Config.lean ====
section
/-! DEFINITION. The parameters a model takes (00_scope.md R13), and the free values: what the spec leaves to a draw.
The parameters are data of State (`State.params`), so that a statement about every state is one about every legal
parameter; the free values are opaque, so that no proof can know one. -/

namespace Sys2Proof

/-- The access strategy the device answers (R13 `DEVICE_IO_MODE`, R369). -/
inductive DeviceIoMode
  | wio | dwio | absent
  deriving DecidableEq, Repr

/-- What a read under a strategy the device does not answer returns (R13 `WRONG_MODE_READ`, R369). -/
inductive WrongModeRead
  | any | notStopped
  deriving DecidableEq, Repr

/-- The four port offsets of one strategy (R170). -/
structure PortOffsets where
  rdp : Nat
  rap : Nat
  reset : Nat
  bdp : Nat
  deriving DecidableEq, Repr

/-- The implementation parameters of R13. No rule gives the port space a size, so I/O addresses are natural numbers and
`IO_BASE` plus an offset never wraps: DESIGN CHOICE, log 1. -/
structure Params where
  txLenExp : Nat
  rxLenExp : Nat
  maxLenExp : Nat
  rxBufSize : Nat
  maxTxLen : Nat
  initPollBudget : Nat
  initMode : Half
  ioBase : Nat
  wio : PortOffsets
  dwio : PortOffsets
  ackClearMask : Half
  intrSources : Half
  counterWidth : Nat
  deviceIoMode : DeviceIoMode
  wrongModeRead : WrongModeRead
  kCallers : Nat
  deriving DecidableEq, Repr

/-- R13: the default of each parameter that has one. DESIGN CHOICE (log 1) for the OPEN ones: the values of
95_test_vectors.md's header, `DEVICE_IO_MODE = WIO` and two callers. -/
def Params.default : Params where
  txLenExp := 2
  rxLenExp := 2
  maxLenExp := 9
  rxBufSize := 1544
  maxTxLen := 4095
  initPollBudget := 10
  initMode := 0x0000#16
  ioBase := 0x300
  wio := ⟨0x10, 0x12, 0x14, 0x16⟩
  dwio := ⟨0x10, 0x14, 0x18, 0x1C⟩
  ackClearMask := 0x0040#16
  intrSources := 0x5F00#16
  counterWidth := 32
  deviceIoMode := .wio
  wrongModeRead := .any
  kCallers := 2

/-- The offsets of one strategy, as a list. -/
def PortOffsets.toList (o : PortOffsets) : List Nat := [o.rdp, o.rap, o.reset, o.bdp]

/-- R13's constraint column. -/
def Params.legal (p : Params) : Bool :=
  decide (1 ≤ p.txLenExp ∧ p.txLenExp ≤ p.maxLenExp) &&
  decide (1 ≤ p.rxLenExp ∧ p.rxLenExp ≤ p.maxLenExp) &&
  decide (1 ≤ p.maxLenExp ∧ p.maxLenExp ≤ 15) &&
  decide (64 ≤ p.rxBufSize ∧ p.rxBufSize ≤ 4095) &&
  decide (1 ≤ p.maxTxLen ∧ p.maxTxLen ≤ 4095) &&
  decide (1 ≤ p.initPollBudget) &&
  decide (p.wio.toList.Nodup ∧ ∀ o ∈ p.wio.toList, o % 2 = 0) &&
  decide (p.dwio.toList.Nodup ∧ ∀ o ∈ p.dwio.toList, o % 4 = 0) &&
  decide (p.ackClearMask &&& 0x0040#16 = 0x0040#16) &&
  decide (p.intrSources &&& 0x7F00#16 = p.intrSources) &&
  decide (1 ≤ p.counterWidth) &&
  decide (1 ≤ p.kCallers)

/-- FREE VALUE (log 3): the unspecified value of a DMA memory byte that nothing has written (R61). -/
opaque Config.resetByte : Nat → Byte

/-- FREE VALUE (log 4): the draws of a model (93_implementation_defined.md "any value"), by a counter. -/
opaque Config.freeDraw : Nat → Nat

/-- FREE VALUE (log 4): an answer of `alloc`, a virtual pointer and a physical address, or a failure (R7, R243). -/
opaque Config.freeAlloc : Nat → Option (Nat × Word)

/-- FREE VALUE (log 4): an answer of `map_for_device` (R7). -/
opaque Config.freeMap : Nat → Word

/-- FREE VALUE (log 17): a byte of a mapped frame the model does not know, by the mapping and the offset (R133). -/
opaque Config.frameByte : Nat → Nat → Byte

/-- FREE VALUE (log 4): an answer of `alloc_frame`, a handle or FAIL (R7, R295). -/
opaque Config.freeFrame : Nat → Option Word

end Sys2Proof
end

