-- ==== Sys2Proof/Machine/State.lean ====
section
/-! DEFINITION. The state of the machine as plain data: the block's registers (10_state.md R30 to R44, R62), the
device's registers and hidden state (R46 to R56), DMA and host memory (20_memory.md R90), each agent's sequencer (R43),
the event history (00_scope.md R24), and the model's own fields that hold what the environment does. -/

namespace Sys2Proof.Machine

/-- R31. -/
inductive Lifecycle
  | detached | attached | opening | running | closed
  deriving DecidableEq, Repr

/-- R32. -/
inductive Mode
  | none | wio | dwio
  deriving DecidableEq, Repr

/-- R170: the two access strategies. -/
inductive Strategy
  | wio | dwio
  deriving DecidableEq, Repr

/-- R5: the agents. -/
inductive Agent
  | caller (k : Nat) | irq | deferred | device
  deriving DecidableEq, Repr

/-- R150: outcome codes; `OutcomeCode.number` gives each its number. -/
inductive OutcomeCode
  | ok | queueFull | deviceNotFound | initTimeout
  deriving DecidableEq, Repr

/-- R150: what a command returns. -/
structure Reply where
  code : OutcomeCode
  value : Half
  deriving DecidableEq, Repr

/-- R405: the faults; `FaultCode.number` gives each its code. -/
inductive FaultCode
  | noMode | releaseLive | ownViolation | misaligned
  deriving DecidableEq, Repr

/-- R405: the info a fault records. -/
inductive FaultInfo
  | command (i : Instr) | ring (r : Ring) | address (a : Nat)
  deriving DecidableEq, Repr

/-- R405: the fault record. The device agent runs no command. -/
structure FaultRecord where
  code : FaultCode
  info : FaultInfo
  agent : Agent
  command : Option Instr
  deriving DecidableEq, Repr

/-- R406: the reasons of a refusal, and the model's own (log 10, 11, 12, 13). -/
inductive RefusalReason
  | encoding | lifecycle | operand | alloc | deviceUnmodelled
  | outsideMemory | txFragment | ringState | agentBusy
  deriving DecidableEq, Repr

/-- R35: what the TX ring remembers of an enqueued frame. -/
structure TxMapping where
  phys : Word
  len : Nat
  handle : Word
  deriving DecidableEq, Repr

/-- R33, R35: the TX ring registers. A virtual pointer has no width in the spec and is a number (log 21). -/
structure TxRing where
  alloc : Bool
  exp : Nat
  base : Word
  vptr : Nat
  current : Nat
  last : Nat
  count : Nat
  map : List (Option TxMapping)
  deriving DecidableEq, Repr

/-- R36: one RX buffer. -/
structure RxBuffer where
  vptr : Nat
  phys : Word
  deriving DecidableEq, Repr

/-- R36: the RX ring registers. -/
structure RxRing where
  alloc : Bool
  exp : Nat
  base : Word
  vptr : Nat
  current : Nat
  buf : List RxBuffer
  deriving DecidableEq, Repr

/-- R37: the Initialization Block registers. -/
structure InitBlock where
  alloc : Bool
  vptr : Nat
  phys : Word
  deriving DecidableEq, Repr

/-- R44: the statistics counters (nine, log 15). -/
structure Counters where
  txPackets : Nat
  txBytes : Nat
  txErrors : Nat
  rxPackets : Nat
  rxBytes : Nat
  rxErrors : Nat
  rxDropped : Nat
  collisions : Nat
  missedFrames : Nat
  deriving DecidableEq, Repr

/-- R175: a strategy operation goes through the block's `mode`, or (in ATTACH's probe) through a given strategy. -/
inductive Via
  | bound | forced (S : Strategy)
  deriving DecidableEq, Repr

/-- R46, R173: the two register files behind RAP. -/
inductive RegFile
  | csr | bcr
  deriving DecidableEq, Repr

/-- What a command does with a register value it has read; each constructor is a place of the pseudocode. -/
inductive OnRead
  | reply                              -- R180, R182: return it
  | probe (S : Strategy)               -- R200: compare it with "stopped"
  | poll (left : Nat)                  -- R215: test IDON, `left` reads remain
  | status (ran deferred : Bool)       -- R320: the handler's loop test
  deriving DecidableEq, Repr

/-- What a command does with a descriptor word it has read. -/
inductive OnWord
  | reclaimOwn (i : Nat)                           -- R270: w1 of the oldest slot
  | reclaimStatus (i : Nat) (w1 : Word)            -- R270: its w2
  | drainOwn (left i : Nat)                        -- R290: w1 of the current slot
  | drainStatus (left i : Nat) (w1 : Word)         -- R290: its w2
  deriving DecidableEq, Repr

/-- Register updates and branches with no memory or I/O access: R18 merges each into the transition before it, or into
the one after it at the start of a command (log 14). The two fences are merged into the transition before them: DESIGN
CHOICE, log 37. -/
inductive Quiet
  | ret (code : OutcomeCode) (v : Half)            -- R16 `return`
  | refuse (r : RefusalReason)                     -- R16 `refuse`
  | raise (c : FaultCode) (info : FaultInfo)       -- R16 `raise`
  | fenceW | fenceR                                -- R120, R121
  | attachDone                                     -- R201
  | releaseRing (r : Ring)                         -- R246: entry
  | txUnmapped (i : Nat)                           -- R246: `tx_map[i] <- EMPTY`
  | ringFreed (r : Ring)                           -- R246: end
  | ringMade (r : Ring) (e : Nat) (v : Nat) (p : Word)   -- R241: registers of the new ring
  | armRx                                          -- R211: the arming loop
  | fillIb (mac : BitVec 48)                       -- R212
  | loadAddress                                    -- R214
  | poll (left : Nat)                              -- R215
  | started                                        -- R216
  | timedOut                                       -- R217
  | closed                                         -- R220
  | detached                                       -- R230
  | enqueued                                       -- R260: cursor and count
  | demand                                         -- R261
  | reclaimLoop                                    -- R270: loop test
  | reclaimed (i : Nat) (w1 w2 : Word) (len : Nat) -- R270, R271: end of an iteration
  | drainStart                                     -- R290, R330: `if lifecycle = RUNNING: drain_body()`
  | drainLoop (left : Nat)                         -- R290: loop test
  | rxDelivered (len : Nat)                        -- R291: counters of a good frame
  | rxAdvance (i : Nat)                            -- R290: `rx_current <- (i + 1) mod N_rx`
  | acked (s : Half) (deferred : Bool)             -- R320: after the acknowledgement
  | reenabled                                      -- R322, R331: `iena_shadow <- 1`
  | wake                                           -- R331: wake test, then the re-enable
  | taskDone                                       -- R332, R333
  | defBegin                                       -- R334: `def_busy <- 1`
  | defIdle                                        -- R334: `def_busy <- 0`
  deriving DecidableEq, Repr

/-- The primitives of the pseudocode (R16): the atomic transitions of R18, and the quiet ones merged into them. -/
inductive Prim
  | acquire                                        -- R340, with the hold of the command
  | release                                        -- R340
  | rap (via : Via) (i : Half)                     -- IoWrite of RAP
  | dataGet (via : Via) (file : RegFile) (k : OnRead)    -- IoRead of RDP or BDP
  | dataPut (via : Via) (file : RegFile) (x : Half)      -- IoWrite of RDP or BDP
  | resetPort (via : Via)                          -- IoRead of RESET
  | allocIb                                        -- R201
  | zeroIb (k : Nat)                               -- R201: word k of the Initialization Block
  | ibPut (off : Nat) (bytes : List Byte)          -- R212: one field write
  | freeIb                                         -- R230
  | allocRing (r : Ring) (e : Nat)                 -- R241
  | zeroWord (a : Nat)                             -- R241: a descriptor word of a ring being made
  | allocBuf                                       -- R241: the next RX buffer
  | free (v : Nat) (p : Word) (size : Nat)         -- R246
  | slotPut (r : Ring) (i word : Nat) (v : Word)   -- MemWrite of a descriptor word
  | slotGet (r : Ring) (i word : Nat) (k : OnWord) -- MemRead of a descriptor word
  | mapFrame (addr : Word) (len : Nat)             -- R260 `map_for_device`
  | unmap (phys : Word) (len : Nat)
  | releaseFrame (h : Word)
  | stopQueue                                      -- R263
  | wakeQueue                                      -- R331
  | allocFrame (i len : Nat)                       -- R291
  | copyFrame (i len : Nat) (h : Word)             -- R291, R134: the buffer copy
  | deliver (h : Word) (bytes : List Byte)         -- R291, R134: with the bytes copied
  | quiet (q : Quiet)
  deriving DecidableEq, Repr

/-- R43: the command an agent is executing, and the primitives of it still to come, with their locals (R17). -/
structure Activity where
  cmd : Instr
  todo : List Prim
  deriving DecidableEq, Repr

/-- R54. -/
inductive DevState
  | stopped | initialising | initialised | running
  deriving DecidableEq, Repr

/-- R55: the latched configuration; `rx_n` and `tx_n` are the powers of two of the exponents. -/
structure DevCfg where
  mode : Half
  rxBase : Word
  txBase : Word
  rxExp : BitVec 4
  txExp : BitVec 4
  padr : BitVec 48
  ladrf : BitVec 64
  deriving DecidableEq, Repr

/-- R46 to R56: the device. `latches` holds the stored bits of CSR0 at their places (R50). -/
structure Device where
  state : DevState
  latches : Half
  rap : Half
  csr1 : Half
  csr2 : Half
  cfg : DevCfg
  devTx : Nat
  devRx : Nat
  deriving DecidableEq, Repr

/-- DMA memory: the bytes written so far, by address, addresses strictly rising. -/
abbrev Memory := List Host.Cell

/-- R90 (3), R133, R134: a frame in host memory. -/
structure HostFrame where
  handle : Word
  bytes : List Byte
  deriving DecidableEq, Repr

/-- R24: who performs a DMA access. -/
inductive Performer
  | host | device
  deriving DecidableEq, Repr

/-- R7: the direction of a mapping. `TO_DEVICE` is the only one a rule of the spec names (R133, R246, R260, R270). -/
inductive Direction
  | toDevice
  deriving DecidableEq, Repr

/-- R7, R24: a collaborator call with its arguments and answer. -/
inductive Call
  | alloc (size : Nat) (r : Option (Nat × Word))
  | free (v : Nat) (p : Word) (size : Nat)
  | mapForDevice (ptr : Word) (len : Nat) (dir : Direction) (phys : Word)
  | unmap (phys : Word) (len : Nat) (dir : Direction)
  | allocFrame (len : Nat) (r : Option Word)
  | releaseFrame (h : Word)
  | deliver (h : Word) (bytes : List Byte)
  | stopQueue
  | wakeQueue
  deriving DecidableEq, Repr

/-- R24: the events of the history. -/
inductive Event
  | issued (a : Agent) (i : Instr)
  | returned (a : Agent) (i : Instr) (r : Reply)
  | ioRead (width addr : Nat) (v : Word)
  | ioWrite (width addr : Nat) (v : Word)
  | memRead (who : Performer) (addr : Nat) (bytes : List Byte)
  | memWrite (who : Performer) (addr : Nat) (bytes : List Byte)
  | call (c : Call)
  | fenceW
  | fenceR
  | wireTx (bytes : List Byte)
  | wireRx (bytes : List Byte)
  deriving DecidableEq, Repr

/-- The model's own (log 4): the answers the collaborators and the draws of the model will give, in order, and the
number of questions asked so far, which indexes the free values once a list is used up. -/
structure Oracle where
  allocs : List (Option (Nat × Word))
  maps : List Word
  frames : List (Option Word)
  draws : List Nat
  asked : Nat
  deriving DecidableEq, Repr

/-- R6: the three inputs that deliver command words; a command port per caller agent. -/
inductive Port
  | command (k : Nat) | interrupt | deferredRun
  deriving DecidableEq, Repr

/-- R373: what the device does with one slot of an oversize frame: bytes written into the buffer from an offset, and
the words it completes the slot with. That the bytes are one run, stored in one write: DESIGN CHOICE, log 20. -/
structure OversizeSlot where
  offset : Nat
  bytes : List Byte
  w1 : Word
  w2 : Word
  deriving DecidableEq, Repr

/-- R360 to R366, R373: the device's own steps with the choices the rules leave to it. -/
inductive DeviceStep
  | init                                            -- R360
  | txPoll (status w1Bits : Word) (cerr : Bool)     -- R361, R362, R365
  | receive (frame : List Byte) (fcs errs x y : Word) (oversize : List OversizeSlot)   -- R363, R364, R373
  | cerr                                            -- R365
  | babl                                            -- R366
  | merr                                            -- R366
  deriving DecidableEq, Repr

/-- The model's own (log 5): what another agent or the environment does between two transitions of the running one. -/
inductive Move
  | device (d : DeviceStep)
  | tick (a : Agent)
  | issue (p : Port) (w : Cmd)
  | hostFrame (h : Word) (bytes : List Byte)
  deriving DecidableEq, Repr

/-- The model's own (log 5, 6): what the machine takes next. -/
inductive Delivery
  | word (p : Port) (w : Cmd)
  | resume (a : Agent)
  deriving DecidableEq, Repr

/-- The state. `params` is fixed for a machine (R13). `tasks` holds the agents that are not IDLE with their sequencers
(R43), `replies` the last outcome at each agent's port (R6 (a), R150). -/
structure State where
  params : Params
  lifecycle : Lifecycle
  mode : Mode
  tx : TxRing
  rx : RxRing
  ib : InitBlock
  station : BitVec 48
  ienaShadow : Bool
  taskPending : Bool
  defBusy : Bool
  queueStopped : Bool
  lockOwner : Option Agent
  counters : Counters
  tasks : List (Agent × Activity)
  replies : List (Agent × Reply)
  faultRecord : Option FaultRecord
  refusalMark : Option RefusalReason
  device : Device
  memory : Memory
  hostFrames : List HostFrame
  history : List Event
  oracle : Oracle
  inbox : List Delivery
  sched : List (List Move)
  issuer : Nat
  deriving DecidableEq, Repr

/-- The faults of R405. Each carries the fault record and the state in which the run ended (R24: the observation
includes the final state; steps already taken are not undone). -/
inductive Fault
  /-- F_NO_MODE: a register operation while `mode = NONE` (R175, R180 to R184). Safe: the source forbids the access. -/
  | noMode (r : FaultRecord) (final : State)
  /-- F_RELEASE_LIVE: `ring_release` while the device is not stopped (R246). Safe: undefined behaviour of the source. -/
  | releaseLive (r : FaultRecord) (final : State)
  /-- F_OWN_VIOLATION: a host access of `w0`, `w2` or the buffer of a device-owned slot (R125). Safe. -/
  | ownViolation (r : FaultRecord) (final : State)
  /-- F_MISALIGNED: a descriptor-word access at an address that is no multiple of 4 (R94). Safe. -/
  | misaligned (r : FaultRecord) (final : State)
  deriving DecidableEq, Repr

/-- The refusals of R406, with the state in which the run ended, and the model's own. A refusal is no behaviour of the
hardware; each is safe. -/
inductive Refusal
  /-- An instruction that has no meaning yet; raised by `exec`'s arm alone. Safe. -/
  | notModelled (mnemonic : String)
  /-- REFUSED_ENCODING: reserved opcode or bit, or a word from the wrong input (R144); raised by `step`. Safe. -/
  | encoding (final : State)
  /-- REFUSED_LIFECYCLE: ATTACH, OPEN, DETACH, RALLOC, RFREE in a state with no rule for them (R406). Safe. -/
  | lifecycle (final : State)
  /-- REFUSED_OPERAND: ring exponent or frame length out of range (R240, R265). Safe. -/
  | operand (final : State)
  /-- REFUSED_ALLOC: a collaborator answer that breaks the allocator duties (R94, R98, R131, R243). Safe. -/
  | alloc (final : State)
  /-- REFUSED_DEVICE_UNMODELLED: a write to a device register with no modelled effect (R358). Safe. -/
  | deviceUnmodelled (final : State)
  /-- The model's own (log 10): a DMA access that runs past address 0xFFFF_FFFF (R90, R98). Safe. -/
  | outsideMemory (final : State)
  /-- The model's own (log 11): the device's TX poll finds a slot without both STP and ENP (R361). Safe. -/
  | txFragment (final : State)
  /-- The model's own (log 12): ring registers that contradict each other, which R34 to R36 rule out. Safe. -/
  | ringState (final : State)
  /-- The model's own (log 13): `exec` on an agent that is not idle; R5 and R345 admit no such delivery. Safe. -/
  | agentBusy (final : State)
  deriving DecidableEq, Repr

/-- R58, R59: all counters zero. -/
def Counters.zero : Counters := ⟨0, 0, 0, 0, 0, 0, 0, 0, 0⟩

/-- R60: the device after power-on. DESIGN CHOICE (log 2): RAP, CSR1, CSR2, `cfg` and the cursors, which the spec
leaves unspecified, are 0. -/
def Device.powerOn : Device where
  state := .stopped
  latches := 0#16
  rap := 0#16
  csr1 := 0#16
  csr2 := 0#16
  cfg := ⟨0#16, 0#32, 0#32, 0#4, 0#4, 0#48, 0#64⟩
  devTx := 0
  devRx := 0

/-- R58, R60, R442: the power-on state, every agent idle. The model's own fields are empty (log 24). Of the
Initialization Block registers R58 and R440 give only `ib_alloc`; `ib_vptr` and `ib_phys` start at 0: DESIGN CHOICE, log 2.
`tx_map` and `rx_buf` have no entry before a ring is made: DESIGN CHOICE, log 38. -/
def State.reset : State where
  params := Params.default
  lifecycle := .detached
  mode := .none
  tx := ⟨false, 0, 0#32, 0, 0, 0, 0, []⟩
  rx := ⟨false, 0, 0#32, 0, 0, []⟩
  ib := ⟨false, 0, 0#32⟩
  station := 0#48
  ienaShadow := false
  taskPending := false
  defBusy := false
  queueStopped := false
  lockOwner := none
  counters := Counters.zero
  tasks := []
  replies := []
  faultRecord := none
  refusalMark := none
  device := Device.powerOn
  memory := []
  hostFrames := []
  history := []
  oracle := ⟨[], [], [], [], 0⟩
  inbox := []
  sched := []
  issuer := 0

end Sys2Proof.Machine
end

