-- ==== Sys2Proof/Machine/Operands.lean ====
section
/-! DEFINITION. Operand forms: byte order (20_memory.md R92), slot addresses and cursor advance (R110), the byte-count
encoding (R109), the words the host publishes (R102, R103), the Initialization Block fields (R112), the station bytes
(30_encoding.md R141), port addresses (40_register_interface.md R170). -/

namespace Sys2Proof.Machine

/-- R92: byte `k` of a 32-bit word, least significant first. -/
def byteOf (v : Word) (k : Nat) : Byte := v.extractLsb' (8 * k) 8

/-- R92: the four bytes of a word in address order. -/
def wordBytes (v : Word) : List Byte := [byteOf v 0, byteOf v 1, byteOf v 2, byteOf v 3]

/-- R92: the word of four bytes in address order. -/
def wordOfBytes (b0 b1 b2 b3 : Byte) : Word := b3 ++ b2 ++ b1 ++ b0

/-- R92: the two bytes of a 16-bit value in address order. -/
def halfBytes (v : Half) : List Byte := [v.extractLsb' 0 8, v.extractLsb' 8 8]

/-- R92: the 16-bit value of two bytes in address order. -/
def halfOfBytes (b0 b1 : Byte) : Half := b1 ++ b0

/-- R33, R36: `N = 2^e`. -/
def ringSize (e : Nat) : Nat := 2 ^ e

/-- R110: slot `i` of a ring with base `B` is at `B + 16*i`; word `k` of it is 4k further (R100). -/
def slotAddr (base : Word) (i word : Nat) : Nat := base.toNat + 16 * i + 4 * word

/-- R110: cursor advance. -/
def advance (i n : Nat) : Nat := (i + 1) % n

/-- R109: `0xF000 | ((-L) mod 4096)`, as the low half of a descriptor word. -/
def bcnt16 (len : Nat) : Word := 0x0000F000#32 ||| ((-(BitVec.ofNat 32 len)) &&& 0x00000FFF#32)

/-- R109: the length a byte-count field encodes, `(-(b & 0x0FFF)) mod 4096`. -/
def bcntLen (w1 : Word) : Nat := ((-(w1 &&& 0x00000FFF#32)) &&& 0x00000FFF#32).toNat

/-- R102, R262: the word that publishes a TX slot, OWN | STP | ENP, ONES and BCNT. -/
def txPublishWord (len : Nat) : Word := 0x83000000#32 ||| bcnt16 len

/-- R103, R293: the word that hands an RX slot to the device, OWN, ONES and BCNT. -/
def rxArmWord (size : Nat) : Word := 0x80000000#32 ||| bcnt16 size

/-- R38, R141: `station[k] = mac[8k+7:8k]`. -/
def stationByte (mac : BitVec 48) (k : Nat) : Byte := mac.extractLsb' (8 * k) 8

/-- R112: an exponent byte, `e << 4` (bits 7:4). -/
def expByte (e : Nat) : Byte := BitVec.ofNat 8 e <<< 4

/-- R112, R212: the field writes of the Initialization Block, offset and bytes, in the order of R212. -/
def ibFields (mode : Half) (rxExp txExp : Nat) (mac : BitVec 48) (rxBase txBase : Word) : List (Nat × List Byte) :=
  [(0, halfBytes mode), (2, [expByte rxExp]), (3, [expByte txExp]),
   (4, [stationByte mac 0]), (5, [stationByte mac 1]), (6, [stationByte mac 2]),
   (7, [stationByte mac 3]), (8, [stationByte mac 4]), (9, [stationByte mac 5]),
   (10, halfBytes 0#16),
   (12, [0#8]), (13, [0#8]), (14, [0#8]), (15, [0#8]), (16, [0#8]), (17, [0#8]), (18, [0#8]), (19, [0#8]),
   (20, wordBytes rxBase), (24, wordBytes txBase)]

/-- R112: the size of the Initialization Block. -/
def ibSize : Nat := 28

/-- R170: the access width of a strategy. -/
def Strategy.width : Strategy → Nat
  | .wio => 16
  | .dwio => 32

/-- R170: the port offsets of a strategy. -/
def Strategy.offsets (S : Strategy) (p : Params) : PortOffsets :=
  match S with
  | .wio => p.wio
  | .dwio => p.dwio

/-- R170, R173: the data port of a register file. -/
def dataPort (S : Strategy) (p : Params) (file : RegFile) : Nat :=
  match file with
  | .csr => p.ioBase + (S.offsets p).rdp
  | .bcr => p.ioBase + (S.offsets p).bdp

/-- R170: the address-pointer port. -/
def rapPort (S : Strategy) (p : Params) : Nat := p.ioBase + (S.offsets p).rap

/-- R170, R174: the RESET port. -/
def resetPortAddr (S : Strategy) (p : Params) : Nat := p.ioBase + (S.offsets p).reset

/-- R32, R175: the strategy a mode names. -/
def Mode.strategy : Mode → Option Strategy
  | .none => Option.none
  | .wio => some .wio
  | .dwio => some .dwio

/-- R200: the mode a successful probe selects. -/
def Strategy.toMode : Strategy → Mode
  | .wio => .wio
  | .dwio => .dwio

/-- R175: the strategy an operation uses; none where `mode = NONE`. -/
def Via.resolve (v : Via) (m : Mode) : Option Strategy :=
  match v with
  | .bound => m.strategy
  | .forced S => some S

end Sys2Proof.Machine
end

