-- ==== Sys2Proof/Machine/Flags.lean ====
section
/-! DEFINITION. Flags: the CSR0 bits and their derived values (10_state.md R50 to R53), the effect of a CSR0 write
(48_device_agent.md R350, R351), the descriptor bits (20_memory.md R102 to R104) and the error predicates (R108). -/

namespace Sys2Proof.Machine

/-- R50: the CSR0 bits at their positions. -/
def csr0ERR : Half := 0x8000#16
def csr0BABL : Half := 0x4000#16
def csr0CERR : Half := 0x2000#16
def csr0MISS : Half := 0x1000#16
def csr0MERR : Half := 0x0800#16
def csr0RINT : Half := 0x0400#16
def csr0TINT : Half := 0x0200#16
def csr0IDON : Half := 0x0100#16
def csr0INTR : Half := 0x0080#16
def csr0IENA : Half := 0x0040#16
def csr0RXON : Half := 0x0020#16
def csr0TXON : Half := 0x0010#16
def csr0TDMD : Half := 0x0008#16
def csr0STOP : Half := 0x0004#16
def csr0STRT : Half := 0x0002#16
def csr0INIT : Half := 0x0001#16

/-- R51: the seven cause bits, the block's only flags. -/
def csr0Causes : Half := 0x7F00#16

/-- R52: the causes ERR sums up, `BABL | CERR | MISS | MERR`. -/
def csr0ErrCauses : Half := 0x7800#16

/-- R50, R52: the bits that are stored: the causes, IENA, TDMD, STRT and INIT. -/
def csr0Stored : Half := 0x7F4B#16

/-- R19: `STOPPED_STATUS`, exactly the "stopped" bit. -/
def stoppedStatus : Half := 0x0004#16

/-- A bit is set in a register value. -/
def bitSet (v b : Half) : Bool := v &&& b != 0#16

/-- R52: INTR, from the stored causes. -/
def intrPending (p : Params) (d : Device) : Bool := bitSet (d.latches &&& csr0Causes) p.intrSources

/-- R52, R357: CSR0 as a read returns it; the derived bits are computed here and never stored. -/
def csr0Value (p : Params) (d : Device) : Half :=
  (d.latches &&& csr0Stored) |||
  (if bitSet d.latches csr0ErrCauses then csr0ERR else 0#16) |||
  (if intrPending p d then csr0INTR else 0#16) |||
  (if d.state = .running then csr0RXON ||| csr0TXON else 0#16) |||
  (if d.state = .stopped then csr0STOP else 0#16)

/-- R53: the interrupt line, `INTR ∧ IENA`. -/
def interruptLine (p : Params) (d : Device) : Bool := intrPending p d && bitSet d.latches csr0IENA

/-- R351: a CSR0 write with STOP. -/
def csr0Stop (d : Device) : Device := { d with state := .stopped, latches := 0#16 }

/-- R350: write-1-to-clear of the causes, and IENA takes the written value (R355). -/
def csr0ClearAndEnable (l v : Half) : Half :=
  ((l &&& ~~~(v &&& csr0Causes)) &&& ~~~csr0IENA) ||| (v &&& csr0IENA)

/-- R350: TDMD, effective in RUNNING only (R354). -/
def csr0Demand (st : DevState) (v : Half) : Half :=
  if bitSet v csr0TDMD ∧ st = .running then csr0TDMD else 0#16

/-- R350, R351: the effect of writing `v` to CSR0. -/
def csr0Write (d : Device) (v : Half) : Device :=
  if bitSet v csr0STOP then csr0Stop d
  else
    let l := csr0ClearAndEnable d.latches v ||| csr0Demand d.state v
    if bitSet v csr0INIT ∧ d.state = .stopped then
      { d with latches := l ||| csr0INIT, state := .initialising }
    else if bitSet v csr0STRT ∧ d.state = .initialised then
      { d with latches := l ||| csr0STRT, state := .running }
    else { d with latches := l }

/-- R352: a device step latches a cause. -/
def Device.latch (d : Device) (b : Half) : Device := { d with latches := d.latches ||| b }

/-- R102, R103: descriptor bits of `w1`. -/
def dOWN : Word := 0x80000000#32
def dERR : Word := 0x40000000#32
def dFRAM : Word := 0x20000000#32
def dOFLO : Word := 0x10000000#32
def dCRC : Word := 0x08000000#32
def dBUFF : Word := 0x04000000#32
def dSTP : Word := 0x02000000#32
def dENP : Word := 0x01000000#32

/-- R104: the error bits of a TX descriptor's `w2` that a completion may set, BUFF_T UFLO LCOL LCAR RTRY (R362). -/
def txErrBits : Word := 0xDC000000#32

/-- R108: the bits `tx_err` reads in `w2`: UFLO, LCOL, LCAR, RTRY. -/
def txErrW2 : Word := 0x5C000000#32

/-- R108: the bits `rx_err` reads in `w1`: ERR_D, FRAM, OFLO, CRC. -/
def rxErrW1 : Word := 0x78000000#32

/-- R363: the receive error bits FRAM, OFLO, CRC, BUFF. -/
def rxErrBits : Word := 0x3C000000#32

/-- A descriptor word has one of the bits of a mask. -/
def hasBits (w m : Word) : Bool := w &&& m != 0#32

/-- R124: the slot belongs to the device. -/
def owned (w1 : Word) : Bool := hasBits w1 dOWN

/-- R108. -/
def txErr (w1 w2 : Word) : Bool := hasBits w1 dERR || hasBits w2 txErrW2

/-- R108. -/
def rxErr (w1 : Word) : Bool := hasBits w1 rxErrW1

/-- R105: MCNT, `w2[11:0]`. -/
def mcnt (w2 : Word) : Nat := (w2 &&& 0x00000FFF#32).toNat

/-- R291: the slot holds no frame to deliver. -/
def rxBad (bufSize : Nat) (w1 w2 : Word) : Bool :=
  rxErr w1 || !hasBits w1 dSTP || !hasBits w1 dENP || decide (mcnt w2 < 4) || decide (bufSize < mcnt w2 - 4)

/-- R261: the value of the transmit-demand write. -/
def demandValue (shadow : Bool) : Half := if shadow then csr0TDMD ||| csr0IENA else csr0TDMD

end Sys2Proof.Machine
end

