-- ==== Sys2Proof/Machine/Ops.lean ====
section
/-! DEFINITION. The named operations over state: DMA memory (20_memory.md R90 to R99, R131), the event history
(00_scope.md R24), the oracle's answers and draws (R7), the sequencers (R43), the lock (R340), and the one way a run
ends: a fault or a refusal (60_exceptions.md R405, R406). -/

namespace Sys2Proof.Machine

/-! ### DMA memory, in one canonical form: addresses strictly rising, an unlisted address holding no written value -/

/-- The byte written at an address; none where nothing has been written (R61). -/
def Memory.get? : Memory → Nat → Option Byte
  | [], _ => none
  | (k, b) :: m, a => if k = a then some b else Memory.get? m a

/-- Write one byte, keeping the addresses strictly rising. -/
def Memory.set : Memory → Nat → Byte → Memory
  | [], a, v => [(a, v)]
  | (k, b) :: m, a, v =>
    if a < k then (a, v) :: (k, b) :: m
    else if a = k then (a, v) :: m
    else (k, b) :: Memory.set m a v

/-- Write bytes at consecutive addresses. -/
def Memory.setBytes : Memory → Nat → List Byte → Memory
  | m, _, [] => m
  | m, a, b :: bs => Memory.setBytes (Memory.set m a b) (a + 1) bs

/-- The canonical form. -/
abbrev Memory.wf (m : Memory) : Prop := m.Pairwise (fun x y => x.1 < y.1)

/-- R90 (2): the size of the DMA address space. -/
def memTop : Nat := 2 ^ 32

/-- The byte at an address; an unwritten byte holds its unspecified reset value (R61, log 3). -/
def State.byteAt (s : State) (a : Nat) : Byte := (Memory.get? s.memory a).getD (Config.resetByte a)

/-- `n` bytes from an address. -/
def State.bytesAt (s : State) (a n : Nat) : List Byte := (List.range n).map fun k => s.byteAt (a + k)

/-- R92: the 16-bit value at an address. -/
def State.halfAt (s : State) (a : Nat) : Half := halfOfBytes (s.byteAt a) (s.byteAt (a + 1))

/-- R92: the 32-bit word at an address. -/
def State.wordAt (s : State) (a : Nat) : Word :=
  wordOfBytes (s.byteAt a) (s.byteAt (a + 1)) (s.byteAt (a + 2)) (s.byteAt (a + 3))

/-- Store bytes, with no event. -/
def State.store (s : State) (a : Nat) (bs : List Byte) : State := { s with memory := Memory.setBytes s.memory a bs }

/-! ### The event history -/

/-- R24: record an event; the newest stands first. -/
def State.record (s : State) (e : Event) : State := { s with history := e :: s.history }

/-- R16 `MemWrite`: the bytes and the event. -/
def State.memWrite (s : State) (who : Performer) (a : Nat) (bs : List Byte) : State :=
  (s.store a bs).record (.memWrite who a bs)

/-- The event of a `MemRead`. -/
def State.noteRead (s : State) (who : Performer) (a n : Nat) : State := s.record (.memRead who a (s.bytesAt a n))

/-! ### How a run ends -/

/-- R400: a transition that does not go on. -/
inductive Stop
  | fault (c : FaultCode) (info : FaultInfo)
  | refuse (r : RefusalReason)
  deriving DecidableEq, Repr

/-- What a transition answers: a result, or a stop with the state it left (R405: steps already taken stay). -/
inductive Res (α : Type)
  | ok (x : α)
  | stop (why : Stop) (final : State)
  deriving Repr

/-- Go on with a result. -/
def Res.bind {α β : Type} (r : Res α) (f : α → Res β) : Res β :=
  match r with
  | .ok x => f x
  | .stop w s => .stop w s

/-- The fault outcome of a record. -/
def Fault.of (r : FaultRecord) (final : State) : Fault :=
  match r.code with
  | .noMode => .noMode r final
  | .releaseLive => .releaseLive r final
  | .ownViolation => .ownViolation r final
  | .misaligned => .misaligned r final

/-- The refusal outcome of a reason. -/
def Refusal.of (r : RefusalReason) (final : State) : Refusal :=
  match r with
  | .encoding => .encoding final
  | .lifecycle => .lifecycle final
  | .operand => .operand final
  | .alloc => .alloc final
  | .deviceUnmodelled => .deviceUnmodelled final
  | .outsideMemory => .outsideMemory final
  | .txFragment => .txFragment final
  | .ringState => .ringState final
  | .agentBusy => .agentBusy final

/-- R405 `raise`: record the fault with its info, agent and command; the run ends. -/
def raiseFault (c : FaultCode) (info : FaultInfo) (a : Agent) (cmd : Option Instr) (s : State) :
    Host.Outcome State Fault Refusal :=
  let r : FaultRecord := ⟨c, info, a, cmd⟩
  .fault (Fault.of r { s with faultRecord := some r })

/-- R340, R406: the lock is given back by the agent, where it holds it. -/
def State.unlock (s : State) (a : Agent) : State := if s.lockOwner = some a then { s with lockOwner := none } else s

/-- R406 `refuse`: set the refusal mark; the run ends. -/
def refuseWith (r : RefusalReason) (s : State) : Host.Outcome State Fault Refusal :=
  .refused (Refusal.of r { s with refusalMark := some r })

/-- R405, R406: the outcome of a transition of agent `a` running `cmd`. A command that is refused while it holds the lock
releases it first (R340, R406), in the same transition where its pseudocode shows no `release` step (log 32). -/
def Res.outcome (a : Agent) (cmd : Option Instr) (r : Res State) : Host.Outcome State Fault Refusal :=
  match r with
  | .ok s => .next s
  | .stop (.fault c info) s => raiseFault c info a cmd s
  | .stop (.refuse why) s => refuseWith why (s.unlock a)

/-- Go on with the next state of an outcome. -/
def andThen (o : Host.Outcome State Fault Refusal) (f : State → Host.Outcome State Fault Refusal) :
    Host.Outcome State Fault Refusal :=
  match o with
  | .next s => f s
  | .fault r => .fault r
  | .refused r => .refused r

/-- R23: a run ends at its first fault or refusal. -/
def State.ended (s : State) : Bool := s.faultRecord.isSome || s.refusalMark.isSome

/-- The outcome of stepping a run that has ended: the recorded fault or refusal again. -/
def State.endOutcome (s : State) : Host.Outcome State Fault Refusal :=
  match s.faultRecord, s.refusalMark with
  | some r, _ => .fault (Fault.of r s)
  | none, some r => .refused (Refusal.of r s)
  | none, none => .next s

/-! ### The oracle: draws and collaborator answers (log 4) -/

/-- A draw: any value. -/
def State.draw (s : State) : Nat × State :=
  match s.oracle.draws with
  | d :: ds => (d, { s with oracle := { s.oracle with draws := ds, asked := s.oracle.asked + 1 } })
  | [] => (Config.freeDraw s.oracle.asked, { s with oracle := { s.oracle with asked := s.oracle.asked + 1 } })

/-- The allocator's next answer, not yet taken. -/
def State.allocAnswer (s : State) : Option (Nat × Word) :=
  match s.oracle.allocs with
  | r :: _ => r
  | [] => Config.freeAlloc s.oracle.asked

/-- The mapper's next answer, not yet taken. -/
def State.mapAnswer (s : State) : Word :=
  match s.oracle.maps with
  | r :: _ => r
  | [] => Config.freeMap s.oracle.asked

/-- The next answer of `alloc_frame`, not yet taken. -/
def State.frameAnswer (s : State) : Option Word :=
  match s.oracle.frames with
  | r :: _ => r
  | [] => Config.freeFrame s.oracle.asked

/-- Take an answer of `alloc`. -/
def State.takeAlloc (s : State) : State :=
  { s with oracle := { s.oracle with allocs := s.oracle.allocs.tail, asked := s.oracle.asked + 1 } }

/-- Take an answer of `map_for_device`. -/
def State.takeMap (s : State) : State :=
  { s with oracle := { s.oracle with maps := s.oracle.maps.tail, asked := s.oracle.asked + 1 } }

/-- Take an answer of `alloc_frame`. -/
def State.takeFrame (s : State) : State :=
  { s with oracle := { s.oracle with frames := s.oracle.frames.tail, asked := s.oracle.asked + 1 } }

/-! ### The allocator's duties -/

/-- R98: the DMA regions of the structures alive, as address and size. -/
def State.liveRegions (s : State) : List (Nat × Nat) :=
  (if s.ib.alloc then [(s.ib.phys.toNat, ibSize)] else []) ++
  (if s.tx.alloc then [(s.tx.base.toNat, 16 * ringSize s.tx.exp)] else []) ++
  s.tx.map.filterMap (fun m => m.map fun x => (x.phys.toNat, x.len)) ++
  (if s.rx.alloc then
    (s.rx.base.toNat, 16 * ringSize s.rx.exp) :: s.rx.buf.map (fun b => (b.phys.toNat, s.params.rxBufSize)) else [])

/-- Two regions share no byte. -/
def disjointRegions (p n q m : Nat) : Bool := decide (p + n ≤ q) || decide (q + m ≤ p)

/-- R98: an answer does not wrap and is disjoint from everything alive. -/
def State.admits (s : State) (p n : Nat) : Bool :=
  decide (p + n ≤ memTop) && s.liveRegions.all fun r => disjointRegions p n r.1 r.2

/-- What an allocation is for; the alignment duties of R94 depend on it. -/
inductive AllocUse
  | initBlock | ring | buffer
  deriving DecidableEq, Repr

/-- R94: ring bases are multiples of 16 and the Initialization Block is at a multiple of 4. A ring base that is no
multiple of 4 is let through, so that the first descriptor access records F_MISALIGNED (log 8). -/
def alignOk (u : AllocUse) (p : Nat) : Bool :=
  match u with
  | .initBlock => p % 4 == 0
  | .ring => p % 16 == 0 || p % 4 != 0
  | .buffer => true

/-- R7, R98, R243: `call alloc(size) -> (v, p)`; a failure or an answer against the duties is refused. -/
def State.allocate (s : State) (u : AllocUse) (size : Nat) : Res (Nat × Word × State) :=
  let r := s.allocAnswer
  let s' := s.takeAlloc.record (.call (.alloc size r))
  match r with
  | some (v, p) => if s.admits p.toNat size && alignOk u p.toNat then .ok (v, p, s') else .stop (.refuse .alloc) s'
  | none => .stop (.refuse .alloc) s'

/-! ### Checked DMA accesses -/

/-- R131: an address lies strictly inside a descriptor word of a live ring. -/
def cutsWord (base : Word) (e x : Nat) : Bool :=
  decide (base.toNat ≤ x) && decide (x < base.toNat + 16 * ringSize e) && (x - base.toNat) % 4 != 0

/-- R131: an access splits a descriptor word. -/
def State.splits (s : State) (a n : Nat) : Bool :=
  (s.tx.alloc && (cutsWord s.tx.base s.tx.exp a || cutsWord s.tx.base s.tx.exp (a + n))) ||
  (s.rx.alloc && (cutsWord s.rx.base s.rx.exp a || cutsWord s.rx.base s.rx.exp (a + n)))

/-- A byte access or copy: inside the address space (log 10), splitting no descriptor word (R131). -/
def State.checkBytes (s : State) (a n : Nat) : Res Unit :=
  if memTop < a + n then .stop (.refuse .outsideMemory) s
  else if s.splits a n then .stop (.refuse .alloc) s
  else .ok ()

/-- A descriptor-word access: aligned (R94, F_MISALIGNED), inside the address space (log 10). -/
def State.checkWord (s : State) (a : Nat) : Res Unit :=
  if a % 4 ≠ 0 then .stop (.fault .misaligned (.address a)) s
  else if memTop < a + 4 then .stop (.refuse .outsideMemory) s
  else .ok ()

/-- R125: a host access of `w0`, `w2` or the buffer of a slot needs OWN = 0 in the slot's `w1`. -/
def State.checkOwn (s : State) (base : Word) (i a : Nat) : Res Unit :=
  if owned (s.wordAt (slotAddr base i 1)) then .stop (.fault .ownViolation (.address a)) s else .ok ()

/-- The base of a ring. -/
def State.ringBase (s : State) : Ring → Word
  | .rx => s.rx.base
  | .tx => s.tx.base

/-- The host writes word `k` of slot `i`: 0 and 2 only while the host owns the slot (R125). An access that breaks several
rules ends by the first of alignment, address space, ownership: DESIGN CHOICE, log 41. -/
def State.hostSlotWrite (s : State) (r : Ring) (i k : Nat) (v : Word) : Res State :=
  let a := slotAddr (s.ringBase r) i k
  (s.checkWord a).bind fun _ =>
  (if k = 1 then .ok () else s.checkOwn (s.ringBase r) i a).bind fun _ =>
  .ok (s.memWrite .host a (wordBytes v))

/-- The host reads word `k` of slot `i`, under the rules and in the order of the write (DESIGN CHOICE, log 41). -/
def State.hostSlotRead (s : State) (r : Ring) (i k : Nat) : Res (Word × State) :=
  let a := slotAddr (s.ringBase r) i k
  (s.checkWord a).bind fun _ =>
  (if k = 1 then .ok () else s.checkOwn (s.ringBase r) i a).bind fun _ =>
  .ok (s.wordAt a, s.noteRead .host a 4)

/-! ### Sequencers, lock, replies -/

/-- R5, R13: the block's agents; the device runs no command. -/
def agentExists (p : Params) : Agent → Bool
  | .caller k => decide (k < p.kCallers)
  | .irq => true
  | .deferred => true
  | .device => false

/-- R43: what an agent is executing; none where it is IDLE. -/
def State.activity (s : State) (a : Agent) : Option Activity := s.tasks.lookup a

/-- R43: the agent exists and is IDLE. -/
def State.isIdle (s : State) (a : Agent) : Bool := agentExists s.params a && (s.activity a).isNone

/-- R43: set what an agent is executing. -/
def State.setActivity (s : State) (a : Agent) (x : Option Activity) : State :=
  { s with tasks := (x.toList.map fun y => (a, y)) ++ s.tasks.filter fun y => y.1 != a }

/-- R6 (a), R150: the last outcome at an agent's port. -/
def State.replyOf (s : State) (a : Agent) : Option Reply := s.replies.lookup a

/-- R150: the outcome a command returns, at the agent's port and in the history. -/
def State.giveReply (s : State) (a : Agent) (i : Instr) (r : Reply) : State :=
  { s with replies := (a, r) :: s.replies.filter fun y => y.1 != a }.record (.returned a i r)

/-- R150, D41: the number of an outcome at the command port. -/
def OutcomeCode.number : OutcomeCode → Nat
  | .ok => 0
  | .queueFull => 1
  | .deviceNotFound => 2
  | .initTimeout => 3

/-- R405, D41: the code of a fault. -/
def FaultCode.number : FaultCode → Nat
  | .noMode => 1
  | .releaseLive => 2
  | .ownViolation => 3
  | .misaligned => 4

/-- R6 (a), R150: what an agent's port shows: the number of the last outcome, and its value. -/
def State.portOutcome (s : State) (a : Agent) : Option (Nat × Half) := (s.replyOf a).map fun r => (r.code.number, r.value)

/-- R340: the lock is free. -/
def State.lockFree (s : State) : Bool := s.lockOwner.isNone

/-- R247: what the teardown commands also hold for. -/
def State.deferredQuiet (s : State) : Bool := !s.taskPending && !s.defBusy

/-! ### Counters and host frames -/

/-- R44: counters wrap modulo `2^COUNTER_WIDTH`. -/
def bump (p : Params) (c n : Nat) : Nat := (c + n) % 2 ^ p.counterWidth

/-- Update the counters. -/
def State.count (s : State) (f : Counters → Counters) : State := { s with counters := f s.counters }

/-- The bytes of a host frame (R133, R134); none where the model knows no bytes for the handle (log 17). -/
def State.frameBytes (s : State) (h : Word) : Option (List Byte) :=
  (s.hostFrames.find? fun f => f.handle == h).map HostFrame.bytes

/-- Drop a host frame. -/
def State.dropFrame (s : State) (h : Word) : State :=
  { s with hostFrames := s.hostFrames.filter fun f => f.handle != h }

/-- Place a host frame. Where the handle is live already the newer bytes replace the older ones: DESIGN CHOICE, log 33. -/
def State.putFrame (s : State) (h : Word) (bs : List Byte) : State :=
  { s with hostFrames := ⟨h, bs⟩ :: (s.dropFrame h).hostFrames }

/-- R133: the `len` bytes of a frame; a byte the model does not know is a free value (log 17). -/
def State.mappedBytes (s : State) (h : Word) (len : Nat) : List Byte :=
  (List.range len).map fun k => (((s.frameBytes h).getD [])[k]?).getD (Config.frameByte s.oracle.asked k)

/-- R133: while a frame is mapped, DMA memory holds its bytes; the mapper puts them there (log 17). -/
def State.mapBytes (s : State) (h : Word) (len : Nat) (phys : Word) : State :=
  s.store phys.toNat (s.mappedBytes h len)

/-- A `MemWrite` by the device. -/
def State.devWrite (s : State) (a : Nat) (bs : List Byte) : State := s.memWrite .device a bs

end Sys2Proof.Machine
end

