-- ==== Sys2Proof/Machine/DeviceRegs.lean ====
section
/-! DEFINITION. The register window: the device's responses to port accesses (48_device_agent.md R350 to R359, R369),
as the strategy operations make them (40_register_interface.md R170 to R174). Each is one atomic transition. -/

namespace Sys2Proof.Machine

/-- R369: the device answers this strategy. -/
def answers (p : Params) (S : Strategy) : Bool :=
  match S, p.deviceIoMode with
  | .wio, .wio => true
  | .dwio, .dwio => true
  | _, _ => false

/-- R359, R60: the device after a reset; what the spec leaves unspecified is cut from one draw `d`. -/
def Device.afterReset (d : Nat) : Device where
  state := .stopped
  latches := 0#16
  rap := BitVec.ofNat 16 d
  csr1 := BitVec.ofNat 16 (d >>> 16)
  csr2 := BitVec.ofNat 16 (d >>> 32)
  cfg :=
    { mode := BitVec.ofNat 16 (d >>> 48), rxBase := BitVec.ofNat 32 (d >>> 64), txBase := BitVec.ofNat 32 (d >>> 96),
      rxExp := BitVec.ofNat 4 (d >>> 128), txExp := BitVec.ofNat 4 (d >>> 132),
      padr := BitVec.ofNat 48 (d >>> 136), ladrf := BitVec.ofNat 64 (d >>> 184) }
  devTx := (d >>> 248) % 2 ^ 15 % 2 ^ (BitVec.ofNat 4 (d >>> 132)).toNat
  devRx := (d >>> 263) % 2 ^ (BitVec.ofNat 4 (d >>> 128)).toNat

/-- R93, R357: the port value of a 16-bit register value `v`: in DWIO the upper 16 bits are a draw. -/
def widen (S : Strategy) (v : Half) (s : State) : Word × State :=
  match S with
  | .wio => (v.setWidth 32, s)
  | .dwio => ((BitVec.ofNat 16 s.draw.1 ++ v : Word), s.draw.2)

/-- R369: a wrong-mode read returns any value, or any value whose low half is not 0x0004. -/
def wrongModeValue (p : Params) (S : Strategy) (d : Nat) : Word :=
  let v : Word := match S with
    | .wio => (BitVec.ofNat 16 d).setWidth 32
    | .dwio => BitVec.ofNat 32 d
  if p.wrongModeRead = .notStopped ∧ v.setWidth 16 = stoppedStatus then v &&& 0xFFFF0000#32 else v

/-- R357: the register RDP reaches, by RAP; none where the register is opaque (R49). -/
def csrValue (p : Params) (d : Device) : Option Half :=
  if d.rap = 0#16 then some (csr0Value p d)
  else if d.rap = 1#16 then some d.csr1
  else if d.rap = 2#16 then some d.csr2
  else none

/-- R171, R173: `IoWrite` of RAP. A wrong-mode write has no effect (R369). -/
def writeRap (S : Strategy) (i : Half) (s : State) : State :=
  let s1 := s.record (.ioWrite S.width (rapPort S s.params) (i.setWidth 32))
  if answers s.params S then { s1 with device := { s1.device with rap := i } } else s1

/-- R171, R173, R357, R369: `IoRead` of a data port, its low half (R171 discards the rest) and the next state. -/
def readData (S : Strategy) (file : RegFile) (s : State) : Half × State :=
  let port := dataPort S s.params file
  let done := fun (x : Word × State) => (x.1.setWidth 16, x.2.record (.ioRead S.width port x.1))
  if answers s.params S then
    match (match file with | .csr => csrValue s.params s.device | .bcr => none) with
    | some v => done (widen S v s)
    | none => done (widen S (BitVec.ofNat 16 s.draw.1) s.draw.2)
  else done (wrongModeValue s.params S s.draw.1, s.draw.2)

/-- R350, R356, R358: the device register a write through RDP reaches, by RAP; none where it is not modelled. -/
def csrStore (d : Device) (x : Half) : Option Device :=
  if d.rap = 0#16 then some (csr0Write d x)
  else if d.rap = 1#16 then some { d with csr1 := x }
  else if d.rap = 2#16 then some { d with csr2 := x }
  else none

/-- R172, R173, R358, R369: `IoWrite` of a data port; a write to an unmodelled register is refused (and the command's lock
is then given back, R340, log 32). -/
def writeData (S : Strategy) (file : RegFile) (x : Half) (s : State) : Res State :=
  let s1 := s.record (.ioWrite S.width (dataPort S s.params file) (x.setWidth 32))
  if answers s.params S then
    match (match file with | .csr => csrStore s1.device x | .bcr => none) with
    | some d => .ok { s1 with device := d }
    | none => .stop (.refuse .deviceUnmodelled) s1
  else .ok s1

/-- R174, R359, R369: `IoRead` of the RESET port; its value is any value, and is discarded. -/
def readReset (S : Strategy) (s : State) : State :=
  let d := s.draw.1
  let s1 := s.draw.2
  if answers s.params S then
    let v : Word := match S with
      | .wio => (BitVec.ofNat 16 d).setWidth 32
      | .dwio => BitVec.ofNat 32 d
    { s1 with device := Device.afterReset (d >>> 32) }.record (.ioRead S.width (resetPortAddr S s.params) v)
  else s1.record (.ioRead S.width (resetPortAddr S s.params) (wrongModeValue s.params S d))

end Sys2Proof.Machine
end

