-- ==== Sys2Proof/Machine/Device.lean ====
section
/-! DEFINITION. The device agent's own steps (48_device_agent.md R360 to R373): the INIT handshake, the TX poll with its
completion, RX reception with missed and oversize frames, and the causes the device raises. Each is one atomic
transition; the choices the rules leave to the device are arguments, brought into the allowed set (log 25). -/

namespace Sys2Proof.Machine

/-- Replace the device. -/
def State.withDevice (s : State) (d : Device) : State := { s with device := d }

/-- R360: the address `CSR2 << 16 | CSR1`. -/
def Device.ibAddr (d : Device) : Word := d.csr2 ++ d.csr1

/-- R360, R112: the configuration latched from the 28 bytes at `A`. -/
def latchCfg (s : State) (a : Nat) : DevCfg where
  mode := s.halfAt a
  rxExp := (s.byteAt (a + 2)).extractLsb' 4 4
  txExp := (s.byteAt (a + 3)).extractLsb' 4 4
  padr := s.byteAt (a + 9) ++ s.byteAt (a + 8) ++ s.byteAt (a + 7) ++ s.byteAt (a + 6) ++ s.byteAt (a + 5) ++ s.byteAt (a + 4)
  ladrf := s.wordAt (a + 16) ++ s.wordAt (a + 12)
  rxBase := s.wordAt (a + 20)
  txBase := s.wordAt (a + 24)

/-- R360: the INIT handshake. -/
def devInit (s : State) : Res State :=
  if s.device.state = .initialising then
    let a := s.device.ibAddr.toNat
    (s.checkBytes a ibSize).bind fun _ =>
    .ok ((s.noteRead .device a ibSize).withDevice
      { s.device.latch csr0IDON with state := .initialised, cfg := latchCfg s a, devTx := 0, devRx := 0 })
  else .ok s

/-- R55: the number of slots of each latched ring. -/
def DevCfg.txN (c : DevCfg) : Nat := ringSize c.txExp.toNat
def DevCfg.rxN (c : DevCfg) : Nat := ringSize c.rxExp.toNat

/-- R362: the `w1` of a completed TX slot: OWN cleared, ERR_D as the status says, bits 29:26 and 23:16 any value. -/
def txDoneW1 (w1 status any : Word) : Word :=
  (w1 &&& 0x0300FFFF#32) ||| (any &&& 0x3CFF0000#32) ||| (if hasBits status txErrBits then dERR else 0#32)

/-- R361: `CSR0.TDMD <- 0`. -/
def demandCleared (s : State) : State := s.withDevice { s.device with latches := s.device.latches &&& ~~~csr0TDMD }

/-- The address of word `k` of the TX slot at `dev_tx`. -/
def devTxAddr (s : State) (k : Nat) : Nat := slotAddr s.device.cfg.txBase s.device.devTx k

/-- R362: `dev_tx` and the causes of a completion; CERR in the same step where the device chooses it (R365). -/
def Device.transmitted (d : Device) (cerr : Bool) : Device :=
  { d with
    devTx := advance d.devTx d.cfg.txN,
    latches := d.latches ||| csr0TINT ||| (if cerr then csr0CERR else 0#16) }

/-- R362: complete the TX slot at `dev_tx`, whose `w1` was read: the words `w2` and then `w1`, the cursor, the causes. -/
def txComplete (w1 status any : Word) (cerr : Bool) (s : State) : Res State :=
  (s.checkWord (devTxAddr s 2)).bind fun _ =>
  let sw := (s.devWrite (devTxAddr s 2) (wordBytes status)).devWrite (devTxAddr s 1)
    (wordBytes (txDoneW1 w1 status any))
  .ok (sw.withDevice (s.device.transmitted cerr))

/-- R361: transmit the frame of the TX slot at `dev_tx`, whose `w1` was read, and complete the slot. -/
def txTransmit (w1 status any : Word) (cerr : Bool) (s : State) : Res State :=
  let b := (s.wordAt (devTxAddr s 0)).toNat
  let len := bcntLen w1
  let sb := s.noteRead .device (devTxAddr s 0) 4
  (sb.checkBytes b len).bind fun _ =>
  txComplete w1 status any cerr ((sb.noteRead .device b len).record (.wireTx (s.bytesAt b len)))

/-- R361: read `w1` of the TX slot at `dev_tx`, and transmit it where the device owns it. -/
def txSlot (status any : Word) (cerr : Bool) (s : State) : Res State :=
  (s.checkWord (devTxAddr s 1)).bind fun _ =>
  let w1 := s.wordAt (devTxAddr s 1)
  let sr := s.noteRead .device (devTxAddr s 1) 4
  if !owned w1 then .ok sr
  else if !hasBits w1 dSTP || !hasBits w1 dENP then .stop (.refuse .txFragment) sr
  else txTransmit w1 status any cerr sr

/-- R361, R362: the TX poll. -/
def devTxPoll (status any : Word) (cerr : Bool) (s : State) : Res State :=
  if s.device.state = .running then txSlot status any cerr (demandCleared s) else .ok s

/-- R363: the `w1` of a completed RX slot; `errs` chooses the error bits, `y` bits 23:16. -/
def rxDoneW1 (w1 errs y : Word) : Word :=
  (w1 &&& 0x0000FFFF#32) ||| dSTP ||| dENP ||| (errs &&& rxErrBits) |||
  (if hasBits errs rxErrBits then dERR else 0#32) ||| (y &&& 0x00FF0000#32)

/-- R363: the `w2` of a completed RX slot: MCNT, and any value in bits 31:12. -/
def rxDoneW2 (n : Nat) (x : Word) : Word := (BitVec.ofNat 32 n &&& 0x00000FFF#32) ||| (x &&& 0xFFFFF000#32)

/-- R373: a slot of an oversize frame is completed with OWN = 0 and with STP = 0, ENP = 0 or an error bit set; the
device sets ERR_D with every error bit. ERR_D alone counts as an error bit (DESIGN CHOICE, log 20). A choice that has none
of the three loses ENP (log 20, 25). -/
def oversizeW1 (v : Word) : Word :=
  let w := (v &&& ~~~dOWN) ||| (if hasBits v rxErrBits then dERR else 0#32)
  if hasBits w dERR || !hasBits w dSTP || !hasBits w dENP then w else w &&& ~~~dENP

/-- The address of word `k` of the RX slot at `dev_rx`. -/
def devRxAddr (s : State) (k : Nat) : Nat := slotAddr s.device.cfg.rxBase s.device.devRx k

/-- R363: `dev_rx` and RINT. -/
def Device.received (d : Device) : Device :=
  { d with devRx := advance d.devRx d.cfg.rxN, latches := d.latches ||| csr0RINT }

/-- R363: complete the slot at `dev_rx`: the words `w2` and then `w1`, the cursor, RINT. -/
def rxComplete (w1 w2 : Word) (s : State) : State :=
  ((s.devWrite (devRxAddr s 2) (wordBytes w2)).devWrite (devRxAddr s 1) (wordBytes w1)).withDevice s.device.received

/-- R363, R373: store bytes of a frame into the buffer of the slot at `dev_rx`, from an offset on, and complete it. -/
def rxStore (off : Nat) (bs : List Byte) (w1 w2 : Word) (s : State) : Res State :=
  let b := (s.wordAt (devRxAddr s 0)).toNat + off
  let sb := s.noteRead .device (devRxAddr s 0) 4
  (sb.checkWord (devRxAddr s 2)).bind fun _ =>
  (sb.checkBytes b bs.length).bind fun _ =>
  .ok (rxComplete w1 w2 (sb.devWrite b bs))

/-- R373: one slot of an oversize frame; the bytes stay within the slot's buffer. They are one run of it, stored in one
write: DESIGN CHOICE, log 20. -/
def oversizeOne (o : OversizeSlot) (w1 : Word) (s : State) : Res State :=
  let off := min o.offset (bcntLen w1)
  rxStore off (o.bytes.take (bcntLen w1 - off)) (oversizeW1 o.w1) o.w2 s

/-- R373: further consecutive slots while the device owns them (R370). -/
def oversizeMore : List OversizeSlot → State → Res State
  | [], s => .ok s
  | o :: os, s =>
    (s.checkWord (devRxAddr s 1)).bind fun _ =>
    let w1 := s.wordAt (devRxAddr s 1)
    let sr := s.noteRead .device (devRxAddr s 1) 4
    if owned w1 then (oversizeOne o w1 sr).bind (oversizeMore os) else .ok sr

/-- R373: an oversize frame takes the slot at `dev_rx`, and the further ones the device chooses. -/
def rxOversize (w1 : Word) (oversize : List OversizeSlot) (s : State) : Res State :=
  (oversizeOne (oversize.headD ⟨0, [], 0#32, 0#32⟩) w1 s).bind (oversizeMore oversize.tail)

/-- R363, R364, R373: reception where `w1` of the slot at `dev_rx` was read. -/
def rxFrame (frame : List Byte) (fcs errs x y : Word) (oversize : List OversizeSlot) (w1 : Word) (s : State) :
    Res State :=
  if !owned w1 then .ok (s.withDevice (s.device.latch csr0MISS))
  else
    (if frame.length + 4 ≤ bcntLen w1 then
      rxStore 0 (frame ++ wordBytes fcs) (rxDoneW1 w1 errs y) (rxDoneW2 (frame.length + 4) x) s
     else rxOversize w1 oversize s).bind fun t => .ok (t.record (.wireRx frame))

/-- R363, R364, R373: reception of a frame of at least one byte. -/
def devReceive (frame : List Byte) (fcs errs x y : Word) (oversize : List OversizeSlot) (s : State) : Res State :=
  if s.device.state = .running ∧ 1 ≤ frame.length then
    (s.checkWord (devRxAddr s 1)).bind fun _ =>
    rxFrame frame fcs errs x y oversize (s.wordAt (devRxAddr s 1)) (s.noteRead .device (devRxAddr s 1) 4)
  else .ok s

/-- R365, R366: the device raises a cause by a step of its own, in RUNNING. -/
def devCause (b : Half) (s : State) : Res State :=
  if s.device.state = .running then .ok (s.withDevice (s.device.latch b)) else .ok s

/-- R360 to R373: one device step; a step whose condition does not hold changes nothing (R368, R374). -/
def deviceStep (d : DeviceStep) (s : State) : Res State :=
  match d with
  | .init => devInit s
  | .txPoll status any cerr => devTxPoll status any cerr s
  | .receive frame fcs errs x y oversize => devReceive frame fcs errs x y oversize s
  | .cerr => devCause csr0CERR s
  | .babl => devCause csr0BABL s
  | .merr => devCause csr0MERR s

end Sys2Proof.Machine
end

