-- ==== Sys2Proof/Machine/RegisterBody.lean ====
section
/-! DEFINITION. Register windowed access, the sequences of primitives: the strategy operations (40_register_interface.md
R171 to R175) and the bodies of the five raw register commands (R180 to R184), from just after their `acquire`. -/

namespace Sys2Proof.Machine

/-- R171: `csr_read(i)`, and what to do with the value. -/
def csrRead (via : Via) (i : Half) (k : OnRead) : List Prim := [.rap via i, .dataGet via .csr k]

/-- R172: `csr_write(i, x)`. -/
def csrWrite (via : Via) (i x : Half) : List Prim := [.rap via i, .dataPut via .csr x]

/-- R173: `bcr_read(i)`. -/
def bcrRead (via : Via) (i : Half) (k : OnRead) : List Prim := [.rap via i, .dataGet via .bcr k]

/-- R173: `bcr_write(i, x)`. -/
def bcrWrite (via : Via) (i x : Half) : List Prim := [.rap via i, .dataPut via .bcr x]

/-- `release; return (code, v)`. -/
def releaseReturn (code : OutcomeCode) (v : Half) : List Prim := [.release, .quiet (.ret code v)]

/-- `release; refuse(reason)`. -/
def releaseRefuse (r : RefusalReason) : List Prim := [.release, .quiet (.refuse r)]

/-- `if mode = NONE: release; raise F_NO_MODE(command)`, else the body. -/
def rawBody (i : Instr) (s : State) (body : List Prim) : List Prim :=
  if s.mode = .none then [.release, .quiet (.raise .noMode (.command i))] else body

/-- R180. -/
def rdcsrBody (idx : Half) (s : State) : State × List Prim := (s, rawBody (.rdcsr idx) s (csrRead .bound idx .reply))

/-- R181. -/
def wrcsrBody (idx val : Half) (s : State) : State × List Prim :=
  (s, rawBody (.wrcsr idx val) s (csrWrite .bound idx val ++ releaseReturn .ok 0#16))

/-- R182. -/
def rdbcrBody (idx : Half) (s : State) : State × List Prim := (s, rawBody (.rdbcr idx) s (bcrRead .bound idx .reply))

/-- R183. -/
def wrbcrBody (idx val : Half) (s : State) : State × List Prim :=
  (s, rawBody (.wrbcr idx val) s (bcrWrite .bound idx val ++ releaseReturn .ok 0#16))

/-- R184. -/
def rresetBody (s : State) : State × List Prim :=
  (s, rawBody .rreset s (.resetPort .bound :: releaseReturn .ok 0#16))

end Sys2Proof.Machine
end

