-- ==== Sys2Proof/Machine/RingBody.lean ====
section
/-! DEFINITION. Ring lifecycle (42_ring.md): the bodies of RALLOC and RFREE, and `ring_allocate` and `ring_release`,
which OPEN and DETACH also run. -/

namespace Sys2Proof.Machine

/-- R210, R230, R240, R245: the lifecycle states these commands have a rule for. -/
def State.attachedOrClosed (s : State) : Bool := s.lifecycle = .attached || s.lifecycle = .closed

/-- The ring is allocated. -/
def State.ringAlloc (s : State) : Ring → Bool
  | .rx => s.rx.alloc
  | .tx => s.tx.alloc

/-- R240. -/
def rallocBody (r : Ring) (e : Nat) (s : State) : State × List Prim :=
  (s,
    if !s.attachedOrClosed then releaseRefuse .lifecycle
    else if e < 1 ∨ s.params.maxLenExp < e then releaseRefuse .operand
    else if s.ringAlloc r then releaseRefuse .lifecycle
    else .allocRing r e :: releaseReturn .ok 0#16)

/-- R245. -/
def rfreeBody (r : Ring) (s : State) : State × List Prim :=
  (s,
    if !s.attachedOrClosed then releaseRefuse .lifecycle
    else if !s.ringAlloc r then releaseRefuse .lifecycle
    else .quiet (.releaseRing r) :: releaseReturn .ok 0#16)

/-- R241, after `alloc(16*N) -> (v, p)`: the zero writes, the registers, and for RX the buffers. -/
def ringMakeSteps (r : Ring) (e v : Nat) (p : Word) : List Prim :=
  (List.range (4 * ringSize e)).map (fun k => Prim.zeroWord (p.toNat + 4 * k)) ++
  [.quiet (.ringMade r e v p)] ++
  (match r with | .rx => List.replicate (ringSize e) Prim.allocBuf | .tx => [])

/-- R241: the registers of the new ring. For RX the array `rx_buf` is emptied here and grows by one entry at each `alloc`
of a buffer; R241 does not say what an entry holds before its own: DESIGN CHOICE, log 43. -/
def ringMade (r : Ring) (e v : Nat) (p : Word) (s : State) : State :=
  match r with
  | .tx => { s with tx := ⟨true, e, p, v, 0, 0, 0, List.replicate (ringSize e) none⟩ }
  | .rx => { s with rx := ⟨true, e, p, v, 0, []⟩ }

/-- R246: the steps of `ring_release` once the device is known to be stopped. R246 gives no order among the in-flight TX
frames; here they go by ascending slot number: DESIGN CHOICE, log 34. -/
def ringReleaseSteps (r : Ring) (s : State) : List Prim :=
  match r with
  | .rx =>
    s.rx.buf.map (fun b => Prim.free b.vptr b.phys s.params.rxBufSize) ++
    [.free s.rx.vptr s.rx.base (16 * ringSize s.rx.exp), .quiet (.ringFreed .rx)]
  | .tx =>
    s.tx.map.zipIdx.flatMap (fun x =>
      match x.1 with
      | some m => [Prim.unmap m.phys m.len, .releaseFrame m.handle, .quiet (.txUnmapped x.2)]
      | none => []) ++
    [.free s.tx.vptr s.tx.base (16 * ringSize s.tx.exp), .quiet (.ringFreed .tx)]

/-- R246: the registers after `ring_release`. R246 and R440 leave the cursors, so with frames in flight the released TX
ring need not meet R34: DESIGN CHOICE, log 40. -/
def ringFreed (r : Ring) (s : State) : State :=
  match r with
  | .rx => { s with rx := { s.rx with alloc := false } }
  | .tx => { s with tx := { s.tx with alloc := false, count := 0 } }

end Sys2Proof.Machine
end

