-- ==== Sys2Proof/Machine/LifecycleBody.lean ====
section
/-! DEFINITION. Attach, bring-up, close, detach (41_lifecycle.md): the bodies of ATTACH, OPEN, CLOSE and DETACH from
just after their `acquire`. -/

namespace Sys2Proof.Machine

/-- R200: one attempt of the mode probe. -/
def probeSteps (S : Strategy) : List Prim := .resetPort (.forced S) :: csrRead (.forced S) 0#16 (.probe S)

/-- R200. -/
def attachBody (s : State) : State × List Prim :=
  (s, if s.lifecycle ≠ .detached then releaseRefuse .lifecycle else probeSteps .wio)

/-- R201: attach completion. -/
def attachedSteps : List Prim :=
  .allocIb :: (List.range 7).map Prim.zeroIb ++ .quiet .attachDone :: releaseReturn .ok 0#16

/-- R200: what the probe does with the status it read. -/
def probed (S : Strategy) (v : Half) (s : State) : State × List Prim :=
  if v = stoppedStatus then ({ s with mode := S.toMode }, attachedSteps)
  else match S with
    | .wio => (s, probeSteps .dwio)
    | .dwio => (s, releaseReturn .deviceNotFound 0#16)

/-- R201: the counters and the lifecycle. -/
def attachDone (s : State) : State := { s with counters := Counters.zero, lifecycle := .attached }

/-- R210 to R217: the bring-up handshake. -/
def openBody (mac : BitVec 48) (s : State) : State × List Prim :=
  if !s.attachedOrClosed then (s, releaseRefuse .lifecycle)
  else
    ({ s with lifecycle := .opening },
      [.resetPort .bound] ++
      (if s.rx.alloc then [.quiet (.releaseRing .rx)] else []) ++
      (if s.tx.alloc then [.quiet (.releaseRing .tx)] else []) ++
      [.allocRing .rx s.params.rxLenExp, .allocRing .tx s.params.txLenExp,
       .quiet .armRx, .quiet (.fillIb mac), .quiet .loadAddress] ++
      csrWrite .bound 0#16 csr0INIT ++
      [.quiet (.poll s.params.initPollBudget)])

/-- R211: arm every RX slot. -/
def armSteps (s : State) : List Prim :=
  s.rx.buf.zipIdx.flatMap fun x =>
    [.slotPut .rx x.2 0 x.1.phys, .slotPut .rx x.2 2 0#32, .quiet .fenceW,
     .slotPut .rx x.2 1 (rxArmWord s.params.rxBufSize)]

/-- R212: the Initialization Block writes. -/
def fillIbSteps (mac : BitVec 48) (s : State) : List Prim :=
  (ibFields s.params.initMode s.rx.exp s.tx.exp mac s.rx.base s.tx.base).map fun f => .ibPut f.1 f.2

/-- R214: low 16 bits to CSR1, then high 16 bits to CSR2. -/
def loadAddressSteps (s : State) : List Prim :=
  csrWrite .bound 1#16 (s.ib.phys.extractLsb' 0 16) ++ csrWrite .bound 2#16 (s.ib.phys.extractLsb' 16 16)

/-- R216. -/
def startSteps : List Prim :=
  csrWrite .bound 0#16 (csr0STRT ||| csr0IENA) ++ .quiet .started :: releaseReturn .ok 0#16

/-- R217. -/
def timeoutSteps : List Prim :=
  csrWrite .bound 0#16 csr0STOP ++ .quiet .timedOut :: releaseReturn .initTimeout 0#16

/-- R215: one more poll, or the timeout. -/
def pollSteps (left : Nat) : List Prim :=
  match left with
  | 0 => timeoutSteps
  | n + 1 => csrRead .bound 0#16 (.poll n)

/-- R215: the IDON test. -/
def polled (left : Nat) (v : Half) : List Prim :=
  if bitSet v csr0IDON then startSteps else pollSteps left

/-- R216: the registers at START. `queue_stopped` is cleared with no `wake_queue`, as R216 and R440 say, although R463 says
that the two calls alternate: DESIGN CHOICE, log 36. -/
def started (s : State) : State := { s with ienaShadow := true, queueStopped := false, lifecycle := .running }

/-- R217, R220: the registers after a STOP write. -/
def stoppedClosed (s : State) : State := { s with ienaShadow := false, lifecycle := .closed }

/-- R220. -/
def closeBody (s : State) : State × List Prim :=
  (s, if s.lifecycle ≠ .running then releaseReturn .ok 0#16
      else csrWrite .bound 0#16 csr0STOP ++ .quiet .closed :: releaseReturn .ok 0#16)

/-- R230. -/
def detachBody (s : State) : State × List Prim :=
  (s, if !s.attachedOrClosed then releaseRefuse .lifecycle
      else
        (if s.rx.alloc then [.quiet (.releaseRing .rx)] else []) ++
        (if s.tx.alloc then [.quiet (.releaseRing .tx)] else []) ++
        [.freeIb, .quiet .detached] ++ releaseReturn .ok 0#16)

/-- R230: the registers after DETACH. `queue_stopped` stays, as in R230 and R440's DETACH column, although R447 speaks of
the power-on state: DESIGN CHOICE, log 35. -/
def detached (s : State) : State :=
  { s with ib := { s.ib with alloc := false }, mode := .none, lifecycle := .detached }

end Sys2Proof.Machine
end

