-- ==== Sys2Proof/Machine/TransmitBody.lean ====
section
/-! DEFINITION. The transmit enqueue and reclaim engine (43_transmit.md): the bodies of XMIT and RECLAIM. -/

namespace Sys2Proof.Machine

/-- R265: the lengths XMIT accepts. -/
def xmitLenOk (p : Params) (len : Nat) : Bool := decide (1 ≤ len ∧ len ≤ p.maxTxLen)

/-- R260, R263, R264: XMIT from just after its `acquire`. -/
def xmitBody (addr : Word) (len : Nat) (s : State) : State × List Prim :=
  (s,
    if s.lifecycle ≠ .running then releaseReturn .queueFull 0#16
    else if s.tx.count = ringSize s.tx.exp then
      (if s.queueStopped then [] else [.stopQueue]) ++ releaseReturn .queueFull 0#16
    else [.mapFrame addr len])

/-- R262: the slot write and publish, then R260's cursor and count, then R261's demand. -/
def publishSteps (i len : Nat) (phys : Word) : List Prim :=
  [.slotPut .tx i 0 phys, .slotPut .tx i 2 0#32, .quiet .fenceW, .slotPut .tx i 1 (txPublishWord len),
   .quiet .enqueued, .quiet .demand]

/-- R260: `tx_map[i] <- m`. -/
def State.setTxMap (s : State) (i : Nat) (m : Option TxMapping) : State :=
  { s with tx := { s.tx with map := s.tx.map.set i m } }

/-- R260: `tx_current <- (i + 1) mod N_tx; tx_count <- tx_count + 1`. -/
def enqueued (s : State) : State :=
  { s with tx := { s.tx with current := advance s.tx.current (ringSize s.tx.exp), count := s.tx.count + 1 } }

/-- R261: the transmit demand, then the end of XMIT. -/
def demandSteps (s : State) : List Prim :=
  csrWrite .bound 0#16 (demandValue s.ienaShadow) ++ releaseReturn .ok 0#16

/-- R270: RECLAIM from just after its `acquire`. -/
def reclaimBody (s : State) : State × List Prim :=
  (s, (if s.lifecycle = .running then [.quiet .reclaimLoop] else []) ++
      [.release, .quiet .defIdle, .quiet (.ret .ok 0#16)])

/-- R270: the loop test of `reclaim_body`, and its first read. -/
def reclaimLoopSteps (s : State) : List Prim :=
  if 0 < s.tx.count then [.slotGet .tx s.tx.last 1 (.reclaimOwn s.tx.last)] else []

/-- R270: the OWN test. -/
def reclaimOwnSteps (i : Nat) (w1 : Word) : List Prim :=
  if owned w1 then [] else [.quiet .fenceR, .slotGet .tx i 2 (.reclaimStatus i w1)]

/-- R270: unmap and release the frame of slot `i`, count it, advance, and loop. An EMPTY map entry for an in-flight
slot is what R35 rules out (log 12). -/
def reclaimStatusSteps (i : Nat) (w1 w2 : Word) (s : State) : List Prim :=
  match s.tx.map[i]? with
  | some (some m) =>
    [.unmap m.phys m.len, .releaseFrame m.handle, .quiet (.reclaimed i w1 w2 m.len), .quiet .reclaimLoop]
  | _ => [.quiet (.refuse .ringState)]

/-- R271: the TX counters of one reclaimed slot. -/
def countTx (p : Params) (w1 w2 : Word) (len : Nat) (c : Counters) : Counters :=
  if txErr w1 w2 then { c with txErrors := bump p c.txErrors 1 }
  else { c with txPackets := bump p c.txPackets 1, txBytes := bump p c.txBytes len }

/-- R270, R271: the end of one iteration of `reclaim_body`. -/
def reclaimed (i : Nat) (w1 w2 : Word) (len : Nat) (s : State) : State :=
  let s1 := s.count (countTx s.params w1 w2 len)
  { s1 with
    tx := { s1.tx with
      map := s1.tx.map.set i none, last := advance i (ringSize s1.tx.exp), count := s1.tx.count - 1 } }

end Sys2Proof.Machine
end

