-- ==== Sys2Proof/Machine/ReceiveBody.lean ====
section
/-! DEFINITION. The receive drain engine (44_receive.md): `drain_body`, which DRAIN and DTASK run. -/

namespace Sys2Proof.Machine

/-- R290, R330: `if lifecycle = RUNNING: drain_body()`. -/
def drainStartSteps (s : State) : List Prim :=
  if s.lifecycle = .running then [.quiet (.drainLoop (ringSize s.rx.exp))] else []

/-- R290, R294: the loop test of `drain_body`, and its first read; `left` slots may still be taken. -/
def drainLoopSteps (left : Nat) (s : State) : List Prim :=
  match left with
  | 0 => []
  | n + 1 => [.slotGet .rx s.rx.current 1 (.drainOwn n s.rx.current)]

/-- R290: the OWN test. -/
def drainOwnSteps (left i : Nat) (w1 : Word) : List Prim :=
  if owned w1 then [] else [.quiet .fenceR, .slotGet .rx i 2 (.drainStatus left i w1)]

/-- R293, R290: re-arm slot `i`, advance, loop. -/
def rearmSteps (left i : Nat) (s : State) : List Prim :=
  [.slotPut .rx i 2 0#32, .quiet .fenceW, .slotPut .rx i 1 (rxArmWord s.params.rxBufSize),
   .quiet (.rxAdvance i), .quiet (.drainLoop left)]

/-- R291: classification of a completed slot. -/
def drainStatus (left i : Nat) (w1 w2 : Word) (s : State) : State × List Prim :=
  if rxBad s.params.rxBufSize w1 w2 then
    (s.count fun c => { c with rxErrors := bump s.params c.rxErrors 1 }, rearmSteps left i s)
  else (s, .allocFrame i (mcnt w2 - 4) :: rearmSteps left i s)

/-- R291, R295: what follows the answer of `alloc_frame`; the copy goes on with its `deliver`. -/
def frameAllocated (i len : Nat) (r : Option Word) (s : State) : State × List Prim :=
  match r with
  | some h => (s, [.copyFrame i len h, .quiet (.rxDelivered len)])
  | none => (s.count fun c => { c with rxDropped := bump s.params c.rxDropped 1 }, [])

/-- R291, R292: the counters of a delivered frame. -/
def rxDelivered (len : Nat) (s : State) : State :=
  s.count fun c => { c with rxPackets := bump s.params c.rxPackets 1, rxBytes := bump s.params c.rxBytes len }

/-- R290: `rx_current <- (i + 1) mod N_rx`. -/
def rxAdvance (i : Nat) (s : State) : State :=
  { s with rx := { s.rx with current := advance i (ringSize s.rx.exp) } }

end Sys2Proof.Machine
end

