-- ==== Sys2Proof/Machine/InterruptBody.lean ====
section
/-! DEFINITION. The interrupt-driven state machine (45_interrupt.md): the bodies of IRQ and DTASK. -/

namespace Sys2Proof.Machine

/-- R320, R323. -/
def irqBody (s : State) : State × List Prim :=
  (s, if s.lifecycle ≠ .running then releaseReturn .ok 0#16
      else csrRead .bound 0#16 (.status false false))

/-- R321: the value written back. -/
def ackValue (p : Params) (v : Half) : Half := v &&& ~~~p.ackClearMask

/-- R320, R322: the handler's loop test on a status word, and the re-enable at its end. -/
def statusSteps (ran deferred : Bool) (v : Half) (s : State) : List Prim :=
  if bitSet v csr0INTR then
    csrWrite .bound 0#16 (ackValue s.params v) ++ [.quiet (.acked v deferred)]
  else
    (if ran ∧ !deferred then csrWrite .bound 0#16 csr0IENA ++ [.quiet .reenabled] else []) ++ releaseReturn .ok 0#16

/-- R320, R326: the counters of one loop iteration. -/
def countCauses (p : Params) (v : Half) (c : Counters) : Counters :=
  { c with
    collisions := if bitSet v csr0CERR then bump p c.collisions 1 else c.collisions,
    missedFrames := if bitSet v csr0MISS then bump p c.missedFrames 1 else c.missedFrames }

/-- R320: a completion cause. -/
def completion (v : Half) : Bool := bitSet v csr0RINT || bitSet v csr0TINT

/-- R320, R321, R324: after the acknowledgement of status `v`. -/
def acked (v : Half) (deferred : Bool) (s : State) : State × List Prim :=
  ({ s.count (countCauses s.params v) with ienaShadow := false, taskPending := s.taskPending || completion v },
    csrRead .bound 0#16 (.status true (deferred || completion v)))

/-- R330, R333: DTASK's locked section. -/
def dtaskBody (s : State) : State × List Prim :=
  (s, (if s.lifecycle = .running then [.quiet .reclaimLoop, .quiet .wake] else []) ++
      .quiet .taskDone :: releaseReturn .ok 0#16)

/-- R331: wake the queue where it was stopped and there is room, then re-enable interrupts. -/
def wakeSteps (s : State) : List Prim :=
  (if s.queueStopped ∧ s.tx.count < ringSize s.tx.exp then [.wakeQueue] else []) ++
  csrWrite .bound 0#16 csr0IENA ++ [.quiet .reenabled]

/-- R332, R334. -/
def taskDone (s : State) : State := { s with taskPending := false, defBusy := false }

end Sys2Proof.Machine
end

