-- ==== Sys2Proof/Machine/Sequencer.lean ====
section
/-! DEFINITION. The sequencer: what each primitive of the pseudocode does (00_scope.md R16, R17), one atomic transition
of an agent (R18), the environment's moves between two transitions, and running an agent's command to its end. -/

namespace Sys2Proof.Machine

/-- R142, R143: the primitives a command starts with: most start by acquiring the lock; the deferred agent's commands
first mark it busy (R334), a register update that R18 merges into the step after it, and DRAIN takes no lock (R342). -/
def script : Instr → List Prim
  | .rdcsr _ => [.acquire]
  | .wrcsr _ _ => [.acquire]
  | .rdbcr _ => [.acquire]
  | .wrbcr _ _ => [.acquire]
  | .rreset => [.acquire]
  | .attach => [.acquire]
  | .openDev _ => [.acquire]
  | .close => [.acquire]
  | .detach => [.acquire]
  | .ralloc _ _ => [.acquire]
  | .rfree _ => [.acquire]
  | .xmit _ _ => [.acquire]
  | .reclaim => [.quiet .defBegin, .acquire]
  | .drain => [.quiet .defBegin, .quiet .drainStart, .quiet .defIdle, .quiet (.ret .ok 0#16)]
  | .irq => [.acquire]
  | .dtask => [.quiet .defBegin, .quiet .drainStart, .acquire]

/-- The pseudocode of each command from just after its `acquire`, merged into that transition (R18). DRAIN has none. -/
def afterAcquire (i : Instr) (s : State) : State × List Prim :=
  match i with
  | .rdcsr idx => rdcsrBody idx s
  | .wrcsr idx val => wrcsrBody idx val s
  | .rdbcr idx => rdbcrBody idx s
  | .wrbcr idx val => wrbcrBody idx val s
  | .rreset => rresetBody s
  | .attach => attachBody s
  | .openDev mac => openBody mac s
  | .close => closeBody s
  | .detach => detachBody s
  | .ralloc r e => rallocBody r e s
  | .rfree r => rfreeBody r s
  | .xmit addr len => xmitBody addr len s
  | .reclaim => reclaimBody s
  | .drain => (s, [])
  | .irq => irqBody s
  | .dtask => dtaskBody s

/-- R210, R230, R245, R247: the commands that tear rings down also hold for the deferred agent. -/
def teardown : Instr → Bool
  | .rdcsr _ => false
  | .wrcsr _ _ => false
  | .rdbcr _ => false
  | .wrbcr _ _ => false
  | .rreset => false
  | .attach => false
  | .openDev _ => true
  | .close => false
  | .detach => true
  | .ralloc _ _ => false
  | .rfree _ => true
  | .xmit _ _ => false
  | .reclaim => false
  | .drain => false
  | .irq => false
  | .dtask => false

/-- R260, R265: XMIT checks its length before it holds for the lock. -/
def operandOk (p : Params) : Instr → Bool
  | .rdcsr _ => true
  | .wrcsr _ _ => true
  | .rdbcr _ => true
  | .wrbcr _ _ => true
  | .rreset => true
  | .attach => true
  | .openDev _ => true
  | .close => true
  | .detach => true
  | .ralloc _ _ => true
  | .rfree _ => true
  | .xmit _ len => xmitLenOk p len
  | .reclaim => true
  | .drain => true
  | .irq => true
  | .dtask => true

/-- R16 `hold until`: the predicate of a command's `acquire`. -/
def acquirable (i : Instr) (s : State) : Bool := s.lockFree && (!teardown i || s.deferredQuiet)

/-- A quiet primitive: register updates and branches, with the primitives it expands to. -/
def quietStep (a : Agent) (i : Instr) (q : Quiet) (s : State) : Res (State × List Prim) :=
  match q with
  | .ret code v => .ok (s.giveReply a i ⟨code, v⟩, [])
  | .refuse r => .stop (.refuse r) s
  | .raise c info => .stop (.fault c info) s
  | .fenceW => .ok (s.record .fenceW, [])
  | .fenceR => .ok (s.record .fenceR, [])
  | .attachDone => .ok (attachDone s, [])
  | .releaseRing r =>
    if s.device.state = .stopped then .ok (s, ringReleaseSteps r s) else .stop (.fault .releaseLive (.ring r)) s
  | .txUnmapped k => .ok (s.setTxMap k none, [])
  | .ringFreed r => .ok (ringFreed r s, [])
  | .ringMade r e v p => .ok (ringMade r e v p s, [])
  | .armRx => .ok (s, armSteps s)
  | .fillIb mac => .ok ({ s with station := mac }, fillIbSteps mac s)
  | .loadAddress => .ok (s, loadAddressSteps s)
  | .poll left => .ok (s, pollSteps left)
  | .started => .ok (started s, [])
  | .timedOut => .ok (stoppedClosed s, [])
  | .closed => .ok (stoppedClosed s, [])
  | .detached => .ok (detached s, [])
  | .enqueued => .ok (enqueued s, [])
  | .demand => .ok (s, demandSteps s)
  | .reclaimLoop => .ok (s, reclaimLoopSteps s)
  | .reclaimed k w1 w2 len => .ok (reclaimed k w1 w2 len s, [])
  | .drainStart => .ok (s, drainStartSteps s)
  | .drainLoop left => .ok (s, drainLoopSteps left s)
  | .rxDelivered len => .ok (rxDelivered len s, [])
  | .rxAdvance k => .ok (rxAdvance k s, [])
  | .acked v deferred => .ok (acked v deferred s)
  | .reenabled => .ok ({ s with ienaShadow := true }, [])
  | .wake => .ok (s, wakeSteps s)
  | .taskDone => .ok (taskDone s, [])
  | .defBegin => .ok ({ s with defBusy := true }, [])
  | .defIdle => .ok ({ s with defBusy := false }, [])

/-- What a command does with a register value. -/
def onRead (k : OnRead) (v : Half) (s : State) : State × List Prim :=
  match k with
  | .reply => (s, releaseReturn .ok v)
  | .probe S => probed S v s
  | .poll left => (s, polled left v)
  | .status ran deferred => (s, statusSteps ran deferred v s)

/-- What a command does with a descriptor word. -/
def onWord (k : OnWord) (w : Word) (s : State) : State × List Prim :=
  match k with
  | .reclaimOwn i => (s, reclaimOwnSteps i w)
  | .reclaimStatus i w1 => (s, reclaimStatusSteps i w1 w s)
  | .drainOwn left i => (s, drainOwnSteps left i w)
  | .drainStatus left i w1 => drainStatus left i w1 w s

/-- R175: run a strategy operation, or fault F_NO_MODE with no I/O. -/
def withStrategy (via : Via) (i : Instr) (s : State) (f : Strategy → Res (State × List Prim)) :
    Res (State × List Prim) :=
  match via.resolve s.mode with
  | some S => f S
  | none => .stop (.fault .noMode (.command i)) s

/-- R24: a collaborator call with no answer. -/
def callStep (c : Call) (s : State) : Res (State × List Prim) := .ok (s.record (.call c), [])

/-- R340: take the lock and go on with the body; XMIT's length check comes first (R260). -/
def acquireStep (a : Agent) (i : Instr) (s : State) : Res (State × List Prim) :=
  if operandOk s.params i then .ok (afterAcquire i { s with lockOwner := some a })
  else .stop (.refuse .operand) s

/-- R201: `call alloc(28)` and the Initialization Block registers. -/
def allocIbStep (s : State) : Res (State × List Prim) :=
  (s.allocate .initBlock ibSize).bind fun r => .ok ({ r.2.2 with ib := ⟨true, r.1, r.2.1⟩ }, [])

/-- A byte-checked host `MemWrite`. -/
def hostBytesStep (a : Nat) (bs : List Byte) (s : State) : Res (State × List Prim) :=
  (s.checkBytes a bs.length).bind fun _ => .ok (s.memWrite .host a bs, [])

/-- R241: one zero write of a ring being made; the ring is no slot of the host's or the device's yet. -/
def zeroWordStep (a : Nat) (s : State) : Res (State × List Prim) :=
  (s.checkWord a).bind fun _ => .ok (s.memWrite .host a (wordBytes 0#32), [])

/-- R241: `call alloc(16*N) -> (v, p)`. -/
def allocRingStep (r : Ring) (e : Nat) (s : State) : Res (State × List Prim) :=
  (s.allocate .ring (16 * ringSize e)).bind fun x => .ok (x.2.2, ringMakeSteps r e x.1 x.2.1)

/-- R241: `call alloc(RX_BUF_SIZE) -> (bv, bp); rx_buf[i] <- (bv, bp)`. -/
def allocBufStep (s : State) : Res (State × List Prim) :=
  (s.allocate .buffer s.params.rxBufSize).bind fun x =>
    .ok ({ x.2.2 with rx := { x.2.2.rx with buf := x.2.2.rx.buf ++ [⟨x.1, x.2.1⟩] } }, [])

/-- R260, R133: `call map_for_device(addr, len, TO_DEVICE) -> phys; tx_map[i] <- (phys, len, addr)`, then the publish.
An answer against the duties of R98 is refused (log 9). -/
def mapFrameStep (addr : Word) (len : Nat) (s : State) : Res (State × List Prim) :=
  let phys := s.mapAnswer
  let s1 := s.takeMap.record (.call (.mapForDevice addr len .toDevice phys))
  if s.admits phys.toNat len then
    .ok ((s1.mapBytes addr len phys).setTxMap s.tx.current (some ⟨phys, len, addr⟩),
      publishSteps s.tx.current len phys)
  else .stop (.refuse .alloc) s1

/-- R291: `call alloc_frame(len) -> f`. -/
def allocFrameStep (i len : Nat) (s : State) : Res (State × List Prim) :=
  let r := s.frameAnswer
  .ok (frameAllocated i len r (s.takeFrame.record (.call (.allocFrame len r))))

/-- R291, R134, R125: the copy of slot `i`'s buffer into the frame `h`, which is delivered with the bytes copied. An RX
ring with no such buffer is what R36 rules out (log 12). A copy that breaks several rules ends by the first of address
space, split, ownership: DESIGN CHOICE, log 41. -/
def copyFrameStep (i len : Nat) (h : Word) (s : State) : Res (State × List Prim) :=
  match s.rx.buf[i]? with
  | some b =>
    (s.checkBytes b.phys.toNat len).bind fun _ =>
    (s.checkOwn s.rx.base i b.phys.toNat).bind fun _ =>
    let bytes := s.bytesAt b.phys.toNat len
    .ok ((s.noteRead .host b.phys.toNat len).putFrame h bytes, [.deliver h bytes])
  | none => .stop (.refuse .ringState) s

/-- R291, R134: `call deliver(f)`: the frame passes to the sink, with the bytes that were copied into it. -/
def deliverStep (h : Word) (bytes : List Byte) (s : State) : Res (State × List Prim) :=
  callStep (.deliver h bytes) (s.dropFrame h)

/-- What each primitive does, with the primitives that come before the rest of the command. -/
def perform (a : Agent) (i : Instr) (p : Prim) (s : State) : Res (State × List Prim) :=
  match p with
  | .acquire => acquireStep a i s
  | .release => .ok ({ s with lockOwner := none }, [])
  | .rap via idx => withStrategy via i s fun S => .ok (writeRap S idx s, [])
  | .dataGet via file k =>
    withStrategy via i s fun S => .ok (onRead k (readData S file s).1 (readData S file s).2)
  | .dataPut via file x => withStrategy via i s fun S => (writeData S file x s).bind fun s' => .ok (s', [])
  | .resetPort via => withStrategy via i s fun S => .ok (readReset S s, [])
  | .allocIb => allocIbStep s
  | .zeroIb k => hostBytesStep (s.ib.phys.toNat + 4 * k) (wordBytes 0#32) s
  | .ibPut off bs => hostBytesStep (s.ib.phys.toNat + off) bs s
  | .freeIb => callStep (.free s.ib.vptr s.ib.phys ibSize) s
  | .allocRing r e => allocRingStep r e s
  | .zeroWord x => zeroWordStep x s
  | .allocBuf => allocBufStep s
  | .free v x size => callStep (.free v x size) s
  | .slotPut r k word v => (s.hostSlotWrite r k word v).bind fun s' => .ok (s', [])
  | .slotGet r k word c => (s.hostSlotRead r k word).bind fun x => .ok (onWord c x.1 x.2)
  | .mapFrame addr len => mapFrameStep addr len s
  | .unmap phys len => callStep (.unmap phys len .toDevice) s
  | .releaseFrame h => callStep (.releaseFrame h) (s.dropFrame h)
  | .stopQueue => callStep .stopQueue { s with queueStopped := true }
  | .wakeQueue => callStep .wakeQueue { s with queueStopped := false }
  | .allocFrame k len => allocFrameStep k len s
  | .copyFrame k len h => copyFrameStep k len h s
  | .deliver h bytes => deliverStep h bytes s
  | .quiet q => quietStep a i q s

/-- R18: a row of quiet primitives, which is merged into the transition it follows, or at the start of a command into the
one that follows it. At most `n` of them: more than any command has in a row, and a rest would only be merged into the
next transition. -/
def settle : Nat → Agent → Instr → List Prim → State → Res (State × List Prim)
  | n + 1, a, i, .quiet q :: rest, s =>
    (quietStep a i q s).bind fun x => settle n a i (x.2 ++ rest) x.1
  | _, _, _, todo, s => .ok (s, todo)

/-- More quiet primitives than any command has in a row. -/
def settleDepth : Nat := 8

/-- R43: the rest of a command; with none left the agent is IDLE. -/
def activityOf (i : Instr) (todo : List Prim) : Option Activity :=
  match todo with
  | [] => none
  | p :: ps => some ⟨i, p :: ps⟩

/-- R18: the first primitive that is no register update, with the register updates after it; none of either where a
command has only register updates (log 14). -/
def performNext (a : Agent) (i : Instr) (todo : List Prim) (s : State) : Res (State × List Prim) :=
  match todo with
  | [] => .ok (s, [])
  | p :: rest => (perform a i p s).bind fun x => settle settleDepth a i (x.2 ++ rest) x.1

/-- One atomic transition of agent `a`, whose command is `i` with primitives `todo` still to come. Where it stops, the
agent's sequencer (R43) stays as it was before the transition: DESIGN CHOICE, log 22. -/
def transition (a : Agent) (i : Instr) (todo : List Prim) (s : State) : Res State :=
  ((settle settleDepth a i todo s).bind fun x => performNext a i x.2 x.1).bind fun y =>
  .ok (y.1.setActivity a (activityOf i y.2))

/-- R16, R340: a transition that goes on to these primitives is enabled: it does not hold at an `acquire`. -/
def passes (i : Instr) (x : Res (State × List Prim)) : Bool :=
  match x with
  | .ok (s, .acquire :: _) => acquirable i s || !operandOk s.params i
  | _ => true

/-- R16, R340: the agent's next step is enabled. -/
def enabled (a : Agent) (s : State) : Bool :=
  match s.activity a with
  | some ⟨i, todo⟩ => passes i (settle settleDepth a i todo s)
  | none => false

/-- R17: one atomic transition of an agent; none where its next step is not enabled. -/
def tick (a : Agent) (s : State) : Host.Outcome State Fault Refusal :=
  if enabled a s then
    match s.activity a with
    | some ⟨i, p :: rest⟩ => (transition a i (p :: rest) s).outcome a (some i)
    | some ⟨_, []⟩ => .next (s.setActivity a none)
    | none => .next s
  else .next s

/-- A command word is taken: the agent is no longer IDLE (R24: the command is recorded). -/
def issue (a : Agent) (i : Instr) (s : State) : State :=
  (s.setActivity a (some ⟨i, script i⟩)).record (.issued a i)

/-- R6: the agent that takes the words of a port. -/
def Port.agent : Port → Agent
  | .command k => .caller k
  | .interrupt => .irq
  | .deferredRun => .deferred

/-- R6 (a): the port is a caller's. -/
def Port.isCommand : Port → Bool
  | .command _ => true
  | .interrupt => false
  | .deferredRun => false

/-- R143, R144: the words a port may deliver. -/
def Port.accepts (p : Port) (i : Instr) : Bool :=
  match i with
  | .rdcsr _ => p.isCommand
  | .wrcsr _ _ => p.isCommand
  | .rdbcr _ => p.isCommand
  | .wrbcr _ _ => p.isCommand
  | .rreset => p.isCommand
  | .attach => p.isCommand
  | .openDev _ => p.isCommand
  | .close => p.isCommand
  | .detach => p.isCommand
  | .ralloc _ _ => p.isCommand
  | .rfree _ => p.isCommand
  | .xmit _ _ => p.isCommand
  | .reclaim => p == .deferredRun
  | .drain => p == .deferredRun
  | .irq => p == .interrupt
  | .dtask => p == .deferredRun

/-- R144: what a word spells at a port; none where it is refused. -/
def Port.spells (p : Port) (w : Cmd) : Option Instr :=
  match decode w with
  | .ok i => if p.accepts i then some i else none
  | .error _ => none

/-- R345, R346: a word is delivered to an idle agent, and DTASK only while `task_pending = 1`. IRQ, DRAIN and RECLAIM are
so admitted in every state (R325); that the first command of a launch is a caller's (R442) is a condition on launches,
`Launch` (log 39). -/
def admitted (p : Port) (i : Instr) (s : State) : Bool :=
  s.isIdle p.agent && (i != .dtask || s.taskPending)

/-- What another agent or the environment does between two transitions of the running agent; a move that is not
enabled does nothing. The environment may place the bytes of a frame at any time, also of a live one: DESIGN CHOICE, log
33. What `deliver` hands over does not depend on it (R134). -/
def doMove (m : Move) (s : State) : Host.Outcome State Fault Refusal :=
  match m with
  | .device d => (deviceStep d s).outcome .device none
  | .tick a => tick a s
  | .issue p w =>
    match p.spells w with
    | some i => if admitted p i s then .next (issue p.agent i s) else .next s
    | none => refuseWith .encoding s
  | .hostFrame h bs => .next (s.putFrame h bs)

/-- The moves of one gap, in order. -/
def doMoves : List Move → State → Host.Outcome State Fault Refusal
  | [], s => .next s
  | m :: ms, s => andThen (doMove m s) (doMoves ms)

/-- R17: between two steps of one agent, any other agent may step: the next gap of the schedule. -/
def gap (s : State) : Host.Outcome State Fault Refusal :=
  match s.sched with
  | [] => .next s
  | ms :: rest => doMoves ms { s with sched := rest }

/-- One turn of a running agent: its transition where enabled, then the gap. -/
def turn (a : Agent) (s : State) : Host.Outcome State Fault Refusal := andThen (tick a s) gap

/-- Nothing more happens by itself: the agent is idle, or it holds and no other agent is scheduled (R407 stuck). -/
def atRest (a : Agent) (s : State) : Bool :=
  (s.activity a).isNone || (!enabled a s && s.sched.isEmpty)

/-- Run an agent's command, at most `n` turns (log 7). -/
def runAgent : Nat → Agent → State → Host.Outcome State Fault Refusal
  | 0, _, s => .next s
  | n + 1, a, s => if atRest a s then .next s else andThen (turn a s) (runAgent n a)

/-- Turns of one `exec`: more than any command needs but an IRQ whose loop goes on (R347, R407; log 7). -/
def fuel (s : State) : Nat := 2 ^ 20 + 4 * s.params.initPollBudget + 8 * s.sched.length

/-- A command word taken by agent `a` and run. -/
def runCommand (a : Agent) (i : Instr) (s : State) : Host.Outcome State Fault Refusal :=
  if s.isIdle a then runAgent (fuel s) a (issue a i s) else refuseWith .agentBusy s

end Sys2Proof.Machine
end

