-- ==== Sys2Proof/Machine/Commands.lean ====
section
/-! DEFINITION. The meaning of each command: its agent takes the word and runs its pseudocode to the end. The bodies
stand in the `…Body.lean` files; `afterAcquire` and `script` name them. -/

namespace Sys2Proof.Machine

/-- R5: the caller agent whose word is being taken. -/
def State.caller (s : State) : Agent := .caller s.issuer

/-- R180. -/
def execRdcsr (idx : Half) (s : State) : Host.Outcome State Fault Refusal := runCommand s.caller (.rdcsr idx) s

/-- R181. -/
def execWrcsr (idx val : Half) (s : State) : Host.Outcome State Fault Refusal := runCommand s.caller (.wrcsr idx val) s

/-- R182. -/
def execRdbcr (idx : Half) (s : State) : Host.Outcome State Fault Refusal := runCommand s.caller (.rdbcr idx) s

/-- R183. -/
def execWrbcr (idx val : Half) (s : State) : Host.Outcome State Fault Refusal := runCommand s.caller (.wrbcr idx val) s

/-- R184. -/
def execRreset (s : State) : Host.Outcome State Fault Refusal := runCommand s.caller .rreset s

/-- R200. -/
def execAttach (s : State) : Host.Outcome State Fault Refusal := runCommand s.caller .attach s

/-- R210. -/
def execOpen (mac : BitVec 48) (s : State) : Host.Outcome State Fault Refusal := runCommand s.caller (.openDev mac) s

/-- R220. -/
def execClose (s : State) : Host.Outcome State Fault Refusal := runCommand s.caller .close s

/-- R230. -/
def execDetach (s : State) : Host.Outcome State Fault Refusal := runCommand s.caller .detach s

/-- R240. -/
def execRalloc (r : Ring) (e : Nat) (s : State) : Host.Outcome State Fault Refusal := runCommand s.caller (.ralloc r e) s

/-- R245. -/
def execRfree (r : Ring) (s : State) : Host.Outcome State Fault Refusal := runCommand s.caller (.rfree r) s

/-- R260. -/
def execXmit (addr : Word) (len : Nat) (s : State) : Host.Outcome State Fault Refusal :=
  runCommand s.caller (.xmit addr len) s

/-- R270. -/
def execReclaim (s : State) : Host.Outcome State Fault Refusal := runCommand .deferred .reclaim s

/-- R290. -/
def execDrain (s : State) : Host.Outcome State Fault Refusal := runCommand .deferred .drain s

/-- R320. -/
def execIrq (s : State) : Host.Outcome State Fault Refusal := runCommand .irq .irq s

/-- R330. -/
def execDtask (s : State) : Host.Outcome State Fault Refusal := runCommand .deferred .dtask s

end Sys2Proof.Machine
end

