-- ==== Sys2Proof/Machine/Dispatch.lean ====
section
/-! DEFINITION. One arm per command: a direct call of its meaning. -/

namespace Sys2Proof.Machine

def exec (i : Instr) (s : State) : Host.Outcome State Fault Refusal :=
  match i with
  | .rdcsr idx => Sys2Proof.Machine.execRdcsr idx s
  | .wrcsr idx val => Sys2Proof.Machine.execWrcsr idx val s
  | .rdbcr idx => Sys2Proof.Machine.execRdbcr idx s
  | .wrbcr idx val => Sys2Proof.Machine.execWrbcr idx val s
  | .rreset => Sys2Proof.Machine.execRreset s
  | .attach => Sys2Proof.Machine.execAttach s
  | .openDev mac => Sys2Proof.Machine.execOpen mac s
  | .close => Sys2Proof.Machine.execClose s
  | .detach => Sys2Proof.Machine.execDetach s
  | .ralloc r e => Sys2Proof.Machine.execRalloc r e s
  | .rfree r => Sys2Proof.Machine.execRfree r s
  | .xmit addr len => Sys2Proof.Machine.execXmit addr len s
  | .reclaim => Sys2Proof.Machine.execReclaim s
  | .drain => Sys2Proof.Machine.execDrain s
  | .irq => Sys2Proof.Machine.execIrq s
  | .dtask => Sys2Proof.Machine.execDtask s

end Sys2Proof.Machine
end

