-- ==== Sys2Proof/Machine/Delivery.lean ====
section
/-! DEFINITION. Delivery: which word the machine takes next, and what happens where none is delivered (45_interrupt.md
R345, R346; log 5, 6). -/

namespace Sys2Proof.Machine

/-- The caller whose word is taken. -/
def Port.issuer (p : Port) (s : State) : Nat :=
  match p with
  | .command k => k
  | .interrupt => s.issuer
  | .deferredRun => s.issuer

/-- The agents of the block. -/
def State.agents (s : State) : List Agent :=
  .deferred :: .irq :: (List.range s.params.kCallers).map Agent.caller

/-- An agent whose next step is enabled. -/
def State.runnable (s : State) : Option Agent := s.agents.find? fun a => enabled a s

/-- No word can be taken: the scheduled gap, else an agent in mid-command, else a due interrupt (R345), else a pending
deferred task (R346), else nothing. One of the schedules R5 allows; `inbox` and `sched` express the others (log 5). -/
def idleStep (s : State) : Host.Outcome State Fault Refusal :=
  if !s.sched.isEmpty then gap s
  else
    match s.runnable with
    | some a => runAgent (fuel s) a s
    | none =>
      if interruptLine s.params s.device ∧ s.isIdle .irq then exec .irq s
      else if s.taskPending ∧ s.isIdle .deferred then exec .dtask s
      else .next s

/-- A word at a port: refused (R144), taken and run, or left waiting until it is admitted. -/
def deliverWord (p : Port) (w : Cmd) (rest : List Delivery) (s : State) : Host.Outcome State Fault Refusal :=
  match p.spells w with
  | none => refuseWith .encoding { s with inbox := rest }
  | some i =>
    if admitted p i s then exec i { s with inbox := rest, issuer := p.issuer s }
    else idleStep s

/-- One delivery. -/
def deliver (s : State) : Host.Outcome State Fault Refusal :=
  match s.inbox with
  | [] => idleStep s
  | .resume a :: rest => runAgent (fuel s) a { s with inbox := rest }
  | .word p w :: rest => deliverWord p w rest s

/-- The port a word comes in at, from the command it spells (R143). -/
def portOf (w : Cmd) : Port :=
  match decode w with
  | .ok .irq => .interrupt
  | .ok .dtask => .deferredRun
  | .ok .drain => .deferredRun
  | .ok .reclaim => .deferredRun
  | _ => .command 0

/-- The word is the next delivery, at its own port, and is admitted: the port's agent is IDLE, a task is pending where
the word is DTASK (R346), and the run has not ended. -/
def State.placeWord (s : State) (w : Cmd) : State :=
  { s.setActivity (portOf w).agent none with
    inbox := .word (portOf w) w :: s.inbox,
    taskPending := s.taskPending || decide (decode w = .ok .dtask),
    faultRecord := none, refusalMark := none }

end Sys2Proof.Machine
end

