-- ==== Sys2Proof/Safety.lean ====
section
/-! DEFINITION. What counts as a safe run, in the terms claims use: a run with no fault and no refusal is good
(00_scope.md R23); the invariants of the rings (10_state.md R34 to R36) and the invariant every step keeps. -/

namespace Sys2Proof.Machine

/-- R23: an outcome that keeps a run good. -/
def good (o : Host.Outcome State Fault Refusal) : Prop := ∃ t, o = .next t

/-- R34: the cursors and the in-flight count. -/
def TxRing.cursorsOk (t : TxRing) : Prop :=
  t.current < ringSize t.exp ∧ t.last < ringSize t.exp ∧ t.count ≤ ringSize t.exp ∧
  (t.last + t.count) % ringSize t.exp = t.current

/-- R35: `tx_map[i] != EMPTY` exactly for the in-flight slots. -/
def TxRing.mapOk (t : TxRing) : Prop :=
  t.map.length = ringSize t.exp ∧
  ∀ i, i < ringSize t.exp →
    ((t.map[i]?.join).isSome = true ↔ (i + ringSize t.exp - t.last) % ringSize t.exp < t.count)

/-- R34, R35. -/
def TxRing.inv (t : TxRing) : Prop := t.cursorsOk ∧ t.mapOk

/-- R36: the cursor is a slot number, and every slot has its buffer. -/
def RxRing.inv (r : RxRing) : Prop := r.current < ringSize r.exp ∧ r.buf.length = ringSize r.exp

/-- R50 to R54, R350 to R367: the stored bits of CSR0 agree with `dev_state`. -/
def Device.statusOk (d : Device) : Prop :=
  d.latches &&& ~~~csr0Stored = 0#16 ∧
  (bitSet d.latches csr0INIT = true ↔ d.state ≠ .stopped) ∧
  (bitSet d.latches csr0STRT = true ↔ d.state = .running) ∧
  (bitSet d.latches csr0TDMD = true → d.state = .running) ∧
  (bitSet d.latches csr0Causes = true → d.state = .initialised ∨ d.state = .running) ∧
  (bitSet d.latches (csr0Causes &&& ~~~csr0IDON) = true → d.state = .running)

/-- R56: the device cursors are slot numbers of the latched rings. -/
def Device.cursorsOk (d : Device) : Prop := d.devTx < d.cfg.txN ∧ d.devRx < d.cfg.rxN

/-- R44: every counter is below `2^COUNTER_WIDTH`. -/
def Counters.below (c : Counters) (n : Nat) : Prop :=
  c.txPackets < n ∧ c.txBytes < n ∧ c.txErrors < n ∧ c.rxPackets < n ∧ c.rxBytes < n ∧ c.rxErrors < n ∧
  c.rxDropped < n ∧ c.collisions < n ∧ c.missedFrames < n

/-- R90 (2): every byte written lies in the DMA address space. -/
def Memory.inSpace (m : Memory) : Prop := ∀ x ∈ m, x.1 < memTop

/-- What every step keeps: the canonical form of memory, the address space (R90), CSR0 and `dev_state` (R350 to R367),
the device cursors (R56), the counter width (R44). -/
structure Inv (s : State) : Prop where
  memoryWf : Memory.wf s.memory
  memoryInSpace : Memory.inSpace s.memory
  statusOk : s.device.statusOk
  cursorsOk : s.device.cursorsOk
  countersBelow : s.counters.below (2 ^ s.params.counterWidth)

/-- R58, R60, R442, R446: a launch. The power-on state, with any legal parameters (R13), any values where R60 leaves the
device unspecified, and any schedule, answers and host frames; its first command is issued by a caller agent. A condition
on the start of a run (D51), as R345 and R346 admit the other words at any step (log 39). -/
structure Launch (s : State) : Prop where
  powerOn : s = { State.reset with
    params := s.params, device := s.device, hostFrames := s.hostFrames, oracle := s.oracle, inbox := s.inbox,
    sched := s.sched }
  legal : s.params.legal = true
  stopped : s.device.state = .stopped ∧ s.device.latches = 0#16
  callerFirst : ∃ k w rest, s.inbox = .word (.command k) w :: rest ∧ k < s.params.kCallers

/-- Agent `a` can run a command alone: it is IDLE (R43), the lock is free (R340), no other agent is scheduled (log 5). -/
def State.ready (s : State) (a : Agent) : Prop := s.isIdle a = true ∧ s.lockOwner = none ∧ s.sched = []

/-- The device answers the strategy the block has selected (R175, R369). -/
def State.answeredBy (s : State) (S : Strategy) : Prop := s.mode.strategy = some S ∧ answers s.params S = true

/-- The history after some events, given oldest first. -/
def State.traced (s : State) (es : List Event) : List Event := es.reverse ++ s.history

/-- The outcomes at the ports after one more outcome (R6 (a), R150). -/
def State.replied (s : State) (a : Agent) (r : Reply) : List (Agent × Reply) :=
  (a, r) :: s.replies.filter fun y => y.1 != a

/-- Every byte of memory reads as before. -/
def State.sameBytes (s t : State) : Prop := ∀ x, t.byteAt x = s.byteAt x

/-- Every byte outside the given regions (address and size) reads as before. -/
def State.sameBytesOutside (s t : State) (rs : List (Nat × Nat)) : Prop :=
  ∀ x, (∀ r ∈ rs, x < r.1 ∨ r.1 + r.2 ≤ x) → t.byteAt x = s.byteAt x

/-- R98: regions, as address and size, that do not wrap and share no byte with a live structure or with each other. -/
def State.fresh (s : State) (rs : List (Nat × Nat)) : Prop :=
  (∀ r ∈ rs, r.1 + r.2 ≤ memTop ∧ ∀ q ∈ s.liveRegions, disjointRegions r.1 r.2 q.1 q.2 = true) ∧
  rs.Pairwise fun r q => disjointRegions r.1 r.2 q.1 q.2 = true

/-- R246: the TX ring registers after `ring_release`. -/
def TxRing.released (t : TxRing) : TxRing := { t with alloc := false, count := 0, map := t.map.map fun _ => none }

/-- R246: the RX ring registers after `ring_release`. -/
def RxRing.released (r : RxRing) : RxRing := { r with alloc := false }

/-- R211, R230: the state with both rings released, where they were allocated. -/
def State.released (s : State) : State :=
  { s with
    tx := if s.tx.alloc then s.tx.released else s.tx,
    rx := s.rx.released }

/-- R246: the calls of `ring_release(RX)`: the buffers in slot order, then the array. -/
def State.rxReleaseEvents (s : State) : List Event :=
  s.rx.buf.map (fun b => .call (.free b.vptr b.phys s.params.rxBufSize)) ++
  [.call (.free s.rx.vptr s.rx.base (16 * ringSize s.rx.exp))]

/-- R246: the calls of `ring_release(TX)`: each frame in flight, by ascending slot number (log 34), then the array. -/
def State.txReleaseEvents (s : State) : List Event :=
  (s.tx.map.filterMap id).flatMap (fun m => [.call (.unmap m.phys m.len .toDevice), .call (.releaseFrame m.handle)]) ++
  [.call (.free s.tx.vptr s.tx.base (16 * ringSize s.tx.exp))]

/-- R33, R36, R113: the ring sizes fit 4-bit exponents of at most 15. -/
def State.sized (s : State) : Prop :=
  s.tx.exp ≤ 15 ∧ s.rx.exp ≤ 15 ∧ s.tx.map.length ≤ 2 ^ 15 ∧ s.rx.buf.length ≤ 2 ^ 15

/-- R94, R98: a ring lies in memory at an address that is a multiple of 4. -/
def ringPlaced (base : Word) (e : Nat) : Prop := base.toNat % 4 = 0 ∧ base.toNat + 16 * ringSize e ≤ memTop

/-- R241: the TX ring registers right after `ring_allocate`. -/
def TxRing.made (e : Nat) (v : Nat) (p : Word) : TxRing :=
  ⟨true, e, p, v, 0, 0, 0, List.replicate (ringSize e) none⟩

/-- R241: the RX ring registers right after `ring_allocate`. -/
def RxRing.made (e : Nat) (v : Nat) (p : Word) (bufs : List RxBuffer) : RxRing := ⟨true, e, p, v, 0, bufs⟩

/-- R36: the buffers of the RX ring lie in memory and share no byte with a ring (R98). -/
def State.buffersPlaced (s : State) : Prop :=
  ∀ b ∈ s.rx.buf, b.phys.toNat + s.params.rxBufSize ≤ memTop ∧
    disjointRegions b.phys.toNat s.params.rxBufSize s.rx.base.toNat (16 * ringSize s.rx.exp) = true ∧
    (s.tx.alloc = true →
      disjointRegions b.phys.toNat s.params.rxBufSize s.tx.base.toNat (16 * ringSize s.tx.exp) = true)

/-! ### What the deferred agent's loops do with the slots they take, oldest first -/

/-- R24: the event of a host read of word `k` of slot `i`. -/
def State.wordRead (s : State) (base : Word) (i k : Nat) : Event :=
  .memRead .host (slotAddr base i k) (s.bytesAt (slotAddr base i k) 4)

/-- R24: the event of a host write of word `k` of slot `i`. -/
def wordWrite (base : Word) (i k : Nat) (v : Word) : Event := .memWrite .host (slotAddr base i k) (wordBytes v)

/-- R270: the slot `j` places after the oldest in-flight one. -/
def State.txAt (s : State) (j : Nat) : Nat := (s.tx.last + j) % ringSize s.tx.exp

/-- Word `k` of that slot. -/
def State.txWord (s : State) (j k : Nat) : Word := s.wordAt (slotAddr s.tx.base (s.txAt j) k)

/-- R35: the mapping, length and handle of that slot's frame. -/
def State.txEntry (s : State) (j : Nat) : TxMapping := ((s.tx.map[s.txAt j]?).join).getD ⟨0#32, 0, 0#32⟩

/-- R270: the events of reclaiming that slot. -/
def State.reclaimEvents (s : State) (j : Nat) : List Event :=
  [s.wordRead s.tx.base (s.txAt j) 1, .fenceR, s.wordRead s.tx.base (s.txAt j) 2,
   .call (.unmap (s.txEntry j).phys (s.txEntry j).len .toDevice), .call (.releaseFrame (s.txEntry j).handle)]

/-- R270: `tx_map` after `k` slots are reclaimed. -/
def State.reclaimedMap (s : State) (k : Nat) : List (Option TxMapping) :=
  (List.range k).foldl (fun m j => m.set (s.txAt j) none) s.tx.map

/-- R271: the counters after `k` slots are reclaimed. -/
def State.reclaimedCounts (s : State) (k : Nat) (c : Counters) : Counters :=
  (List.range k).foldl (fun c j => countTx s.params (s.txWord j 1) (s.txWord j 2) (s.txEntry j).len c) c

/-- R270: the host frames after `k` slots are reclaimed: without the released ones. -/
def State.reclaimedFrames (s : State) (k : Nat) (fs : List HostFrame) : List HostFrame :=
  fs.filter fun f => (List.range k).all fun j => f.handle != (s.txEntry j).handle

/-- R290: the slot `j` places after `rx_current`. -/
def State.rxAt (s : State) (j : Nat) : Nat := (s.rx.current + j) % ringSize s.rx.exp

/-- Word `k` of that slot. -/
def State.rxWord (s : State) (j k : Nat) : Word := s.wordAt (slotAddr s.rx.base (s.rxAt j) k)

/-- R291: that slot is error-free, so a copy of its frame is asked for. -/
def State.rxGood (s : State) (j : Nat) : Bool := !rxBad s.params.rxBufSize (s.rxWord j 1) (s.rxWord j 2)

/-- R291: how many copies are asked for in the first `k` slots. -/
def State.rxAsks (s : State) (k : Nat) : Nat := ((List.range k).filter s.rxGood).length

/-- R7: the answer to the `m`-th next `alloc_frame`. -/
def State.frameAnswerAt (s : State) (m : Nat) : Option Word :=
  (s.oracle.frames[m]?).getD (Config.freeFrame (s.oracle.asked + m))

/-- R291: what becomes of the frame of a completed slot: counted as an error, dropped for want of a copy, or delivered
through the handle. -/
inductive RxFate
  | bad | lost | kept (h : Word)
  deriving DecidableEq, Repr

/-- R291, R295: the fate of the slot `j` places after `rx_current`. -/
def State.rxFate (s : State) (j : Nat) : RxFate :=
  if s.rxGood j then
    match s.frameAnswerAt (s.rxAsks j) with
    | some h => .kept h
    | none => .lost
  else .bad

/-- R36: the address of that slot's buffer. -/
def State.rxBuffer (s : State) (j : Nat) : Nat := (((s.rx.buf[s.rxAt j]?).map RxBuffer.phys).getD 0#32).toNat

/-- R291: the length of that slot's frame without the FCS. -/
def State.rxLen (s : State) (j : Nat) : Nat := mcnt (s.rxWord j 2) - 4

/-- R134: the bytes of that slot's frame. -/
def State.rxBytes (s : State) (j : Nat) : List Byte := s.bytesAt (s.rxBuffer j) (s.rxLen j)

/-- R291: the calls and the copy of that slot. -/
def State.fateEvents (s : State) (j : Nat) : List Event :=
  match s.rxFate j with
  | .bad => []
  | .lost => [.call (.allocFrame (s.rxLen j) none)]
  | .kept h =>
    [.call (.allocFrame (s.rxLen j) (some h)), .memRead .host (s.rxBuffer j) (s.rxBytes j),
     .call (.deliver h (s.rxBytes j))]

/-- R290, R293: the events of draining that slot. -/
def State.drainEvents (s : State) (j : Nat) : List Event :=
  [s.wordRead s.rx.base (s.rxAt j) 1, .fenceR, s.wordRead s.rx.base (s.rxAt j) 2] ++ s.fateEvents j ++
  [wordWrite s.rx.base (s.rxAt j) 2 0#32, .fenceW, wordWrite s.rx.base (s.rxAt j) 1 (rxArmWord s.params.rxBufSize)]

/-- R292: the counters of one drained slot. -/
def RxFate.count (f : RxFate) (p : Params) (len : Nat) (c : Counters) : Counters :=
  match f with
  | .bad => { c with rxErrors := bump p c.rxErrors 1 }
  | .lost => { c with rxDropped := bump p c.rxDropped 1 }
  | .kept _ => { c with rxPackets := bump p c.rxPackets 1, rxBytes := bump p c.rxBytes len }

/-- R292: the counters after `k` slots are drained. -/
def State.drainedCounts (s : State) (k : Nat) (c : Counters) : Counters :=
  (List.range k).foldl (fun c j => (s.rxFate j).count s.params (s.rxLen j) c) c

/-- R291: the frame of the slot is delivered through this handle. -/
def RxFate.through (f : RxFate) (h : Word) : Bool :=
  match f with
  | .kept h' => h == h'
  | .bad => false
  | .lost => false

/-- R291: the host frames after `k` slots are drained: the delivered ones have passed to the sink. -/
def State.drainedFrames (s : State) (k : Nat) (fs : List HostFrame) : List HostFrame :=
  fs.filter fun f => (List.range k).all fun j => !(s.rxFate j).through f.handle

/-- The answers still to come after the copies of `k` slots were asked for. -/
def State.drainedOracle (s : State) (k : Nat) : Oracle :=
  { s.oracle with frames := s.oracle.frames.drop (s.rxAsks k), asked := s.oracle.asked + s.rxAsks k }

/-- R270, R290: the read that ends a loop of at most `n` slots after `k` of them: of the `w1` the device still owns. -/
def State.lastRead (s : State) (base : Word) (slot k n : Nat) : List Event := if k < n then [s.wordRead base slot 1] else []

/-- The regions of RX buffers. -/
def bufferRegions (n : Nat) (bufs : List RxBuffer) : List (Nat × Nat) := bufs.map fun b => (b.phys.toNat, n)

/-- The allocator's next answers. -/
def answersOf (xs : List RxBuffer) : List (Option (Nat × Word)) := xs.map fun b => some (b.vptr, b.phys)

end Sys2Proof.Machine
end

