-- ==== Sys2Proof/Certificates/Slice0/Obligations.lean ====
section
/-! DEFINITION. The statements for the provers. Each says what a numbered rule of the spec says the machine does. A command
statement answers the next state as an update of the state before, so that it is its own frame: a field it does not name
is unchanged. Events are listed oldest first (`State.traced`). -/

section

open Sys2Proof Sys2Proof.Machine

/-! ### Encoding -/

/-- R153: the worked encodings. -/
def Obligations.PublishedWordsDecode : Prop :=
  decode 0x1000000000000000#64 = .ok .attach ∧
  decode 0x1100563412005452#64 = .ok (.openDev 0x563412005452#48) ∧
  decode 0x2000003C00100000#64 = .ok (.xmit 0x00100000#32 60) ∧
  decode 0x0200000000420000#64 = .ok (.wrcsr 0#16 0x0042#16) ∧
  decode 0x0100000000000000#64 = .ok (.rdcsr 0#16) ∧
  decode 0x1800000000000103#64 = .ok (.ralloc .tx 3) ∧
  decode 0x1900000000000000#64 = .ok (.rfree .rx) ∧
  decode 0x3000000000000000#64 = .ok .irq ∧
  decode 0x3100000000000000#64 = .ok .dtask ∧
  decode 0x2000100000000000#64 = .error .reservedBits

/-- R141, R142, R143: no bit of an operand is dropped or moved. -/
def Obligations.DecodeOfEncode : Prop := ∀ i : Instr, i.wf = true → decode (encode i) = .ok i

/-- R145: every word is one command's only word, or no command's. -/
def Obligations.EveryWordOneMeaning : Prop :=
  ∀ w : Cmd,
    (∃ i : Instr, decode w = .ok i ∧ i.wf = true ∧ encode i = w ∧
      ∀ j : Instr, j.wf = true → encode j = w → j = i) ∨
    (∃ e, decode w = .error e ∧ ∀ j : Instr, j.wf = true → encode j ≠ w)

/-- R143, R144: exactly the reserved opcodes are rejected as such, and a known opcode with a set reserved bit of its
format (R141) is rejected. -/
def Obligations.ReservedEncodingsRejected : Prop :=
  ∀ w : Cmd,
    let op := (opcodeOf w).toNat
    let bits := fun (lo hi : Nat) => ∃ k, lo ≤ k ∧ k ≤ hi ∧ w.getLsbD k = true
    (decode w = .error .reservedOpcode ↔
      op = 0x00 ∨ (0x06 ≤ op ∧ op ≤ 0x0F) ∨ (0x14 ≤ op ∧ op ≤ 0x17) ∨ (0x1A ≤ op ∧ op ≤ 0x1F) ∨
      (0x23 ≤ op ∧ op ≤ 0x2F) ∨ 0x32 ≤ op) ∧
    (decode w = .error .reservedBits ↔
      ((op = 0x05 ∨ op = 0x10 ∨ op = 0x12 ∨ op = 0x13 ∨ op = 0x21 ∨ op = 0x22 ∨ op = 0x30 ∨ op = 0x31) ∧ bits 0 55) ∨
      ((op = 0x01 ∨ op = 0x03) ∧ bits 16 55) ∨
      ((op = 0x02 ∨ op = 0x04) ∧ bits 32 55) ∨
      (op = 0x11 ∧ bits 48 55) ∨
      (op = 0x20 ∧ bits 44 55) ∨
      (op = 0x18 ∧ (bits 9 55 ∨ bits 4 7)) ∨
      (op = 0x19 ∧ (bits 9 55 ∨ bits 0 7)))

/-! ### Delivery and the ends of a run -/

/-- R144: a word that spells no command, or comes in at the wrong input, is refused; nothing but the refusal mark
changes (and the word is taken). -/
def Obligations.WrongWordRefused : Prop :=
  ∀ (s : State) (p : Port) (w : Cmd) (rest : List Delivery), s.ended = false → s.inbox = .word p w :: rest →
    ((∃ e, decode w = .error e) ∨
      (∃ i, decode w = .ok i ∧
        (match p with
         | .command _ => i = .irq ∨ i = .dtask ∨ i = .drain ∨ i = .reclaim
         | .interrupt => i ≠ .irq
         | .deferredRun => i ≠ .dtask ∧ i ≠ .drain ∧ i ≠ .reclaim))) →
    step s = .refused (.encoding { s with inbox := rest, refusalMark := some .encoding })

/-- R140, R143, R345, R346: the step that takes a delivered word runs the command it spells, on the agent of its port.
Around `exec`, the step takes the word from the input and notes which caller issued it. That IRQ, DRAIN and RECLAIM words
are so taken in every state, power-on included, is log 39's reading of R345 and R346 beside R442 (DEDUCED). -/
def Obligations.StepRunsDecoded : Prop :=
  ∀ (s : State) (p : Port) (w : Cmd) (rest : List Delivery) (i : Instr), s.ended = false →
    s.inbox = .word p w :: rest → decode w = .ok i → i.wf = true → p.accepts i = true →
    s.isIdle p.agent = true → (i = .dtask → s.taskPending = true) →
    step s = exec i { s with inbox := rest, issuer := p.issuer s }

/-- R23: a run that has ended takes no further step. That step of an ended state answers the recorded outcome again, the
fault before the refusal, is the model's own choice (DESIGN CHOICE, log 22): R23 only says that the run ends. -/
def Obligations.EndedRunStays : Prop :=
  ∀ (s : State),
    (∀ r, s.faultRecord = some r → step s = .fault (Fault.of r s)) ∧
    (∀ r, s.faultRecord = none → s.refusalMark = some r → step s = .refused (Refusal.of r s))

/-! ### Reset, registers, flags -/

/-- R58, R60: the power-on values the spec states. The DESIGN CHOICE values of log 1, 2 and 24 are not in it, but two
clauses are the model's choice: the last (DESIGN CHOICE, log 3), since R61 leaves DMA memory unspecified and the model lists
no byte, and `rx.buf = []` (DESIGN CHOICE, log 38), since R58 does not say how many entries an array has before its ring is
made. -/
def Obligations.PowerOnState : Prop :=
  let s := State.reset
  s.lifecycle = .detached ∧ s.mode = .none ∧ s.tx.alloc = false ∧ s.rx.alloc = false ∧ s.ib.alloc = false ∧
  s.tx.base = 0#32 ∧ s.tx.exp = 0 ∧ s.tx.current = 0 ∧ s.tx.last = 0 ∧ s.tx.count = 0 ∧ (∀ m ∈ s.tx.map, m = none) ∧
  s.tx.vptr = 0 ∧ s.rx.base = 0#32 ∧ s.rx.exp = 0 ∧ s.rx.vptr = 0 ∧ s.rx.current = 0 ∧ s.rx.buf = [] ∧
  s.station = 0#48 ∧ s.ienaShadow = false ∧
  s.taskPending = false ∧ s.defBusy = false ∧ s.queueStopped = false ∧ s.lockOwner = none ∧
  s.counters = Counters.zero ∧ (∀ a, s.activity a = none) ∧ s.faultRecord = none ∧ s.refusalMark = none ∧
  s.device.state = .stopped ∧ csr0Value s.params s.device = 0x0004#16 ∧ s.memory = []

/-- R359, R60: the read of the device's own RESET port. -/
def Obligations.ResetPortResets : Prop :=
  ∀ (s : State) (S : Strategy), answers s.params S = true →
    let t := readReset S s
    t.device.state = .stopped ∧ t.device.latches = 0#16 ∧ csr0Value t.params t.device = 0x0004#16 ∧
    (∃ (o : Oracle) (v : Word),
      t = { s with device := t.device, oracle := o,
                   history := .ioRead S.width (resetPortAddr S s.params) v :: s.history })

/-- R109: the byte-count encoding and its decoding. -/
def Obligations.ByteCountEncoding : Prop :=
  ∀ len : Nat, 1 ≤ len → len ≤ 4095 →
    (bcnt16 len).toNat = 0xF000 + (4096 - len) ∧ (bcnt16 len).toNat = 65536 - len ∧
    (∀ w : Word, w &&& 0x00000FFF#32 = bcnt16 len &&& 0x00000FFF#32 → bcntLen w = len)

/-- R350: a CSR0 write without STOP, bit by bit. -/
def Obligations.Csr0WriteEffect : Prop :=
  ∀ (d : Device) (v : Half), v.getLsbD 2 = false →
    let d' := csr0Write d v
    (∀ b, 8 ≤ b → b ≤ 14 → d'.latches.getLsbD b = (d.latches.getLsbD b && !v.getLsbD b)) ∧
    d'.latches.getLsbD 6 = v.getLsbD 6 ∧
    d'.latches.getLsbD 3 = (d.latches.getLsbD 3 || (v.getLsbD 3 && decide (d.state = .running))) ∧
    d'.latches.getLsbD 0 = (d.latches.getLsbD 0 || (v.getLsbD 0 && decide (d.state = .stopped))) ∧
    d'.latches.getLsbD 1 = (d.latches.getLsbD 1 || (v.getLsbD 1 && decide (d.state = .initialised))) ∧
    d'.state = (if v.getLsbD 0 = true ∧ d.state = .stopped then .initialising
      else if v.getLsbD 1 = true ∧ d.state = .initialised then .running else d.state) ∧
    (∀ b, b = 15 ∨ b = 7 ∨ b = 5 ∨ b = 4 ∨ b = 2 → d'.latches.getLsbD b = d.latches.getLsbD b) ∧
    d' = { d with state := d'.state, latches := d'.latches }

/-- R351, R368: STOP wins over every other bit, and the stopped device takes no step. -/
def Obligations.StopHasPriority : Prop :=
  ∀ (d : Device) (v : Half), v.getLsbD 2 = true →
    csr0Write d v = { d with state := .stopped, latches := 0#16 } ∧
    (∀ p, csr0Value p (csr0Write d v) = 0x0004#16) ∧
    (∀ (s : State) (m : DeviceStep), s.device = csr0Write d v → deviceStep m s = .ok s)

/-- R50, R52: what a read of CSR0 returns, bit by bit. -/
def Obligations.Csr0DerivedBits : Prop :=
  ∀ (p : Params) (d : Device),
    let v := csr0Value p d
    v.getLsbD 15 = (d.latches.getLsbD 14 || d.latches.getLsbD 13 || d.latches.getLsbD 12 || d.latches.getLsbD 11) ∧
    (v.getLsbD 7 = true ↔ ∃ b, 8 ≤ b ∧ b ≤ 14 ∧ p.intrSources.getLsbD b = true ∧ d.latches.getLsbD b = true) ∧
    v.getLsbD 5 = decide (d.state = .running) ∧ v.getLsbD 4 = decide (d.state = .running) ∧
    v.getLsbD 2 = decide (d.state = .stopped) ∧
    (∀ b, (8 ≤ b ∧ b ≤ 14) ∨ b = 6 ∨ b = 3 ∨ b = 1 ∨ b = 0 → v.getLsbD b = d.latches.getLsbD b)

/-- R53: the interrupt line. -/
def Obligations.InterruptLineRule : Prop :=
  ∀ (p : Params) (d : Device),
    interruptLine p d = true ↔ (csr0Value p d).getLsbD 7 = true ∧ (csr0Value p d).getLsbD 6 = true

/-! ### The raw register commands -/

/-- R180, R171, R357: RDCSR on the mode the device answers. -/
def Obligations.RdcsrReads : Prop :=
  ∀ (s : State) (idx : Half) (S : Strategy), s.ready s.caller → s.answeredBy S →
    ∃ (w : Word) (o : Oracle) (t : State), exec (.rdcsr idx) s = .next t ∧
      t = { s with
        device := { s.device with rap := idx }, oracle := o,
        replies := s.replied s.caller ⟨.ok, w.extractLsb' 0 16⟩,
        history := s.traced [.issued s.caller (.rdcsr idx),
          .ioWrite S.width (rapPort S s.params) (idx.setWidth 32),
          .ioRead S.width (dataPort S s.params .csr) w,
          .returned s.caller (.rdcsr idx) ⟨.ok, w.extractLsb' 0 16⟩] } ∧
      s.sameBytes t ∧
      (idx = 0#16 → w.extractLsb' 0 16 = csr0Value s.params s.device) ∧
      (idx = 1#16 → w.extractLsb' 0 16 = s.device.csr1) ∧
      (idx = 2#16 → w.extractLsb' 0 16 = s.device.csr2)

/-- R181, R172, R350, R356: WRCSR to a modelled register, on the mode the device answers. -/
def Obligations.WrcsrWrites : Prop :=
  ∀ (s : State) (idx val : Half) (S : Strategy), s.ready s.caller → s.answeredBy S →
    (idx = 0#16 ∨ idx = 1#16 ∨ idx = 2#16) →
    ∃ t : State, exec (.wrcsr idx val) s = .next t ∧
      t = { s with
        device :=
          (let d := { s.device with rap := idx }
           if idx = 0#16 then csr0Write d val
           else if idx = 1#16 then { d with csr1 := val } else { d with csr2 := val }),
        replies := s.replied s.caller ⟨.ok, 0#16⟩,
        history := s.traced [.issued s.caller (.wrcsr idx val),
          .ioWrite S.width (rapPort S s.params) (idx.setWidth 32),
          .ioWrite S.width (dataPort S s.params .csr) (val.setWidth 32),
          .returned s.caller (.wrcsr idx val) ⟨.ok, 0#16⟩] } ∧
      s.sameBytes t

/-- R358, R181, R183: a write to a register with no modelled effect performs its two I/O steps and is then refused, the
lock free again (R340, R406). That the lock is given back in the refusing transition is log 32's reading (DEDUCED). -/
def Obligations.UnmodelledWriteRefused : Prop :=
  ∀ (s : State) (idx val : Half) (S : Strategy), s.ready s.caller → s.answeredBy S →
    (∃ f, exec (.wrbcr idx val) s = .refused (.deviceUnmodelled f) ∧
      f = { s with
        tasks := f.tasks, lockOwner := none, device := { s.device with rap := idx },
        refusalMark := some .deviceUnmodelled,
        history := s.traced [.issued s.caller (.wrbcr idx val),
          .ioWrite S.width (rapPort S s.params) (idx.setWidth 32),
          .ioWrite S.width (dataPort S s.params .bcr) (val.setWidth 32)] } ∧
      s.sameBytes f) ∧
    (idx ≠ 0#16 → idx ≠ 1#16 → idx ≠ 2#16 →
      ∃ f, exec (.wrcsr idx val) s = .refused (.deviceUnmodelled f) ∧
        f = { s with
          tasks := f.tasks, lockOwner := none, device := { s.device with rap := idx },
          refusalMark := some .deviceUnmodelled,
          history := s.traced [.issued s.caller (.wrcsr idx val),
            .ioWrite S.width (rapPort S s.params) (idx.setWidth 32),
            .ioWrite S.width (dataPort S s.params .csr) (val.setWidth 32)] } ∧
        s.sameBytes f)

/-- R182, R173, R49: RDBCR returns any value, through the BDP port, and has no other effect on the device. -/
def Obligations.RdbcrReads : Prop :=
  ∀ (s : State) (idx : Half) (S : Strategy), s.ready s.caller → s.answeredBy S →
    ∃ (w : Word) (o : Oracle) (t : State), exec (.rdbcr idx) s = .next t ∧
      t = { s with
        device := { s.device with rap := idx }, oracle := o,
        replies := s.replied s.caller ⟨.ok, w.extractLsb' 0 16⟩,
        history := s.traced [.issued s.caller (.rdbcr idx),
          .ioWrite S.width (rapPort S s.params) (idx.setWidth 32),
          .ioRead S.width (dataPort S s.params .bcr) w,
          .returned s.caller (.rdbcr idx) ⟨.ok, w.extractLsb' 0 16⟩] } ∧
      s.sameBytes t

/-- R369, R177: on a mode the device does not answer, every raw register command completes with no effect on the device.
That a wrong-mode write to an unmodelled register is not refused is log 16's reading of R369 over R358. -/
def Obligations.WrongModeNoEffect : Prop :=
  ∀ (s : State) (i : Instr) (S : Strategy), s.ready s.caller → s.mode.strategy = some S → answers s.params S = false →
    ((∃ idx, i = .rdcsr idx) ∨ (∃ idx val, i = .wrcsr idx val) ∨ (∃ idx, i = .rdbcr idx) ∨
      (∃ idx val, i = .wrbcr idx val) ∨ i = .rreset) →
    ∃ (v : Half) (t : State), exec i s = .next t ∧
      t = { s with oracle := t.oracle, replies := s.replied s.caller ⟨.ok, v⟩, history := t.history } ∧
      s.sameBytes t ∧
      ((∃ idx val, i = .wrcsr idx val) ∨ (∃ idx val, i = .wrbcr idx val) ∨ i = .rreset → v = 0#16) ∧
      (s.params.wrongModeRead = .notStopped → v ≠ 0x0004#16)

/-- R184, R174, R359: RRESET on the mode the device answers. -/
def Obligations.RresetResets : Prop :=
  ∀ (s : State) (S : Strategy), s.ready s.caller → s.answeredBy S →
    ∃ (w : Word) (o : Oracle) (d : Device) (t : State), exec .rreset s = .next t ∧
      t = { s with
        device := d, oracle := o,
        replies := s.replied s.caller ⟨.ok, 0#16⟩,
        history := s.traced [.issued s.caller .rreset, .ioRead S.width (resetPortAddr S s.params) w,
          .returned s.caller .rreset ⟨.ok, 0#16⟩] } ∧
      s.sameBytes t ∧
      d.state = .stopped ∧ d.latches = 0#16 ∧ csr0Value s.params d = 0x0004#16

/-- R175, R180 to R184, R405: with `mode = NONE`, a raw register command records F_NO_MODE, does no I/O and changes
nothing else; the lock is released first (R180). -/
def Obligations.RawNeedsMode : Prop :=
  ∀ (s : State) (i : Instr), s.ready s.caller → s.mode = .none →
    ((∃ idx, i = .rdcsr idx) ∨ (∃ idx val, i = .wrcsr idx val) ∨ (∃ idx, i = .rdbcr idx) ∨
      (∃ idx val, i = .wrbcr idx val) ∨ i = .rreset) →
    ∃ f : State, exec i s = .fault (.noMode ⟨.noMode, .command i, s.caller, some i⟩ f) ∧
      f = { s with
        tasks := f.tasks,
        faultRecord := some ⟨.noMode, .command i, s.caller, some i⟩,
        history := s.traced [.issued s.caller i] } ∧
      s.sameBytes f

/-! ### The lifecycle commands -/

/-- R200, R201, R369: ATTACH probes the two strategies in order, and completes or reports the device absent. With
`WRONG_MODE_READ = not_stopped` the true mode is found; a WIO device is always found by the first probe. -/
def Obligations.AttachProbes : Prop :=
  ∀ (s : State) (v : Nat) (p : Word) (as : List (Option (Nat × Word))), s.ready s.caller → s.lifecycle = .detached →
    s.oracle.allocs = some (v, p) :: as → s.fresh [(p.toNat, 28)] → p.toNat % 4 = 0 →
    ∃ t : State, exec .attach s = .next t ∧
      ((∃ S : Strategy,
          t = { s with
            lifecycle := .attached, mode := S.toMode, ib := ⟨true, v, p⟩, counters := Counters.zero,
            device := t.device, memory := t.memory, oracle := t.oracle,
            replies := s.replied s.caller ⟨.ok, 0#16⟩, history := t.history } ∧
          (∀ k, k < 28 → t.byteAt (p.toNat + k) = 0#8) ∧ s.sameBytesOutside t [(p.toNat, 28)] ∧
          (answers s.params S = true →
            t.device.state = .stopped ∧ t.device.latches = 0#16 ∧ csr0Value s.params t.device = 0x0004#16)) ∨
        (t = { s with
            device := t.device, oracle := t.oracle,
            replies := s.replied s.caller ⟨.deviceNotFound, 0#16⟩, history := t.history } ∧ s.sameBytes t)) ∧
      (s.params.deviceIoMode = .wio →
        t.mode = .wio ∧ ∃ w : Word, t.history.drop 9 = s.traced [.issued s.caller .attach,
          .ioRead 16 (resetPortAddr .wio s.params) w, .ioWrite 16 (rapPort .wio s.params) 0#32,
          .ioRead 16 (dataPort .wio s.params .csr) 0x0004#32]) ∧
      (s.params.deviceIoMode = .dwio → s.params.wrongModeRead = .notStopped → t.mode = .dwio) ∧
      (s.params.deviceIoMode = .absent → s.params.wrongModeRead = .notStopped →
        t.replyOf s.caller = some ⟨.deviceNotFound, 0#16⟩ ∧ t.lifecycle = .detached ∧ t.mode = s.mode)

/-- R210 to R216, R360: OPEN brings the device up. The allocator gives fresh, aligned regions once the old rings are
released (R94, R98), and the device takes its INIT step as soon as it is enabled (`[.device .init]` in every gap); it is
not already in an earlier handshake. -/
def Obligations.OpenBringsUp : Prop :=
  ∀ (s : State) (mac : BitVec 48) (S : Strategy) (n vr vt : Nat) (pr pt : Word) (bufs : List RxBuffer)
    (as : List (Option (Nat × Word))),
    s.isIdle s.caller = true → s.lockOwner = none → s.sched = List.replicate n [.device .init] → 2 ^ 20 ≤ n →
    s.answeredBy S → s.taskPending = false → s.defBusy = false → s.device.state ≠ .initialising →
    (s.lifecycle = .attached ∨ s.lifecycle = .closed) → s.sized →
    s.ib.alloc = true → s.ib.phys.toNat + 28 ≤ memTop →
    s.params.rxLenExp ≤ 15 → s.params.txLenExp ≤ 15 → 1 ≤ s.params.initPollBudget →
    bufs.length = ringSize s.params.rxLenExp →
    s.oracle.allocs = some (vr, pr) :: answersOf bufs ++ some (vt, pt) :: as →
    s.released.fresh ((pr.toNat, 16 * ringSize s.params.rxLenExp) ::
      (pt.toNat, 16 * ringSize s.params.txLenExp) :: bufferRegions s.params.rxBufSize bufs) →
    pr.toNat % 16 = 0 → pt.toNat % 16 = 0 →
    ∃ t : State, exec (.openDev mac) s = .next t ∧
      t = { s with
        lifecycle := .running, ienaShadow := true, queueStopped := false, station := mac,
        rx := RxRing.made s.params.rxLenExp vr pr bufs, tx := TxRing.made s.params.txLenExp vt pt,
        device := t.device, memory := t.memory, oracle := t.oracle, sched := t.sched, hostFrames := t.hostFrames,
        replies := s.replied s.caller ⟨.ok, 0#16⟩, history := t.history } ∧
      t.oracle.allocs = as ∧
      t.device =
        { state := .running, latches := csr0INIT ||| csr0STRT ||| csr0IENA ||| csr0IDON, rap := 0#16,
          csr1 := s.ib.phys.extractLsb' 0 16, csr2 := s.ib.phys.extractLsb' 16 16,
          cfg := ⟨s.params.initMode, pr, pt, BitVec.ofNat 4 s.params.rxLenExp, BitVec.ofNat 4 s.params.txLenExp,
            mac, 0#64⟩,
          devTx := 0, devRx := 0 } ∧
      (∀ i b, bufs[i]? = some b →
        t.wordAt (slotAddr pr i 0) = b.phys ∧ t.wordAt (slotAddr pr i 1) = rxArmWord s.params.rxBufSize ∧
        t.wordAt (slotAddr pr i 2) = 0#32 ∧ t.wordAt (slotAddr pr i 3) = 0#32) ∧
      (∀ i w, i < ringSize s.params.txLenExp → w < 4 → t.wordAt (slotAddr pt i w) = 0#32) ∧
      s.sameBytesOutside t [(s.ib.phys.toNat, 28), (pr.toNat, 16 * ringSize s.params.rxLenExp),
        (pt.toNat, 16 * ringSize s.params.txLenExp)]

/-- R215, R217, R440: with a device that never confirms INIT, OPEN spends its poll budget, writes STOP and returns
INIT_TIMEOUT; the Initialization Block is filled (R212, R214) and the rings stay allocated, the RX slots armed (R211). The
three components that a RESET read leaves unspecified (R60) are free. -/
def Obligations.OpenTimesOut : Prop :=
  ∀ (s : State) (mac : BitVec 48) (S : Strategy) (vr vt : Nat) (pr pt : Word) (bufs : List RxBuffer)
    (as : List (Option (Nat × Word))),
    s.ready s.caller → s.answeredBy S → s.taskPending = false → s.defBusy = false →
    (s.lifecycle = .attached ∨ s.lifecycle = .closed) → s.sized →
    s.ib.alloc = true → s.ib.phys.toNat + 28 ≤ memTop →
    s.params.rxLenExp ≤ 15 → s.params.txLenExp ≤ 15 →
    bufs.length = ringSize s.params.rxLenExp →
    s.oracle.allocs = some (vr, pr) :: answersOf bufs ++ some (vt, pt) :: as →
    s.released.fresh ((pr.toNat, 16 * ringSize s.params.rxLenExp) ::
      (pt.toNat, 16 * ringSize s.params.txLenExp) :: bufferRegions s.params.rxBufSize bufs) →
    pr.toNat % 16 = 0 → pt.toNat % 16 = 0 →
    let a := s.ib.phys.toNat
    ∃ t : State, exec (.openDev mac) s = .next t ∧
      t = { s with
        lifecycle := .closed, ienaShadow := false, station := mac,
        rx := RxRing.made s.params.rxLenExp vr pr bufs, tx := TxRing.made s.params.txLenExp vt pt,
        device := t.device, memory := t.memory, oracle := t.oracle, hostFrames := t.hostFrames,
        replies := s.replied s.caller ⟨.initTimeout, 0#16⟩, history := t.history } ∧
      t.oracle.allocs = as ∧
      t.device =
        { state := .stopped, latches := 0#16, rap := 0#16, csr1 := s.ib.phys.extractLsb' 0 16,
          csr2 := s.ib.phys.extractLsb' 16 16, cfg := t.device.cfg, devTx := t.device.devTx,
          devRx := t.device.devRx } ∧
      csr0Value s.params t.device = 0x0004#16 ∧
      t.history.take 3 =
        [.returned s.caller (.openDev mac) ⟨.initTimeout, 0#16⟩,
         .ioWrite S.width (dataPort S s.params .csr) 0x00000004#32, .ioWrite S.width (rapPort S s.params) 0#32] ∧
      t.halfAt a = s.params.initMode ∧
      t.byteAt (a + 2) = BitVec.ofNat 8 (16 * s.params.rxLenExp) ∧
      t.byteAt (a + 3) = BitVec.ofNat 8 (16 * s.params.txLenExp) ∧
      (∀ k, k < 6 → t.byteAt (a + 4 + k) = mac.extractLsb' (8 * k) 8) ∧
      (∀ k, 10 ≤ k → k < 20 → t.byteAt (a + k) = 0#8) ∧
      t.wordAt (a + 20) = pr ∧ t.wordAt (a + 24) = pt ∧
      (∀ i b, bufs[i]? = some b →
        t.wordAt (slotAddr pr i 0) = b.phys ∧ t.wordAt (slotAddr pr i 1) = rxArmWord s.params.rxBufSize ∧
        t.wordAt (slotAddr pr i 2) = 0#32 ∧ t.wordAt (slotAddr pr i 3) = 0#32) ∧
      (∀ i w, i < ringSize s.params.txLenExp → w < 4 → t.wordAt (slotAddr pt i w) = 0#32) ∧
      s.sameBytesOutside t [(a, 28), (pr.toNat, 16 * ringSize s.params.rxLenExp),
        (pt.toNat, 16 * ringSize s.params.txLenExp)]

/-- R220, R351: CLOSE of a running block. -/
def Obligations.CloseStops : Prop :=
  ∀ (s : State) (S : Strategy), s.ready s.caller → s.answeredBy S → s.lifecycle = .running →
    ∃ t : State, exec .close s = .next t ∧
      t = { s with
        lifecycle := .closed, ienaShadow := false,
        device := { s.device with rap := 0#16, state := .stopped, latches := 0#16 },
        replies := s.replied s.caller ⟨.ok, 0#16⟩,
        history := s.traced [.issued s.caller .close, .ioWrite S.width (rapPort S s.params) 0#32,
          .ioWrite S.width (dataPort S s.params .csr) 0x00000004#32, .returned s.caller .close ⟨.ok, 0#16⟩] } ∧
      s.sameBytes t ∧ csr0Value t.params t.device = 0x0004#16

/-- R220, R264, R323, R270, R290: outside RUNNING, CLOSE, XMIT, IRQ, RECLAIM and DRAIN make no access and change nothing
but the outcome at their port (and `def_busy`, which the deferred agent's commands leave 0, R334). -/
def Obligations.NotRunningNoEffect : Prop :=
  ∀ s : State, s.lifecycle ≠ .running →
    (s.ready s.caller → exec .close s = .next { s with
        replies := s.replied s.caller ⟨.ok, 0#16⟩,
        history := s.traced [.issued s.caller .close, .returned s.caller .close ⟨.ok, 0#16⟩] }) ∧
    (∀ addr len, s.ready s.caller → 1 ≤ len → len ≤ s.params.maxTxLen →
      exec (.xmit addr len) s = .next { s with
        replies := s.replied s.caller ⟨.queueFull, 0#16⟩,
        history := s.traced [.issued s.caller (.xmit addr len),
          .returned s.caller (.xmit addr len) ⟨.queueFull, 0#16⟩] }) ∧
    (s.ready .irq → exec .irq s = .next { s with
        replies := s.replied .irq ⟨.ok, 0#16⟩,
        history := s.traced [.issued .irq .irq, .returned .irq .irq ⟨.ok, 0#16⟩] }) ∧
    (s.ready .deferred → exec .reclaim s = .next { s with
        defBusy := false, replies := s.replied .deferred ⟨.ok, 0#16⟩,
        history := s.traced [.issued .deferred .reclaim, .returned .deferred .reclaim ⟨.ok, 0#16⟩] }) ∧
    (s.isIdle .deferred = true → s.sched = [] → exec .drain s = .next { s with
        defBusy := false, replies := s.replied .deferred ⟨.ok, 0#16⟩,
        history := s.traced [.issued .deferred .drain, .returned .deferred .drain ⟨.ok, 0#16⟩] })

/-- R230, R246: DETACH of a stopped device, or of a block with no ring, releases the rings that are allocated, RX first,
and the Initialization Block; the history is exactly the calls of these releases. That the in-flight TX frames go by
ascending slot number is log 34's choice (DESIGN CHOICE), that the other registers of a released ring keep their values is
log 30's reading (DEDUCED), and that `queue_stopped` keeps its value is log 35's choice between R440 and R447 (DESIGN
CHOICE). -/
def Obligations.DetachReleases : Prop :=
  ∀ s : State, s.ready s.caller → s.taskPending = false → s.defBusy = false →
    (s.lifecycle = .attached ∨ s.lifecycle = .closed) → s.sized →
    (s.device.state = .stopped ∨ (s.rx.alloc = false ∧ s.tx.alloc = false)) →
    ∃ t : State, exec .detach s = .next t ∧
      t = { s.released with
        lifecycle := .detached, mode := .none, ib := { s.ib with alloc := false },
        hostFrames := t.hostFrames, replies := s.replied s.caller ⟨.ok, 0#16⟩, history := t.history } ∧
      s.sameBytes t ∧
      t.history = s.traced ([.issued s.caller .detach] ++
        (if s.rx.alloc then s.rxReleaseEvents else []) ++ (if s.tx.alloc then s.txReleaseEvents else []) ++
        [.call (.free s.ib.vptr s.ib.phys 28), .returned s.caller .detach ⟨.ok, 0#16⟩])

/-- R200, R210, R230, R240, R245, R406: a lifecycle or ring command in a state that it has no rule for is refused, with
the lock released and nothing else changed. -/
def Obligations.LifecycleRefused : Prop :=
  ∀ (s : State) (i : Instr), s.ready s.caller → s.taskPending = false → s.defBusy = false →
    ((i = .attach ∧ s.lifecycle ≠ .detached) ∨
      (((∃ mac, i = .openDev mac) ∨ i = .detach ∨ (∃ r e, i = .ralloc r e) ∨ (∃ r, i = .rfree r)) ∧
        s.lifecycle ≠ .attached ∧ s.lifecycle ≠ .closed) ∨
      (∃ r, i = .rfree r ∧ s.ringAlloc r = false) ∨
      (∃ r e, i = .ralloc r e ∧ 1 ≤ e ∧ e ≤ s.params.maxLenExp ∧ s.ringAlloc r = true)) →
    ∃ f : State, exec i s = .refused (.lifecycle f) ∧
      f = { s with tasks := f.tasks, refusalMark := some .lifecycle, history := s.traced [.issued s.caller i] } ∧
      s.sameBytes f

/-- R240, R265: an exponent or a length out of range is refused, and R243, R340, R406: so is a ring whose allocation
fails, the lock free again. That XMIT's length is checked whatever the lock is log 27's reading (DEDUCED), so no lock of
another agent is touched; that a lock the refused caller holds is given back in the refusing transition is log 32's
(DEDUCED), as it is for RALLOC (an idle caller that holds the lock occurs in no run). -/
def Obligations.OperandRefused : Prop :=
  ∀ (s : State), s.isIdle s.caller = true → s.sched = [] →
    (∀ addr len, len < 1 ∨ s.params.maxTxLen < len →
      ∃ f : State, exec (.xmit addr len) s = .refused (.operand f) ∧
        f = { s.unlock s.caller with
          tasks := f.tasks, refusalMark := some .operand, history := s.traced [.issued s.caller (.xmit addr len)] } ∧
        (s.lockOwner ≠ some s.caller → f.lockOwner = s.lockOwner) ∧ s.sameBytes f) ∧
    (∀ r e, e < 1 ∨ s.params.maxLenExp < e → s.lockOwner = none →
      s.lifecycle = .attached ∨ s.lifecycle = .closed →
      ∃ f : State, exec (.ralloc r e) s = .refused (.operand f) ∧
        f = { s with
          tasks := f.tasks, refusalMark := some .operand, history := s.traced [.issued s.caller (.ralloc r e)] } ∧
        s.sameBytes f) ∧
    (∀ r e as, 1 ≤ e → e ≤ s.params.maxLenExp → s.lockOwner = none → s.lifecycle = .attached ∨ s.lifecycle = .closed →
      s.ringAlloc r = false → s.oracle.allocs = none :: as →
      ∃ f : State, exec (.ralloc r e) s = .refused (.alloc f) ∧
        f = { s with
          tasks := f.tasks, lockOwner := none, refusalMark := some .alloc,
          oracle := { s.oracle with allocs := as, asked := s.oracle.asked + 1 },
          history := s.traced [.issued s.caller (.ralloc r e), .call (.alloc (16 * ringSize e) none)] } ∧
        s.sameBytes f)

/-! ### The ring commands -/

/-- R240, R241, R242: RALLOC of the TX ring. -/
def Obligations.RallocTx : Prop :=
  ∀ (s : State) (e v : Nat) (p : Word) (as : List (Option (Nat × Word))), s.ready s.caller →
    (s.lifecycle = .attached ∨ s.lifecycle = .closed) → 1 ≤ e → e ≤ s.params.maxLenExp → e ≤ 15 →
    s.tx.alloc = false → s.oracle.allocs = some (v, p) :: as → s.fresh [(p.toNat, 16 * ringSize e)] →
    p.toNat % 16 = 0 →
    ∃ t : State, exec (.ralloc .tx e) s = .next t ∧
      t = { s with
        tx := TxRing.made e v p, memory := t.memory, oracle := t.oracle,
        replies := s.replied s.caller ⟨.ok, 0#16⟩, history := t.history } ∧
      t.oracle.allocs = as ∧
      (∀ x, p.toNat ≤ x → x < p.toNat + 16 * ringSize e → t.byteAt x = 0#8) ∧
      s.sameBytesOutside t [(p.toNat, 16 * ringSize e)]

/-- R240, R241, R242: RALLOC of the RX ring, with its buffers. -/
def Obligations.RallocRx : Prop :=
  ∀ (s : State) (e v : Nat) (p : Word) (bufs : List RxBuffer) (as : List (Option (Nat × Word))), s.ready s.caller →
    (s.lifecycle = .attached ∨ s.lifecycle = .closed) → 1 ≤ e → e ≤ s.params.maxLenExp → e ≤ 15 →
    s.rx.alloc = false → bufs.length = ringSize e →
    s.oracle.allocs = some (v, p) :: answersOf bufs ++ as →
    s.fresh ((p.toNat, 16 * ringSize e) :: bufferRegions s.params.rxBufSize bufs) → p.toNat % 16 = 0 →
    ∃ t : State, exec (.ralloc .rx e) s = .next t ∧
      t = { s with
        rx := RxRing.made e v p bufs, memory := t.memory, oracle := t.oracle,
        replies := s.replied s.caller ⟨.ok, 0#16⟩, history := t.history } ∧
      t.oracle.allocs = as ∧
      (∀ x, p.toNat ≤ x → x < p.toNat + 16 * ringSize e → t.byteAt x = 0#8) ∧
      s.sameBytesOutside t [(p.toNat, 16 * ringSize e)]

/-- R245, R246: RFREE of an allocated ring of a stopped device. That the in-flight TX frames go by ascending slot number
is log 34's choice (DESIGN CHOICE), and that the other registers keep their values is log 30's reading (DEDUCED). -/
def Obligations.RfreeReleases : Prop :=
  ∀ (s : State) (r : Ring), s.ready s.caller → s.taskPending = false → s.defBusy = false →
    (s.lifecycle = .attached ∨ s.lifecycle = .closed) → s.sized → s.device.state = .stopped → s.ringAlloc r = true →
    ∃ t : State, exec (.rfree r) s = .next t ∧
      t = { s with
        tx := (match r with | .tx => s.tx.released | .rx => s.tx),
        rx := (match r with | .tx => s.rx | .rx => s.rx.released),
        hostFrames := t.hostFrames, replies := s.replied s.caller ⟨.ok, 0#16⟩, history := t.history } ∧
      s.sameBytes t ∧
      (r = .rx → t.hostFrames = s.hostFrames) ∧
      (r = .rx → t.history = s.traced ((.issued s.caller (.rfree r)) ::
        s.rx.buf.map (fun b => .call (.free b.vptr b.phys s.params.rxBufSize)) ++
        [.call (.free s.rx.vptr s.rx.base (16 * ringSize s.rx.exp)), .returned s.caller (.rfree r) ⟨.ok, 0#16⟩])) ∧
      (r = .tx → t.history = s.traced ((.issued s.caller (.rfree r)) ::
        (s.tx.map.filterMap id).flatMap (fun m => [.call (.unmap m.phys m.len .toDevice), .call (.releaseFrame m.handle)]) ++
        [.call (.free s.tx.vptr s.tx.base (16 * ringSize s.tx.exp)), .returned s.caller (.rfree r) ⟨.ok, 0#16⟩]))

/-- R246, R405: `ring_release` while the device is not stopped records F_RELEASE_LIVE with the ring, and releases
nothing: in RFREE, in DETACH (R230, RX first), and in OPEN on a mode the device does not answer, whose reset then has no
effect (R211, R369). The OPEN clause is log 42's choice of R246 with R369 over R210's sentence that the fault cannot arise
there (DESIGN CHOICE); that the lock is still held in the final state is log 32's reading (DEDUCED). -/
def Obligations.ReleaseLiveFaults : Prop :=
  ∀ (s : State) (r : Ring), s.ready s.caller → s.taskPending = false → s.defBusy = false →
    (s.lifecycle = .attached ∨ s.lifecycle = .closed) → s.device.state ≠ .stopped → s.ringAlloc r = true →
    (∃ f : State,
      exec (.rfree r) s = .fault (.releaseLive ⟨.releaseLive, .ring r, s.caller, some (.rfree r)⟩ f) ∧
      f = { s with
        tasks := f.tasks, lockOwner := some s.caller,
        faultRecord := some ⟨.releaseLive, .ring r, s.caller, some (.rfree r)⟩,
        history := s.traced [.issued s.caller (.rfree r)] } ∧
      s.sameBytes f) ∧
    (r = .rx ∨ s.ringAlloc .rx = false →
      (∃ f : State,
        exec .detach s = .fault (.releaseLive ⟨.releaseLive, .ring r, s.caller, some .detach⟩ f) ∧
        f = { s with
          tasks := f.tasks, lockOwner := some s.caller,
          faultRecord := some ⟨.releaseLive, .ring r, s.caller, some .detach⟩,
          history := s.traced [.issued s.caller .detach] } ∧
        s.sameBytes f) ∧
      (∀ (mac : BitVec 48) (S : Strategy), s.mode.strategy = some S → answers s.params S = false →
        ∃ (w : Word) (f : State),
          exec (.openDev mac) s =
            .fault (.releaseLive ⟨.releaseLive, .ring r, s.caller, some (.openDev mac)⟩ f) ∧
          f = { s with
            tasks := f.tasks, lockOwner := some s.caller, lifecycle := .opening, oracle := f.oracle,
            faultRecord := some ⟨.releaseLive, .ring r, s.caller, some (.openDev mac)⟩,
            history := s.traced [.issued s.caller (.openDev mac),
              .ioRead S.width (resetPortAddr S s.params) w] } ∧
          s.sameBytes f))

/-! ### Transmit -/

/-- R260, R261, R262: XMIT on a ring with room: the mapping, the slot, the cursor, the count, the demand. That the mapper
puts the frame's known bytes in the mapped region is the model's way to meet R133 (DESIGN CHOICE, log 17); nothing else is
stored but the slot's words 0, 1, 2. On a mode the device does not answer the demand has no effect (R369); this statement
is for the mode it answers. -/
def Obligations.XmitPublishes : Prop :=
  ∀ (s : State) (addr : Word) (len : Nat) (S : Strategy) (phys : Word) (ms : List Word),
    s.ready s.caller → s.answeredBy S → s.lifecycle = .running → 1 ≤ len → len ≤ s.params.maxTxLen →
    s.tx.alloc = true → s.tx.count < ringSize s.tx.exp → s.tx.current < ringSize s.tx.exp →
    ringPlaced s.tx.base s.tx.exp → owned (s.wordAt (slotAddr s.tx.base s.tx.current 1)) = false →
    s.oracle.maps = phys :: ms → s.fresh [(phys.toNat, len)] →
    ∃ t : State, exec (.xmit addr len) s = .next t ∧
      t = { s with
        tx := { s.tx with
          map := s.tx.map.set s.tx.current (some ⟨phys, len, addr⟩),
          current := (s.tx.current + 1) % ringSize s.tx.exp, count := s.tx.count + 1 },
        device := csr0Write { s.device with rap := 0#16 } (if s.ienaShadow then 0x0048#16 else 0x0008#16),
        memory := t.memory, oracle := t.oracle,
        replies := s.replied s.caller ⟨.ok, 0#16⟩,
        history := s.traced [.issued s.caller (.xmit addr len), .call (.mapForDevice addr len .toDevice phys),
          .memWrite .host (slotAddr s.tx.base s.tx.current 0) (wordBytes phys),
          .memWrite .host (slotAddr s.tx.base s.tx.current 2) (wordBytes 0#32), .fenceW,
          .memWrite .host (slotAddr s.tx.base s.tx.current 1) (wordBytes (0x83000000#32 ||| bcnt16 len)),
          .ioWrite S.width (rapPort S s.params) 0#32,
          .ioWrite S.width (dataPort S s.params .csr) (if s.ienaShadow then 0x00000048#32 else 0x00000008#32),
          .returned s.caller (.xmit addr len) ⟨.ok, 0#16⟩] } ∧
      t.oracle.maps = ms ∧
      t.wordAt (slotAddr s.tx.base s.tx.current 0) = phys ∧
      t.wordAt (slotAddr s.tx.base s.tx.current 1) = 0x83000000#32 ||| bcnt16 len ∧
      t.wordAt (slotAddr s.tx.base s.tx.current 2) = 0#32 ∧
      (∀ bs, s.frameBytes addr = some bs → ∀ k b, k < len → bs[k]? = some b → t.byteAt (phys.toNat + k) = b) ∧
      s.sameBytesOutside t [(phys.toNat, len), (slotAddr s.tx.base s.tx.current 0, 12)]

/-- R263: XMIT on a full ring makes no memory or I/O access, stops the host queue once, and returns QUEUE_FULL. -/
def Obligations.XmitFullRing : Prop :=
  ∀ (s : State) (addr : Word) (len : Nat),
    s.ready s.caller → s.lifecycle = .running → 1 ≤ len → len ≤ s.params.maxTxLen →
    s.tx.count = ringSize s.tx.exp →
    exec (.xmit addr len) s = .next { s with
      queueStopped := true,
      replies := s.replied s.caller ⟨.queueFull, 0#16⟩,
      history := s.traced ([.issued s.caller (.xmit addr len)] ++
        (if s.queueStopped then [] else [.call .stopQueue]) ++
        [.returned s.caller (.xmit addr len) ⟨.queueFull, 0#16⟩]) }

/-- R125, R405: XMIT into a slot the device owns records F_OWN_VIOLATION before the first store to the slot. -/
def Obligations.XmitOwnedSlotFaults : Prop :=
  ∀ (s : State) (addr : Word) (len : Nat) (phys : Word) (ms : List Word),
    s.ready s.caller → s.lifecycle = .running → 1 ≤ len → len ≤ s.params.maxTxLen →
    s.tx.alloc = true → s.tx.count < ringSize s.tx.exp → s.tx.current < ringSize s.tx.exp →
    ringPlaced s.tx.base s.tx.exp → owned (s.wordAt (slotAddr s.tx.base s.tx.current 1)) = true →
    s.oracle.maps = phys :: ms → s.fresh [(phys.toNat, len)] →
    ∃ f : State, exec (.xmit addr len) s =
        .fault (.ownViolation ⟨.ownViolation, .address (slotAddr s.tx.base s.tx.current 0), s.caller,
          some (.xmit addr len)⟩ f) ∧
      s.sameBytesOutside f [(phys.toNat, len)] ∧ f.device = s.device

/-- R270, R271: RECLAIM takes the completed slots from the oldest on, up to the first one the device still owns: it
unmaps and releases the frame of each, counts it, and empties its `tx_map` entry; the other entries stay. That a released
frame leaves `hostFrames` is log 17's choice (DESIGN CHOICE). -/
def Obligations.ReclaimCompleted : Prop :=
  ∀ s : State, s.ready .deferred → s.lifecycle = .running → s.tx.inv → s.sized → ringPlaced s.tx.base s.tx.exp →
    let n := ringSize s.tx.exp
    let slot := fun j => (s.tx.last + j) % n
    let w1 := fun j => s.wordAt (slotAddr s.tx.base (slot j) 1)
    let w2 := fun j => s.wordAt (slotAddr s.tx.base (slot j) 2)
    let len := fun j => ((s.tx.map[slot j]?).join.map TxMapping.len).getD 0
    ∃ (k : Nat) (t : State), exec .reclaim s = .next t ∧
      k ≤ s.tx.count ∧ (∀ j, j < k → owned (w1 j) = false) ∧ (k < s.tx.count → owned (w1 k) = true) ∧
      t = { s with
        defBusy := false,
        tx := { s.tx with
          map := (List.range k).foldl (fun m j => m.set (slot j) none) s.tx.map,
          last := slot k, count := s.tx.count - k },
        counters := (List.range k).foldl (fun c j =>
          if (w1 j).getLsbD 30 || (w2 j).getLsbD 30 || (w2 j).getLsbD 28 || (w2 j).getLsbD 27 || (w2 j).getLsbD 26 then
            { c with txErrors := bump s.params c.txErrors 1 }
          else
            { c with txPackets := bump s.params c.txPackets 1, txBytes := bump s.params c.txBytes (len j) })
          s.counters,
        hostFrames := s.reclaimedFrames k s.hostFrames,
        replies := s.replied .deferred ⟨.ok, 0#16⟩,
        history := s.traced ([.issued .deferred .reclaim] ++ (List.range k).flatMap s.reclaimEvents ++
          s.lastRead s.tx.base (slot k) k s.tx.count ++ [.returned .deferred .reclaim ⟨.ok, 0#16⟩]) } ∧
      s.sameBytes t ∧ t.tx.inv

/-- R34, R35, R274: XMIT and RECLAIM, run alone, keep the invariant of the TX ring. -/
def Obligations.TxRingInvariantKept : Prop :=
  ∀ (s t : State) (i : Instr), s.sched = [] → s.lockOwner = none → s.sized → s.tx.inv →
    ringPlaced s.tx.base s.tx.exp →
    ((∃ addr len, i = .xmit addr len) ∨ i = .reclaim) → exec i s = .next t → t.tx.inv

/-! ### Receive -/

/-- R296: DRAIN with no completed slot makes one read and changes nothing else. -/
def Obligations.DrainEmptyRing : Prop :=
  ∀ s : State, s.isIdle .deferred = true → s.sched = [] → s.lifecycle = .running →
    s.rx.current < ringSize s.rx.exp → ringPlaced s.rx.base s.rx.exp →
    owned (s.wordAt (slotAddr s.rx.base s.rx.current 1)) = true →
    ∃ t : State, exec .drain s = .next t ∧
      t = { s with
        defBusy := false,
        replies := s.replied .deferred ⟨.ok, 0#16⟩,
        history := s.traced [.issued .deferred .drain,
          .memRead .host (slotAddr s.rx.base s.rx.current 1) (s.bytesAt (slotAddr s.rx.base s.rx.current 1) 4),
          .returned .deferred .drain ⟨.ok, 0#16⟩] } ∧
      s.sameBytes t

/-- R290 to R295, R297: DRAIN takes the completed slots from `rx_current` on, at most `N_rx` of them (R294), counts each
once (R292), delivers the bytes of every good one whose copy was granted, in slot order (R291, R134), and re-arms each
(R293). The answers of `alloc_frame` are the next ones of the oracle, whatever they are; only the words 1 and 2 of the
slots it takes are stored to. That a delivered frame leaves `hostFrames`, and that a live handle may be answered whose
bytes it then replaces, are the choices of log 17 and log 33 (DESIGN CHOICE). -/
def Obligations.DrainCompleted : Prop :=
  ∀ s : State, s.isIdle .deferred = true → s.sched = [] → s.lifecycle = .running → s.rx.inv → s.sized →
    ringPlaced s.rx.base s.rx.exp → s.buffersPlaced →
    let n := ringSize s.rx.exp
    let slot := fun j => (s.rx.current + j) % n
    let w1 := fun j => s.wordAt (slotAddr s.rx.base (slot j) 1)
    let w2 := fun j => s.wordAt (slotAddr s.rx.base (slot j) 2)
    let good := fun j => !rxBad s.params.rxBufSize (w1 j) (w2 j)
    let asked := fun k => ((List.range k).filter good).length
    ∃ (k : Nat) (t : State), exec .drain s = .next t ∧
      k ≤ n ∧ (∀ j, j < k → owned (w1 j) = false) ∧ (k < n → owned (w1 k) = true) ∧
      t = { s with
        defBusy := false,
        rx := { s.rx with current := slot k },
        counters := (List.range k).foldl (fun c j =>
          if good j then
            match s.frameAnswerAt (asked j) with
            | some _ =>
              { c with
                rxPackets := bump s.params c.rxPackets 1,
                rxBytes := bump s.params c.rxBytes (mcnt (w2 j) - 4) }
            | none => { c with rxDropped := bump s.params c.rxDropped 1 }
          else { c with rxErrors := bump s.params c.rxErrors 1 }) s.counters,
        hostFrames := s.drainedFrames k s.hostFrames, memory := t.memory,
        oracle := { s.oracle with frames := s.oracle.frames.drop (asked k), asked := s.oracle.asked + asked k },
        replies := s.replied .deferred ⟨.ok, 0#16⟩,
        history := s.traced ([.issued .deferred .drain] ++ (List.range k).flatMap s.drainEvents ++
          s.lastRead s.rx.base (slot k) k n ++ [.returned .deferred .drain ⟨.ok, 0#16⟩]) } ∧
      (∀ j, j < k → t.wordAt (slotAddr s.rx.base (slot j) 1) = 0x80000000#32 ||| bcnt16 s.params.rxBufSize ∧
        t.wordAt (slotAddr s.rx.base (slot j) 2) = 0#32) ∧
      s.sameBytesOutside t ((List.range k).map fun j => (slotAddr s.rx.base (slot j) 1, 8))

/-- R291, R295: the classification of a completed slot. -/
def Obligations.RxClassification : Prop :=
  ∀ (n : Nat) (w1 w2 : Word),
    rxBad n w1 w2 = true ↔
      w1.getLsbD 30 = true ∨ w1.getLsbD 29 = true ∨ w1.getLsbD 28 = true ∨ w1.getLsbD 27 = true ∨
      w1.getLsbD 25 = false ∨ w1.getLsbD 24 = false ∨
      (w2.extractLsb' 0 12).toNat < 4 ∨ n < (w2.extractLsb' 0 12).toNat - 4

/-! ### Interrupt and deferred task -/

/-- R320 to R322, R326: IRQ on an asserted or unasserted INTR. The device raises no cause meanwhile (no other agent is
scheduled), its status is consistent, and the acknowledgement clears the causes (`ACK_CLEAR_MASK` names none). -/
def Obligations.IrqServices : Prop :=
  ∀ (s : State) (S : Strategy), s.ready .irq → s.answeredBy S → s.lifecycle = .running → s.device.statusOk →
    s.params.ackClearMask &&& 0x7F00#16 = 0#16 → s.params.ackClearMask &&& 0x0040#16 = 0x0040#16 →
    let l := s.device.latches
    let intr := (csr0Value s.params s.device).getLsbD 7
    let completed := l.getLsbD 10 || l.getLsbD 9
    ∃ t : State, exec .irq s = .next t ∧
      t = { s with
        device := t.device, oracle := t.oracle, ienaShadow := if intr then !completed else s.ienaShadow,
        taskPending := s.taskPending || (intr && completed),
        counters := { s.counters with
          collisions := if intr && l.getLsbD 13 then bump s.params s.counters.collisions 1 else s.counters.collisions,
          missedFrames :=
            if intr && l.getLsbD 12 then bump s.params s.counters.missedFrames 1 else s.counters.missedFrames },
        replies := s.replied .irq ⟨.ok, 0#16⟩, history := t.history } ∧
      s.sameBytes t ∧
      t.device = { s.device with
        rap := 0#16,
        latches := if intr then (l &&& 0x000B#16) ||| (if completed then 0#16 else 0x0040#16) else l }

/-- R333: DTASK outside RUNNING only clears `task_pending` and `def_busy`. -/
def Obligations.DtaskNotRunning : Prop :=
  ∀ s : State, s.ready .deferred → s.lifecycle ≠ .running →
    exec .dtask s = .next { s with
      taskPending := false, defBusy := false,
      replies := s.replied .deferred ⟨.ok, 0#16⟩,
      history := s.traced [.issued .deferred .dtask, .returned .deferred .dtask ⟨.ok, 0#16⟩] }

/-- R330 to R332: DTASK of a running block drains, reclaims, wakes a stopped queue that has room, re-enables interrupts,
and clears `task_pending`. What it does with each slot is what DRAIN and RECLAIM do (`DrainCompleted`, `ReclaimCompleted`),
with `hostFrames` by the choices of log 17 and log 33 (DESIGN CHOICE). -/
def Obligations.DtaskRuns : Prop :=
  ∀ (s : State) (S : Strategy), s.ready .deferred → s.answeredBy S → s.lifecycle = .running → s.sized →
    s.rx.inv → ringPlaced s.rx.base s.rx.exp → s.buffersPlaced →
    s.tx.inv → ringPlaced s.tx.base s.tx.exp →
    disjointRegions s.rx.base.toNat (16 * ringSize s.rx.exp) s.tx.base.toNat (16 * ringSize s.tx.exp) = true →
    ∃ (k j : Nat) (t : State), exec .dtask s = .next t ∧ k ≤ ringSize s.rx.exp ∧ j ≤ s.tx.count ∧
      (∀ i, i < k → owned (s.wordAt (slotAddr s.rx.base ((s.rx.current + i) % ringSize s.rx.exp) 1)) = false) ∧
      (k < ringSize s.rx.exp →
        owned (s.wordAt (slotAddr s.rx.base ((s.rx.current + k) % ringSize s.rx.exp) 1)) = true) ∧
      (∀ i, i < j → owned (s.wordAt (slotAddr s.tx.base ((s.tx.last + i) % ringSize s.tx.exp) 1)) = false) ∧
      (j < s.tx.count →
        owned (s.wordAt (slotAddr s.tx.base ((s.tx.last + j) % ringSize s.tx.exp) 1)) = true) ∧
      t = { s with
        taskPending := false, defBusy := false, ienaShadow := true,
        queueStopped := s.queueStopped && decide (ringSize s.tx.exp ≤ s.tx.count - j),
        rx := { s.rx with current := (s.rx.current + k) % ringSize s.rx.exp },
        tx := { s.tx with
          map := s.reclaimedMap j, last := (s.tx.last + j) % ringSize s.tx.exp, count := s.tx.count - j },
        device := csr0Write { s.device with rap := 0#16 } 0x0040#16,
        counters := s.reclaimedCounts j (s.drainedCounts k s.counters),
        hostFrames := s.reclaimedFrames j (s.drainedFrames k s.hostFrames),
        memory := t.memory, oracle := s.drainedOracle k,
        replies := s.replied .deferred ⟨.ok, 0#16⟩,
        history := s.traced ([.issued .deferred .dtask] ++ (List.range k).flatMap s.drainEvents ++
          s.lastRead s.rx.base (s.rxAt k) k (ringSize s.rx.exp) ++ (List.range j).flatMap s.reclaimEvents ++
          s.lastRead s.tx.base (s.txAt j) j s.tx.count ++
          (if s.queueStopped && decide (s.tx.count - j < ringSize s.tx.exp) then [.call .wakeQueue] else []) ++
          [.ioWrite S.width (rapPort S s.params) 0#32,
           .ioWrite S.width (dataPort S s.params .csr) 0x00000040#32,
           .returned .deferred .dtask ⟨.ok, 0#16⟩]) } ∧
      t.tx.inv ∧
      (∀ i, i < k → t.wordAt (slotAddr s.rx.base ((s.rx.current + i) % ringSize s.rx.exp) 1) =
          0x80000000#32 ||| bcnt16 s.params.rxBufSize ∧
        t.wordAt (slotAddr s.rx.base ((s.rx.current + i) % ringSize s.rx.exp) 2) = 0#32) ∧
      s.sameBytesOutside t ((List.range k).map fun i =>
        (slotAddr s.rx.base ((s.rx.current + i) % ringSize s.rx.exp) 1, 8))

/-! ### Holds -/

/-- R340: a caller's command takes no step past its `acquire` while an agent holds the lock; it is then in mid-command,
and nothing else changes. -/
def Obligations.LockHolds : Prop :=
  ∀ (s : State) (i : Instr) (b : Agent), s.isIdle s.caller = true → s.sched = [] → s.lockOwner = some b →
    ((∃ idx, i = .rdcsr idx) ∨ (∃ idx val, i = .wrcsr idx val) ∨ (∃ idx, i = .rdbcr idx) ∨
      (∃ idx val, i = .wrbcr idx val) ∨ i = .rreset ∨ i = .attach ∨ (∃ mac, i = .openDev mac) ∨ i = .close ∨
      i = .detach ∨ (∃ r e, i = .ralloc r e) ∨ (∃ r, i = .rfree r) ∨
      (∃ addr len, i = .xmit addr len ∧ 1 ≤ len ∧ len ≤ s.params.maxTxLen)) →
    exec i s = .next { s with
      tasks := (s.caller, ⟨i, [.acquire]⟩) :: s.tasks.filter (fun y => y.1 != s.caller),
      history := s.traced [.issued s.caller i] }

/-- R247: OPEN, DETACH and RFREE hold while a task is pending or the deferred agent is busy. -/
def Obligations.TeardownHolds : Prop :=
  ∀ (s : State) (i : Instr), s.ready s.caller → (s.taskPending = true ∨ s.defBusy = true) →
    ((∃ mac, i = .openDev mac) ∨ i = .detach ∨ (∃ r, i = .rfree r)) →
    exec i s = .next { s with
      tasks := (s.caller, ⟨i, [.acquire]⟩) :: s.tasks.filter (fun y => y.1 != s.caller),
      history := s.traced [.issued s.caller i] }

/-! ### The device -/

/-- R368: the quiescent states. -/
def Obligations.QuiescentDevice : Prop :=
  ∀ (s : State) (m : DeviceStep),
    (s.device.state = .stopped ∨ s.device.state = .initialised → deviceStep m s = .ok s) ∧
    (s.device.state = .initialising → m ≠ .init → deviceStep m s = .ok s)

/-- R360: the INIT handshake. -/
def Obligations.DeviceInitLatches : Prop :=
  ∀ s : State, s.device.state = .initialising →
    let a := (s.device.csr2 ++ s.device.csr1 : Word).toNat
    a + 28 ≤ memTop → s.splits a 28 = false →
    ∃ t : State, deviceStep .init s = .ok t ∧
      t = { s with
        device := { s.device with
          state := .initialised, latches := s.device.latches ||| 0x0100#16, devTx := 0, devRx := 0,
          cfg := {
            mode := s.halfAt a
            rxExp := (s.byteAt (a + 2)).extractLsb' 4 4
            txExp := (s.byteAt (a + 3)).extractLsb' 4 4
            padr := s.byteAt (a + 9) ++ s.byteAt (a + 8) ++ s.byteAt (a + 7) ++ s.byteAt (a + 6) ++ s.byteAt (a + 5) ++
              s.byteAt (a + 4)
            ladrf := s.wordAt (a + 16) ++ s.wordAt (a + 12)
            rxBase := s.wordAt (a + 20)
            txBase := s.wordAt (a + 24) } },
        history := .memRead .device a (s.bytesAt a 28) :: s.history }

/-- R361, R362: the device transmits and completes a slot it owns. The status is the device's choice; ERR_D goes with an
error flag (R362). -/
def Obligations.DeviceTransmits : Prop :=
  ∀ (s : State) (status any : Word) (cerr : Bool), s.device.state = .running →
    let c := s.device.cfg
    let n := 2 ^ c.txExp.toNat
    let a1 := slotAddr c.txBase s.device.devTx 1
    let w1 := s.wordAt a1
    let b := (s.wordAt (slotAddr c.txBase s.device.devTx 0)).toNat
    let len := bcntLen w1
    s.device.devTx < n → ringPlaced c.txBase c.txExp.toNat →
    owned w1 = true → w1.getLsbD 25 = true → w1.getLsbD 24 = true →
    b + len ≤ memTop → s.splits b len = false →
    ∃ t : State, deviceStep (.txPoll status any cerr) s = .ok t ∧
      t = { s with
        device := { s.device with
          devTx := (s.device.devTx + 1) % n,
          latches := (s.device.latches &&& ~~~0x0008#16) ||| 0x0200#16 ||| (if cerr then 0x2000#16 else 0#16) },
        memory := t.memory, history := t.history } ∧
      Event.wireTx (s.bytesAt b len) ∈ t.history ∧
      t.wordAt (slotAddr c.txBase s.device.devTx 2) = status ∧
      owned (t.wordAt a1) = false ∧
      (t.wordAt a1).getLsbD 30 = (status.getLsbD 31 || status.getLsbD 30 || status.getLsbD 28 || status.getLsbD 27 ||
        status.getLsbD 26) ∧
      (t.wordAt a1).extractLsb' 0 16 = w1.extractLsb' 0 16 ∧
      s.sameBytesOutside t [(a1, 8)]

/-- R363: the device receives a frame that fits into a slot it owns. -/
def Obligations.DeviceReceives : Prop :=
  ∀ (s : State) (frame : List Byte) (fcs errs x y : Word) (extra : List OversizeSlot), s.device.state = .running →
    let c := s.device.cfg
    let n := 2 ^ c.rxExp.toNat
    let a1 := slotAddr c.rxBase s.device.devRx 1
    let w1 := s.wordAt a1
    let b := (s.wordAt (slotAddr c.rxBase s.device.devRx 0)).toNat
    1 ≤ frame.length → frame.length + 4 ≤ bcntLen w1 →
    s.device.devRx < n → ringPlaced c.rxBase c.rxExp.toNat → owned w1 = true →
    b + (frame.length + 4) ≤ memTop → s.splits b (frame.length + 4) = false →
    disjointRegions b (frame.length + 4) (slotAddr c.rxBase s.device.devRx 0) 16 = true →
    ∃ t : State, deviceStep (.receive frame fcs errs x y extra) s = .ok t ∧
      t = { s with
        device := { s.device with
          devRx := (s.device.devRx + 1) % n, latches := s.device.latches ||| 0x0400#16 },
        memory := t.memory, history := t.history } ∧
      t.history.head? = some (.wireRx frame) ∧
      t.bytesAt b (frame.length + 4) = frame ++ wordBytes fcs ∧
      (t.wordAt (slotAddr c.rxBase s.device.devRx 2)).extractLsb' 0 12 = BitVec.ofNat 12 (frame.length + 4) ∧
      owned (t.wordAt a1) = false ∧ (t.wordAt a1).getLsbD 25 = true ∧ (t.wordAt a1).getLsbD 24 = true ∧
      (t.wordAt a1).extractLsb' 0 16 = w1.extractLsb' 0 16 ∧
      (∀ e, 26 ≤ e → e ≤ 29 → (t.wordAt a1).getLsbD e = errs.getLsbD e) ∧
      (t.wordAt a1).getLsbD 30 = (errs.getLsbD 29 || errs.getLsbD 28 || errs.getLsbD 27 || errs.getLsbD 26) ∧
      s.sameBytesOutside t [(b, frame.length + 4), (a1, 8)]

/-- R364: a frame that finds no device-owned slot is missed. -/
def Obligations.DeviceMisses : Prop :=
  ∀ (s : State) (frame : List Byte) (fcs errs x y : Word) (extra : List OversizeSlot), s.device.state = .running →
    1 ≤ frame.length → ringPlaced s.device.cfg.rxBase s.device.cfg.rxExp.toNat →
    s.device.devRx < 2 ^ s.device.cfg.rxExp.toNat →
    owned (s.wordAt (slotAddr s.device.cfg.rxBase s.device.devRx 1)) = false →
    ∃ t : State, deviceStep (.receive frame fcs errs x y extra) s = .ok t ∧
      t = { s with
        device := { s.device with latches := s.device.latches ||| 0x1000#16 }, history := t.history } ∧
      s.sameBytes t

/-- R361, R365, R366: a TX poll that finds OWN = 0 only clears TDMD, and the device raises CERR, BABL or MERR by steps of
their own. R367: IDON is set by the handshake alone, TINT by a poll of a slot the device owns, RINT by a reception into
one. -/
def Obligations.DeviceOtherSteps : Prop :=
  ∀ s : State,
    let c := s.device.cfg
    let tx1 := slotAddr c.txBase s.device.devTx 1
    let rx1 := slotAddr c.rxBase s.device.devRx 1
    (s.device.state = .running →
      deviceStep .cerr s = .ok { s with device := { s.device with latches := s.device.latches ||| 0x2000#16 } } ∧
      deviceStep .babl s = .ok { s with device := { s.device with latches := s.device.latches ||| 0x4000#16 } } ∧
      deviceStep .merr s = .ok { s with device := { s.device with latches := s.device.latches ||| 0x0800#16 } } ∧
      (∀ (status any : Word) (cerr : Bool), s.device.devTx < 2 ^ c.txExp.toNat → ringPlaced c.txBase c.txExp.toNat →
        owned (s.wordAt tx1) = false →
        deviceStep (.txPoll status any cerr) s = .ok { s with
          device := { s.device with latches := s.device.latches &&& ~~~0x0008#16 },
          history := .memRead .device tx1 (s.bytesAt tx1 4) :: s.history })) ∧
    (∀ (m : DeviceStep) (t : State), deviceStep m s = .ok t →
      let sets := fun b => t.device.latches.getLsbD b = true ∧ s.device.latches.getLsbD b = false
      (sets 8 → m = .init ∧ s.device.state = .initialising) ∧
      (sets 9 → (∃ status any cerr, m = .txPoll status any cerr) ∧ s.device.state = .running ∧
        owned (s.wordAt tx1) = true) ∧
      (sets 10 → (∃ frame fcs errs x y extra, m = .receive frame fcs errs x y extra) ∧ s.device.state = .running ∧
        owned (s.wordAt rx1) = true))

/-- R373, R370: an oversize frame completes one or more consecutive slots from `dev_rx` that the device owns, none of them
with STP and ENP both set and no error bit; the bytes it writes stay within their buffers. That ERR_D alone counts as an
error bit is log 20's choice (DESIGN CHOICE). -/
def Obligations.DeviceOversize : Prop :=
  ∀ (s : State) (frame : List Byte) (fcs errs x y : Word) (extra : List OversizeSlot), s.device.state = .running →
    let c := s.device.cfg
    let n := 2 ^ c.rxExp.toNat
    let slot := fun j => (s.device.devRx + j) % n
    let w1 := fun j => s.wordAt (slotAddr c.rxBase (slot j) 1)
    let buf := fun j => (s.wordAt (slotAddr c.rxBase (slot j) 0)).toNat
    1 ≤ frame.length → bcntLen (w1 0) < frame.length + 4 →
    s.device.devRx < n → ringPlaced c.rxBase c.rxExp.toNat → owned (w1 0) = true →
    (∀ j, j < n → buf j + bcntLen (w1 j) ≤ memTop ∧
      disjointRegions (buf j) (bcntLen (w1 j)) c.rxBase.toNat (16 * n) = true ∧
      ∀ a m, buf j ≤ a → a + m ≤ buf j + bcntLen (w1 j) → s.splits a m = false) →
    ∃ (k : Nat) (t : State), deviceStep (.receive frame fcs errs x y extra) s = .ok t ∧
      1 ≤ k ∧ k ≤ n ∧ (∀ j, j < k → owned (w1 j) = true) ∧
      t = { s with
        device := { s.device with devRx := slot k, latches := s.device.latches ||| 0x0400#16 },
        memory := t.memory, history := t.history } ∧
      (∀ j, j < k →
        let w := t.wordAt (slotAddr c.rxBase (slot j) 1)
        owned w = false ∧
        (w.getLsbD 25 = false ∨ w.getLsbD 24 = false ∨ ∃ b, 26 ≤ b ∧ b ≤ 30 ∧ w.getLsbD b = true)) ∧
      s.sameBytesOutside t ((List.range k).flatMap fun j =>
        [(buf j, bcntLen (w1 j)), (slotAddr c.rxBase (slot j) 1, 8)])

/-- R352: a cause stays latched through every device step, every read of a data port, every write of RAP, every write of
a data port that is no effective CSR0 write, every access on a mode the device does not answer (R369), and every CSR0
write with neither STOP nor that bit; such a write with that bit, STOP and the reset clear it. -/
def Obligations.CausesStayLatched : Prop :=
  ∀ (s : State) (b : Nat), 8 ≤ b → b ≤ 14 → s.device.latches.getLsbD b = true →
    (∀ (m : DeviceStep) (t : State), deviceStep m s = .ok t → t.device.latches.getLsbD b = true) ∧
    (∀ (S : Strategy) (file : RegFile), (readData S file s).2.device = s.device) ∧
    (∀ (S : Strategy) (i : Half), (writeRap S i s).device.latches.getLsbD b = true) ∧
    (∀ (S : Strategy) (file : RegFile) (x : Half) (t : State),
      answers s.params S = false ∨ file = .bcr ∨ s.device.rap ≠ 0#16 →
      writeData S file x s = .ok t → t.device.latches.getLsbD b = true) ∧
    (∀ (S : Strategy) (x : Half), answers s.params S = true → s.device.rap = 0#16 →
      ∃ t : State, writeData S .csr x s = .ok t ∧ t.device = csr0Write s.device x) ∧
    (∀ S : Strategy, answers s.params S = false → (readReset S s).device = s.device) ∧
    (∀ v : Half, v.getLsbD 2 = false →
      (csr0Write s.device v).latches.getLsbD b = !v.getLsbD b) ∧
    (∀ v : Half, v.getLsbD 2 = true → (csr0Write s.device v).latches.getLsbD b = false) ∧
    (∀ S : Strategy, answers s.params S = true → (readReset S s).device.latches.getLsbD b = false)

/-! ### Memory and whole-machine rules -/

/-- R92: a word stored is read back little-endian, and the other bytes keep their values. -/
def Obligations.WordStoredLittleEndian : Prop :=
  ∀ (s : State) (a : Nat) (v : Word),
    let t := s.memWrite .host a (wordBytes v)
    t.wordAt a = v ∧ (∀ k, k < 4 → t.byteAt (a + k) = v.extractLsb' (8 * k) 8) ∧ s.sameBytesOutside t [(a, 4)]

/-- R94, R405: a descriptor-word access at an address that is no multiple of 4 stops before the access. That it is so
whatever other access rule it breaks is log 41's choice (DESIGN CHOICE). -/
def Obligations.MisalignedAccessFaults : Prop :=
  ∀ (s : State) (r : Ring) (i k : Nat) (v : Word), slotAddr (s.ringBase r) i k % 4 ≠ 0 →
    s.hostSlotWrite r i k v = .stop (.fault .misaligned (.address (slotAddr (s.ringBase r) i k))) s ∧
    s.hostSlotRead r i k = .stop (.fault .misaligned (.address (slotAddr (s.ringBase r) i k))) s

/-- The invariant holds after power-on. It is the model's own collection of R44, R50 to R56 and R90 (`Inv`). The clause on
the device cursors leans on the zeros of `cfg`, `dev_tx` and `dev_rx`, which R60 leaves unspecified (DESIGN CHOICE, log 2),
and the clauses on memory on the empty list (DESIGN CHOICE, log 3). -/
def Obligations.InvHoldsAtReset : Prop := Inv State.reset

/-- Every step of the machine, whatever the other agents do in it, keeps `Inv`, the model's own collection of R44, R50 to
R56 and R90. That the cursors are in range after a RESET read is the model's choice (DESIGN CHOICE, log 26; R60 leaves them
unspecified), and so is the canonical form of memory (DESIGN CHOICE, log 3). -/
def Obligations.InvKeptByEveryStep : Prop := ∀ s t : State, Inv s → step s = .next t → Inv t

/-- R24: no step removes or changes an event of the history. -/
def Obligations.HistoryOnlyGrows : Prop :=
  ∀ s t : State, step s = .next t → ∃ es : List Event, t.history = es ++ s.history

/-- R13, R32: no step changes a parameter, and `mode` is changed by ATTACH and DETACH only: a command run alone that is
neither leaves it. -/
def Obligations.ModeOnlyByAttachDetach : Prop :=
  (∀ s t : State, step s = .next t → t.params = s.params) ∧
  (∀ (s t : State) (i : Instr), s.sched = [] → i ≠ .attach → i ≠ .detach → exec i s = .next t → t.mode = s.mode)

end
end

