-- ==== Sys2Proof/Laws/State.lean ====
section
/-! SUPPORT. One lemma per field per named update of State, each true by rfl: no later proof unfolds an update. -/

namespace Sys2Proof.Machine

/-- Two states with equal fields are equal. -/
@[ext] theorem State.ext {s t : State}
    (params : s.params = t.params) (lifecycle : s.lifecycle = t.lifecycle) (mode : s.mode = t.mode)
    (tx : s.tx = t.tx) (rx : s.rx = t.rx) (ib : s.ib = t.ib) (station : s.station = t.station)
    (ienaShadow : s.ienaShadow = t.ienaShadow) (taskPending : s.taskPending = t.taskPending)
    (defBusy : s.defBusy = t.defBusy) (queueStopped : s.queueStopped = t.queueStopped)
    (lockOwner : s.lockOwner = t.lockOwner) (counters : s.counters = t.counters) (tasks : s.tasks = t.tasks)
    (replies : s.replies = t.replies) (faultRecord : s.faultRecord = t.faultRecord)
    (refusalMark : s.refusalMark = t.refusalMark) (device : s.device = t.device) (memory : s.memory = t.memory)
    (hostFrames : s.hostFrames = t.hostFrames) (history : s.history = t.history) (oracle : s.oracle = t.oracle)
    (inbox : s.inbox = t.inbox) (sched : s.sched = t.sched) (issuer : s.issuer = t.issuer) : s = t := by
  cases s; cases t
  cases params; cases lifecycle; cases mode; cases tx; cases rx; cases ib; cases station; cases ienaShadow
  cases taskPending; cases defBusy; cases queueStopped; cases lockOwner; cases counters; cases tasks
  cases replies; cases faultRecord; cases refusalMark; cases device; cases memory; cases hostFrames
  cases history; cases oracle; cases inbox; cases sched; cases issuer
  rfl

variable (s : State)

/-! `State.record` -/

@[simp] theorem record_params (e : Event) : (s.record e).params = s.params := rfl
@[simp] theorem record_lifecycle (e : Event) : (s.record e).lifecycle = s.lifecycle := rfl
@[simp] theorem record_mode (e : Event) : (s.record e).mode = s.mode := rfl
@[simp] theorem record_tx (e : Event) : (s.record e).tx = s.tx := rfl
@[simp] theorem record_rx (e : Event) : (s.record e).rx = s.rx := rfl
@[simp] theorem record_ib (e : Event) : (s.record e).ib = s.ib := rfl
@[simp] theorem record_station (e : Event) : (s.record e).station = s.station := rfl
@[simp] theorem record_ienaShadow (e : Event) : (s.record e).ienaShadow = s.ienaShadow := rfl
@[simp] theorem record_taskPending (e : Event) : (s.record e).taskPending = s.taskPending := rfl
@[simp] theorem record_defBusy (e : Event) : (s.record e).defBusy = s.defBusy := rfl
@[simp] theorem record_queueStopped (e : Event) : (s.record e).queueStopped = s.queueStopped := rfl
@[simp] theorem record_lockOwner (e : Event) : (s.record e).lockOwner = s.lockOwner := rfl
@[simp] theorem record_counters (e : Event) : (s.record e).counters = s.counters := rfl
@[simp] theorem record_tasks (e : Event) : (s.record e).tasks = s.tasks := rfl
@[simp] theorem record_replies (e : Event) : (s.record e).replies = s.replies := rfl
@[simp] theorem record_faultRecord (e : Event) : (s.record e).faultRecord = s.faultRecord := rfl
@[simp] theorem record_refusalMark (e : Event) : (s.record e).refusalMark = s.refusalMark := rfl
@[simp] theorem record_device (e : Event) : (s.record e).device = s.device := rfl
@[simp] theorem record_memory (e : Event) : (s.record e).memory = s.memory := rfl
@[simp] theorem record_hostFrames (e : Event) : (s.record e).hostFrames = s.hostFrames := rfl
@[simp] theorem record_history (e : Event) : (s.record e).history = e :: s.history := rfl
@[simp] theorem record_oracle (e : Event) : (s.record e).oracle = s.oracle := rfl
@[simp] theorem record_inbox (e : Event) : (s.record e).inbox = s.inbox := rfl
@[simp] theorem record_sched (e : Event) : (s.record e).sched = s.sched := rfl
@[simp] theorem record_issuer (e : Event) : (s.record e).issuer = s.issuer := rfl

/-! `State.store` -/

@[simp] theorem store_params (a : Nat) (bs : List Byte) : (s.store a bs).params = s.params := rfl
@[simp] theorem store_lifecycle (a : Nat) (bs : List Byte) : (s.store a bs).lifecycle = s.lifecycle := rfl
@[simp] theorem store_mode (a : Nat) (bs : List Byte) : (s.store a bs).mode = s.mode := rfl
@[simp] theorem store_tx (a : Nat) (bs : List Byte) : (s.store a bs).tx = s.tx := rfl
@[simp] theorem store_rx (a : Nat) (bs : List Byte) : (s.store a bs).rx = s.rx := rfl
@[simp] theorem store_ib (a : Nat) (bs : List Byte) : (s.store a bs).ib = s.ib := rfl
@[simp] theorem store_station (a : Nat) (bs : List Byte) : (s.store a bs).station = s.station := rfl
@[simp] theorem store_ienaShadow (a : Nat) (bs : List Byte) : (s.store a bs).ienaShadow = s.ienaShadow := rfl
@[simp] theorem store_taskPending (a : Nat) (bs : List Byte) : (s.store a bs).taskPending = s.taskPending := rfl
@[simp] theorem store_defBusy (a : Nat) (bs : List Byte) : (s.store a bs).defBusy = s.defBusy := rfl
@[simp] theorem store_queueStopped (a : Nat) (bs : List Byte) : (s.store a bs).queueStopped = s.queueStopped := rfl
@[simp] theorem store_lockOwner (a : Nat) (bs : List Byte) : (s.store a bs).lockOwner = s.lockOwner := rfl
@[simp] theorem store_counters (a : Nat) (bs : List Byte) : (s.store a bs).counters = s.counters := rfl
@[simp] theorem store_tasks (a : Nat) (bs : List Byte) : (s.store a bs).tasks = s.tasks := rfl
@[simp] theorem store_replies (a : Nat) (bs : List Byte) : (s.store a bs).replies = s.replies := rfl
@[simp] theorem store_faultRecord (a : Nat) (bs : List Byte) : (s.store a bs).faultRecord = s.faultRecord := rfl
@[simp] theorem store_refusalMark (a : Nat) (bs : List Byte) : (s.store a bs).refusalMark = s.refusalMark := rfl
@[simp] theorem store_device (a : Nat) (bs : List Byte) : (s.store a bs).device = s.device := rfl
@[simp] theorem store_memory (a : Nat) (bs : List Byte) : (s.store a bs).memory = Memory.setBytes s.memory a bs := rfl
@[simp] theorem store_hostFrames (a : Nat) (bs : List Byte) : (s.store a bs).hostFrames = s.hostFrames := rfl
@[simp] theorem store_history (a : Nat) (bs : List Byte) : (s.store a bs).history = s.history := rfl
@[simp] theorem store_oracle (a : Nat) (bs : List Byte) : (s.store a bs).oracle = s.oracle := rfl
@[simp] theorem store_inbox (a : Nat) (bs : List Byte) : (s.store a bs).inbox = s.inbox := rfl
@[simp] theorem store_sched (a : Nat) (bs : List Byte) : (s.store a bs).sched = s.sched := rfl
@[simp] theorem store_issuer (a : Nat) (bs : List Byte) : (s.store a bs).issuer = s.issuer := rfl

/-! `State.memWrite` -/

@[simp] theorem memWrite_params (who : Performer) (a : Nat) (bs : List Byte) :
    (s.memWrite who a bs).params = s.params := rfl
@[simp] theorem memWrite_lifecycle (who : Performer) (a : Nat) (bs : List Byte) :
    (s.memWrite who a bs).lifecycle = s.lifecycle := rfl
@[simp] theorem memWrite_mode (who : Performer) (a : Nat) (bs : List Byte) :
    (s.memWrite who a bs).mode = s.mode := rfl
@[simp] theorem memWrite_tx (who : Performer) (a : Nat) (bs : List Byte) : (s.memWrite who a bs).tx = s.tx := rfl
@[simp] theorem memWrite_rx (who : Performer) (a : Nat) (bs : List Byte) : (s.memWrite who a bs).rx = s.rx := rfl
@[simp] theorem memWrite_ib (who : Performer) (a : Nat) (bs : List Byte) : (s.memWrite who a bs).ib = s.ib := rfl
@[simp] theorem memWrite_station (who : Performer) (a : Nat) (bs : List Byte) :
    (s.memWrite who a bs).station = s.station := rfl
@[simp] theorem memWrite_ienaShadow (who : Performer) (a : Nat) (bs : List Byte) :
    (s.memWrite who a bs).ienaShadow = s.ienaShadow := rfl
@[simp] theorem memWrite_taskPending (who : Performer) (a : Nat) (bs : List Byte) :
    (s.memWrite who a bs).taskPending = s.taskPending := rfl
@[simp] theorem memWrite_defBusy (who : Performer) (a : Nat) (bs : List Byte) :
    (s.memWrite who a bs).defBusy = s.defBusy := rfl
@[simp] theorem memWrite_queueStopped (who : Performer) (a : Nat) (bs : List Byte) :
    (s.memWrite who a bs).queueStopped = s.queueStopped := rfl
@[simp] theorem memWrite_lockOwner (who : Performer) (a : Nat) (bs : List Byte) :
    (s.memWrite who a bs).lockOwner = s.lockOwner := rfl
@[simp] theorem memWrite_counters (who : Performer) (a : Nat) (bs : List Byte) :
    (s.memWrite who a bs).counters = s.counters := rfl
@[simp] theorem memWrite_tasks (who : Performer) (a : Nat) (bs : List Byte) :
    (s.memWrite who a bs).tasks = s.tasks := rfl
@[simp] theorem memWrite_replies (who : Performer) (a : Nat) (bs : List Byte) :
    (s.memWrite who a bs).replies = s.replies := rfl
@[simp] theorem memWrite_faultRecord (who : Performer) (a : Nat) (bs : List Byte) :
    (s.memWrite who a bs).faultRecord = s.faultRecord := rfl
@[simp] theorem memWrite_refusalMark (who : Performer) (a : Nat) (bs : List Byte) :
    (s.memWrite who a bs).refusalMark = s.refusalMark := rfl
@[simp] theorem memWrite_device (who : Performer) (a : Nat) (bs : List Byte) :
    (s.memWrite who a bs).device = s.device := rfl
@[simp] theorem memWrite_memory (who : Performer) (a : Nat) (bs : List Byte) :
    (s.memWrite who a bs).memory = Memory.setBytes s.memory a bs := rfl
@[simp] theorem memWrite_hostFrames (who : Performer) (a : Nat) (bs : List Byte) :
    (s.memWrite who a bs).hostFrames = s.hostFrames := rfl
@[simp] theorem memWrite_history (who : Performer) (a : Nat) (bs : List Byte) :
    (s.memWrite who a bs).history = .memWrite who a bs :: s.history := rfl
@[simp] theorem memWrite_oracle (who : Performer) (a : Nat) (bs : List Byte) :
    (s.memWrite who a bs).oracle = s.oracle := rfl
@[simp] theorem memWrite_inbox (who : Performer) (a : Nat) (bs : List Byte) :
    (s.memWrite who a bs).inbox = s.inbox := rfl
@[simp] theorem memWrite_sched (who : Performer) (a : Nat) (bs : List Byte) :
    (s.memWrite who a bs).sched = s.sched := rfl
@[simp] theorem memWrite_issuer (who : Performer) (a : Nat) (bs : List Byte) :
    (s.memWrite who a bs).issuer = s.issuer := rfl

/-! `State.noteRead` -/

@[simp] theorem noteRead_params (who : Performer) (a n : Nat) : (s.noteRead who a n).params = s.params := rfl
@[simp] theorem noteRead_lifecycle (who : Performer) (a n : Nat) : (s.noteRead who a n).lifecycle = s.lifecycle := rfl
@[simp] theorem noteRead_mode (who : Performer) (a n : Nat) : (s.noteRead who a n).mode = s.mode := rfl
@[simp] theorem noteRead_tx (who : Performer) (a n : Nat) : (s.noteRead who a n).tx = s.tx := rfl
@[simp] theorem noteRead_rx (who : Performer) (a n : Nat) : (s.noteRead who a n).rx = s.rx := rfl
@[simp] theorem noteRead_ib (who : Performer) (a n : Nat) : (s.noteRead who a n).ib = s.ib := rfl
@[simp] theorem noteRead_station (who : Performer) (a n : Nat) : (s.noteRead who a n).station = s.station := rfl
@[simp] theorem noteRead_ienaShadow (who : Performer) (a n : Nat) :
    (s.noteRead who a n).ienaShadow = s.ienaShadow := rfl
@[simp] theorem noteRead_taskPending (who : Performer) (a n : Nat) :
    (s.noteRead who a n).taskPending = s.taskPending := rfl
@[simp] theorem noteRead_defBusy (who : Performer) (a n : Nat) : (s.noteRead who a n).defBusy = s.defBusy := rfl
@[simp] theorem noteRead_queueStopped (who : Performer) (a n : Nat) :
    (s.noteRead who a n).queueStopped = s.queueStopped := rfl
@[simp] theorem noteRead_lockOwner (who : Performer) (a n : Nat) : (s.noteRead who a n).lockOwner = s.lockOwner := rfl
@[simp] theorem noteRead_counters (who : Performer) (a n : Nat) : (s.noteRead who a n).counters = s.counters := rfl
@[simp] theorem noteRead_tasks (who : Performer) (a n : Nat) : (s.noteRead who a n).tasks = s.tasks := rfl
@[simp] theorem noteRead_replies (who : Performer) (a n : Nat) : (s.noteRead who a n).replies = s.replies := rfl
@[simp] theorem noteRead_faultRecord (who : Performer) (a n : Nat) :
    (s.noteRead who a n).faultRecord = s.faultRecord := rfl
@[simp] theorem noteRead_refusalMark (who : Performer) (a n : Nat) :
    (s.noteRead who a n).refusalMark = s.refusalMark := rfl
@[simp] theorem noteRead_device (who : Performer) (a n : Nat) : (s.noteRead who a n).device = s.device := rfl
@[simp] theorem noteRead_memory (who : Performer) (a n : Nat) : (s.noteRead who a n).memory = s.memory := rfl
@[simp] theorem noteRead_hostFrames (who : Performer) (a n : Nat) :
    (s.noteRead who a n).hostFrames = s.hostFrames := rfl
@[simp] theorem noteRead_history (who : Performer) (a n : Nat) :
    (s.noteRead who a n).history = .memRead who a (s.bytesAt a n) :: s.history := rfl
@[simp] theorem noteRead_oracle (who : Performer) (a n : Nat) : (s.noteRead who a n).oracle = s.oracle := rfl
@[simp] theorem noteRead_inbox (who : Performer) (a n : Nat) : (s.noteRead who a n).inbox = s.inbox := rfl
@[simp] theorem noteRead_sched (who : Performer) (a n : Nat) : (s.noteRead who a n).sched = s.sched := rfl
@[simp] theorem noteRead_issuer (who : Performer) (a n : Nat) : (s.noteRead who a n).issuer = s.issuer := rfl

/-! `State.withDevice` -/

@[simp] theorem withDevice_params (d : Device) : (s.withDevice d).params = s.params := rfl
@[simp] theorem withDevice_lifecycle (d : Device) : (s.withDevice d).lifecycle = s.lifecycle := rfl
@[simp] theorem withDevice_mode (d : Device) : (s.withDevice d).mode = s.mode := rfl
@[simp] theorem withDevice_tx (d : Device) : (s.withDevice d).tx = s.tx := rfl
@[simp] theorem withDevice_rx (d : Device) : (s.withDevice d).rx = s.rx := rfl
@[simp] theorem withDevice_ib (d : Device) : (s.withDevice d).ib = s.ib := rfl
@[simp] theorem withDevice_station (d : Device) : (s.withDevice d).station = s.station := rfl
@[simp] theorem withDevice_ienaShadow (d : Device) : (s.withDevice d).ienaShadow = s.ienaShadow := rfl
@[simp] theorem withDevice_taskPending (d : Device) : (s.withDevice d).taskPending = s.taskPending := rfl
@[simp] theorem withDevice_defBusy (d : Device) : (s.withDevice d).defBusy = s.defBusy := rfl
@[simp] theorem withDevice_queueStopped (d : Device) : (s.withDevice d).queueStopped = s.queueStopped := rfl
@[simp] theorem withDevice_lockOwner (d : Device) : (s.withDevice d).lockOwner = s.lockOwner := rfl
@[simp] theorem withDevice_counters (d : Device) : (s.withDevice d).counters = s.counters := rfl
@[simp] theorem withDevice_tasks (d : Device) : (s.withDevice d).tasks = s.tasks := rfl
@[simp] theorem withDevice_replies (d : Device) : (s.withDevice d).replies = s.replies := rfl
@[simp] theorem withDevice_faultRecord (d : Device) : (s.withDevice d).faultRecord = s.faultRecord := rfl
@[simp] theorem withDevice_refusalMark (d : Device) : (s.withDevice d).refusalMark = s.refusalMark := rfl
@[simp] theorem withDevice_device (d : Device) : (s.withDevice d).device = d := rfl
@[simp] theorem withDevice_memory (d : Device) : (s.withDevice d).memory = s.memory := rfl
@[simp] theorem withDevice_hostFrames (d : Device) : (s.withDevice d).hostFrames = s.hostFrames := rfl
@[simp] theorem withDevice_history (d : Device) : (s.withDevice d).history = s.history := rfl
@[simp] theorem withDevice_oracle (d : Device) : (s.withDevice d).oracle = s.oracle := rfl
@[simp] theorem withDevice_inbox (d : Device) : (s.withDevice d).inbox = s.inbox := rfl
@[simp] theorem withDevice_sched (d : Device) : (s.withDevice d).sched = s.sched := rfl
@[simp] theorem withDevice_issuer (d : Device) : (s.withDevice d).issuer = s.issuer := rfl

/-! `State.setActivity` -/

@[simp] theorem setActivity_params (a : Agent) (x : Option Activity) : (s.setActivity a x).params = s.params := rfl
@[simp] theorem setActivity_lifecycle (a : Agent) (x : Option Activity) :
    (s.setActivity a x).lifecycle = s.lifecycle := rfl
@[simp] theorem setActivity_mode (a : Agent) (x : Option Activity) : (s.setActivity a x).mode = s.mode := rfl
@[simp] theorem setActivity_tx (a : Agent) (x : Option Activity) : (s.setActivity a x).tx = s.tx := rfl
@[simp] theorem setActivity_rx (a : Agent) (x : Option Activity) : (s.setActivity a x).rx = s.rx := rfl
@[simp] theorem setActivity_ib (a : Agent) (x : Option Activity) : (s.setActivity a x).ib = s.ib := rfl
@[simp] theorem setActivity_station (a : Agent) (x : Option Activity) : (s.setActivity a x).station = s.station := rfl
@[simp] theorem setActivity_ienaShadow (a : Agent) (x : Option Activity) :
    (s.setActivity a x).ienaShadow = s.ienaShadow := rfl
@[simp] theorem setActivity_taskPending (a : Agent) (x : Option Activity) :
    (s.setActivity a x).taskPending = s.taskPending := rfl
@[simp] theorem setActivity_defBusy (a : Agent) (x : Option Activity) : (s.setActivity a x).defBusy = s.defBusy := rfl
@[simp] theorem setActivity_queueStopped (a : Agent) (x : Option Activity) :
    (s.setActivity a x).queueStopped = s.queueStopped := rfl
@[simp] theorem setActivity_lockOwner (a : Agent) (x : Option Activity) :
    (s.setActivity a x).lockOwner = s.lockOwner := rfl
@[simp] theorem setActivity_counters (a : Agent) (x : Option Activity) :
    (s.setActivity a x).counters = s.counters := rfl
@[simp] theorem setActivity_tasks (a : Agent) (x : Option Activity) :
    (s.setActivity a x).tasks = (x.toList.map fun y => (a, y)) ++ s.tasks.filter fun y => y.1 != a := rfl
@[simp] theorem setActivity_replies (a : Agent) (x : Option Activity) : (s.setActivity a x).replies = s.replies := rfl
@[simp] theorem setActivity_faultRecord (a : Agent) (x : Option Activity) :
    (s.setActivity a x).faultRecord = s.faultRecord := rfl
@[simp] theorem setActivity_refusalMark (a : Agent) (x : Option Activity) :
    (s.setActivity a x).refusalMark = s.refusalMark := rfl
@[simp] theorem setActivity_device (a : Agent) (x : Option Activity) : (s.setActivity a x).device = s.device := rfl
@[simp] theorem setActivity_memory (a : Agent) (x : Option Activity) : (s.setActivity a x).memory = s.memory := rfl
@[simp] theorem setActivity_hostFrames (a : Agent) (x : Option Activity) :
    (s.setActivity a x).hostFrames = s.hostFrames := rfl
@[simp] theorem setActivity_history (a : Agent) (x : Option Activity) : (s.setActivity a x).history = s.history := rfl
@[simp] theorem setActivity_oracle (a : Agent) (x : Option Activity) : (s.setActivity a x).oracle = s.oracle := rfl
@[simp] theorem setActivity_inbox (a : Agent) (x : Option Activity) : (s.setActivity a x).inbox = s.inbox := rfl
@[simp] theorem setActivity_sched (a : Agent) (x : Option Activity) : (s.setActivity a x).sched = s.sched := rfl
@[simp] theorem setActivity_issuer (a : Agent) (x : Option Activity) : (s.setActivity a x).issuer = s.issuer := rfl

/-! `State.giveReply` -/

@[simp] theorem giveReply_params (a : Agent) (i : Instr) (r : Reply) : (s.giveReply a i r).params = s.params := rfl
@[simp] theorem giveReply_lifecycle (a : Agent) (i : Instr) (r : Reply) :
    (s.giveReply a i r).lifecycle = s.lifecycle := rfl
@[simp] theorem giveReply_mode (a : Agent) (i : Instr) (r : Reply) : (s.giveReply a i r).mode = s.mode := rfl
@[simp] theorem giveReply_tx (a : Agent) (i : Instr) (r : Reply) : (s.giveReply a i r).tx = s.tx := rfl
@[simp] theorem giveReply_rx (a : Agent) (i : Instr) (r : Reply) : (s.giveReply a i r).rx = s.rx := rfl
@[simp] theorem giveReply_ib (a : Agent) (i : Instr) (r : Reply) : (s.giveReply a i r).ib = s.ib := rfl
@[simp] theorem giveReply_station (a : Agent) (i : Instr) (r : Reply) : (s.giveReply a i r).station = s.station := rfl
@[simp] theorem giveReply_ienaShadow (a : Agent) (i : Instr) (r : Reply) :
    (s.giveReply a i r).ienaShadow = s.ienaShadow := rfl
@[simp] theorem giveReply_taskPending (a : Agent) (i : Instr) (r : Reply) :
    (s.giveReply a i r).taskPending = s.taskPending := rfl
@[simp] theorem giveReply_defBusy (a : Agent) (i : Instr) (r : Reply) : (s.giveReply a i r).defBusy = s.defBusy := rfl
@[simp] theorem giveReply_queueStopped (a : Agent) (i : Instr) (r : Reply) :
    (s.giveReply a i r).queueStopped = s.queueStopped := rfl
@[simp] theorem giveReply_lockOwner (a : Agent) (i : Instr) (r : Reply) :
    (s.giveReply a i r).lockOwner = s.lockOwner := rfl
@[simp] theorem giveReply_counters (a : Agent) (i : Instr) (r : Reply) :
    (s.giveReply a i r).counters = s.counters := rfl
@[simp] theorem giveReply_tasks (a : Agent) (i : Instr) (r : Reply) : (s.giveReply a i r).tasks = s.tasks := rfl
@[simp] theorem giveReply_replies (a : Agent) (i : Instr) (r : Reply) :
    (s.giveReply a i r).replies = (a, r) :: s.replies.filter fun y => y.1 != a := rfl
@[simp] theorem giveReply_faultRecord (a : Agent) (i : Instr) (r : Reply) :
    (s.giveReply a i r).faultRecord = s.faultRecord := rfl
@[simp] theorem giveReply_refusalMark (a : Agent) (i : Instr) (r : Reply) :
    (s.giveReply a i r).refusalMark = s.refusalMark := rfl
@[simp] theorem giveReply_device (a : Agent) (i : Instr) (r : Reply) : (s.giveReply a i r).device = s.device := rfl
@[simp] theorem giveReply_memory (a : Agent) (i : Instr) (r : Reply) : (s.giveReply a i r).memory = s.memory := rfl
@[simp] theorem giveReply_hostFrames (a : Agent) (i : Instr) (r : Reply) :
    (s.giveReply a i r).hostFrames = s.hostFrames := rfl
@[simp] theorem giveReply_history (a : Agent) (i : Instr) (r : Reply) :
    (s.giveReply a i r).history = .returned a i r :: s.history := rfl
@[simp] theorem giveReply_oracle (a : Agent) (i : Instr) (r : Reply) : (s.giveReply a i r).oracle = s.oracle := rfl
@[simp] theorem giveReply_inbox (a : Agent) (i : Instr) (r : Reply) : (s.giveReply a i r).inbox = s.inbox := rfl
@[simp] theorem giveReply_sched (a : Agent) (i : Instr) (r : Reply) : (s.giveReply a i r).sched = s.sched := rfl
@[simp] theorem giveReply_issuer (a : Agent) (i : Instr) (r : Reply) : (s.giveReply a i r).issuer = s.issuer := rfl

/-! `State.count` -/

@[simp] theorem count_params (f : Counters → Counters) : (s.count f).params = s.params := rfl
@[simp] theorem count_lifecycle (f : Counters → Counters) : (s.count f).lifecycle = s.lifecycle := rfl
@[simp] theorem count_mode (f : Counters → Counters) : (s.count f).mode = s.mode := rfl
@[simp] theorem count_tx (f : Counters → Counters) : (s.count f).tx = s.tx := rfl
@[simp] theorem count_rx (f : Counters → Counters) : (s.count f).rx = s.rx := rfl
@[simp] theorem count_ib (f : Counters → Counters) : (s.count f).ib = s.ib := rfl
@[simp] theorem count_station (f : Counters → Counters) : (s.count f).station = s.station := rfl
@[simp] theorem count_ienaShadow (f : Counters → Counters) : (s.count f).ienaShadow = s.ienaShadow := rfl
@[simp] theorem count_taskPending (f : Counters → Counters) : (s.count f).taskPending = s.taskPending := rfl
@[simp] theorem count_defBusy (f : Counters → Counters) : (s.count f).defBusy = s.defBusy := rfl
@[simp] theorem count_queueStopped (f : Counters → Counters) : (s.count f).queueStopped = s.queueStopped := rfl
@[simp] theorem count_lockOwner (f : Counters → Counters) : (s.count f).lockOwner = s.lockOwner := rfl
@[simp] theorem count_counters (f : Counters → Counters) : (s.count f).counters = f s.counters := rfl
@[simp] theorem count_tasks (f : Counters → Counters) : (s.count f).tasks = s.tasks := rfl
@[simp] theorem count_replies (f : Counters → Counters) : (s.count f).replies = s.replies := rfl
@[simp] theorem count_faultRecord (f : Counters → Counters) : (s.count f).faultRecord = s.faultRecord := rfl
@[simp] theorem count_refusalMark (f : Counters → Counters) : (s.count f).refusalMark = s.refusalMark := rfl
@[simp] theorem count_device (f : Counters → Counters) : (s.count f).device = s.device := rfl
@[simp] theorem count_memory (f : Counters → Counters) : (s.count f).memory = s.memory := rfl
@[simp] theorem count_hostFrames (f : Counters → Counters) : (s.count f).hostFrames = s.hostFrames := rfl
@[simp] theorem count_history (f : Counters → Counters) : (s.count f).history = s.history := rfl
@[simp] theorem count_oracle (f : Counters → Counters) : (s.count f).oracle = s.oracle := rfl
@[simp] theorem count_inbox (f : Counters → Counters) : (s.count f).inbox = s.inbox := rfl
@[simp] theorem count_sched (f : Counters → Counters) : (s.count f).sched = s.sched := rfl
@[simp] theorem count_issuer (f : Counters → Counters) : (s.count f).issuer = s.issuer := rfl

/-! `State.setTxMap` -/

@[simp] theorem setTxMap_params (i : Nat) (m : Option TxMapping) : (s.setTxMap i m).params = s.params := rfl
@[simp] theorem setTxMap_lifecycle (i : Nat) (m : Option TxMapping) : (s.setTxMap i m).lifecycle = s.lifecycle := rfl
@[simp] theorem setTxMap_mode (i : Nat) (m : Option TxMapping) : (s.setTxMap i m).mode = s.mode := rfl
@[simp] theorem setTxMap_tx (i : Nat) (m : Option TxMapping) :
    (s.setTxMap i m).tx = { s.tx with map := s.tx.map.set i m } := rfl
@[simp] theorem setTxMap_rx (i : Nat) (m : Option TxMapping) : (s.setTxMap i m).rx = s.rx := rfl
@[simp] theorem setTxMap_ib (i : Nat) (m : Option TxMapping) : (s.setTxMap i m).ib = s.ib := rfl
@[simp] theorem setTxMap_station (i : Nat) (m : Option TxMapping) : (s.setTxMap i m).station = s.station := rfl
@[simp] theorem setTxMap_ienaShadow (i : Nat) (m : Option TxMapping) :
    (s.setTxMap i m).ienaShadow = s.ienaShadow := rfl
@[simp] theorem setTxMap_taskPending (i : Nat) (m : Option TxMapping) :
    (s.setTxMap i m).taskPending = s.taskPending := rfl
@[simp] theorem setTxMap_defBusy (i : Nat) (m : Option TxMapping) : (s.setTxMap i m).defBusy = s.defBusy := rfl
@[simp] theorem setTxMap_queueStopped (i : Nat) (m : Option TxMapping) :
    (s.setTxMap i m).queueStopped = s.queueStopped := rfl
@[simp] theorem setTxMap_lockOwner (i : Nat) (m : Option TxMapping) : (s.setTxMap i m).lockOwner = s.lockOwner := rfl
@[simp] theorem setTxMap_counters (i : Nat) (m : Option TxMapping) : (s.setTxMap i m).counters = s.counters := rfl
@[simp] theorem setTxMap_tasks (i : Nat) (m : Option TxMapping) : (s.setTxMap i m).tasks = s.tasks := rfl
@[simp] theorem setTxMap_replies (i : Nat) (m : Option TxMapping) : (s.setTxMap i m).replies = s.replies := rfl
@[simp] theorem setTxMap_faultRecord (i : Nat) (m : Option TxMapping) :
    (s.setTxMap i m).faultRecord = s.faultRecord := rfl
@[simp] theorem setTxMap_refusalMark (i : Nat) (m : Option TxMapping) :
    (s.setTxMap i m).refusalMark = s.refusalMark := rfl
@[simp] theorem setTxMap_device (i : Nat) (m : Option TxMapping) : (s.setTxMap i m).device = s.device := rfl
@[simp] theorem setTxMap_memory (i : Nat) (m : Option TxMapping) : (s.setTxMap i m).memory = s.memory := rfl
@[simp] theorem setTxMap_hostFrames (i : Nat) (m : Option TxMapping) :
    (s.setTxMap i m).hostFrames = s.hostFrames := rfl
@[simp] theorem setTxMap_history (i : Nat) (m : Option TxMapping) : (s.setTxMap i m).history = s.history := rfl
@[simp] theorem setTxMap_oracle (i : Nat) (m : Option TxMapping) : (s.setTxMap i m).oracle = s.oracle := rfl
@[simp] theorem setTxMap_inbox (i : Nat) (m : Option TxMapping) : (s.setTxMap i m).inbox = s.inbox := rfl
@[simp] theorem setTxMap_sched (i : Nat) (m : Option TxMapping) : (s.setTxMap i m).sched = s.sched := rfl
@[simp] theorem setTxMap_issuer (i : Nat) (m : Option TxMapping) : (s.setTxMap i m).issuer = s.issuer := rfl

/-! `State.dropFrame` -/

@[simp] theorem dropFrame_params (h : Word) : (s.dropFrame h).params = s.params := rfl
@[simp] theorem dropFrame_lifecycle (h : Word) : (s.dropFrame h).lifecycle = s.lifecycle := rfl
@[simp] theorem dropFrame_mode (h : Word) : (s.dropFrame h).mode = s.mode := rfl
@[simp] theorem dropFrame_tx (h : Word) : (s.dropFrame h).tx = s.tx := rfl
@[simp] theorem dropFrame_rx (h : Word) : (s.dropFrame h).rx = s.rx := rfl
@[simp] theorem dropFrame_ib (h : Word) : (s.dropFrame h).ib = s.ib := rfl
@[simp] theorem dropFrame_station (h : Word) : (s.dropFrame h).station = s.station := rfl
@[simp] theorem dropFrame_ienaShadow (h : Word) : (s.dropFrame h).ienaShadow = s.ienaShadow := rfl
@[simp] theorem dropFrame_taskPending (h : Word) : (s.dropFrame h).taskPending = s.taskPending := rfl
@[simp] theorem dropFrame_defBusy (h : Word) : (s.dropFrame h).defBusy = s.defBusy := rfl
@[simp] theorem dropFrame_queueStopped (h : Word) : (s.dropFrame h).queueStopped = s.queueStopped := rfl
@[simp] theorem dropFrame_lockOwner (h : Word) : (s.dropFrame h).lockOwner = s.lockOwner := rfl
@[simp] theorem dropFrame_counters (h : Word) : (s.dropFrame h).counters = s.counters := rfl
@[simp] theorem dropFrame_tasks (h : Word) : (s.dropFrame h).tasks = s.tasks := rfl
@[simp] theorem dropFrame_replies (h : Word) : (s.dropFrame h).replies = s.replies := rfl
@[simp] theorem dropFrame_faultRecord (h : Word) : (s.dropFrame h).faultRecord = s.faultRecord := rfl
@[simp] theorem dropFrame_refusalMark (h : Word) : (s.dropFrame h).refusalMark = s.refusalMark := rfl
@[simp] theorem dropFrame_device (h : Word) : (s.dropFrame h).device = s.device := rfl
@[simp] theorem dropFrame_memory (h : Word) : (s.dropFrame h).memory = s.memory := rfl
@[simp] theorem dropFrame_hostFrames (h : Word) :
    (s.dropFrame h).hostFrames = s.hostFrames.filter fun f => f.handle != h := rfl
@[simp] theorem dropFrame_history (h : Word) : (s.dropFrame h).history = s.history := rfl
@[simp] theorem dropFrame_oracle (h : Word) : (s.dropFrame h).oracle = s.oracle := rfl
@[simp] theorem dropFrame_inbox (h : Word) : (s.dropFrame h).inbox = s.inbox := rfl
@[simp] theorem dropFrame_sched (h : Word) : (s.dropFrame h).sched = s.sched := rfl
@[simp] theorem dropFrame_issuer (h : Word) : (s.dropFrame h).issuer = s.issuer := rfl

/-! `State.putFrame` -/

@[simp] theorem putFrame_params (h : Word) (bs : List Byte) : (s.putFrame h bs).params = s.params := rfl
@[simp] theorem putFrame_lifecycle (h : Word) (bs : List Byte) : (s.putFrame h bs).lifecycle = s.lifecycle := rfl
@[simp] theorem putFrame_mode (h : Word) (bs : List Byte) : (s.putFrame h bs).mode = s.mode := rfl
@[simp] theorem putFrame_tx (h : Word) (bs : List Byte) : (s.putFrame h bs).tx = s.tx := rfl
@[simp] theorem putFrame_rx (h : Word) (bs : List Byte) : (s.putFrame h bs).rx = s.rx := rfl
@[simp] theorem putFrame_ib (h : Word) (bs : List Byte) : (s.putFrame h bs).ib = s.ib := rfl
@[simp] theorem putFrame_station (h : Word) (bs : List Byte) : (s.putFrame h bs).station = s.station := rfl
@[simp] theorem putFrame_ienaShadow (h : Word) (bs : List Byte) : (s.putFrame h bs).ienaShadow = s.ienaShadow := rfl
@[simp] theorem putFrame_taskPending (h : Word) (bs : List Byte) :
    (s.putFrame h bs).taskPending = s.taskPending := rfl
@[simp] theorem putFrame_defBusy (h : Word) (bs : List Byte) : (s.putFrame h bs).defBusy = s.defBusy := rfl
@[simp] theorem putFrame_queueStopped (h : Word) (bs : List Byte) :
    (s.putFrame h bs).queueStopped = s.queueStopped := rfl
@[simp] theorem putFrame_lockOwner (h : Word) (bs : List Byte) : (s.putFrame h bs).lockOwner = s.lockOwner := rfl
@[simp] theorem putFrame_counters (h : Word) (bs : List Byte) : (s.putFrame h bs).counters = s.counters := rfl
@[simp] theorem putFrame_tasks (h : Word) (bs : List Byte) : (s.putFrame h bs).tasks = s.tasks := rfl
@[simp] theorem putFrame_replies (h : Word) (bs : List Byte) : (s.putFrame h bs).replies = s.replies := rfl
@[simp] theorem putFrame_faultRecord (h : Word) (bs : List Byte) :
    (s.putFrame h bs).faultRecord = s.faultRecord := rfl
@[simp] theorem putFrame_refusalMark (h : Word) (bs : List Byte) :
    (s.putFrame h bs).refusalMark = s.refusalMark := rfl
@[simp] theorem putFrame_device (h : Word) (bs : List Byte) : (s.putFrame h bs).device = s.device := rfl
@[simp] theorem putFrame_memory (h : Word) (bs : List Byte) : (s.putFrame h bs).memory = s.memory := rfl
@[simp] theorem putFrame_hostFrames (h : Word) (bs : List Byte) :
    (s.putFrame h bs).hostFrames = ⟨h, bs⟩ :: (s.dropFrame h).hostFrames := rfl
@[simp] theorem putFrame_history (h : Word) (bs : List Byte) : (s.putFrame h bs).history = s.history := rfl
@[simp] theorem putFrame_oracle (h : Word) (bs : List Byte) : (s.putFrame h bs).oracle = s.oracle := rfl
@[simp] theorem putFrame_inbox (h : Word) (bs : List Byte) : (s.putFrame h bs).inbox = s.inbox := rfl
@[simp] theorem putFrame_sched (h : Word) (bs : List Byte) : (s.putFrame h bs).sched = s.sched := rfl
@[simp] theorem putFrame_issuer (h : Word) (bs : List Byte) : (s.putFrame h bs).issuer = s.issuer := rfl

/-! `State.takeAlloc` -/

@[simp] theorem takeAlloc_params : (s.takeAlloc).params = s.params := rfl
@[simp] theorem takeAlloc_lifecycle : (s.takeAlloc).lifecycle = s.lifecycle := rfl
@[simp] theorem takeAlloc_mode : (s.takeAlloc).mode = s.mode := rfl
@[simp] theorem takeAlloc_tx : (s.takeAlloc).tx = s.tx := rfl
@[simp] theorem takeAlloc_rx : (s.takeAlloc).rx = s.rx := rfl
@[simp] theorem takeAlloc_ib : (s.takeAlloc).ib = s.ib := rfl
@[simp] theorem takeAlloc_station : (s.takeAlloc).station = s.station := rfl
@[simp] theorem takeAlloc_ienaShadow : (s.takeAlloc).ienaShadow = s.ienaShadow := rfl
@[simp] theorem takeAlloc_taskPending : (s.takeAlloc).taskPending = s.taskPending := rfl
@[simp] theorem takeAlloc_defBusy : (s.takeAlloc).defBusy = s.defBusy := rfl
@[simp] theorem takeAlloc_queueStopped : (s.takeAlloc).queueStopped = s.queueStopped := rfl
@[simp] theorem takeAlloc_lockOwner : (s.takeAlloc).lockOwner = s.lockOwner := rfl
@[simp] theorem takeAlloc_counters : (s.takeAlloc).counters = s.counters := rfl
@[simp] theorem takeAlloc_tasks : (s.takeAlloc).tasks = s.tasks := rfl
@[simp] theorem takeAlloc_replies : (s.takeAlloc).replies = s.replies := rfl
@[simp] theorem takeAlloc_faultRecord : (s.takeAlloc).faultRecord = s.faultRecord := rfl
@[simp] theorem takeAlloc_refusalMark : (s.takeAlloc).refusalMark = s.refusalMark := rfl
@[simp] theorem takeAlloc_device : (s.takeAlloc).device = s.device := rfl
@[simp] theorem takeAlloc_memory : (s.takeAlloc).memory = s.memory := rfl
@[simp] theorem takeAlloc_hostFrames : (s.takeAlloc).hostFrames = s.hostFrames := rfl
@[simp] theorem takeAlloc_history : (s.takeAlloc).history = s.history := rfl
@[simp] theorem takeAlloc_oracle :
    (s.takeAlloc).oracle = { s.oracle with allocs := s.oracle.allocs.tail, asked := s.oracle.asked + 1 } := rfl
@[simp] theorem takeAlloc_inbox : (s.takeAlloc).inbox = s.inbox := rfl
@[simp] theorem takeAlloc_sched : (s.takeAlloc).sched = s.sched := rfl
@[simp] theorem takeAlloc_issuer : (s.takeAlloc).issuer = s.issuer := rfl

/-! `State.takeMap` -/

@[simp] theorem takeMap_params : (s.takeMap).params = s.params := rfl
@[simp] theorem takeMap_lifecycle : (s.takeMap).lifecycle = s.lifecycle := rfl
@[simp] theorem takeMap_mode : (s.takeMap).mode = s.mode := rfl
@[simp] theorem takeMap_tx : (s.takeMap).tx = s.tx := rfl
@[simp] theorem takeMap_rx : (s.takeMap).rx = s.rx := rfl
@[simp] theorem takeMap_ib : (s.takeMap).ib = s.ib := rfl
@[simp] theorem takeMap_station : (s.takeMap).station = s.station := rfl
@[simp] theorem takeMap_ienaShadow : (s.takeMap).ienaShadow = s.ienaShadow := rfl
@[simp] theorem takeMap_taskPending : (s.takeMap).taskPending = s.taskPending := rfl
@[simp] theorem takeMap_defBusy : (s.takeMap).defBusy = s.defBusy := rfl
@[simp] theorem takeMap_queueStopped : (s.takeMap).queueStopped = s.queueStopped := rfl
@[simp] theorem takeMap_lockOwner : (s.takeMap).lockOwner = s.lockOwner := rfl
@[simp] theorem takeMap_counters : (s.takeMap).counters = s.counters := rfl
@[simp] theorem takeMap_tasks : (s.takeMap).tasks = s.tasks := rfl
@[simp] theorem takeMap_replies : (s.takeMap).replies = s.replies := rfl
@[simp] theorem takeMap_faultRecord : (s.takeMap).faultRecord = s.faultRecord := rfl
@[simp] theorem takeMap_refusalMark : (s.takeMap).refusalMark = s.refusalMark := rfl
@[simp] theorem takeMap_device : (s.takeMap).device = s.device := rfl
@[simp] theorem takeMap_memory : (s.takeMap).memory = s.memory := rfl
@[simp] theorem takeMap_hostFrames : (s.takeMap).hostFrames = s.hostFrames := rfl
@[simp] theorem takeMap_history : (s.takeMap).history = s.history := rfl
@[simp] theorem takeMap_oracle :
    (s.takeMap).oracle = { s.oracle with maps := s.oracle.maps.tail, asked := s.oracle.asked + 1 } := rfl
@[simp] theorem takeMap_inbox : (s.takeMap).inbox = s.inbox := rfl
@[simp] theorem takeMap_sched : (s.takeMap).sched = s.sched := rfl
@[simp] theorem takeMap_issuer : (s.takeMap).issuer = s.issuer := rfl

/-! `State.takeFrame` -/

@[simp] theorem takeFrame_params : (s.takeFrame).params = s.params := rfl
@[simp] theorem takeFrame_lifecycle : (s.takeFrame).lifecycle = s.lifecycle := rfl
@[simp] theorem takeFrame_mode : (s.takeFrame).mode = s.mode := rfl
@[simp] theorem takeFrame_tx : (s.takeFrame).tx = s.tx := rfl
@[simp] theorem takeFrame_rx : (s.takeFrame).rx = s.rx := rfl
@[simp] theorem takeFrame_ib : (s.takeFrame).ib = s.ib := rfl
@[simp] theorem takeFrame_station : (s.takeFrame).station = s.station := rfl
@[simp] theorem takeFrame_ienaShadow : (s.takeFrame).ienaShadow = s.ienaShadow := rfl
@[simp] theorem takeFrame_taskPending : (s.takeFrame).taskPending = s.taskPending := rfl
@[simp] theorem takeFrame_defBusy : (s.takeFrame).defBusy = s.defBusy := rfl
@[simp] theorem takeFrame_queueStopped : (s.takeFrame).queueStopped = s.queueStopped := rfl
@[simp] theorem takeFrame_lockOwner : (s.takeFrame).lockOwner = s.lockOwner := rfl
@[simp] theorem takeFrame_counters : (s.takeFrame).counters = s.counters := rfl
@[simp] theorem takeFrame_tasks : (s.takeFrame).tasks = s.tasks := rfl
@[simp] theorem takeFrame_replies : (s.takeFrame).replies = s.replies := rfl
@[simp] theorem takeFrame_faultRecord : (s.takeFrame).faultRecord = s.faultRecord := rfl
@[simp] theorem takeFrame_refusalMark : (s.takeFrame).refusalMark = s.refusalMark := rfl
@[simp] theorem takeFrame_device : (s.takeFrame).device = s.device := rfl
@[simp] theorem takeFrame_memory : (s.takeFrame).memory = s.memory := rfl
@[simp] theorem takeFrame_hostFrames : (s.takeFrame).hostFrames = s.hostFrames := rfl
@[simp] theorem takeFrame_history : (s.takeFrame).history = s.history := rfl
@[simp] theorem takeFrame_oracle :
    (s.takeFrame).oracle = { s.oracle with frames := s.oracle.frames.tail, asked := s.oracle.asked + 1 } := rfl
@[simp] theorem takeFrame_inbox : (s.takeFrame).inbox = s.inbox := rfl
@[simp] theorem takeFrame_sched : (s.takeFrame).sched = s.sched := rfl
@[simp] theorem takeFrame_issuer : (s.takeFrame).issuer = s.issuer := rfl

/-! `enqueued` -/

@[simp] theorem enqueued_params : (enqueued s).params = s.params := rfl
@[simp] theorem enqueued_lifecycle : (enqueued s).lifecycle = s.lifecycle := rfl
@[simp] theorem enqueued_mode : (enqueued s).mode = s.mode := rfl
@[simp] theorem enqueued_tx :
    (enqueued s).tx =
      { s.tx with current := advance s.tx.current (ringSize s.tx.exp), count := s.tx.count + 1 } := rfl
@[simp] theorem enqueued_rx : (enqueued s).rx = s.rx := rfl
@[simp] theorem enqueued_ib : (enqueued s).ib = s.ib := rfl
@[simp] theorem enqueued_station : (enqueued s).station = s.station := rfl
@[simp] theorem enqueued_ienaShadow : (enqueued s).ienaShadow = s.ienaShadow := rfl
@[simp] theorem enqueued_taskPending : (enqueued s).taskPending = s.taskPending := rfl
@[simp] theorem enqueued_defBusy : (enqueued s).defBusy = s.defBusy := rfl
@[simp] theorem enqueued_queueStopped : (enqueued s).queueStopped = s.queueStopped := rfl
@[simp] theorem enqueued_lockOwner : (enqueued s).lockOwner = s.lockOwner := rfl
@[simp] theorem enqueued_counters : (enqueued s).counters = s.counters := rfl
@[simp] theorem enqueued_tasks : (enqueued s).tasks = s.tasks := rfl
@[simp] theorem enqueued_replies : (enqueued s).replies = s.replies := rfl
@[simp] theorem enqueued_faultRecord : (enqueued s).faultRecord = s.faultRecord := rfl
@[simp] theorem enqueued_refusalMark : (enqueued s).refusalMark = s.refusalMark := rfl
@[simp] theorem enqueued_device : (enqueued s).device = s.device := rfl
@[simp] theorem enqueued_memory : (enqueued s).memory = s.memory := rfl
@[simp] theorem enqueued_hostFrames : (enqueued s).hostFrames = s.hostFrames := rfl
@[simp] theorem enqueued_history : (enqueued s).history = s.history := rfl
@[simp] theorem enqueued_oracle : (enqueued s).oracle = s.oracle := rfl
@[simp] theorem enqueued_inbox : (enqueued s).inbox = s.inbox := rfl
@[simp] theorem enqueued_sched : (enqueued s).sched = s.sched := rfl
@[simp] theorem enqueued_issuer : (enqueued s).issuer = s.issuer := rfl

/-! `reclaimed` -/

@[simp] theorem reclaimed_params (i : Nat) (w1 w2 : Word) (len : Nat) :
    (reclaimed i w1 w2 len s).params =
      s.params := rfl
@[simp] theorem reclaimed_lifecycle (i : Nat) (w1 w2 : Word) (len : Nat) :
    (reclaimed i w1 w2 len s).lifecycle =
      s.lifecycle := rfl
@[simp] theorem reclaimed_mode (i : Nat) (w1 w2 : Word) (len : Nat) : (reclaimed i w1 w2 len s).mode = s.mode := rfl
@[simp] theorem reclaimed_tx (i : Nat) (w1 w2 : Word) (len : Nat) :
    (reclaimed i w1 w2 len s).tx =
      { s.tx with map := s.tx.map.set i none, last := advance i (ringSize s.tx.exp), count := s.tx.count - 1 } := rfl
@[simp] theorem reclaimed_rx (i : Nat) (w1 w2 : Word) (len : Nat) : (reclaimed i w1 w2 len s).rx = s.rx := rfl
@[simp] theorem reclaimed_ib (i : Nat) (w1 w2 : Word) (len : Nat) : (reclaimed i w1 w2 len s).ib = s.ib := rfl
@[simp] theorem reclaimed_station (i : Nat) (w1 w2 : Word) (len : Nat) :
    (reclaimed i w1 w2 len s).station =
      s.station := rfl
@[simp] theorem reclaimed_ienaShadow (i : Nat) (w1 w2 : Word) (len : Nat) :
    (reclaimed i w1 w2 len s).ienaShadow =
      s.ienaShadow := rfl
@[simp] theorem reclaimed_taskPending (i : Nat) (w1 w2 : Word) (len : Nat) :
    (reclaimed i w1 w2 len s).taskPending =
      s.taskPending := rfl
@[simp] theorem reclaimed_defBusy (i : Nat) (w1 w2 : Word) (len : Nat) :
    (reclaimed i w1 w2 len s).defBusy =
      s.defBusy := rfl
@[simp] theorem reclaimed_queueStopped (i : Nat) (w1 w2 : Word) (len : Nat) :
    (reclaimed i w1 w2 len s).queueStopped =
      s.queueStopped := rfl
@[simp] theorem reclaimed_lockOwner (i : Nat) (w1 w2 : Word) (len : Nat) :
    (reclaimed i w1 w2 len s).lockOwner =
      s.lockOwner := rfl
@[simp] theorem reclaimed_counters (i : Nat) (w1 w2 : Word) (len : Nat) :
    (reclaimed i w1 w2 len s).counters =
      countTx s.params w1 w2 len s.counters := rfl
@[simp] theorem reclaimed_tasks (i : Nat) (w1 w2 : Word) (len : Nat) :
    (reclaimed i w1 w2 len s).tasks =
      s.tasks := rfl
@[simp] theorem reclaimed_replies (i : Nat) (w1 w2 : Word) (len : Nat) :
    (reclaimed i w1 w2 len s).replies =
      s.replies := rfl
@[simp] theorem reclaimed_faultRecord (i : Nat) (w1 w2 : Word) (len : Nat) :
    (reclaimed i w1 w2 len s).faultRecord =
      s.faultRecord := rfl
@[simp] theorem reclaimed_refusalMark (i : Nat) (w1 w2 : Word) (len : Nat) :
    (reclaimed i w1 w2 len s).refusalMark =
      s.refusalMark := rfl
@[simp] theorem reclaimed_device (i : Nat) (w1 w2 : Word) (len : Nat) :
    (reclaimed i w1 w2 len s).device =
      s.device := rfl
@[simp] theorem reclaimed_memory (i : Nat) (w1 w2 : Word) (len : Nat) :
    (reclaimed i w1 w2 len s).memory =
      s.memory := rfl
@[simp] theorem reclaimed_hostFrames (i : Nat) (w1 w2 : Word) (len : Nat) :
    (reclaimed i w1 w2 len s).hostFrames =
      s.hostFrames := rfl
@[simp] theorem reclaimed_history (i : Nat) (w1 w2 : Word) (len : Nat) :
    (reclaimed i w1 w2 len s).history =
      s.history := rfl
@[simp] theorem reclaimed_oracle (i : Nat) (w1 w2 : Word) (len : Nat) :
    (reclaimed i w1 w2 len s).oracle =
      s.oracle := rfl
@[simp] theorem reclaimed_inbox (i : Nat) (w1 w2 : Word) (len : Nat) :
    (reclaimed i w1 w2 len s).inbox =
      s.inbox := rfl
@[simp] theorem reclaimed_sched (i : Nat) (w1 w2 : Word) (len : Nat) :
    (reclaimed i w1 w2 len s).sched =
      s.sched := rfl
@[simp] theorem reclaimed_issuer (i : Nat) (w1 w2 : Word) (len : Nat) :
    (reclaimed i w1 w2 len s).issuer =
      s.issuer := rfl

/-! `rxAdvance` -/

@[simp] theorem rxAdvance_params (i : Nat) : (rxAdvance i s).params = s.params := rfl
@[simp] theorem rxAdvance_lifecycle (i : Nat) : (rxAdvance i s).lifecycle = s.lifecycle := rfl
@[simp] theorem rxAdvance_mode (i : Nat) : (rxAdvance i s).mode = s.mode := rfl
@[simp] theorem rxAdvance_tx (i : Nat) : (rxAdvance i s).tx = s.tx := rfl
@[simp] theorem rxAdvance_rx (i : Nat) :
    (rxAdvance i s).rx =
      { s.rx with current := advance i (ringSize s.rx.exp) } := rfl
@[simp] theorem rxAdvance_ib (i : Nat) : (rxAdvance i s).ib = s.ib := rfl
@[simp] theorem rxAdvance_station (i : Nat) : (rxAdvance i s).station = s.station := rfl
@[simp] theorem rxAdvance_ienaShadow (i : Nat) : (rxAdvance i s).ienaShadow = s.ienaShadow := rfl
@[simp] theorem rxAdvance_taskPending (i : Nat) : (rxAdvance i s).taskPending = s.taskPending := rfl
@[simp] theorem rxAdvance_defBusy (i : Nat) : (rxAdvance i s).defBusy = s.defBusy := rfl
@[simp] theorem rxAdvance_queueStopped (i : Nat) : (rxAdvance i s).queueStopped = s.queueStopped := rfl
@[simp] theorem rxAdvance_lockOwner (i : Nat) : (rxAdvance i s).lockOwner = s.lockOwner := rfl
@[simp] theorem rxAdvance_counters (i : Nat) : (rxAdvance i s).counters = s.counters := rfl
@[simp] theorem rxAdvance_tasks (i : Nat) : (rxAdvance i s).tasks = s.tasks := rfl
@[simp] theorem rxAdvance_replies (i : Nat) : (rxAdvance i s).replies = s.replies := rfl
@[simp] theorem rxAdvance_faultRecord (i : Nat) : (rxAdvance i s).faultRecord = s.faultRecord := rfl
@[simp] theorem rxAdvance_refusalMark (i : Nat) : (rxAdvance i s).refusalMark = s.refusalMark := rfl
@[simp] theorem rxAdvance_device (i : Nat) : (rxAdvance i s).device = s.device := rfl
@[simp] theorem rxAdvance_memory (i : Nat) : (rxAdvance i s).memory = s.memory := rfl
@[simp] theorem rxAdvance_hostFrames (i : Nat) : (rxAdvance i s).hostFrames = s.hostFrames := rfl
@[simp] theorem rxAdvance_history (i : Nat) : (rxAdvance i s).history = s.history := rfl
@[simp] theorem rxAdvance_oracle (i : Nat) : (rxAdvance i s).oracle = s.oracle := rfl
@[simp] theorem rxAdvance_inbox (i : Nat) : (rxAdvance i s).inbox = s.inbox := rfl
@[simp] theorem rxAdvance_sched (i : Nat) : (rxAdvance i s).sched = s.sched := rfl
@[simp] theorem rxAdvance_issuer (i : Nat) : (rxAdvance i s).issuer = s.issuer := rfl

/-! `rxDelivered` -/

@[simp] theorem rxDelivered_params (len : Nat) : (rxDelivered len s).params = s.params := rfl
@[simp] theorem rxDelivered_lifecycle (len : Nat) : (rxDelivered len s).lifecycle = s.lifecycle := rfl
@[simp] theorem rxDelivered_mode (len : Nat) : (rxDelivered len s).mode = s.mode := rfl
@[simp] theorem rxDelivered_tx (len : Nat) : (rxDelivered len s).tx = s.tx := rfl
@[simp] theorem rxDelivered_rx (len : Nat) : (rxDelivered len s).rx = s.rx := rfl
@[simp] theorem rxDelivered_ib (len : Nat) : (rxDelivered len s).ib = s.ib := rfl
@[simp] theorem rxDelivered_station (len : Nat) : (rxDelivered len s).station = s.station := rfl
@[simp] theorem rxDelivered_ienaShadow (len : Nat) : (rxDelivered len s).ienaShadow = s.ienaShadow := rfl
@[simp] theorem rxDelivered_taskPending (len : Nat) : (rxDelivered len s).taskPending = s.taskPending := rfl
@[simp] theorem rxDelivered_defBusy (len : Nat) : (rxDelivered len s).defBusy = s.defBusy := rfl
@[simp] theorem rxDelivered_queueStopped (len : Nat) : (rxDelivered len s).queueStopped = s.queueStopped := rfl
@[simp] theorem rxDelivered_lockOwner (len : Nat) : (rxDelivered len s).lockOwner = s.lockOwner := rfl
@[simp] theorem rxDelivered_counters (len : Nat) :
    (rxDelivered len s).counters =
      { s.counters with rxPackets := bump s.params s.counters.rxPackets 1, rxBytes := bump s.params s.counters.rxBytes len } := rfl
@[simp] theorem rxDelivered_tasks (len : Nat) : (rxDelivered len s).tasks = s.tasks := rfl
@[simp] theorem rxDelivered_replies (len : Nat) : (rxDelivered len s).replies = s.replies := rfl
@[simp] theorem rxDelivered_faultRecord (len : Nat) : (rxDelivered len s).faultRecord = s.faultRecord := rfl
@[simp] theorem rxDelivered_refusalMark (len : Nat) : (rxDelivered len s).refusalMark = s.refusalMark := rfl
@[simp] theorem rxDelivered_device (len : Nat) : (rxDelivered len s).device = s.device := rfl
@[simp] theorem rxDelivered_memory (len : Nat) : (rxDelivered len s).memory = s.memory := rfl
@[simp] theorem rxDelivered_hostFrames (len : Nat) : (rxDelivered len s).hostFrames = s.hostFrames := rfl
@[simp] theorem rxDelivered_history (len : Nat) : (rxDelivered len s).history = s.history := rfl
@[simp] theorem rxDelivered_oracle (len : Nat) : (rxDelivered len s).oracle = s.oracle := rfl
@[simp] theorem rxDelivered_inbox (len : Nat) : (rxDelivered len s).inbox = s.inbox := rfl
@[simp] theorem rxDelivered_sched (len : Nat) : (rxDelivered len s).sched = s.sched := rfl
@[simp] theorem rxDelivered_issuer (len : Nat) : (rxDelivered len s).issuer = s.issuer := rfl

/-! `started` -/

@[simp] theorem started_params : (started s).params = s.params := rfl
@[simp] theorem started_lifecycle : (started s).lifecycle = .running := rfl
@[simp] theorem started_mode : (started s).mode = s.mode := rfl
@[simp] theorem started_tx : (started s).tx = s.tx := rfl
@[simp] theorem started_rx : (started s).rx = s.rx := rfl
@[simp] theorem started_ib : (started s).ib = s.ib := rfl
@[simp] theorem started_station : (started s).station = s.station := rfl
@[simp] theorem started_ienaShadow : (started s).ienaShadow = true := rfl
@[simp] theorem started_taskPending : (started s).taskPending = s.taskPending := rfl
@[simp] theorem started_defBusy : (started s).defBusy = s.defBusy := rfl
@[simp] theorem started_queueStopped : (started s).queueStopped = false := rfl
@[simp] theorem started_lockOwner : (started s).lockOwner = s.lockOwner := rfl
@[simp] theorem started_counters : (started s).counters = s.counters := rfl
@[simp] theorem started_tasks : (started s).tasks = s.tasks := rfl
@[simp] theorem started_replies : (started s).replies = s.replies := rfl
@[simp] theorem started_faultRecord : (started s).faultRecord = s.faultRecord := rfl
@[simp] theorem started_refusalMark : (started s).refusalMark = s.refusalMark := rfl
@[simp] theorem started_device : (started s).device = s.device := rfl
@[simp] theorem started_memory : (started s).memory = s.memory := rfl
@[simp] theorem started_hostFrames : (started s).hostFrames = s.hostFrames := rfl
@[simp] theorem started_history : (started s).history = s.history := rfl
@[simp] theorem started_oracle : (started s).oracle = s.oracle := rfl
@[simp] theorem started_inbox : (started s).inbox = s.inbox := rfl
@[simp] theorem started_sched : (started s).sched = s.sched := rfl
@[simp] theorem started_issuer : (started s).issuer = s.issuer := rfl

/-! `stoppedClosed` -/

@[simp] theorem stoppedClosed_params : (stoppedClosed s).params = s.params := rfl
@[simp] theorem stoppedClosed_lifecycle : (stoppedClosed s).lifecycle = .closed := rfl
@[simp] theorem stoppedClosed_mode : (stoppedClosed s).mode = s.mode := rfl
@[simp] theorem stoppedClosed_tx : (stoppedClosed s).tx = s.tx := rfl
@[simp] theorem stoppedClosed_rx : (stoppedClosed s).rx = s.rx := rfl
@[simp] theorem stoppedClosed_ib : (stoppedClosed s).ib = s.ib := rfl
@[simp] theorem stoppedClosed_station : (stoppedClosed s).station = s.station := rfl
@[simp] theorem stoppedClosed_ienaShadow : (stoppedClosed s).ienaShadow = false := rfl
@[simp] theorem stoppedClosed_taskPending : (stoppedClosed s).taskPending = s.taskPending := rfl
@[simp] theorem stoppedClosed_defBusy : (stoppedClosed s).defBusy = s.defBusy := rfl
@[simp] theorem stoppedClosed_queueStopped : (stoppedClosed s).queueStopped = s.queueStopped := rfl
@[simp] theorem stoppedClosed_lockOwner : (stoppedClosed s).lockOwner = s.lockOwner := rfl
@[simp] theorem stoppedClosed_counters : (stoppedClosed s).counters = s.counters := rfl
@[simp] theorem stoppedClosed_tasks : (stoppedClosed s).tasks = s.tasks := rfl
@[simp] theorem stoppedClosed_replies : (stoppedClosed s).replies = s.replies := rfl
@[simp] theorem stoppedClosed_faultRecord : (stoppedClosed s).faultRecord = s.faultRecord := rfl
@[simp] theorem stoppedClosed_refusalMark : (stoppedClosed s).refusalMark = s.refusalMark := rfl
@[simp] theorem stoppedClosed_device : (stoppedClosed s).device = s.device := rfl
@[simp] theorem stoppedClosed_memory : (stoppedClosed s).memory = s.memory := rfl
@[simp] theorem stoppedClosed_hostFrames : (stoppedClosed s).hostFrames = s.hostFrames := rfl
@[simp] theorem stoppedClosed_history : (stoppedClosed s).history = s.history := rfl
@[simp] theorem stoppedClosed_oracle : (stoppedClosed s).oracle = s.oracle := rfl
@[simp] theorem stoppedClosed_inbox : (stoppedClosed s).inbox = s.inbox := rfl
@[simp] theorem stoppedClosed_sched : (stoppedClosed s).sched = s.sched := rfl
@[simp] theorem stoppedClosed_issuer : (stoppedClosed s).issuer = s.issuer := rfl

/-! `detached` -/

@[simp] theorem detached_params : (detached s).params = s.params := rfl
@[simp] theorem detached_lifecycle : (detached s).lifecycle = .detached := rfl
@[simp] theorem detached_mode : (detached s).mode = .none := rfl
@[simp] theorem detached_tx : (detached s).tx = s.tx := rfl
@[simp] theorem detached_rx : (detached s).rx = s.rx := rfl
@[simp] theorem detached_ib : (detached s).ib = { s.ib with alloc := false } := rfl
@[simp] theorem detached_station : (detached s).station = s.station := rfl
@[simp] theorem detached_ienaShadow : (detached s).ienaShadow = s.ienaShadow := rfl
@[simp] theorem detached_taskPending : (detached s).taskPending = s.taskPending := rfl
@[simp] theorem detached_defBusy : (detached s).defBusy = s.defBusy := rfl
@[simp] theorem detached_queueStopped : (detached s).queueStopped = s.queueStopped := rfl
@[simp] theorem detached_lockOwner : (detached s).lockOwner = s.lockOwner := rfl
@[simp] theorem detached_counters : (detached s).counters = s.counters := rfl
@[simp] theorem detached_tasks : (detached s).tasks = s.tasks := rfl
@[simp] theorem detached_replies : (detached s).replies = s.replies := rfl
@[simp] theorem detached_faultRecord : (detached s).faultRecord = s.faultRecord := rfl
@[simp] theorem detached_refusalMark : (detached s).refusalMark = s.refusalMark := rfl
@[simp] theorem detached_device : (detached s).device = s.device := rfl
@[simp] theorem detached_memory : (detached s).memory = s.memory := rfl
@[simp] theorem detached_hostFrames : (detached s).hostFrames = s.hostFrames := rfl
@[simp] theorem detached_history : (detached s).history = s.history := rfl
@[simp] theorem detached_oracle : (detached s).oracle = s.oracle := rfl
@[simp] theorem detached_inbox : (detached s).inbox = s.inbox := rfl
@[simp] theorem detached_sched : (detached s).sched = s.sched := rfl
@[simp] theorem detached_issuer : (detached s).issuer = s.issuer := rfl

/-! `attachDone` -/

@[simp] theorem attachDone_params : (attachDone s).params = s.params := rfl
@[simp] theorem attachDone_lifecycle : (attachDone s).lifecycle = .attached := rfl
@[simp] theorem attachDone_mode : (attachDone s).mode = s.mode := rfl
@[simp] theorem attachDone_tx : (attachDone s).tx = s.tx := rfl
@[simp] theorem attachDone_rx : (attachDone s).rx = s.rx := rfl
@[simp] theorem attachDone_ib : (attachDone s).ib = s.ib := rfl
@[simp] theorem attachDone_station : (attachDone s).station = s.station := rfl
@[simp] theorem attachDone_ienaShadow : (attachDone s).ienaShadow = s.ienaShadow := rfl
@[simp] theorem attachDone_taskPending : (attachDone s).taskPending = s.taskPending := rfl
@[simp] theorem attachDone_defBusy : (attachDone s).defBusy = s.defBusy := rfl
@[simp] theorem attachDone_queueStopped : (attachDone s).queueStopped = s.queueStopped := rfl
@[simp] theorem attachDone_lockOwner : (attachDone s).lockOwner = s.lockOwner := rfl
@[simp] theorem attachDone_counters : (attachDone s).counters = Counters.zero := rfl
@[simp] theorem attachDone_tasks : (attachDone s).tasks = s.tasks := rfl
@[simp] theorem attachDone_replies : (attachDone s).replies = s.replies := rfl
@[simp] theorem attachDone_faultRecord : (attachDone s).faultRecord = s.faultRecord := rfl
@[simp] theorem attachDone_refusalMark : (attachDone s).refusalMark = s.refusalMark := rfl
@[simp] theorem attachDone_device : (attachDone s).device = s.device := rfl
@[simp] theorem attachDone_memory : (attachDone s).memory = s.memory := rfl
@[simp] theorem attachDone_hostFrames : (attachDone s).hostFrames = s.hostFrames := rfl
@[simp] theorem attachDone_history : (attachDone s).history = s.history := rfl
@[simp] theorem attachDone_oracle : (attachDone s).oracle = s.oracle := rfl
@[simp] theorem attachDone_inbox : (attachDone s).inbox = s.inbox := rfl
@[simp] theorem attachDone_sched : (attachDone s).sched = s.sched := rfl
@[simp] theorem attachDone_issuer : (attachDone s).issuer = s.issuer := rfl

/-! `taskDone` -/

@[simp] theorem taskDone_params : (taskDone s).params = s.params := rfl
@[simp] theorem taskDone_lifecycle : (taskDone s).lifecycle = s.lifecycle := rfl
@[simp] theorem taskDone_mode : (taskDone s).mode = s.mode := rfl
@[simp] theorem taskDone_tx : (taskDone s).tx = s.tx := rfl
@[simp] theorem taskDone_rx : (taskDone s).rx = s.rx := rfl
@[simp] theorem taskDone_ib : (taskDone s).ib = s.ib := rfl
@[simp] theorem taskDone_station : (taskDone s).station = s.station := rfl
@[simp] theorem taskDone_ienaShadow : (taskDone s).ienaShadow = s.ienaShadow := rfl
@[simp] theorem taskDone_taskPending : (taskDone s).taskPending = false := rfl
@[simp] theorem taskDone_defBusy : (taskDone s).defBusy = false := rfl
@[simp] theorem taskDone_queueStopped : (taskDone s).queueStopped = s.queueStopped := rfl
@[simp] theorem taskDone_lockOwner : (taskDone s).lockOwner = s.lockOwner := rfl
@[simp] theorem taskDone_counters : (taskDone s).counters = s.counters := rfl
@[simp] theorem taskDone_tasks : (taskDone s).tasks = s.tasks := rfl
@[simp] theorem taskDone_replies : (taskDone s).replies = s.replies := rfl
@[simp] theorem taskDone_faultRecord : (taskDone s).faultRecord = s.faultRecord := rfl
@[simp] theorem taskDone_refusalMark : (taskDone s).refusalMark = s.refusalMark := rfl
@[simp] theorem taskDone_device : (taskDone s).device = s.device := rfl
@[simp] theorem taskDone_memory : (taskDone s).memory = s.memory := rfl
@[simp] theorem taskDone_hostFrames : (taskDone s).hostFrames = s.hostFrames := rfl
@[simp] theorem taskDone_history : (taskDone s).history = s.history := rfl
@[simp] theorem taskDone_oracle : (taskDone s).oracle = s.oracle := rfl
@[simp] theorem taskDone_inbox : (taskDone s).inbox = s.inbox := rfl
@[simp] theorem taskDone_sched : (taskDone s).sched = s.sched := rfl
@[simp] theorem taskDone_issuer : (taskDone s).issuer = s.issuer := rfl

/-! `demandCleared` -/

@[simp] theorem demandCleared_params : (demandCleared s).params = s.params := rfl
@[simp] theorem demandCleared_lifecycle : (demandCleared s).lifecycle = s.lifecycle := rfl
@[simp] theorem demandCleared_mode : (demandCleared s).mode = s.mode := rfl
@[simp] theorem demandCleared_tx : (demandCleared s).tx = s.tx := rfl
@[simp] theorem demandCleared_rx : (demandCleared s).rx = s.rx := rfl
@[simp] theorem demandCleared_ib : (demandCleared s).ib = s.ib := rfl
@[simp] theorem demandCleared_station : (demandCleared s).station = s.station := rfl
@[simp] theorem demandCleared_ienaShadow : (demandCleared s).ienaShadow = s.ienaShadow := rfl
@[simp] theorem demandCleared_taskPending : (demandCleared s).taskPending = s.taskPending := rfl
@[simp] theorem demandCleared_defBusy : (demandCleared s).defBusy = s.defBusy := rfl
@[simp] theorem demandCleared_queueStopped : (demandCleared s).queueStopped = s.queueStopped := rfl
@[simp] theorem demandCleared_lockOwner : (demandCleared s).lockOwner = s.lockOwner := rfl
@[simp] theorem demandCleared_counters : (demandCleared s).counters = s.counters := rfl
@[simp] theorem demandCleared_tasks : (demandCleared s).tasks = s.tasks := rfl
@[simp] theorem demandCleared_replies : (demandCleared s).replies = s.replies := rfl
@[simp] theorem demandCleared_faultRecord : (demandCleared s).faultRecord = s.faultRecord := rfl
@[simp] theorem demandCleared_refusalMark : (demandCleared s).refusalMark = s.refusalMark := rfl
@[simp] theorem demandCleared_device :
    (demandCleared s).device =
      { s.device with latches := s.device.latches &&& ~~~csr0TDMD } := rfl
@[simp] theorem demandCleared_memory : (demandCleared s).memory = s.memory := rfl
@[simp] theorem demandCleared_hostFrames : (demandCleared s).hostFrames = s.hostFrames := rfl
@[simp] theorem demandCleared_history : (demandCleared s).history = s.history := rfl
@[simp] theorem demandCleared_oracle : (demandCleared s).oracle = s.oracle := rfl
@[simp] theorem demandCleared_inbox : (demandCleared s).inbox = s.inbox := rfl
@[simp] theorem demandCleared_sched : (demandCleared s).sched = s.sched := rfl
@[simp] theorem demandCleared_issuer : (demandCleared s).issuer = s.issuer := rfl

/-! `devWrite` -/

@[simp] theorem devWrite_params (x : Nat) (bs : List Byte) : (s.devWrite x bs).params = s.params := rfl
@[simp] theorem devWrite_lifecycle (x : Nat) (bs : List Byte) : (s.devWrite x bs).lifecycle = s.lifecycle := rfl
@[simp] theorem devWrite_mode (x : Nat) (bs : List Byte) : (s.devWrite x bs).mode = s.mode := rfl
@[simp] theorem devWrite_tx (x : Nat) (bs : List Byte) : (s.devWrite x bs).tx = s.tx := rfl
@[simp] theorem devWrite_rx (x : Nat) (bs : List Byte) : (s.devWrite x bs).rx = s.rx := rfl
@[simp] theorem devWrite_ib (x : Nat) (bs : List Byte) : (s.devWrite x bs).ib = s.ib := rfl
@[simp] theorem devWrite_station (x : Nat) (bs : List Byte) : (s.devWrite x bs).station = s.station := rfl
@[simp] theorem devWrite_ienaShadow (x : Nat) (bs : List Byte) : (s.devWrite x bs).ienaShadow = s.ienaShadow := rfl
@[simp] theorem devWrite_taskPending (x : Nat) (bs : List Byte) : (s.devWrite x bs).taskPending = s.taskPending := rfl
@[simp] theorem devWrite_defBusy (x : Nat) (bs : List Byte) : (s.devWrite x bs).defBusy = s.defBusy := rfl
@[simp] theorem devWrite_queueStopped (x : Nat) (bs : List Byte) :
    (s.devWrite x bs).queueStopped =
      s.queueStopped := rfl
@[simp] theorem devWrite_lockOwner (x : Nat) (bs : List Byte) : (s.devWrite x bs).lockOwner = s.lockOwner := rfl
@[simp] theorem devWrite_counters (x : Nat) (bs : List Byte) : (s.devWrite x bs).counters = s.counters := rfl
@[simp] theorem devWrite_tasks (x : Nat) (bs : List Byte) : (s.devWrite x bs).tasks = s.tasks := rfl
@[simp] theorem devWrite_replies (x : Nat) (bs : List Byte) : (s.devWrite x bs).replies = s.replies := rfl
@[simp] theorem devWrite_faultRecord (x : Nat) (bs : List Byte) : (s.devWrite x bs).faultRecord = s.faultRecord := rfl
@[simp] theorem devWrite_refusalMark (x : Nat) (bs : List Byte) : (s.devWrite x bs).refusalMark = s.refusalMark := rfl
@[simp] theorem devWrite_device (x : Nat) (bs : List Byte) : (s.devWrite x bs).device = s.device := rfl
@[simp] theorem devWrite_memory (x : Nat) (bs : List Byte) :
    (s.devWrite x bs).memory =
      Memory.setBytes s.memory x bs := rfl
@[simp] theorem devWrite_hostFrames (x : Nat) (bs : List Byte) : (s.devWrite x bs).hostFrames = s.hostFrames := rfl
@[simp] theorem devWrite_history (x : Nat) (bs : List Byte) :
    (s.devWrite x bs).history =
      .memWrite .device x bs :: s.history := rfl
@[simp] theorem devWrite_oracle (x : Nat) (bs : List Byte) : (s.devWrite x bs).oracle = s.oracle := rfl
@[simp] theorem devWrite_inbox (x : Nat) (bs : List Byte) : (s.devWrite x bs).inbox = s.inbox := rfl
@[simp] theorem devWrite_sched (x : Nat) (bs : List Byte) : (s.devWrite x bs).sched = s.sched := rfl
@[simp] theorem devWrite_issuer (x : Nat) (bs : List Byte) : (s.devWrite x bs).issuer = s.issuer := rfl

/-! `mapBytes` -/

@[simp] theorem mapBytes_params (h : Word) (len : Nat) (p : Word) : (s.mapBytes h len p).params = s.params := rfl
@[simp] theorem mapBytes_lifecycle (h : Word) (len : Nat) (p : Word) :
    (s.mapBytes h len p).lifecycle =
      s.lifecycle := rfl
@[simp] theorem mapBytes_mode (h : Word) (len : Nat) (p : Word) : (s.mapBytes h len p).mode = s.mode := rfl
@[simp] theorem mapBytes_tx (h : Word) (len : Nat) (p : Word) : (s.mapBytes h len p).tx = s.tx := rfl
@[simp] theorem mapBytes_rx (h : Word) (len : Nat) (p : Word) : (s.mapBytes h len p).rx = s.rx := rfl
@[simp] theorem mapBytes_ib (h : Word) (len : Nat) (p : Word) : (s.mapBytes h len p).ib = s.ib := rfl
@[simp] theorem mapBytes_station (h : Word) (len : Nat) (p : Word) : (s.mapBytes h len p).station = s.station := rfl
@[simp] theorem mapBytes_ienaShadow (h : Word) (len : Nat) (p : Word) :
    (s.mapBytes h len p).ienaShadow =
      s.ienaShadow := rfl
@[simp] theorem mapBytes_taskPending (h : Word) (len : Nat) (p : Word) :
    (s.mapBytes h len p).taskPending =
      s.taskPending := rfl
@[simp] theorem mapBytes_defBusy (h : Word) (len : Nat) (p : Word) : (s.mapBytes h len p).defBusy = s.defBusy := rfl
@[simp] theorem mapBytes_queueStopped (h : Word) (len : Nat) (p : Word) :
    (s.mapBytes h len p).queueStopped =
      s.queueStopped := rfl
@[simp] theorem mapBytes_lockOwner (h : Word) (len : Nat) (p : Word) :
    (s.mapBytes h len p).lockOwner =
      s.lockOwner := rfl
@[simp] theorem mapBytes_counters (h : Word) (len : Nat) (p : Word) :
    (s.mapBytes h len p).counters =
      s.counters := rfl
@[simp] theorem mapBytes_tasks (h : Word) (len : Nat) (p : Word) : (s.mapBytes h len p).tasks = s.tasks := rfl
@[simp] theorem mapBytes_replies (h : Word) (len : Nat) (p : Word) : (s.mapBytes h len p).replies = s.replies := rfl
@[simp] theorem mapBytes_faultRecord (h : Word) (len : Nat) (p : Word) :
    (s.mapBytes h len p).faultRecord =
      s.faultRecord := rfl
@[simp] theorem mapBytes_refusalMark (h : Word) (len : Nat) (p : Word) :
    (s.mapBytes h len p).refusalMark =
      s.refusalMark := rfl
@[simp] theorem mapBytes_device (h : Word) (len : Nat) (p : Word) : (s.mapBytes h len p).device = s.device := rfl
@[simp] theorem mapBytes_memory (h : Word) (len : Nat) (p : Word) :
    (s.mapBytes h len p).memory =
      Memory.setBytes s.memory p.toNat (s.mappedBytes h len) := rfl
@[simp] theorem mapBytes_hostFrames (h : Word) (len : Nat) (p : Word) :
    (s.mapBytes h len p).hostFrames =
      s.hostFrames := rfl
@[simp] theorem mapBytes_history (h : Word) (len : Nat) (p : Word) : (s.mapBytes h len p).history = s.history := rfl
@[simp] theorem mapBytes_oracle (h : Word) (len : Nat) (p : Word) : (s.mapBytes h len p).oracle = s.oracle := rfl
@[simp] theorem mapBytes_inbox (h : Word) (len : Nat) (p : Word) : (s.mapBytes h len p).inbox = s.inbox := rfl
@[simp] theorem mapBytes_sched (h : Word) (len : Nat) (p : Word) : (s.mapBytes h len p).sched = s.sched := rfl
@[simp] theorem mapBytes_issuer (h : Word) (len : Nat) (p : Word) : (s.mapBytes h len p).issuer = s.issuer := rfl

end Sys2Proof.Machine
end

