-- ==== Sys2Proof/Laws/Memory.lean ====
section
/-! SUPPORT. The laws of DMA memory: read after write, the canonical form, the address space, and words (R92). -/

namespace Sys2Proof.Machine

/-- A write to the same address is read back, and leaves every other address alone. -/
theorem Memory.get?_set (m : Memory) (a b : Nat) (v : Byte) :
    Memory.get? (Memory.set m a v) b = if a = b then some v else Memory.get? m b := by
  induction m with
  | nil => simp [Memory.set, Memory.get?]
  | cons x m ih =>
    obtain ⟨k, c⟩ := x
    simp only [Memory.set]
    split
    · simp [Memory.get?]
    · split
      · subst_vars
        simp only [Memory.get?]
        split <;> simp_all
      · simp only [Memory.get?, ih]
        split <;> simp_all

/-- Where a list of bytes written from `a` is read. -/
theorem Memory.get?_setBytes (m : Memory) (a : Nat) (bs : List Byte) (b : Nat) :
    Memory.get? (Memory.setBytes m a bs) b =
      if a ≤ b ∧ b < a + bs.length then bs[b - a]? else Memory.get? m b := by
  induction bs generalizing m a with
  | nil => simp [Memory.setBytes]
  | cons v bs ih =>
    rw [Memory.setBytes, ih, Memory.get?_set]
    by_cases h1 : a + 1 ≤ b ∧ b < a + 1 + bs.length
    · have h2 : a ≤ b ∧ b < a + (v :: bs).length := by simp; omega
      have h3 : b - a = (b - (a + 1)) + 1 := by omega
      rw [if_pos h1, if_pos h2, h3, List.getElem?_cons_succ]
    · rw [if_neg h1]
      by_cases h2 : a = b
      · subst h2; simp
      · have h3 : ¬(a ≤ b ∧ b < a + (v :: bs).length) := by simp at h1 ⊢; omega
        rw [if_neg h2, if_neg h3]

/-- Every address of a written memory was there before or is the one written. -/
theorem Memory.mem_set {m : Memory} {a : Nat} {v : Byte} {x : Host.Cell} (h : x ∈ Memory.set m a v) :
    x.1 = a ∨ x ∈ m := by
  induction m with
  | nil => simp [Memory.set] at h; simp [h]
  | cons y m ih =>
    obtain ⟨k, c⟩ := y
    simp only [Memory.set] at h
    split at h
    · rcases List.mem_cons.1 h with h | h
      · simp [h]
      · exact .inr h
    · split at h
      · rcases List.mem_cons.1 h with h | h
        · simp [h]
        · exact .inr (List.mem_cons_of_mem _ h)
      · rcases List.mem_cons.1 h with h | h
        · exact .inr (by simp [h])
        · rcases ih h with h | h
          · exact .inl h
          · exact .inr (List.mem_cons_of_mem _ h)

/-- A byte write keeps the canonical form. -/
theorem Memory.wf_set {m : Memory} (h : Memory.wf m) (a : Nat) (v : Byte) : Memory.wf (Memory.set m a v) := by
  induction m with
  | nil => simp [Memory.set, Memory.wf]
  | cons x m ih =>
    obtain ⟨k, c⟩ := x
    have hk : ∀ y ∈ m, k < y.1 := (List.pairwise_cons.1 h).1
    have hm : Memory.wf m := List.Pairwise.of_cons h
    simp only [Memory.set]
    split
    · rename_i ha
      refine List.pairwise_cons.2 ⟨fun y hy => ?_, h⟩
      rcases List.mem_cons.1 hy with hy | hy
      · simpa [hy] using ha
      · exact lt_trans ha (hk y hy)
    · split
      · subst_vars
        exact List.pairwise_cons.2 ⟨fun y hy => hk y hy, hm⟩
      · refine List.pairwise_cons.2 ⟨fun y hy => ?_, ih hm⟩
        rcases Memory.mem_set hy with hy | hy
        · simp only [hy]; omega
        · exact hk y hy

/-- Writing bytes keeps the canonical form. -/
theorem Memory.wf_setBytes {m : Memory} (h : Memory.wf m) (a : Nat) (bs : List Byte) :
    Memory.wf (Memory.setBytes m a bs) := by
  induction bs generalizing m a with
  | nil => exact h
  | cons v bs ih => exact ih (Memory.wf_set h a v) (a + 1)

/-- A byte write inside the address space keeps memory inside it. -/
theorem Memory.inSpace_set {m : Memory} (h : Memory.inSpace m) {a : Nat} (ha : a < memTop) (v : Byte) :
    Memory.inSpace (Memory.set m a v) := by
  intro x hx
  rcases Memory.mem_set hx with hx | hx
  · exact hx ▸ ha
  · exact h x hx

/-- Writing bytes inside the address space keeps memory inside it. -/
theorem Memory.inSpace_setBytes {m : Memory} (h : Memory.inSpace m) {a : Nat} {bs : List Byte}
    (ha : a + bs.length ≤ memTop) : Memory.inSpace (Memory.setBytes m a bs) := by
  induction bs generalizing m a with
  | nil => exact h
  | cons v bs ih =>
    simp only [List.length_cons] at ha
    exact ih (Memory.inSpace_set h (by omega) v) (by omega)

/-- A store is read back at its own bytes and leaves every other byte alone. -/
theorem byteAt_store (s : State) (a b : Nat) (bs : List Byte) :
    (s.store a bs).byteAt b = if a ≤ b ∧ b < a + bs.length then (bs[b - a]?).getD 0#8 else s.byteAt b := by
  unfold State.byteAt
  rw [store_memory, Memory.get?_setBytes]
  split
  · rename_i h
    rw [List.getElem?_eq_getElem (by omega)]
    rfl
  · rfl

/-- R92: the word of the bytes of a word. -/
theorem wordOfBytes_byteOf (v : Word) :
    wordOfBytes (byteOf v 0) (byteOf v 1) (byteOf v 2) (byteOf v 3) = v := by
  unfold wordOfBytes byteOf
  refine BitVec.eq_of_getLsbD_eq fun i hi => ?_
  simp only [BitVec.getLsbD_append, BitVec.getLsbD_extractLsb']
  by_cases h1 : i < 8
  · simp [h1]
  · by_cases h2 : i < 16
    · simp [h1, show i - 8 < 8 by omega, show 8 + (i - 8) = i by omega]
    · by_cases h3 : i < 24
      · simp [h1, show ¬ i - 8 < 8 by omega, show i - 8 - 8 < 8 by omega, show 16 + (i - 8 - 8) = i by omega]
      · simp [h1, show ¬ i - 8 < 8 by omega, show ¬ i - 8 - 8 < 8 by omega, show i - 8 - 8 - 8 < 8 by omega,
          show 24 + (i - 8 - 8 - 8) = i by omega]

/-- R92: a stored word is read back. -/
theorem wordAt_store_same (s : State) (a : Nat) (v : Word) : (s.store a (wordBytes v)).wordAt a = v := by
  unfold State.wordAt
  simp only [byteAt_store, wordBytes, List.length_cons, List.length_nil]
  rw [if_pos (by omega), if_pos (by omega), if_pos (by omega), if_pos (by omega)]
  simpa [show a + 1 - a = 1 by omega, show a + 2 - a = 2 by omega, show a + 3 - a = 3 by omega] using
    wordOfBytes_byteOf v

/-- A store elsewhere leaves a word alone. -/
theorem wordAt_store_other (s : State) (a b : Nat) (bs : List Byte) (h : b + 4 ≤ a ∨ a + bs.length ≤ b) :
    (s.store a bs).wordAt b = s.wordAt b := by
  unfold State.wordAt
  simp only [byteAt_store]
  rw [if_neg (by omega), if_neg (by omega), if_neg (by omega), if_neg (by omega)]

@[simp] theorem byteOf_length (v : Word) : (wordBytes v).length = 4 := rfl

/-- Two states with the same memory read the same word. -/
theorem wordAt_congr {s t : State} (h : s.memory = t.memory) (a : Nat) : s.wordAt a = t.wordAt a := by
  simp [State.wordAt, State.byteAt, h]

end Sys2Proof.Machine
end

