-- ==== Sys2Proof/Laws/Sequencer.lean ====
section
/-! SUPPORT. Running a command that no other agent interleaves with: no primitive reads or writes the sequencers or the
schedule, so a command runs as its primitives do, one after another, on the rest of the state. -/

namespace Sys2Proof.Machine

/-- Replace the sequencers and the schedule. -/
def State.around (s : State) (q : List (Agent × Activity)) (c : List (List Move)) : State :=
  { s with tasks := q, sched := c }

/-- Map the states of a transition's result. -/
def Res.map {α β : Type} (f : α → β) (g : State → State) : Res α → Res β
  | .ok x => .ok (f x)
  | .stop w s => .stop w (g s)

section Around

variable (s : State) (q : List (Agent × Activity)) (c : List (List Move))

/-- `around` on the state of a pair. -/
def aroundSnd {α : Type} (q : List (Agent × Activity)) (c : List (List Move)) (x : α × State) : α × State :=
  (x.1, x.2.around q c)

/-- `around` on the state of a result with primitives. -/
def aroundFst {α : Type} (q : List (Agent × Activity)) (c : List (List Move)) (x : State × α) : State × α :=
  (x.1.around q c, x.2)

theorem around_self : s.around s.tasks s.sched = s := rfl
theorem around_around (q' c') : (s.around q c).around q' c' = s.around q' c' := rfl
theorem draw_around : (s.around q c).draw = aroundSnd q c s.draw := by
  obtain ⟨_, _, _, _, _, _, _, _, _, _, _, _, _, _, _, _, _, _, _, _, _, ⟨_, _, _, ds, _⟩, _, _, _⟩ := s
  cases ds <;> rfl

theorem widen_around (S : Strategy) (v : Half) : widen S v (s.around q c) = aroundSnd q c (widen S v s) := by
  cases S
  · rfl
  · simp only [widen, draw_around]; rfl

theorem writeRap_around (S : Strategy) (i : Half) : writeRap S i (s.around q c) = (writeRap S i s).around q c := by
  unfold writeRap
  by_cases h : answers s.params S = true
  · have h' : answers (s.around q c).params S = true := h
    rw [if_pos h, if_pos h']; rfl
  · have h' : ¬ answers (s.around q c).params S = true := h
    rw [if_neg h, if_neg h']; rfl

theorem readData_around (S : Strategy) (f : RegFile) :
    readData S f (s.around q c) = aroundSnd q c (readData S f s) := by
  have hd := draw_around s q c
  have e1 : (s.around q c).params = s.params := rfl
  have e2 : (s.around q c).device = s.device := rfl
  unfold readData
  simp only [e1, e2, hd]
  by_cases h : answers s.params S = true
  · simp only [h, if_true]
    cases f
    · cases hv : csrValue s.params s.device with
      | none => simp only [aroundSnd, widen_around]; rfl
      | some v => simp only [widen_around]; rfl
    · simp only [aroundSnd, widen_around]; rfl
  · simp only [h, Bool.false_eq_true, if_false]; rfl

theorem writeData_around (S : Strategy) (f : RegFile) (x : Half) :
    writeData S f x (s.around q c) = (writeData S f x s).map (·.around q c) (·.around q c) := by
  have e1 : (s.around q c).params = s.params := rfl
  unfold writeData
  simp only [e1]
  by_cases h : answers s.params S = true
  · simp only [h, if_true]
    cases f
    · have e2 : ∀ e, ((s.around q c).record e).device = s.device := fun _ => rfl
      have e3 : ∀ e, (s.record e).device = s.device := fun _ => rfl
      simp only [e2, e3]
      cases csrStore s.device x <;> rfl
    · rfl
  · simp only [h, Bool.false_eq_true, if_false]; rfl

theorem readReset_around (S : Strategy) : readReset S (s.around q c) = (readReset S s).around q c := by
  have e1 : (s.around q c).params = s.params := rfl
  unfold readReset
  simp only [draw_around, e1]
  by_cases h : answers s.params S = true
  · simp only [h, if_true]; rfl
  · simp only [h, Bool.false_eq_true, if_false]; rfl

theorem checkBytes_around (a n : Nat) :
    (s.around q c).checkBytes a n = (s.checkBytes a n).map id (·.around q c) := by
  have e1 : (s.around q c).splits a n = s.splits a n := rfl
  unfold State.checkBytes
  simp only [e1]
  split
  · rfl
  · split <;> rfl

theorem checkWord_around (a : Nat) : (s.around q c).checkWord a = (s.checkWord a).map id (·.around q c) := by
  unfold State.checkWord
  split
  · rfl
  · split <;> rfl

theorem checkOwn_around (b : Word) (i a : Nat) :
    (s.around q c).checkOwn b i a = (s.checkOwn b i a).map id (·.around q c) := by
  have e1 : (s.around q c).wordAt (slotAddr b i 1) = s.wordAt (slotAddr b i 1) := rfl
  unfold State.checkOwn
  simp only [e1]
  split <;> rfl

/-- How `around` passes through a sequence. -/
theorem bind_around {α β : Type} {r r' : Res α} {f f' : α → Res β} {g : α → α} {k : β → β}
    (hr : r' = r.map g (·.around q c)) (hf : ∀ x, f' (g x) = (f x).map k (·.around q c)) :
    r'.bind f' = (r.bind f).map k (·.around q c) := by
  subst hr
  cases r with
  | ok x => exact hf x
  | stop w t => rfl

theorem allocate_around (u : AllocUse) (size : Nat) :
    (s.around q c).allocate u size =
      (s.allocate u size).map (fun x => (x.1, x.2.1, x.2.2.around q c)) (·.around q c) := by
  have e1 : (s.around q c).allocAnswer = s.allocAnswer := rfl
  have e2 : ∀ p n, (s.around q c).admits p n = s.admits p n := fun _ _ => rfl
  unfold State.allocate
  simp only [e1, e2]
  cases s.allocAnswer with
  | none => rfl
  | some x =>
    simp only
    split <;> rfl

theorem slotCheck_around (r : Ring) (i k a : Nat) :
    (if k = 1 then Res.ok () else (s.around q c).checkOwn ((s.around q c).ringBase r) i a) =
      (if k = 1 then Res.ok () else s.checkOwn (s.ringBase r) i a).map id (·.around q c) := by
  have e : (s.around q c).ringBase r = s.ringBase r := by cases r <;> rfl
  rw [e]
  split
  · rfl
  · exact checkOwn_around s q c _ _ _

theorem hostSlotWrite_around (r : Ring) (i k : Nat) (v : Word) :
    (s.around q c).hostSlotWrite r i k v = (s.hostSlotWrite r i k v).map (·.around q c) (·.around q c) := by
  have e : (s.around q c).ringBase r = s.ringBase r := by cases r <;> rfl
  unfold State.hostSlotWrite
  refine bind_around q c (g := id) (by rw [e]; exact checkWord_around s q c _) fun _ => ?_
  refine bind_around q c (g := id) ?_ fun _ => ?_
  · rw [slotCheck_around, e]
  · rw [e]; rfl

theorem hostSlotRead_around (r : Ring) (i k : Nat) :
    (s.around q c).hostSlotRead r i k = (s.hostSlotRead r i k).map (aroundSnd q c) (·.around q c) := by
  have e : (s.around q c).ringBase r = s.ringBase r := by cases r <;> rfl
  unfold State.hostSlotRead
  refine bind_around q c (g := id) (by rw [e]; exact checkWord_around s q c _) fun _ => ?_
  refine bind_around q c (g := id) ?_ fun _ => ?_
  · rw [slotCheck_around, e]
  · rw [e]; rfl

theorem mapBytes_around (h : Word) (len : Nat) (p : Word) :
    (s.around q c).mapBytes h len p = (s.mapBytes h len p).around q c := rfl

theorem afterAcquire_around (i : Instr) :
    afterAcquire i (s.around q c) = aroundFst q c (afterAcquire i s) := by
  cases i <;> try rfl
  case openDev mac =>
    have e : (s.around q c).attachedOrClosed = s.attachedOrClosed := rfl
    simp only [afterAcquire, openBody, e]
    split <;> rfl

theorem quietStep_around (a : Agent) (i : Instr) (k : Quiet) :
    quietStep a i k (s.around q c) = (quietStep a i k s).map (aroundFst q c) (·.around q c) := by
  cases k <;> try rfl
  case releaseRing r =>
    simp only [quietStep]
    have e : (s.around q c).device = s.device := rfl
    rw [e]
    split
    · cases r <;> rfl
    · rfl
  case ringFreed r => cases r <;> rfl
  case ringMade r e v p => cases r <;> rfl

theorem onRead_around (k : OnRead) (v : Half) : onRead k v (s.around q c) = aroundFst q c (onRead k v s) := by
  cases k <;> try rfl
  case probe S =>
    simp only [onRead, probed]
    split
    · rfl
    · cases S <;> rfl

theorem onWord_around (k : OnWord) (w : Word) : onWord k w (s.around q c) = aroundFst q c (onWord k w s) := by
  cases k <;> try rfl
  case drainStatus left i w1 =>
    simp only [onWord, drainStatus]
    have e : (s.around q c).params = s.params := rfl
    rw [e]
    split <;> rfl

theorem withStrategy_around (via : Via) (i : Instr) (f : Strategy → State → Res (State × List Prim))
    (hf : ∀ S, f S (s.around q c) = (f S s).map (aroundFst q c) (·.around q c)) :
    withStrategy via i (s.around q c) (fun S => f S (s.around q c)) =
      (withStrategy via i s fun S => f S s).map (aroundFst q c) (·.around q c) := by
  have e : (s.around q c).mode = s.mode := rfl
  unfold withStrategy
  rw [e]
  cases via.resolve s.mode with
  | none => rfl
  | some S => exact hf S

/-- No primitive reads or writes the sequencers or the schedule. -/
theorem perform_around (a : Agent) (i : Instr) (p : Prim) :
    perform a i p (s.around q c) = (perform a i p s).map (aroundFst q c) (·.around q c) := by
  cases p with
  | acquire =>
    simp only [perform, acquireStep]
    have e : (s.around q c).params = s.params := rfl
    rw [e]
    split
    · exact congrArg Res.ok (afterAcquire_around { s with lockOwner := some a } q c i)
    · rfl
  | rap via idx =>
    refine withStrategy_around s q c via i (fun S s => .ok (writeRap S idx s, [])) fun S => ?_
    simp only [writeRap_around]; rfl
  | dataGet via file k =>
    refine withStrategy_around s q c via i
      (fun S s => .ok (onRead k (readData S file s).1 (readData S file s).2)) fun S => ?_
    simp only [readData_around, aroundSnd, onRead_around]; rfl
  | dataPut via file x =>
    refine withStrategy_around s q c via i (fun S s => (writeData S file x s).bind fun s' => .ok (s', [])) fun S => ?_
    exact bind_around q c (writeData_around s q c S file x) fun _ => rfl
  | resetPort via =>
    refine withStrategy_around s q c via i (fun S s => .ok (readReset S s, [])) fun S => ?_
    simp only [readReset_around]; rfl
  | allocIb => exact bind_around q c (allocate_around s q c _ _) fun _ => rfl
  | zeroIb k => exact bind_around q c (g := id) (checkBytes_around s q c _ _) fun _ => rfl
  | ibPut off bs => exact bind_around q c (g := id) (checkBytes_around s q c _ _) fun _ => rfl
  | allocRing r e => exact bind_around q c (allocate_around s q c _ _) fun _ => rfl
  | zeroWord x => exact bind_around q c (g := id) (checkWord_around s q c _) fun _ => rfl
  | allocBuf => exact bind_around q c (allocate_around s q c _ _) fun _ => rfl
  | slotPut r k w v => exact bind_around q c (hostSlotWrite_around s q c _ _ _ _) fun _ => rfl
  | slotGet r k w f =>
    refine bind_around q c (hostSlotRead_around s q c _ _ _) fun x => ?_
    simp only [aroundSnd, onWord_around]; rfl
  | mapFrame addr len =>
    simp only [perform, mapFrameStep]
    have e1 : (s.around q c).mapAnswer = s.mapAnswer := rfl
    have e2 : ∀ p n, (s.around q c).admits p n = s.admits p n := fun _ _ => rfl
    have e3 : ∀ x, (s.around q c).takeMap.record x = (s.takeMap.record x).around q c := fun _ => rfl
    simp only [e1, e2, e3, mapBytes_around]
    split <;> rfl
  | allocFrame k len =>
    simp only [perform, allocFrameStep]
    have e1 : (s.around q c).frameAnswer = s.frameAnswer := rfl
    rw [e1]
    cases s.frameAnswer <;> rfl
  | copyFrame k len h =>
    simp only [perform, copyFrameStep]
    have e1 : (s.around q c).rx = s.rx := rfl
    rw [e1]
    cases s.rx.buf[k]? with
    | none => rfl
    | some b =>
      refine bind_around q c (g := id) (checkBytes_around s q c _ _) fun _ => ?_
      exact bind_around q c (g := id) (checkOwn_around s q c _ _ _) fun _ => rfl
  | quiet k => exact quietStep_around s q c a i k
  | release => rfl
  | freeIb => rfl
  | free v x size => rfl
  | unmap phys len => rfl
  | releaseFrame h => rfl
  | stopQueue => rfl
  | wakeQueue => rfl
  | deliver h bytes => rfl

end Around

/-! ### A command alone -/

/-- The first primitive is not waiting (R16 `hold`). -/
def ready (i : Instr) (p : Prim) (s : State) : Prop :=
  p = .acquire → (acquirable i s || !operandOk s.params i) = true

/-- The primitives of a command, one after another, each on the state the last left; `n` primitives are performed. -/
inductive Runs (a : Agent) (i : Instr) : List Prim → State → Res State → Nat → Prop
  | done (s : State) : Runs a i [] s (.ok s) 0
  | stop {p : Prim} {rest : List Prim} {s f : State} {w : Stop} :
    ready i p s → perform a i p s = .stop w f → Runs a i (p :: rest) s (.stop w f) 1
  | step {p : Prim} {rest ps : List Prim} {s s' : State} {r : Res State} {n : Nat} :
    ready i p s → perform a i p s = .ok (s', ps) → Runs a i (ps ++ rest) s' r n → Runs a i (p :: rest) s r (n + 1)

theorem perform_keeps {a : Agent} {i : Instr} {p : Prim} {s s' : State} {ps : List Prim}
    (h : perform a i p s = .ok (s', ps)) : s'.tasks = s.tasks ∧ s'.sched = s.sched := by
  have e := perform_around s s.tasks s.sched a i p
  rw [around_self, h] at e
  simp only [Res.map, aroundFst, Res.ok.injEq, Prod.mk.injEq, and_true] at e
  constructor
  · have h1 := congrArg State.tasks e; exact h1
  · have h1 := congrArg State.sched e; exact h1

theorem filter_ne_of_lookup {a : Agent} : ∀ {l : List (Agent × Activity)}, l.lookup a = none →
    l.filter (fun y => y.1 != a) = l
  | [], _ => rfl
  | (b, x) :: l, h => by
    by_cases e : a = b
    · subst e; simp at h
    · have e1 : (a == b) = false := by simpa using e
      rw [List.lookup_cons, e1] at h
      have e2 : (b != a) = true := by simpa using fun h => e h.symm
      rw [List.filter_cons_of_pos (by exact e2), filter_ne_of_lookup h]

theorem setActivity_eq {s : State} {a : Agent} (h : s.activity a = none) (x : Option Activity) (hs : s.sched = []) :
    s.setActivity a x = s.around (x.toList.map (fun y => (a, y)) ++ s.tasks) [] := by
  unfold State.setActivity State.around
  rw [filter_ne_of_lookup h, ← hs]

theorem setActivity_none {s : State} {a : Agent} (h : s.activity a = none) : s.setActivity a none = s := by
  unfold State.setActivity
  rw [filter_ne_of_lookup h]; rfl

theorem setActivity_twice {s : State} {a : Agent} (x y : Option Activity) :
    (s.setActivity a x).setActivity a y = s.setActivity a y := by
  unfold State.setActivity
  cases x <;> simp [List.filter_filter]

theorem activity_setActivity {s : State} {a : Agent} (x : Activity) : (s.setActivity a (some x)).activity a = some x := by
  simp [State.setActivity, State.activity]

/-- The quiet primitives merged into a transition are primitives of the run. -/
theorem settle_runs {a : Agent} {i : Instr} : ∀ {k : Nat} {todo : List Prim} {s : State} {r : Res State} {n : Nat},
    Runs a i todo s r n →
    (∃ s' todo' m, settle k a i todo s = .ok (s', todo') ∧ Runs a i todo' s' r m ∧ m ≤ n ∧ s'.tasks = s.tasks ∧
      s'.sched = s.sched) ∨
    (∃ w f, settle k a i todo s = .stop w f ∧ r = .stop w f)
  | 0, todo, s, r, n, h => .inl ⟨s, todo, n, by unfold settle; rfl, h, Nat.le_refl n, rfl, rfl⟩
  | k + 1, [], s, r, n, h => .inl ⟨s, [], n, by unfold settle; rfl, h, Nat.le_refl n, rfl, rfl⟩
  | k + 1, p :: rest, s, r, n, h => by
    by_cases e : ∃ q, p = .quiet q
    · obtain ⟨q, rfl⟩ := e
      cases h with
      | @stop _ _ _ f w hr hp =>
        refine .inr ⟨w, f, ?_, rfl⟩
        have hp : quietStep a i q s = .stop w f := hp
        simp only [settle, hp, Res.bind]
      | @step _ _ ps _ s' _ m hr hp h =>
        have hq : quietStep a i q s = .ok (s', ps) := hp
        have hk := perform_keeps hp
        simp only [settle, hq, Res.bind]
        rcases settle_runs (k := k) h with ⟨s2, t2, m2, h1, h2, h3, h4, h5⟩ | ⟨w, f, h1, h2⟩
        · exact .inl ⟨s2, t2, m2, h1, h2, by omega, h4.trans hk.1, h5.trans hk.2⟩
        · exact .inr ⟨w, f, h1, h2⟩
    · refine .inl ⟨s, p :: rest, n, ?_, h, Nat.le_refl n, rfl, rfl⟩
      cases p <;> first | rfl | exact absurd ⟨_, rfl⟩ e

theorem settle_around {a : Agent} {i : Instr} (q : List (Agent × Activity)) (c : List (List Move)) :
    ∀ (k : Nat) (todo : List Prim) (s : State), settle k a i todo (s.around q c) =
      (settle k a i todo s).map (aroundFst q c) (·.around q c)
  | 0, _, _ => by unfold settle; rfl
  | _ + 1, [], _ => by unfold settle; rfl
  | k + 1, p :: rest, s => by
    cases p <;> try rfl
    case quiet x =>
      simp only [settle]
      exact bind_around q c (quietStep_around s q c a i x) fun y => settle_around q c k _ _

theorem atRest_none {a : Agent} {s : State} (h : s.activity a = none) : atRest a s = true := by
  simp [atRest, h]

theorem runAgent_rest {n : Nat} {a : Agent} {s : State} (h : atRest a s = true) : runAgent n a s = .next s := by
  cases n with
  | zero => rfl
  | succ n => simp [runAgent, h]

theorem perform_stop_keeps {a : Agent} {i : Instr} {p : Prim} {s f : State} {w : Stop}
    (h : perform a i p s = .stop w f) : f.tasks = s.tasks ∧ f.sched = s.sched := by
  have e := perform_around s s.tasks s.sched a i p
  rw [around_self, h] at e
  simp only [Res.map, Res.stop.injEq, true_and] at e
  constructor
  · have h1 := congrArg State.tasks e; exact h1
  · have h1 := congrArg State.sched e; exact h1

theorem settle_stop_keeps {a : Agent} {i : Instr} {k : Nat} {todo : List Prim} {s f : State} {w : Stop}
    (h : settle k a i todo s = .stop w f) : f.tasks = s.tasks ∧ f.sched = s.sched := by
  have e := settle_around (a := a) (i := i) s.tasks s.sched k todo s
  rw [around_self, h] at e
  simp only [Res.map, Res.stop.injEq, true_and] at e
  constructor
  · have h1 := congrArg State.tasks e; exact h1
  · have h1 := congrArg State.sched e; exact h1

theorem performNext_around {a : Agent} {i : Instr} (q : List (Agent × Activity)) (c : List (List Move)) (todo : List Prim)
    (s : State) : performNext a i todo (s.around q c) = (performNext a i todo s).map (aroundFst q c) (·.around q c) := by
  cases todo with
  | nil => rfl
  | cons p rest =>
    exact bind_around q c (perform_around s q c a i p) fun y => settle_around q c settleDepth _ _

/-- The first primitive that is no register update, and the register updates after it, are primitives of the run. -/
theorem performNext_runs {a : Agent} {i : Instr} {todo : List Prim} {s : State} {r : Res State} {n : Nat}
    (h : Runs a i todo s r n) :
    (∃ s' todo' m, performNext a i todo s = .ok (s', todo') ∧ Runs a i todo' s' r m ∧ m + 1 ≤ max n 1 ∧
      s'.tasks = s.tasks ∧ s'.sched = s.sched) ∨
    (∃ w f, performNext a i todo s = .stop w f ∧ r = .stop w f ∧ f.tasks = s.tasks ∧ f.sched = s.sched) := by
  cases h with
  | done => exact .inl ⟨s, [], 0, rfl, .done s, by omega, rfl, rfl⟩
  | @stop p rest _ f w hr hp =>
    obtain ⟨h1, h2⟩ := perform_stop_keeps hp
    exact .inr ⟨w, f, by simp only [performNext, hp, Res.bind], rfl, h1, h2⟩
  | @step p rest ps _ s' _ m hr hp h =>
    obtain ⟨h1, h2⟩ := perform_keeps hp
    simp only [performNext, hp, Res.bind]
    rcases settle_runs (k := settleDepth) h with ⟨s2, t2, m2, e1, h3, h4, h5, h6⟩ | ⟨w, f, e1, e2⟩
    · exact .inl ⟨s2, t2, m2, e1, h3, by omega, h5.trans h1, h6.trans h2⟩
    · obtain ⟨h3, h4⟩ := settle_stop_keeps e1
      exact .inr ⟨w, f, e1, e2, h3.trans h1, h4.trans h2⟩

/-- A run's register updates come to an enabled step. -/
theorem passes_of_runs {a : Agent} {i : Instr} {todo : List Prim} {s : State} {r : Res State} {n : Nat}
    (h : Runs a i todo s r n) (q : List (Agent × Activity)) (c : List (List Move)) :
    passes i (.ok (s.around q c, todo)) = true := by
  unfold passes
  split
  · rename_i s' rest e
    cases e
    have hr : ready i .acquire s := by cases h <;> assumption
    exact hr rfl
  · rfl

/-- A command alone runs as its primitives do. -/
theorem runAgent_runs {a : Agent} {i : Instr} : ∀ {n : Nat} {todo : List Prim} {s : State} {r : Res State} {m : Nat},
    Runs a i todo s r m → s.sched = [] → s.activity a = none → m ≤ n →
    ∃ x, runAgent n a (s.setActivity a (activityOf i todo)) =
      (r.map id fun f => f.setActivity a x).outcome a (some i) := by
  intro n
  induction n with
  | zero =>
    intro todo s r m h hs ha hm
    cases h with
    | done => exact ⟨none, by simp [activityOf, setActivity_none ha, runAgent, Res.map, Res.outcome]⟩
    | stop => omega
    | step => omega
  | succ n ih =>
    intro todo s r m h hs ha hm
    cases todo with
    | nil =>
      cases h
      exact ⟨none, by simp [activityOf, setActivity_none ha, runAgent, Res.map, Res.outcome, atRest_none ha]⟩
    | cons p rest =>
      have hact : (s.setActivity a (activityOf i (p :: rest))).activity a = some ⟨i, p :: rest⟩ :=
        activity_setActivity _
      generalize hq : (some (⟨i, p :: rest⟩ : Activity)).toList.map (fun y => (a, y)) ++ s.tasks = q
      have hset : s.setActivity a (activityOf i (p :: rest)) = s.around q [] := by
        rw [← hq]; exact setActivity_eq ha _ hs
      rw [hset] at hact ⊢
      have hx : ∀ f : State, f.tasks = s.tasks → f.sched = s.sched →
          f.around q [] = f.setActivity a (some ⟨i, p :: rest⟩) := by
        intro f h1 h2
        rw [setActivity_eq (by unfold State.activity; rw [h1]; exact ha) _ (h2.trans hs), ← hq, h1]
      have hy : ∀ (f : State) (y : Option Activity), f.tasks = s.tasks → f.sched = s.sched →
          (f.around q []).setActivity a y = f.setActivity a y := by
        intro f y h1 h2
        rw [hx f h1 h2, setActivity_twice]
      have hstop : ∀ (w : Stop) (f : State), f.tasks = s.tasks → f.sched = s.sched →
          andThen (andThen (Res.outcome a (some i) (.stop w (f.around q []))) gap) (runAgent n a) =
          ((Res.stop w f : Res State).map id fun f => f.setActivity a (some ⟨i, p :: rest⟩)).outcome a (some i) := by
        intro w f h1 h2
        rw [hx f h1 h2]
        cases w <;> rfl
      have hrun : enabled a (s.around q []) = true → runAgent (n + 1) a (s.around q []) =
          andThen (andThen ((transition a i (p :: rest) (s.around q [])).outcome a (some i)) gap) (runAgent n a) := by
        intro hen
        have hrest : atRest a (s.around q []) = false := by simp [atRest, hact, hen]
        have htick : tick a (s.around q []) = (transition a i (p :: rest) (s.around q [])).outcome a (some i) := by
          simp only [tick, hen, if_true, hact]
        unfold runAgent
        rw [hrest]
        simp only [Bool.false_eq_true, if_false, turn, htick]
      have hlead := settle_around (a := a) (i := i) q [] settleDepth (p :: rest) s
      have hm1 : 1 ≤ m := by cases h <;> omega
      rcases settle_runs (k := settleDepth) h with ⟨s1, t1, m1, e1, h1, hm2, k1, k2⟩ | ⟨w, f, e1, e2⟩
      · rw [e1] at hlead
        have hen : enabled a (s.around q []) = true := by
          simp only [enabled, hact, hlead, Res.map, aroundFst]
          exact passes_of_runs h1 q []
        rw [hrun hen]
        simp only [transition, hlead, Res.map, aroundFst, Res.bind, performNext_around]
        rcases performNext_runs h1 with ⟨s2, t2, m2, e2, h3, h4, h5, h6⟩ | ⟨w, f, e2, e3, h5, h6⟩
        · rw [e2]
          simp only [Res.outcome]
          rw [hy s2 _ (h5.trans k1) (h6.trans k2)]
          have hs2 : s2.sched = [] := (h6.trans k2).trans hs
          have ha2 : s2.activity a = none := by unfold State.activity; rw [h5.trans k1]; exact ha
          have hg : gap (s2.setActivity a (activityOf i t2)) = .next (s2.setActivity a (activityOf i t2)) := by
            unfold gap
            have : (s2.setActivity a (activityOf i t2)).sched = [] := hs2
            rw [this]
          simp only [andThen, hg]
          exact ih h3 hs2 ha2 (by omega)
        · refine ⟨some ⟨i, p :: rest⟩, ?_⟩
          rw [e2, e3]
          exact hstop w f (h5.trans k1) (h6.trans k2)
      · obtain ⟨h3, h4⟩ := settle_stop_keeps e1
        rw [e1] at hlead
        have hen : enabled a (s.around q []) = true := by
          simp only [enabled, hact, hlead, Res.map, passes]
        rw [hrun hen]
        refine ⟨some ⟨i, p :: rest⟩, ?_⟩
        simp only [transition, hlead, Res.map, Res.bind]
        rw [e2]
        exact hstop w f h3 h4

/-- `exec` of a command alone: its primitives, one after another. -/
theorem runCommand_runs {a : Agent} {i : Instr} {s : State} {r : Res State} {m : Nat} (hi : s.isIdle a = true)
    (hs : s.sched = []) (h : Runs a i (script i) (s.record (.issued a i)) r m) (hm : m ≤ fuel s) :
    ∃ x, runCommand a i s = (r.map id fun f => f.setActivity a x).outcome a (some i) := by
  have ha : s.activity a = none := by
    have h1 := hi
    simp only [State.isIdle, Bool.and_eq_true, Option.isNone_iff_eq_none] at h1
    exact h1.2
  obtain ⟨x, hx⟩ := runAgent_runs h (n := fuel s) hs ha hm
  refine ⟨x, ?_⟩
  simp only [runCommand, hi, if_true]
  rw [← hx]
  cases h1 : script i with
  | nil => cases i <;> exact absurd h1 (List.cons_ne_nil _ _)
  | cons p rest => unfold issue; rw [h1]; rfl

theorem runCommand_next {a : Agent} {i : Instr} {s t : State} {m : Nat} (hi : s.isIdle a = true)
    (hs : s.sched = []) (h : Runs a i (script i) (s.record (.issued a i)) (.ok t) m) (hm : m ≤ fuel s) :
    runCommand a i s = .next t := by
  obtain ⟨x, hx⟩ := runCommand_runs hi hs h hm
  exact hx

theorem runCommand_stop {a : Agent} {i : Instr} {s f : State} {w : Stop} {m : Nat} (hi : s.isIdle a = true)
    (hs : s.sched = []) (h : Runs a i (script i) (s.record (.issued a i)) (.stop w f) m) (hm : m ≤ fuel s) :
    ∃ x, runCommand a i s = (Res.stop w (f.setActivity a x) : Res State).outcome a (some i) := runCommand_runs hi hs h hm

/-- At least so many turns in every `exec`. -/
theorem fuel_ge (s : State) : 1048576 ≤ fuel s := by unfold fuel; omega

section Steps

variable {a : Agent} {i : Instr} {rest ps : List Prim} {s s' : State} {r : Res State} {n : Nat}

theorem Runs.acquire (h1 : acquirable i s = true) (h2 : operandOk s.params i = true)
    (h3 : afterAcquire i { s with lockOwner := some a } = (s', ps)) (h : Runs a i (ps ++ rest) s' r n) :
    Runs a i (.acquire :: rest) s r (n + 1) :=
  .step (fun _ => by simp [h1]) (by simp [perform, acquireStep, h2, h3]) h

theorem ready_of_ne {p : Prim} (h : p ≠ .acquire) : ready i p s := fun e => absurd e h

/-- A primitive other than `acquire`. -/
theorem Runs.prim {p : Prim} (hp : perform a i p s = .ok (s', ps)) (h : Runs a i (ps ++ rest) s' r n)
    (hne : p ≠ .acquire := by simp) : Runs a i (p :: rest) s r (n + 1) :=
  .step (ready_of_ne hne) hp h

theorem Runs.last {p : Prim} {w : Stop} {f : State} (hp : perform a i p s = .stop w f) (hne : p ≠ .acquire := by simp) :
    Runs a i (p :: rest) s (.stop w f) 1 :=
  .stop (ready_of_ne hne) hp

end Steps

/-- The primitive is an `acquire` that holds (R16). -/
def waits (i : Instr) (p : Prim) (s : State) : Bool :=
  match p with
  | .acquire => !(acquirable i s || !operandOk s.params i)
  | _ => false

theorem ready_of_waits {i : Instr} {p : Prim} {s : State} (h : waits i p s = false) : ready i p s := by
  intro e
  subst e
  exact Bool.not_inj (h.trans rfl)

/-- A run as a function of the number of primitives: none where an `acquire` holds or the number is spent. -/
def runPrims (a : Agent) (i : Instr) : Nat → List Prim → State → Option (Res State)
  | _, [], s => some (.ok s)
  | 0, _ :: _, _ => none
  | n + 1, p :: rest, s =>
    if waits i p s then none
    else
      match perform a i p s with
      | .ok x => runPrims a i n (x.2 ++ rest) x.1
      | .stop w f => some (.stop w f)

theorem runs_of_runPrims {a : Agent} {i : Instr} : ∀ {n : Nat} {todo : List Prim} {s : State} {r : Res State},
    runPrims a i n todo s = some r → ∃ m, m ≤ n ∧ Runs a i todo s r m
  | n, [], s, r, h => by
    have h : some (.ok s) = some r := by cases n <;> exact h
    cases h; exact ⟨0, by omega, .done s⟩
  | 0, p :: rest, s, r, h => by cases h
  | n + 1, p :: rest, s, r, h => by
    unfold runPrims at h
    split at h
    · cases h
    · rename_i hr
      have hready : ready i p s := ready_of_waits (Bool.eq_false_iff.mpr hr)
      split at h
      · rename_i x hp
        obtain ⟨m, hm, hrun⟩ := runs_of_runPrims h
        exact ⟨m + 1, by omega, .step hready hp hrun⟩
      · rename_i w f hp
        cases h
        exact ⟨1, by omega, .stop hready hp⟩

/-- A command alone that evaluates to an outcome. -/
theorem runCommand_eval {a : Agent} {i : Instr} {s t : State} (n : Nat) (hi : s.isIdle a = true)
    (hs : s.sched = []) (h : runPrims a i n (script i) (s.record (.issued a i)) = some (.ok t))
    (hn : n ≤ 1048576 := by omega) : runCommand a i s = .next t := by
  obtain ⟨m, hm, h⟩ := runs_of_runPrims h
  exact runCommand_next hi hs h (by have := fuel_ge s; omega)

/-! ### Evaluating a run: what each primitive does to it -/

section Eval

variable {a : Agent} {i : Instr} {n : Nat} {rest : List Prim} {s : State} {S : Strategy}

@[simp] theorem runPrims_nil : runPrims a i n [] s = some (.ok s) := by cases n <;> rfl

theorem runPrims_acquire (h1 : s.lockOwner = none) (h2 : teardown i = true → s.taskPending = false ∧ s.defBusy = false)
    (h3 : operandOk s.params i = true) :
    runPrims a i (n + 1) (.acquire :: rest) s =
      runPrims a i n ((afterAcquire i { s with lockOwner := some a }).2 ++ rest)
        (afterAcquire i { s with lockOwner := some a }).1 := by
  have hw : waits i .acquire s = false := by
    have : acquirable i s = true := by
      simp only [acquirable, State.lockFree, State.deferredQuiet, h1]
      by_cases ht : teardown i = true
      · simp [ht, h2 ht]
      · simp [ht]
    simp [waits, this]
  simp only [runPrims, hw, Bool.false_eq_true, if_false, perform, acquireStep, h3, if_true]

@[simp] theorem runPrims_release :
    runPrims a i (n + 1) (.release :: rest) s = runPrims a i n rest { s with lockOwner := none } := rfl

theorem runPrims_rap {v : Via} {idx : Half} (h : v.resolve s.mode = some S) :
    runPrims a i (n + 1) (.rap v idx :: rest) s = runPrims a i n rest (writeRap S idx s) := by
  simp only [runPrims, waits, Bool.false_eq_true, if_false, perform, withStrategy, h, List.nil_append]

theorem runPrims_dataGet {v : Via} {f : RegFile} {k : OnRead} (h : v.resolve s.mode = some S) :
    runPrims a i (n + 1) (.dataGet v f k :: rest) s =
      runPrims a i n ((onRead k (readData S f s).1 (readData S f s).2).2 ++ rest)
        (onRead k (readData S f s).1 (readData S f s).2).1 := by
  simp only [runPrims, waits, Bool.false_eq_true, if_false, perform, withStrategy, h]

theorem runPrims_dataPut {v : Via} {f : RegFile} {x : Half} {s' : State} (h : v.resolve s.mode = some S)
    (hw : writeData S f x s = .ok s') :
    runPrims a i (n + 1) (.dataPut v f x :: rest) s = runPrims a i n rest s' := by
  simp only [runPrims, waits, Bool.false_eq_true, if_false, perform, withStrategy, h, hw, Res.bind, List.nil_append]

theorem runPrims_resetPort {v : Via} (h : v.resolve s.mode = some S) :
    runPrims a i (n + 1) (.resetPort v :: rest) s = runPrims a i n rest (readReset S s) := by
  simp only [runPrims, waits, Bool.false_eq_true, if_false, perform, withStrategy, h, List.nil_append]

/-- Any primitive but `acquire`, with its result. -/
theorem runPrims_ok {p : Prim} {x : State × List Prim} (h : perform a i p s = .ok x)
    (hw : waits i p s = false := by rfl) :
    runPrims a i (n + 1) (p :: rest) s = runPrims a i n (x.2 ++ rest) x.1 := by
  simp only [runPrims, hw, Bool.false_eq_true, if_false, h]

theorem runPrims_stop {p : Prim} {w : Stop} {f : State} (h : perform a i p s = .stop w f)
    (hw : waits i p s = false := by rfl) :
    runPrims a i (n + 1) (p :: rest) s = some (.stop w f) := by
  simp only [runPrims, hw, Bool.false_eq_true, if_false, h]

/-- A quiet primitive. -/
theorem runPrims_quiet {q : Quiet} {x : State × List Prim} (h : quietStep a i q s = .ok x) :
    runPrims a i (n + 1) (.quiet q :: rest) s = runPrims a i n (x.2 ++ rest) x.1 := runPrims_ok h

@[simp] theorem runPrims_ret {c : OutcomeCode} {v : Half} :
    runPrims a i (n + 1) (.quiet (.ret c v) :: rest) s = runPrims a i n rest (s.giveReply a i ⟨c, v⟩) := rfl

end Eval

end Sys2Proof.Machine
end

