-- ==== Sys2Proof/Laws/Ops.lean ====
section
/-! SUPPORT. What the shared operations answer: one lemma per operation, with the conditions under which it goes on
(aligned, in memory, host-owned, fresh), so that no later proof unfolds them. -/

namespace Sys2Proof.Machine

variable {s : State}

theorem splits_congr {t : State} (h1 : t.tx = s.tx) (h2 : t.rx = s.rx) (a n : Nat) : t.splits a n = s.splits a n := by
  simp only [State.splits, h1, h2]

theorem bytesAt_congr {t : State} (h : t.memory = s.memory) (a n : Nat) : t.bytesAt a n = s.bytesAt a n := by
  simp only [State.bytesAt, State.byteAt, h]

theorem devTxAddr_congr {t : State} (h1 : t.device.cfg = s.device.cfg) (h2 : t.device.devTx = s.device.devTx) (k : Nat) :
    devTxAddr t k = devTxAddr s k := by
  simp only [devTxAddr, h1, h2]

theorem devRxAddr_congr {t : State} (h1 : t.device.cfg = s.device.cfg) (h2 : t.device.devRx = s.device.devRx) (k : Nat) :
    devRxAddr t k = devRxAddr s k := by
  simp only [devRxAddr, h1, h2]

theorem checkWord_ok {a : Nat} (h1 : a % 4 = 0) (h2 : a + 4 ≤ memTop) : s.checkWord a = .ok () := by
  unfold State.checkWord
  rw [if_neg (by omega), if_neg (by omega)]

theorem checkBytes_ok {a n : Nat} (h1 : a + n ≤ memTop) (h2 : s.splits a n = false) : s.checkBytes a n = .ok () := by
  unfold State.checkBytes
  rw [if_neg (by omega), h2]; rfl

theorem hostSlotWrite_ok {r : Ring} {i k : Nat} {v : Word} (h1 : slotAddr (s.ringBase r) i k % 4 = 0)
    (h2 : slotAddr (s.ringBase r) i k + 4 ≤ memTop)
    (h3 : k = 1 ∨ owned (s.wordAt (slotAddr (s.ringBase r) i 1)) = false) :
    s.hostSlotWrite r i k v = .ok (s.memWrite .host (slotAddr (s.ringBase r) i k) (wordBytes v)) := by
  simp only [State.hostSlotWrite, checkWord_ok h1 h2, Res.bind]
  by_cases hk : k = 1
  · rw [if_pos hk]
  · rw [if_neg hk]
    simp only [State.checkOwn, h3.resolve_left hk, Bool.false_eq_true, if_false]

theorem hostSlotRead_ok {r : Ring} {i k : Nat} (h1 : slotAddr (s.ringBase r) i k % 4 = 0)
    (h2 : slotAddr (s.ringBase r) i k + 4 ≤ memTop)
    (h3 : k = 1 ∨ owned (s.wordAt (slotAddr (s.ringBase r) i 1)) = false) :
    s.hostSlotRead r i k =
      .ok (s.wordAt (slotAddr (s.ringBase r) i k), s.noteRead .host (slotAddr (s.ringBase r) i k) 4) := by
  simp only [State.hostSlotRead, checkWord_ok h1 h2, Res.bind]
  by_cases hk : k = 1
  · rw [if_pos hk]
  · rw [if_neg hk]
    simp only [State.checkOwn, h3.resolve_left hk, Bool.false_eq_true, if_false]

/-- A slot of a placed ring lies in memory, its words aligned. -/
theorem slot_placed {base : Word} {e k w : Nat} (h : ringPlaced base e) (hk : k < ringSize e) (hw : w < 4) :
    slotAddr base k w % 4 = 0 ∧ slotAddr base k w + 4 ≤ memTop := by
  obtain ⟨h1, h2⟩ := h
  unfold slotAddr
  have : 16 * k + 16 ≤ 16 * ringSize e := by omega
  constructor <;> omega

/-- Two words are the same word, or share no byte. -/
theorem slotAddr_apart {base : Word} {i j k l : Nat} (hk : k < 4) (hl : l < 4) (h : ¬(i = j ∧ k = l)) :
    slotAddr base i k + 4 ≤ slotAddr base j l ∨ slotAddr base j l + 4 ≤ slotAddr base i k := by
  unfold slotAddr
  omega

theorem fresh_admits {rs : List (Nat × Nat)} {p n : Nat} (h : s.fresh rs) (hm : (p, n) ∈ rs) : s.admits p n = true := by
  obtain ⟨h2, h3⟩ := h.1 _ hm
  simp only [State.admits, Bool.and_eq_true, decide_eq_true_eq, List.all_eq_true]
  exact ⟨h2, fun q hq => h3 q hq⟩

theorem allocate_ok {u : AllocUse} {size v : Nat} {p : Word} {as : List (Option (Nat × Word))}
    (ha : s.oracle.allocs = some (v, p) :: as) (h1 : s.admits p.toNat size = true) (h2 : alignOk u p.toNat = true) :
    s.allocate u size = .ok (v, p, s.takeAlloc.record (.call (.alloc size (some (v, p))))) := by
  have e : s.allocAnswer = some (v, p) := by simp [State.allocAnswer, ha]
  simp only [State.allocate, e, h1, h2, Bool.and_self, if_true]

@[simp] theorem mappedBytes_length (h : Word) (len : Nat) : (s.mappedBytes h len).length = len := by
  simp [State.mappedBytes]

/-- The mapper's stores stay in the mapped region. -/
theorem mapBytes_out {h : Word} {len : Nat} {phys : Word} {x : Nat} (hx : x < phys.toNat ∨ phys.toNat + len ≤ x) :
    (s.mapBytes h len phys).byteAt x = s.byteAt x := by
  unfold State.mapBytes
  rw [byteAt_store, if_neg]
  rw [mappedBytes_length]
  omega

/-- R133: a mapped frame's bytes. -/
theorem mapBytes_in {h : Word} {len k : Nat} {phys : Word} {b : Byte} {bs : List Byte} (hb : s.frameBytes h = some bs)
    (hk : k < len) (hh : bs[k]? = some b) : (s.mapBytes h len phys).byteAt (phys.toNat + k) = b := by
  unfold State.mapBytes
  rw [byteAt_store, if_pos (by rw [mappedBytes_length]; omega)]
  simp [State.mappedBytes, hk, hb, hh]

theorem mapBytes_fields (h : Word) (len : Nat) (phys : Word) :
    s.mapBytes h len phys = { s with memory := (s.mapBytes h len phys).memory } := rfl

/-- A word is unchanged where its bytes are. -/
theorem wordAt_eq {t : State} {a : Nat} (h : ∀ x, a ≤ x → x < a + 4 → t.byteAt x = s.byteAt x) :
    t.wordAt a = s.wordAt a := by
  unfold State.wordAt
  rw [h a (by omega) (by omega), h (a + 1) (by omega) (by omega), h (a + 2) (by omega) (by omega),
    h (a + 3) (by omega) (by omega)]

theorem memWrite_other {who : Performer} {a x : Nat} {v : Word} (h : x < a ∨ a + 4 ≤ x) :
    (s.memWrite who a (wordBytes v)).byteAt x = s.byteAt x := by
  change (s.store a (wordBytes v)).byteAt x = _
  rw [byteAt_store, if_neg]
  simp only [byteOf_length]
  omega

theorem memWrite_word {who : Performer} {a : Nat} {v : Word} : (s.memWrite who a (wordBytes v)).wordAt a = v :=
  wordAt_store_same s a v

theorem memWrite_word_other {who : Performer} {a b : Nat} {v : Word} (h : b + 4 ≤ a ∨ a + 4 ≤ b) :
    (s.memWrite who a (wordBytes v)).wordAt b = s.wordAt b :=
  wordAt_eq fun x h1 h2 => memWrite_other (by omega)

/-! ### Loops over a number of slots -/

/-- The slots behind the oldest one are other slots. -/
theorem slot_behind {c n j : Nat} (hc : c < n) (hj : j + 1 < n) : (c + (j + 1)) % n ≠ c := by
  intro h
  by_cases hh : c + (j + 1) < n
  · rw [Nat.mod_eq_of_lt hh] at h; omega
  · rw [Nat.mod_eq_sub_mod (by omega), Nat.mod_eq_of_lt (by omega)] at h; omega

theorem flatMap_range_succ {α : Type} (f : Nat → List α) (k : Nat) :
    (List.range (k + 1)).flatMap f = f 0 ++ (List.range k).flatMap fun j => f (j + 1) := by
  rw [List.range_succ_eq_map, List.flatMap_cons, List.flatMap_map]

theorem foldl_range_succ {α : Type} (f : α → Nat → α) (k : Nat) (x : α) :
    (List.range (k + 1)).foldl f x = (List.range k).foldl (fun y j => f y (j + 1)) (f x 0) := by
  rw [List.range_succ_eq_map, List.foldl_cons, List.foldl_map]

theorem all_range_succ (p : Nat → Bool) (k : Nat) :
    (List.range (k + 1)).all p = (p 0 && (List.range k).all fun j => p (j + 1)) := by
  rw [List.range_succ_eq_map, List.all_cons, List.all_map]
  rfl

theorem flatMap_range_congr {α : Type} {f g : Nat → List α} {k : Nat} (h : ∀ j, j < k → f j = g j) :
    (List.range k).flatMap f = (List.range k).flatMap g := by
  induction k with
  | zero => rfl
  | succ k ih =>
    rw [List.range_succ, List.flatMap_append, List.flatMap_append, ih fun j hj => h j (by omega)]
    simp only [List.flatMap_cons, List.flatMap_nil, h k (by omega)]

theorem foldl_range_congr {α : Type} {f g : α → Nat → α} {k : Nat} {x : α} (h : ∀ y j, j < k → f y j = g y j) :
    (List.range k).foldl f x = (List.range k).foldl g x := by
  induction k with
  | zero => rfl
  | succ k ih =>
    rw [List.range_succ, List.foldl_append, List.foldl_append, ih fun y j hj => h y j (by omega)]
    simp only [List.foldl_cons, List.foldl_nil, h _ k (by omega)]

theorem all_range_congr {p q : Nat → Bool} {k : Nat} (h : ∀ j, j < k → p j = q j) :
    (List.range k).all p = (List.range k).all q := by
  induction k with
  | zero => rfl
  | succ k ih =>
    rw [List.range_succ, List.all_append, List.all_append, ih fun j hj => h j (by omega)]
    simp only [List.all_cons, List.all_nil, h k (by omega)]

/-! ### Primitives of a run -/

section Eval

variable {a : Agent} {i : Instr} {n : Nat} {rest : List Prim}

theorem runPrims_slotPut {r : Ring} {k w : Nat} {v : Word} (h1 : slotAddr (s.ringBase r) k w % 4 = 0)
    (h2 : slotAddr (s.ringBase r) k w + 4 ≤ memTop)
    (h3 : w = 1 ∨ owned (s.wordAt (slotAddr (s.ringBase r) k 1)) = false) :
    runPrims a i (n + 1) (.slotPut r k w v :: rest) s =
      runPrims a i n rest (s.memWrite .host (slotAddr (s.ringBase r) k w) (wordBytes v)) :=
  runPrims_ok (x := (s.memWrite .host (slotAddr (s.ringBase r) k w) (wordBytes v), []))
    (by simp only [perform, hostSlotWrite_ok h1 h2 h3, Res.bind])

theorem runPrims_slotGet {r : Ring} {k w : Nat} {c : OnWord} (h1 : slotAddr (s.ringBase r) k w % 4 = 0)
    (h2 : slotAddr (s.ringBase r) k w + 4 ≤ memTop)
    (h3 : w = 1 ∨ owned (s.wordAt (slotAddr (s.ringBase r) k 1)) = false) :
    runPrims a i (n + 1) (.slotGet r k w c :: rest) s =
      (let x := onWord c (s.wordAt (slotAddr (s.ringBase r) k w)) (s.noteRead .host (slotAddr (s.ringBase r) k w) 4)
       runPrims a i n (x.2 ++ rest) x.1) :=
  runPrims_ok (by simp only [perform, hostSlotRead_ok h1 h2 h3, Res.bind])

theorem runPrims_call {p : Prim} {s' : State} {c : Call} (h : perform a i p s = callStep c s')
    (hw : waits i p s = false := by rfl) :
    runPrims a i (n + 1) (p :: rest) s = runPrims a i n rest (s'.record (.call c)) :=
  runPrims_ok (x := (s'.record (.call c), [])) (h.trans rfl) hw

end Eval

end Sys2Proof.Machine
end

