-- ==== Sys2Proof/Laws/Device.lean ====
section
/-! SUPPORT. What the device's own steps answer on a slot they complete: one lemma per operation of Machine/Device.lean. -/

namespace Sys2Proof.Machine

theorem devWrite_eq (s : State) (a : Nat) (bs : List Byte) : s.devWrite a bs = s.memWrite .device a bs := rfl

theorem byteAt_congr {s t : State} (h : t.memory = s.memory) (x : Nat) : t.byteAt x = s.byteAt x := by
  simp only [State.byteAt, h]

theorem tx_complete (s : State) (w1 status any : Word) (cerr : Bool) (p3 : devTxAddr s 2 % 4 = 0) (p4 : devTxAddr s 2 + 4 ≤ memTop) :
   txComplete w1 status any cerr s = .ok (((s.devWrite (devTxAddr s 2) (wordBytes status)).devWrite (devTxAddr s 1)
    (wordBytes (txDoneW1 w1 status any))).withDevice (s.device.transmitted cerr)) := by
  simp only [txComplete, checkWord_ok p3 p4, Res.bind]

theorem tx_transmit (s : State) (w1 status any : Word) (cerr : Bool) (b len : Nat)
   (hb' : (s.wordAt (devTxAddr s 0)).toNat = b) (hl : bcntLen w1 = len)
   (p3 : devTxAddr s 2 % 4 = 0) (p4 : devTxAddr s 2 + 4 ≤ memTop)
   (hb : b + len ≤ memTop) (hs : s.splits b len = false) :
   ∃ sf : State, sf.device = s.device ∧ sf.memory = s.memory ∧ sf = { s with history := sf.history } ∧ sf.history.head? = some (Event.wireTx (s.bytesAt b len)) ∧
   txTransmit w1 status any cerr s = .ok (((sf.devWrite (devTxAddr s 2) (wordBytes status)).devWrite (devTxAddr s 1)
    (wordBytes (txDoneW1 w1 status any))).withDevice (s.device.transmitted cerr)) := by
  obtain ⟨u, hu⟩ : ∃ u, u = s.noteRead .device (devTxAddr s 0) 4 := ⟨_, rfl⟩
  have u1 : u.tx = s.tx := by rw [hu]; rfl
  have u2 : u.rx = s.rx := by rw [hu]; rfl
  have u3 : u.device = s.device := by rw [hu]; rfl
  obtain ⟨v, hv⟩ : ∃ v, v = (u.noteRead .device b len).record (.wireTx (s.bytesAt b len)) := ⟨_, rfl⟩
  have v3 : v.device = s.device := by rw [hv]; exact u3
  have v4 : v.memory = s.memory := by rw [hv, hu]; rfl
  have v5 : v = { s with history := v.history } := by rw [hv, hu]; rfl
  refine ⟨v, v3, v4, v5, ?_, ?_⟩
  · rw [hv]; rfl
  · unfold txTransmit
    simp only [hb', hl, ← hu]
    rw [checkBytes_ok hb ((splits_congr u1 u2 b len).trans hs)]
    simp only [Res.bind, ← hv]
    have d2 := devTxAddr_congr (s := s) (t := v) (by rw [v3]) (by rw [v3])
    rw [tx_complete v w1 status any cerr (by rw [d2]; exact p3) (by rw [d2]; exact p4), d2, d2, v3]

theorem tx_slot (s : State) (w1 status any : Word) (cerr : Bool) (b len : Nat) (hw : s.wordAt (devTxAddr s 1) = w1)
   (hb' : (s.wordAt (devTxAddr s 0)).toNat = b) (hl : bcntLen w1 = len)
   (p1 : devTxAddr s 1 % 4 = 0) (p2 : devTxAddr s 1 + 4 ≤ memTop)
   (p3 : devTxAddr s 2 % 4 = 0) (p4 : devTxAddr s 2 + 4 ≤ memTop)
   (ho : owned w1 = true) (h1 : hasBits w1 dSTP = true) (h2 : hasBits w1 dENP = true)
   (hb : b + len ≤ memTop) (hs : s.splits b len = false) :
   ∃ sf : State, sf.device = s.device ∧ sf.memory = s.memory ∧ sf = { s with history := sf.history } ∧ sf.history.head? = some (Event.wireTx (s.bytesAt b len)) ∧
   txSlot status any cerr s = .ok (((sf.devWrite (devTxAddr s 2) (wordBytes status)).devWrite (devTxAddr s 1)
    (wordBytes (txDoneW1 w1 status any))).withDevice (s.device.transmitted cerr)) := by
  obtain ⟨u, hu⟩ : ∃ u, u = s.noteRead .device (devTxAddr s 1) 4 := ⟨_, rfl⟩
  have u1 : u.tx = s.tx := by rw [hu]; rfl
  have u2 : u.rx = s.rx := by rw [hu]; rfl
  have u3 : u.device = s.device := by rw [hu]; rfl
  have u4 : u.memory = s.memory := by rw [hu]; rfl
  have u5 : u = { s with history := u.history } := by rw [hu]; rfl
  have d2 := devTxAddr_congr (s := s) (t := u) (by rw [u3]) (by rw [u3])
  obtain ⟨sf, f1, f2, f3, f4, f5⟩ := tx_transmit u w1 status any cerr b len (by rw [d2, wordAt_congr u4]; exact hb') hl (by rw [d2]; exact p3) (by rw [d2]; exact p4) hb ((splits_congr u1 u2 b len).trans hs)
  refine ⟨sf, f1.trans u3, f2.trans u4, ?_, ?_, ?_⟩
  · rw [f3, u5]
  · rw [f4, bytesAt_congr u4]
  · unfold txSlot
    rw [checkWord_ok p1 p2]
    simp only [Res.bind, hw, ho, h1, h2, ← hu, Bool.not_true, Bool.false_eq_true, if_false, Bool.or_false]
    rw [f5, d2, d2, u3]

/-- R363: a completed RX slot. -/
theorem rx_store (s : State) (w1 w2 : Word) (off : Nat) (bs : List Byte) (b : Nat)
    (hb : (s.wordAt (devRxAddr s 0)).toNat + off = b) (p3 : devRxAddr s 2 % 4 = 0) (p4 : devRxAddr s 2 + 4 ≤ memTop)
    (h1 : b + bs.length ≤ memTop) (h2 : s.splits b bs.length = false) :
    ∃ u : State, u.device = s.device ∧ u.memory = s.memory ∧ u = { s with history := u.history } ∧
      rxStore off bs w1 w2 s = .ok (rxComplete w1 w2 (u.devWrite b bs)) := by
  obtain ⟨u, hu⟩ : ∃ u, u = s.noteRead .device (devRxAddr s 0) 4 := ⟨_, rfl⟩
  have u1 : u.tx = s.tx := by rw [hu]; rfl
  have u2 : u.rx = s.rx := by rw [hu]; rfl
  refine ⟨u, by rw [hu]; rfl, by rw [hu]; rfl, by rw [hu]; rfl, ?_⟩
  unfold rxStore
  simp only [hb, ← hu]
  rw [checkWord_ok p3 p4]
  simp only [Res.bind]
  rw [checkBytes_ok h1 ((splits_congr u1 u2 b _).trans h2)]

/-- R363: a frame that fits into the slot at `dev_rx`, which the device owns. -/
theorem rx_frame (s : State) (frame : List Byte) (fcs errs x y w1 : Word) (os : List OversizeSlot) (b : Nat)
    (ho : owned w1 = true) (hf : frame.length + 4 ≤ bcntLen w1)
    (hb : (s.wordAt (devRxAddr s 0)).toNat = b) (p3 : devRxAddr s 2 % 4 = 0) (p4 : devRxAddr s 2 + 4 ≤ memTop)
    (h1 : b + (frame.length + 4) ≤ memTop) (h2 : s.splits b (frame.length + 4) = false) :
    ∃ u : State, u.device = s.device ∧ u.memory = s.memory ∧ u = { s with history := u.history } ∧
      rxFrame frame fcs errs x y os w1 s =
        .ok ((rxComplete (rxDoneW1 w1 errs y) (rxDoneW2 (frame.length + 4) x)
          (u.devWrite b (frame ++ wordBytes fcs))).record (.wireRx frame)) := by
  have hl : (frame ++ wordBytes fcs).length = frame.length + 4 := by
    rw [List.length_append, byteOf_length]
  obtain ⟨u, u1, u2, u3, u4⟩ := rx_store s (rxDoneW1 w1 errs y) (rxDoneW2 (frame.length + 4) x) 0
    (frame ++ wordBytes fcs) b (by omega) p3 p4 (by rw [hl]; exact h1) (by rw [hl]; exact h2)
  refine ⟨u, u1, u2, u3, ?_⟩
  unfold rxFrame
  rw [ho, if_neg (by decide), if_pos hf, u4]
  rfl

end Sys2Proof.Machine
end

