-- ==== Sys2Proof/Laws/Invariant.lean ====
section
/-! SUPPORT. The one induction over a step: a property that every primitive of every command and every device step keeps,
and that does not depend on what the sequencer holds, is kept by every step of the machine. -/

namespace Sys2Proof.Machine

/-- What `Kept.step` needs of a property of states. -/
structure Kept (P : State → Prop) : Prop where
  perform : ∀ {a i p s s' ps}, P s → perform a i p s = .ok (s', ps) → P s'
  device : ∀ {m s t}, P s → deviceStep m s = .ok t → P t
  sequencer : ∀ {s : State} {q c b k}, P s → P { s with tasks := q, sched := c, inbox := b, issuer := k }
  issued : ∀ {s : State} {a i}, P s → P (s.record (.issued a i))
  hostFrame : ∀ {s : State} {h bs}, P s → P (s.putFrame h bs)

namespace Kept

variable {P : State → Prop} (k : Kept P) {s t : State}

include k

theorem setActivity {a : Agent} {x : Option Activity} (h : P s) : P (s.setActivity a x) :=
  k.sequencer (c := s.sched) (b := s.inbox) (k := s.issuer) h

theorem settle {a : Agent} {i : Instr} : ∀ {n : Nat} {todo todo' : List Prim} {s s' : State}, P s →
    settle n a i todo s = .ok (s', todo') → P s'
  | 0, _, _, _, _, h, e => by
    unfold Machine.settle at e
    cases e
    exact h
  | _ + 1, [], _, _, _, h, e => by
    unfold Machine.settle at e
    cases e
    exact h
  | n + 1, p :: rest, todo', s, s', h, e => by
    by_cases hq : ∃ q, p = .quiet q
    · obtain ⟨q, rfl⟩ := hq
      simp only [Machine.settle] at e
      cases hs : quietStep a i q s with
      | stop w f => rw [hs] at e; cases e
      | ok x =>
        rw [hs] at e
        exact settle (k.perform (p := .quiet q) (ps := x.2) h (by exact hs)) e
    · have e2 : Machine.settle (n + 1) a i (p :: rest) s = .ok (s, p :: rest) := by
        cases p <;> first | rfl | exact absurd ⟨_, rfl⟩ hq
      rw [e2] at e
      cases e
      exact h

theorem performNext {a : Agent} {i : Instr} {todo todo' : List Prim} (h : P s)
    (e : performNext a i todo s = .ok (t, todo')) : P t := by
  cases todo with
  | nil =>
    cases e
    exact h
  | cons p rest =>
    simp only [Machine.performNext] at e
    cases h1 : Machine.perform a i p s with
    | stop w f => rw [h1] at e; cases e
    | ok x =>
      rw [h1] at e
      exact k.settle (k.perform (ps := x.2) h h1) e

theorem transition {a : Agent} {i : Instr} {todo : List Prim} (h : P s)
    (e : transition a i todo s = .ok t) : P t := by
  unfold Machine.transition at e
  cases h1 : Machine.settle settleDepth a i todo s with
  | stop w f => rw [h1] at e; cases e
  | ok x =>
    rw [h1] at e
    simp only [Res.bind] at e
    cases h2 : Machine.performNext a i x.2 x.1 with
    | stop w f => rw [h2] at e; cases e
    | ok y =>
      rw [h2] at e
      cases e
      exact k.setActivity (k.performNext (k.settle h h1) h2)

omit k in
theorem outcome {a : Agent} {c : Option Instr} {r : Res State} (h : ∀ u, r = .ok u → P u)
    (e : r.outcome a c = .next t) : P t := by
  cases r with
  | ok u =>
    cases e
    exact h _ rfl
  | stop w f => cases w <;> cases e

theorem tick {a : Agent} (h : P s) (e : tick a s = .next t) : P t := by
  unfold Machine.tick at e
  split at e
  · split at e
    · exact Kept.outcome (fun u hu => k.transition h hu) e
    · cases e
      exact k.setActivity h
    · cases e
      exact h
  · cases e
    exact h

theorem issue {a : Agent} {i : Instr} (h : P s) : P (issue a i s) := k.issued (k.setActivity h)

theorem doMove {m : Move} (h : P s) (e : doMove m s = .next t) : P t := by
  cases m with
  | device d => exact Kept.outcome (fun u hu => k.device h hu) e
  | tick a => exact k.tick h e
  | issue p w =>
    simp only [Machine.doMove] at e
    split at e
    · split at e <;> cases e
      · exact k.issue h
      · exact h
    · cases e
  | hostFrame x bs =>
    cases e
    exact k.hostFrame h

theorem doMoves : ∀ {ms : List Move} {s : State}, P s → doMoves ms s = .next t → P t
  | [], s, h, e => by
    cases e
    exact h
  | m :: ms, s, h, e => by
    simp only [Machine.doMoves] at e
    cases h1 : Machine.doMove m s with
    | next u =>
      rw [h1] at e
      exact doMoves (k.doMove h h1) e
    | fault f => rw [h1] at e; cases e
    | refused f => rw [h1] at e; cases e

theorem gap (h : P s) (e : gap s = .next t) : P t := by
  unfold Machine.gap at e
  split at e
  · cases e
    exact h
  · exact k.doMoves (k.sequencer (q := s.tasks) (b := s.inbox) (k := s.issuer) h) e

omit k in
theorem andThen {o : Host.Outcome State Fault Refusal} {f : State → Host.Outcome State Fault Refusal}
    (h : ∀ u, o = .next u → P u) (hf : ∀ u, P u → f u = .next t → P t) (e : andThen o f = .next t) : P t := by
  cases o with
  | next u => exact hf u (h u rfl) e
  | fault x => cases e
  | refused x => cases e

theorem runAgent {a : Agent} : ∀ {n : Nat} {s : State}, P s → runAgent n a s = .next t → P t
  | 0, s, h, e => by
    cases e
    exact h
  | n + 1, s, h, e => by
    unfold Machine.runAgent at e
    split at e
    · cases e
      exact h
    · refine Kept.andThen (fun u hu => ?_) (fun u hu e => runAgent hu e) e
      exact Kept.andThen (fun v hv => k.tick h hv) (fun v hv e => k.gap hv e) hu

theorem runCommand {a : Agent} {i : Instr} (h : P s) (e : runCommand a i s = .next t) : P t := by
  unfold Machine.runCommand at e
  split at e
  · exact k.runAgent (k.issue h) e
  · cases e

theorem exec {i : Instr} (h : P s) (e : exec i s = .next t) : P t := by
  cases i <;> exact k.runCommand h e

theorem idleStep (h : P s) (e : idleStep s = .next t) : P t := by
  unfold Machine.idleStep at e
  split at e
  · exact k.gap h e
  · split at e
    · exact k.runAgent h e
    · split at e
      · exact k.exec h e
      · split at e
        · exact k.exec h e
        · cases e
          exact h

/-- The induction over a step. -/
theorem step (h : P s) (e : step s = .next t) : P t := by
  unfold Machine.step at e
  split at e
  · unfold State.endOutcome at e
    split at e <;> cases e
    exact h
  · unfold deliver at e
    split at e
    · exact k.idleStep h e
    · exact k.runAgent (k.sequencer (q := s.tasks) (c := s.sched) (k := s.issuer) h) e
    · unfold deliverWord at e
      split at e
      · cases e
      · split at e
        · exact k.exec (k.sequencer (q := s.tasks) (c := s.sched) h) e
        · exact k.idleStep h e

end Kept

end Sys2Proof.Machine
end

