-- ==== Sys2Proof/Laws/Launch.lean ====
section
/-! SUPPORT. What the first step of a launch is (70_reset_and_hazards.md R442). -/

namespace Sys2Proof.Machine

variable {s : State}

theorem Launch.not_ended (h : Launch s) : s.ended = false := by
  rw [h.powerOn]
  rfl

theorem Launch.idle (h : Launch s) {k : Nat} (hk : k < s.params.kCallers) : s.isIdle (.caller k) = true := by
  rw [h.powerOn]
  simp [State.isIdle, State.activity, agentExists, State.reset, hk]

/-- R442: the first step of a launch refuses the word (R144), or runs a command that a caller agent issues. -/
theorem Launch.step_first (h : Launch s) :
    (∃ f, step s = .refused (.encoding f)) ∨
    ∃ (k : Nat) (i : Instr) (rest : List Delivery), k < s.params.kCallers ∧ (Port.command k).accepts i = true ∧
      step s = exec i { s with inbox := rest, issuer := k } := by
  obtain ⟨k, w, rest, hin, hk⟩ := h.callerFirst
  have hs : step s = deliverWord (.command k) w rest s := by
    unfold step deliver
    rw [h.not_ended, hin]
    rfl
  rw [hs]
  unfold deliverWord
  cases hw : (Port.command k).spells w with
  | none => exact .inl ⟨_, rfl⟩
  | some i =>
    have ha : (Port.command k).accepts i = true := by
      unfold Port.spells at hw
      split at hw
      · split at hw
        · cases hw
          assumption
        · cases hw
      · cases hw
    have hi : admitted (.command k) i s = true := by
      unfold admitted
      rw [show (Port.command k).agent = .caller k from rfl, h.idle hk]
      cases i <;> simp_all [Port.accepts]
    refine .inr ⟨k, i, rest, hk, ha, ?_⟩
    simp only [hi, if_true]
    rfl

end Sys2Proof.Machine
end

