-- ==== Sys2Proof/Laws/Lifecycle.lean ====
section
/-! SUPPORT. What holds of two derived sentences of 70_reset_and_hazards.md: R447 (what DETACH leaves is read by no command
before it is set again) and R463 (`queue_stopped` guards both calls of the host queue). -/

namespace Sys2Proof.Machine

variable {s : State}

/-! ### R447: what DETACH leaves -/

/-- The state with other contents in what R440's DETACH column does not set: the registers of rings that are not
allocated, and `queue_stopped`. -/
def State.withLeft (s : State) (tx : TxRing) (rx : RxRing) (q : Bool) : State :=
  { s with tx := tx, rx := rx, queueStopped := q }

/-- R447: outside RUNNING and with no ring allocated, every command decides the same and goes on with the same primitives
whatever DETACH has left there, and leaves it as it is. -/
theorem afterAcquire_withLeft (i : Instr) {tx : TxRing} {rx : RxRing} (q : Bool) (hl : s.lifecycle ≠ .running)
    (h1 : s.tx.alloc = false) (h2 : s.rx.alloc = false) (h3 : tx.alloc = false) (h4 : rx.alloc = false) :
    afterAcquire i (s.withLeft tx rx q) = ((afterAcquire i s).1.withLeft tx rx q, (afterAcquire i s).2) := by
  have hr : ∀ r, (s.withLeft tx rx q).ringAlloc r = s.ringAlloc r := by
    intro r
    cases r <;> simp [State.ringAlloc, State.withLeft, h1, h2, h3, h4]
  have ha : (s.withLeft tx rx q).attachedOrClosed = s.attachedOrClosed := rfl
  have e1 : (s.withLeft tx rx q).tx.alloc = s.tx.alloc := h3.trans h1.symm
  have e2 : (s.withLeft tx rx q).rx.alloc = s.rx.alloc := h4.trans h2.symm
  have e3 : (s.withLeft tx rx q).lifecycle = s.lifecycle := rfl
  have e4 : (s.withLeft tx rx q).params = s.params := rfl
  have e5 : (s.withLeft tx rx q).mode = s.mode := rfl
  cases i <;>
    simp only [afterAcquire, rdcsrBody, wrcsrBody, rdbcrBody, wrbcrBody, rresetBody, rawBody, attachBody, openBody,
      closeBody, detachBody, rallocBody, rfreeBody, xmitBody, reclaimBody, irqBody, dtaskBody, hr, ha, e1, e2, e3, e4, e5,
      hl, if_true, if_false, ne_eq, not_false_eq_true]
  split <;> rfl

/-- R241: a new ring has the registers R241 gives it, whatever DETACH has left. -/
theorem ringMade_withLeft (r : Ring) (e v : Nat) (p : Word) (tx : TxRing) (rx : RxRing) (q : Bool) :
    (match r with
      | .tx => (ringMade r e v p (s.withLeft tx rx q)).tx = (ringMade r e v p s).tx
      | .rx => (ringMade r e v p (s.withLeft tx rx q)).rx = (ringMade r e v p s).rx) := by
  cases r <;> rfl

/-- R216: START sets `queue_stopped`, whatever DETACH has left. -/
theorem started_withLeft (q : Bool) : started (s.withLeft s.tx s.rx q) = started s := rfl

/-- R230, R440: after DETACH the registers that R440's column names are as at power-on. -/
theorem detached_powerOn : (detached s).lifecycle = State.reset.lifecycle ∧ (detached s).mode = State.reset.mode ∧
    (detached s).ib.alloc = State.reset.ib.alloc := ⟨rfl, rfl, rfl⟩

/-! ### R463: the guards of the two calls -/

/-- What a primitive may do to `queue_stopped`, and the guards of the calls it goes on to. -/
def QueueStep (p : Prim) (s s' : State) (ps : List Prim) : Prop :=
  (s'.queueStopped = s.queueStopped ∨
    (p = .stopQueue ∧ s'.queueStopped = true ∧ s'.history = .call .stopQueue :: s.history) ∨
    (p = .wakeQueue ∧ s'.queueStopped = false ∧ s'.history = .call .wakeQueue :: s.history) ∨
    (p = .quiet .started ∧ s'.queueStopped = false)) ∧
  (Prim.stopQueue ∈ ps → s'.queueStopped = false) ∧ (Prim.wakeQueue ∈ ps → s'.queueStopped = true)

/-- A primitive that leaves the queue alone. -/
theorem QueueStep.calm {p : Prim} {s' : State} {ps : List Prim} (h : s'.queueStopped = s.queueStopped)
    (h1 : Prim.stopQueue ∉ ps) (h2 : Prim.wakeQueue ∉ ps) : QueueStep p s s' ps :=
  ⟨.inl h, fun h => (h1 h).elim, fun h => (h2 h).elim⟩

theorem bind_ok_cases {α β : Type} {r : Res α} {f : α → Res β} {y : β} (h : r.bind f = .ok y) :
    ∃ x, r = .ok x ∧ f x = .ok y := by
  cases r with
  | ok x => exact ⟨x, rfl, h⟩
  | stop w t => cases h

theorem allocate_queueStopped {u : AllocUse} {n : Nat} {x : Nat × Word × State} (h : s.allocate u n = .ok x) :
    x.2.2.queueStopped = s.queueStopped := by
  unfold State.allocate at h
  simp only at h
  split at h
  · split at h
    · cases h
      rfl
    · cases h
  · cases h

theorem afterAcquire_queue (p : Prim) (i : Instr) : QueueStep p s (afterAcquire i s).1 (afterAcquire i s).2 := by
  cases i <;>
    simp only [afterAcquire, rdcsrBody, wrcsrBody, rdbcrBody, wrbcrBody, rresetBody, rawBody, attachBody, openBody,
      closeBody, detachBody, rallocBody, rfreeBody, xmitBody, reclaimBody, irqBody, dtaskBody]
  case xmit =>
    refine ⟨.inl rfl, ?_, ?_⟩ <;> (repeat' split) <;> simp_all [releaseReturn]
  all_goals
    (repeat' split) <;>
    exact .calm rfl
      (by simp [releaseReturn, releaseRefuse, csrRead, csrWrite, bcrRead, bcrWrite, probeSteps])
      (by simp [releaseReturn, releaseRefuse, csrRead, csrWrite, bcrRead, bcrWrite, probeSteps])

theorem ringReleaseSteps_queue (r : Ring) :
    Prim.stopQueue ∉ ringReleaseSteps r s ∧ Prim.wakeQueue ∉ ringReleaseSteps r s := by
  cases r with
  | rx => simp [ringReleaseSteps]
  | tx =>
    simp only [ringReleaseSteps, List.mem_append, List.mem_flatMap]
    refine ⟨?_, ?_⟩ <;>
    · rintro (⟨x, -, hx⟩ | hx)
      · split at hx <;> simp at hx
      · simp at hx

theorem pollSteps_queue (n : Nat) : Prim.stopQueue ∉ pollSteps n ∧ Prim.wakeQueue ∉ pollSteps n := by
  cases n <;> simp [pollSteps, timeoutSteps, csrRead, csrWrite, releaseReturn]

theorem drainLoopSteps_queue (n : Nat) : Prim.stopQueue ∉ drainLoopSteps n s ∧ Prim.wakeQueue ∉ drainLoopSteps n s := by
  cases n <;> simp [drainLoopSteps]

theorem quietStep_queue {a : Agent} {i : Instr} {q : Quiet} {s' : State} {ps : List Prim}
    (h : quietStep a i q s = .ok (s', ps)) : QueueStep (.quiet q) s s' ps := by
  cases q
  case wake =>
    cases h
    refine ⟨.inl rfl, ?_, ?_⟩ <;> simp +contextual [wakeSteps, csrWrite]
  case started =>
    cases h
    exact ⟨.inr (.inr (.inr ⟨rfl, rfl⟩)), by simp, by simp⟩
  case refuse => cases h
  case raise => cases h
  case releaseRing r =>
    simp only [quietStep] at h
    split at h
    · cases h
      exact .calm rfl (ringReleaseSteps_queue r).1 (ringReleaseSteps_queue r).2
    · cases h
  case ringFreed r =>
    cases h
    cases r <;> exact .calm rfl (by simp) (by simp)
  case ringMade r e v p =>
    cases h
    cases r <;> exact .calm rfl (by simp) (by simp)
  all_goals
    cases h
    refine .calm ?_ ?_ ?_
  all_goals
    first
    | rfl
    | simp [armSteps, fillIbSteps, loadAddressSteps, pollSteps_queue, demandSteps, reclaimLoopSteps, drainStartSteps,
        drainLoopSteps_queue, csrWrite, csrRead, releaseReturn]

theorem writeRap_queueStopped (S : Strategy) (i : Half) : (writeRap S i s).queueStopped = s.queueStopped := by
  unfold writeRap
  split <;> rfl

theorem draw_queueStopped : s.draw.2.queueStopped = s.queueStopped := by
  unfold State.draw
  split <;> rfl

theorem readData_queueStopped (S : Strategy) (file : RegFile) :
    (readData S file s).2.queueStopped = s.queueStopped := by
  unfold readData widen
  cases file <;> cases S <;> simp only <;> (repeat' split) <;> simp [draw_queueStopped]

theorem readReset_queueStopped (S : Strategy) : (readReset S s).queueStopped = s.queueStopped := by
  unfold readReset
  simp only
  split <;> exact draw_queueStopped

theorem writeData_queueStopped {S : Strategy} {file : RegFile} {x : Half} {t : State}
    (h : writeData S file x s = .ok t) : t.queueStopped = s.queueStopped := by
  unfold writeData at h
  simp only at h
  split at h
  · split at h
    · cases h
      rfl
    · cases h
  · cases h
    rfl

theorem onRead_queue (p : Prim) (k : OnRead) (v : Half) : QueueStep p s (onRead k v s).1 (onRead k v s).2 := by
  cases k with
  | reply => exact .calm rfl (by simp [onRead, releaseReturn]) (by simp [onRead, releaseReturn])
  | probe S =>
    simp only [onRead, probed]
    split
    · exact .calm rfl (by simp [attachedSteps, releaseReturn]) (by simp [attachedSteps, releaseReturn])
    · cases S <;>
      exact .calm rfl (by simp [probeSteps, csrRead, releaseReturn]) (by simp [probeSteps, csrRead, releaseReturn])
  | poll n =>
    simp only [onRead, polled]
    split
    · exact .calm rfl (by simp [startSteps, csrWrite, releaseReturn]) (by simp [startSteps, csrWrite, releaseReturn])
    · exact .calm rfl (pollSteps_queue n).1 (pollSteps_queue n).2
  | status ran deferred =>
    simp only [onRead, statusSteps]
    (repeat' split) <;> exact .calm rfl (by simp [csrWrite, releaseReturn]) (by simp [csrWrite, releaseReturn])

theorem onWord_queue (p : Prim) (k : OnWord) (w : Word) : QueueStep p s (onWord k w s).1 (onWord k w s).2 := by
  cases k with
  | reclaimOwn i =>
    simp only [onWord, reclaimOwnSteps]
    split <;> exact .calm rfl (by simp) (by simp)
  | reclaimStatus i w1 =>
    simp only [onWord, reclaimStatusSteps]
    split <;> exact .calm rfl (by simp) (by simp)
  | drainOwn left i =>
    simp only [onWord, drainOwnSteps]
    split <;> exact .calm rfl (by simp) (by simp)
  | drainStatus left i w1 =>
    simp only [onWord, drainStatus]
    split <;> exact .calm rfl (by simp [rearmSteps]) (by simp [rearmSteps])

theorem withStrategy_ok {via : Via} {i : Instr} {f : Strategy → Res (State × List Prim)} {y : State × List Prim}
    (h : withStrategy via i s f = .ok y) : ∃ S, f S = .ok y := by
  unfold withStrategy at h
  split at h
  · exact ⟨_, h⟩
  · cases h

theorem QueueStep.after {p : Prim} {u s' : State} {ps : List Prim} (h : u.queueStopped = s.queueStopped)
    (k : QueueStep (.release) u s' ps) : QueueStep p s s' ps := by
  refine ⟨?_, k.2⟩
  rcases k.1 with h1 | h1 | h1 | h1
  · exact .inl (h1.trans h)
  · exact absurd h1.1 (by simp)
  · exact absurd h1.1 (by simp)
  · exact absurd h1.1 (by simp)

/-- R41, R216, R263, R331, R463: `queue_stopped` is changed by the two calls, which record themselves, and by START; a
command goes on to `stop_queue` only where the queue is not stopped, and to `wake_queue` only where it is. -/
theorem perform_queue {a : Agent} {i : Instr} {p : Prim} {s' : State} {ps : List Prim}
    (h : perform a i p s = .ok (s', ps)) : QueueStep p s s' ps := by
  cases p with
  | acquire =>
    simp only [perform, acquireStep] at h
    split at h
    · injection h with h
      have k := afterAcquire_queue (s := { s with lockOwner := some a }) .release i
      rw [h] at k
      exact k.after rfl
    · cases h
  | release => cases h; exact .calm rfl (by simp) (by simp)
  | rap via idx =>
    obtain ⟨S, h⟩ := withStrategy_ok h
    cases h
    exact .calm (writeRap_queueStopped S idx) (by simp) (by simp)
  | dataGet via file k =>
    obtain ⟨S, h⟩ := withStrategy_ok h
    injection h with h
    have := onRead_queue (s := (readData S file s).2) .release k (readData S file s).1
    rw [h] at this
    exact this.after (readData_queueStopped S file)
  | dataPut via file x =>
    obtain ⟨S, h⟩ := withStrategy_ok h
    obtain ⟨t, h1, h⟩ := bind_ok_cases h
    cases h
    exact .calm (writeData_queueStopped h1) (by simp) (by simp)
  | resetPort via =>
    obtain ⟨S, h⟩ := withStrategy_ok h
    cases h
    exact .calm (readReset_queueStopped S) (by simp) (by simp)
  | allocIb =>
    obtain ⟨x, h1, h⟩ := bind_ok_cases h
    cases h
    exact .calm (allocate_queueStopped h1) (by simp) (by simp)
  | zeroIb k =>
    obtain ⟨x, h1, h⟩ := bind_ok_cases h
    cases h
    exact .calm rfl (by simp) (by simp)
  | ibPut off bs =>
    obtain ⟨x, h1, h⟩ := bind_ok_cases h
    cases h
    exact .calm rfl (by simp) (by simp)
  | freeIb => cases h; exact .calm rfl (by simp) (by simp)
  | allocRing r e =>
    obtain ⟨x, h1, h⟩ := bind_ok_cases h
    cases h
    cases r <;> exact .calm (allocate_queueStopped h1) (by simp [ringMakeSteps]) (by simp [ringMakeSteps])
  | zeroWord x =>
    obtain ⟨u, h1, h⟩ := bind_ok_cases h
    cases h
    exact .calm rfl (by simp) (by simp)
  | allocBuf =>
    obtain ⟨x, h1, h⟩ := bind_ok_cases h
    cases h
    exact .calm (allocate_queueStopped h1) (by simp) (by simp)
  | free v x size => cases h; exact .calm rfl (by simp) (by simp)
  | slotPut r k word v =>
    obtain ⟨u, h1, h⟩ := bind_ok_cases h
    obtain ⟨x, -, h2⟩ := bind_ok_cases h1
    obtain ⟨y, -, h3⟩ := bind_ok_cases h2
    cases h3
    cases h
    exact .calm rfl (by simp) (by simp)
  | slotGet r k word c =>
    obtain ⟨u, h1, h⟩ := bind_ok_cases h
    obtain ⟨x, -, h2⟩ := bind_ok_cases h1
    obtain ⟨y, -, h3⟩ := bind_ok_cases h2
    cases h3
    injection h with h
    have := onWord_queue (s := s.noteRead .host (slotAddr (s.ringBase r) k word) 4) .release c
      (s.wordAt (slotAddr (s.ringBase r) k word))
    rw [h] at this
    exact .after (noteRead_queueStopped ..) this
  | mapFrame addr len =>
    simp only [perform, mapFrameStep] at h
    split at h
    · cases h
      exact .calm rfl (by simp [publishSteps]) (by simp [publishSteps])
    · cases h
  | unmap phys len => cases h; exact .calm rfl (by simp) (by simp)
  | releaseFrame x => cases h; exact .calm rfl (by simp) (by simp)
  | stopQueue => cases h; exact ⟨.inr (.inl ⟨rfl, rfl, rfl⟩), by simp, by simp⟩
  | wakeQueue => cases h; exact ⟨.inr (.inr (.inl ⟨rfl, rfl, rfl⟩)), by simp, by simp⟩
  | allocFrame k len =>
    simp only [perform, allocFrameStep] at h
    injection h with h
    unfold frameAllocated at h
    split at h <;> cases h <;> exact .calm rfl (by simp) (by simp)
  | copyFrame k len x =>
    simp only [perform, copyFrameStep] at h
    split at h
    · obtain ⟨u, -, h⟩ := bind_ok_cases h
      obtain ⟨v, -, h⟩ := bind_ok_cases h
      cases h
      exact .calm rfl (by simp) (by simp)
    · cases h
  | deliver x bytes => cases h; exact .calm rfl (by simp) (by simp)
  | quiet q => exact quietStep_queue h

end Sys2Proof.Machine
end

