-- ==== Sys2Proof/Laws/PerInstr.lean ====
section
/-! SUPPORT. One fact per command about its word (30_encoding.md R141, R143): the opcode the table gives it, and zeros
in the reserved bits of its format. -/

namespace Sys2Proof.Laws.EncodedWord

open Sys2Proof

/-- R143: the opcode column of the opcode table. -/
def opcode : Instr → Byte
  | .rdcsr _ => 0x01#8
  | .wrcsr _ _ => 0x02#8
  | .rdbcr _ => 0x03#8
  | .wrbcr _ _ => 0x04#8
  | .rreset => 0x05#8
  | .attach => 0x10#8
  | .openDev _ => 0x11#8
  | .close => 0x12#8
  | .detach => 0x13#8
  | .ralloc _ _ => 0x18#8
  | .rfree _ => 0x19#8
  | .xmit _ _ => 0x20#8
  | .reclaim => 0x21#8
  | .drain => 0x22#8
  | .irq => 0x30#8
  | .dtask => 0x31#8

/-- R141: the reserved bits of the command's format. -/
def reserved : Instr → Cmd
  | .rdcsr _ => reservedR
  | .wrcsr _ _ => reservedW
  | .rdbcr _ => reservedR
  | .wrbcr _ _ => reservedW
  | .rreset => reservedN
  | .attach => reservedN
  | .openDev _ => reservedM
  | .close => reservedN
  | .detach => reservedN
  | .ralloc _ _ => reservedA
  | .rfree _ => reservedS
  | .xmit _ _ => reservedF
  | .reclaim => reservedN
  | .drain => reservedN
  | .irq => reservedN
  | .dtask => reservedN

/-- The word of a well-formed command has the command's opcode and no reserved bit. -/
def Statement (i : Instr) : Prop :=
  i.wf = true → opcodeOf (encode i) = opcode i ∧ encode i &&& reserved i = 0#64

/-- The operand bits of a word whose operands stay clear of the opcode byte and of a mask. -/
theorem word_ok (op : Byte) (low mask : Cmd) (hm : mask &&& 0xFF00000000000000#64 = 0#64)
    (hl : low &&& (0xFF00000000000000#64 ||| mask) = 0#64) :
    opcodeOf (commandWord op low) = op ∧ commandWord op low &&& mask = 0#64 := by
  have hlow : ∀ k, k < 64 → (k ≥ 56 ∨ mask.getLsbD k = true) → low.getLsbD k = false := by
    intro k hk h
    have e := congrArg (fun w => w.getLsbD k) hl
    have hc : (0xFF00000000000000#64).getLsbD k = decide (56 ≤ k) := by
      interval_cases k <;> rfl
    simp only [BitVec.getLsbD_and, BitVec.getLsbD_or, hc, BitVec.getLsbD_zero] at e
    rcases h with h | h <;> simpa [h] using e
  have hmask : ∀ k, 56 ≤ k → k < 64 → mask.getLsbD k = false := by
    intro k h56 hk
    have e := congrArg (fun w => w.getLsbD k) hm
    have hc : (0xFF00000000000000#64).getLsbD k = decide (56 ≤ k) := by
      interval_cases k <;> rfl
    simpa [hc, h56] using e
  constructor
  · apply BitVec.eq_of_getLsbD_eq
    intro k hk
    have h1 : 56 + k < 64 := by omega
    have h3 : low[56 + k] = false := by
      rw [← BitVec.getLsbD_eq_getElem]
      exact hlow (56 + k) h1 (.inl (by omega))
    simp [opcodeOf, commandWord, hk, h1, h3]
  · apply BitVec.eq_of_getLsbD_eq
    intro k hk
    by_cases h : mask.getLsbD k = true
    · have h1 := hlow k hk (.inr h)
      have h2 : k < 56 := by
        by_contra h2
        simp [hmask k (by omega) hk] at h
      simp [commandWord, h1, h2]
    · simp [h]

/-- A number below `2^n` has no bit from `n` on. -/
theorem low_bits (n : Nat) (low : Cmd) (hx : low.toNat < 2 ^ n) (mask : Cmd)
    (hmask : ∀ k, k < n → mask.getLsbD k = false) : low &&& mask = 0#64 := by
  apply BitVec.eq_of_getLsbD_eq
  intro k hk
  by_cases h : k < n
  · simp [hmask k h]
  · have : low.getLsbD k = false := by
      rw [BitVec.getLsbD, Nat.testBit_lt_two_pow]
      exact lt_of_lt_of_le hx (Nat.pow_le_pow_right (by omega) (by omega))
    simp [this]

theorem op_only (op : Byte) : opcodeOf (commandWord op 0#64) = op ∧ commandWord op 0#64 &&& reservedN = 0#64 :=
  word_ok op 0#64 reservedN (by decide) (by decide)

theorem idx_only (op : Byte) (idx : Half) :
    opcodeOf (commandWord op (idx.setWidth 64)) = op ∧ commandWord op (idx.setWidth 64) &&& reservedR = 0#64 := by
  refine word_ok op _ reservedR (by decide) (low_bits 16 _ ?_ _ (by decide))
  simp only [BitVec.toNat_setWidth]
  omega

theorem idx_val (op : Byte) (idx val : Half) :
    let low : Cmd := (val.setWidth 64 <<< 16) ||| idx.setWidth 64
    opcodeOf (commandWord op low) = op ∧ commandWord op low &&& reservedW = 0#64 := by
  refine word_ok op _ reservedW (by decide) (low_bits 32 _ ?_ _ (by decide))
  rw [BitVec.toNat_or]
  apply Nat.or_lt_two_pow
  · simp only [BitVec.toNat_shiftLeft, BitVec.toNat_setWidth, Nat.shiftLeft_eq]
    omega
  · simp only [BitVec.toNat_setWidth]
    omega

theorem rdcsr (idx : Half) : Statement (.rdcsr idx) := fun _ => idx_only _ idx
theorem wrcsr (idx val : Half) : Statement (.wrcsr idx val) := fun _ => idx_val _ idx val
theorem rdbcr (idx : Half) : Statement (.rdbcr idx) := fun _ => idx_only _ idx
theorem wrbcr (idx val : Half) : Statement (.wrbcr idx val) := fun _ => idx_val _ idx val
theorem rreset : Statement .rreset := fun _ => op_only _
theorem attach : Statement .attach := fun _ => op_only _
theorem openDev (mac : BitVec 48) : Statement (.openDev mac) := fun _ => by
  refine word_ok _ _ reservedM (by decide) (low_bits 48 _ ?_ _ (by decide))
  simp only [BitVec.toNat_setWidth]
  omega
theorem close : Statement .close := fun _ => op_only _
theorem detach : Statement .detach := fun _ => op_only _
theorem ralloc (r : Ring) (e : Nat) : Statement (.ralloc r e) := fun h => by
  have he : e < 16 := by simpa [Instr.wf] using h
  refine word_ok _ _ reservedA (by decide) ?_
  clear h
  revert e
  cases r <;> decide
theorem rfree (r : Ring) : Statement (.rfree r) := fun _ => by
  refine word_ok _ _ reservedS (by decide) ?_
  cases r <;> decide
theorem xmit (addr : Word) (len : Nat) : Statement (.xmit addr len) := fun h => by
  have hl : len < 4096 := by simpa [Instr.wf] using h
  refine word_ok _ _ reservedF (by decide) (low_bits 44 _ ?_ _ (by decide))
  rw [BitVec.toNat_or]
  apply Nat.or_lt_two_pow
  · simp only [BitVec.toNat_shiftLeft, BitVec.toNat_ofNat, Nat.shiftLeft_eq]
    omega
  · simp only [BitVec.toNat_setWidth]
    omega
theorem reclaim : Statement .reclaim := fun _ => op_only _
theorem drain : Statement .drain := fun _ => op_only _
theorem irq : Statement .irq := fun _ => op_only _
theorem dtask : Statement .dtask := fun _ => op_only _

end Sys2Proof.Laws.EncodedWord
end

