-- ==== Sys2Proof/Laws/Receive.lean ====
section
/-! SUPPORT. `drain_body` (44_receive.md R290): the re-arm of a slot, one iteration, the loop. -/

namespace Sys2Proof.Machine

/-- An address outside a ring, or at a word's start, lies inside no descriptor word. -/
theorem cuts_out {e x : Nat} {b : Word}
    (h : x < b.toNat ∨ b.toNat + 16 * ringSize e ≤ x ∨ (x - b.toNat) % 4 = 0) : cutsWord b e x = false := by
  unfold cutsWord
  rcases h with h | h | h
  · simp [show ¬ b.toNat ≤ x by omega]
  · simp [show ¬ x < b.toNat + 16 * ringSize e by omega]
  · simp [h]

/-- A buffer apart from the rings splits no descriptor word. -/
theorem splits_out {s : State} {a n m : Nat} (hm : m ≤ n)
    (h1 : s.tx.alloc = true → disjointRegions a n s.tx.base.toNat (16 * ringSize s.tx.exp) = true)
    (h2 : s.rx.alloc = true → disjointRegions a n s.rx.base.toNat (16 * ringSize s.rx.exp) = true) :
    s.splits a m = false := by
  have key : ∀ (b : Word) (e : Nat), disjointRegions a n b.toNat (16 * ringSize e) = true →
      cutsWord b e a = false ∧ cutsWord b e (a + m) = false := by
    intro b e h
    simp only [disjointRegions, Bool.or_eq_true, decide_eq_true_eq] at h
    constructor
    · apply cuts_out; rcases h with h | h
      · by_cases ha : a = b.toNat
        · right; right; rw [ha]; simp
        · left; omega
      · right; left; omega
    · apply cuts_out; rcases h with h | h
      · by_cases ha : a + m = b.toNat
        · right; right; rw [ha]; simp
        · left; omega
      · right; left; omega
  unfold State.splits
  cases ht : s.tx.alloc <;> cases hr : s.rx.alloc <;>
    simp only [Bool.false_and, Bool.true_and, Bool.or_false, Bool.false_or, Bool.or_eq_false_iff]
  · exact key _ _ (h2 hr)
  · exact key _ _ (h1 ht)
  · exact ⟨key _ _ (h1 ht), key _ _ (h2 hr)⟩

/-- R293: the memory after slot `i` of the RX ring is re-armed. -/
def State.rearm (s : State) (m : Memory) (i : Nat) : Memory :=
  (m.setBytes (slotAddr s.rx.base i 2) (wordBytes 0#32)).setBytes (slotAddr s.rx.base i 1)
    (wordBytes (rxArmWord s.params.rxBufSize))

/-- R293: the state after the current slot is re-armed and passed. -/
def rearmed (s : State) : State :=
  { s with
    rx := { s.rx with current := advance s.rx.current (ringSize s.rx.exp) },
    memory := s.rearm s.memory s.rx.current,
    history := wordWrite s.rx.base s.rx.current 1 (rxArmWord s.params.rxBufSize) :: .fenceW ::
      wordWrite s.rx.base s.rx.current 2 0#32 :: s.history }

/-- What the RX ring needs for `drain_body`: R36, and the places of ring and buffers (R94, R98). -/
structure Drain.Ok (s : State) : Prop where
  inv : s.rx.inv
  placed : ringPlaced s.rx.base s.rx.exp
  buffers : s.buffersPlaced

/-- R293: the re-arm of the current slot. -/
theorem rearm_runs (a : Agent) (i : Instr) (rest : List Prim) (s : State) (left : Nat)
    (hcur : s.rx.current < ringSize s.rx.exp) (hp : ringPlaced s.rx.base s.rx.exp)
    (ho : owned (s.wordAt (slotAddr s.rx.base s.rx.current 1)) = false) {r : Res State} {q : Nat}
    (h : Runs a i (.quiet (.drainLoop left) :: rest) (rearmed s) r q) :
    Runs a i (rearmSteps left s.rx.current s ++ rest) s r (q + 4) := by
  obtain ⟨p1, p2⟩ := slot_placed (w := 1) hp hcur (by omega)
  obtain ⟨p3, p4⟩ := slot_placed (w := 2) hp hcur (by omega)
  obtain ⟨u1, hu1⟩ : ∃ u, u = s.memWrite .host (slotAddr s.rx.base s.rx.current 2) (wordBytes 0#32) := ⟨_, rfl⟩
  obtain ⟨u2, hu2⟩ : ∃ u, u = (u1.record .fenceW).memWrite .host (slotAddr s.rx.base s.rx.current 1)
    (wordBytes (rxArmWord s.params.rxBufSize)) := ⟨_, rfl⟩
  have hb1 : (u1.record .fenceW).ringBase .rx = s.rx.base := by rw [hu1]; rfl
  have e : rxAdvance s.rx.current u2 = rearmed s := by
    rw [hu2, hu1]
    apply State.ext <;> simp [rearmed, State.rearm, wordWrite]
  rw [← e] at h
  refine .prim (ps := []) (s' := u1) ?_ ?_
  · simp only [perform]
    rw [hostSlotWrite_ok (by exact p3) (by exact p4) (.inr (by exact ho))]
    simp only [State.ringBase, Res.bind, ← hu1]
  refine .prim (ps := []) (s' := u1.record .fenceW) rfl ?_
  refine .prim (ps := []) (s' := u2) ?_ ?_
  · simp only [perform]
    rw [hostSlotWrite_ok (by rw [hb1]; exact p1) (by rw [hb1]; exact p2) (.inl rfl)]
    rw [hb1, ← hu2]; rfl
  exact .prim (ps := []) (s' := rxAdvance s.rx.current u2) rfl h

/-- The effect of `drain_body` on the current slot. -/
def drainedOne (s : State) : State :=
  { s with
    rx := { s.rx with current := advance s.rx.current (ringSize s.rx.exp) },
    counters := (s.rxFate 0).count s.params (s.rxLen 0) s.counters,
    hostFrames := s.hostFrames.filter fun f => !(s.rxFate 0).through f.handle,
    memory := s.rearm s.memory s.rx.current, oracle := s.drainedOracle 1,
    history := (s.drainEvents 0).reverse ++ s.history }

theorem frameAnswer_zero (s : State) : s.frameAnswerAt 0 = s.frameAnswer := by
  unfold State.frameAnswerAt State.frameAnswer
  cases s.oracle.frames <;> rfl

/-- The length a good slot delivers fits its buffer. -/
theorem rxBad_len {n : Nat} {w1 w2 : Word} (h : rxBad n w1 w2 = false) : mcnt w2 - 4 ≤ n := by
  simp only [rxBad, Bool.or_eq_false_iff, decide_eq_false_iff_not] at h
  omega

theorem rxAsks_one (s : State) : s.rxAsks 1 = if s.rxGood 0 then 1 else 0 := by
  unfold State.rxAsks
  rw [show List.range 1 = [0] from rfl, List.filter_cons]
  split <;> rfl

section First

variable {s : State} (h : Drain.Ok s)

include h

theorem rxAt_zero : s.rxAt 0 = s.rx.current := Nat.mod_eq_of_lt h.inv.1

theorem rxWord_zero (k : Nat) : s.rxWord 0 k = s.wordAt (slotAddr s.rx.base s.rx.current k) := by
  unfold State.rxWord
  rw [rxAt_zero h]

/-- The buffer of a slot, and its place. -/
theorem rxBuffer_spec (j : Nat) : ∃ b, s.rx.buf[s.rxAt j]? = some b ∧ s.rxBuffer j = b.phys.toNat ∧ b ∈ s.rx.buf := by
  have hlt : s.rxAt j < s.rx.buf.length := by
    rw [h.inv.2]; exact Nat.mod_lt _ (Nat.two_pow_pos _)
  refine ⟨s.rx.buf[s.rxAt j], List.getElem?_eq_getElem hlt, ?_, List.getElem_mem _⟩
  unfold State.rxBuffer
  rw [List.getElem?_eq_getElem hlt]
  rfl

end First

/-- The state after the two reads of `drain_body` at the current slot. -/
def drainRead (s : State) : State :=
  { s with history := s.wordRead s.rx.base s.rx.current 2 :: .fenceR :: s.wordRead s.rx.base s.rx.current 1 :: s.history }

/-- R291: a completed slot that is not good. -/
theorem classify_bad {s : State} (h : Drain.Ok s) (hg : s.rxGood 0 = false) (left : Nat) :
    drainStatus left s.rx.current (s.rxWord 0 1) (s.rxWord 0 2) (drainRead s) =
      ((drainRead s).count (fun c => { c with rxErrors := bump s.params c.rxErrors 1 }),
        rearmSteps left s.rx.current s) ∧
    rearmed ((drainRead s).count fun c => { c with rxErrors := bump s.params c.rxErrors 1 }) = drainedOne s := by
  have hb : rxBad s.params.rxBufSize (s.rxWord 0 1) (s.rxWord 0 2) = true := by simpa [State.rxGood] using hg
  have hf : s.rxFate 0 = .bad := by unfold State.rxFate; rw [hg]; rfl
  constructor
  · unfold drainStatus
    rw [if_pos (by exact hb)]; rfl
  · have h0 := rxAt_zero h
    have ha : s.rxAsks 1 = 0 := by rw [rxAsks_one, hg]; rfl
    apply State.ext <;> simp [rearmed, drainedOne, State.count, drainRead, hf, RxFate.count, RxFate.through,
      State.drainedOracle, ha, State.drainEvents, State.fateEvents, h0, State.rearm, List.filter_true]

/-- R295: a good slot whose copy is refused. -/
theorem classify_lost {s u : State} (h : Drain.Ok s) (hg : s.rxGood 0 = true) (ha : s.frameAnswer = none)
    (hu : u = (drainRead s).takeFrame.record (.call (.allocFrame (s.rxLen 0) none))) :
    rearmed (u.count fun c => { c with rxDropped := bump s.params c.rxDropped 1 }) = drainedOne s := by
  have hf : s.rxFate 0 = .lost := by
    unfold State.rxFate
    rw [hg, show s.rxAsks 0 = 0 from rfl, frameAnswer_zero, ha]; rfl
  have h0 := rxAt_zero h
  have h1 : s.rxAsks 1 = 1 := by rw [rxAsks_one, hg]; rfl
  rw [hu]
  apply State.ext <;> simp [rearmed, drainedOne, State.count, drainRead, hf, RxFate.count, RxFate.through,
      State.drainedOracle, h1, State.drainEvents, State.fateEvents, h0, State.rearm, List.filter_true, State.takeFrame]

/-- R291, R134: a good slot whose frame is delivered through `hd`. -/
theorem classify_kept {s u0 u1 u2 u3 : State} {hd : Word} (h : Drain.Ok s) (hg : s.rxGood 0 = true)
    (ha : s.frameAnswer = some hd)
    (hu0 : u0 = (drainRead s).takeFrame.record (.call (.allocFrame (s.rxLen 0) (some hd))))
    (hu1 : u1 = (u0.noteRead .host (s.rxBuffer 0) (s.rxLen 0)).putFrame hd (s.rxBytes 0))
    (hu2 : u2 = (u1.dropFrame hd).record (.call (.deliver hd (s.rxBytes 0))))
    (hu3 : u3 = rxDelivered (s.rxLen 0) u2) : rearmed u3 = drainedOne s := by
  have hf : s.rxFate 0 = .kept hd := by
    unfold State.rxFate
    rw [hg, show s.rxAsks 0 = 0 from rfl, frameAnswer_zero, ha]; rfl
  have h0 := rxAt_zero h
  have h1 : s.rxAsks 1 = 1 := by rw [rxAsks_one, hg]; rfl
  have hn : u0.bytesAt (s.rxBuffer 0) (s.rxLen 0) = s.rxBytes 0 := by
    rw [hu0]; exact bytesAt_congr rfl _ _
  rw [hu3, hu2, hu1]
  unfold State.noteRead
  rw [hn, hu0]
  apply State.ext <;> simp [rearmed, drainedOne, State.count, drainRead, hf, RxFate.count, RxFate.through,
      State.drainedOracle, h1, State.drainEvents, State.fateEvents, h0, State.rearm, State.takeFrame, rxDelivered,
      List.filter_filter, bne]

/-- R290: one iteration of `drain_body` on a completed slot. -/
theorem drain_iter (a : Agent) (i : Instr) (rest : List Prim) (s : State) (left : Nat) (h : Drain.Ok s)
    (ho : owned (s.rxWord 0 1) = false) :
    ∃ m, m ≤ 12 ∧ ∀ {r q}, Runs a i (.quiet (.drainLoop left) :: rest) (drainedOne s) r q →
      Runs a i (.quiet (.drainLoop (left + 1)) :: rest) s r (q + m) := by
  have hcur := h.inv.1
  have hw := rxWord_zero h
  obtain ⟨p1, p2⟩ := slot_placed (w := 1) h.placed hcur (by omega)
  obtain ⟨p3, p4⟩ := slot_placed (w := 2) h.placed hcur (by omega)
  obtain ⟨b, hb, hbp, hbm⟩ := rxBuffer_spec h 0
  rw [rxAt_zero h] at hb
  obtain ⟨hb1, hb2, hb3⟩ := h.buffers b hbm
  obtain ⟨u, hu⟩ : ∃ u, u = s.noteRead .host (slotAddr s.rx.base s.rx.current 1) 4 := ⟨_, rfl⟩
  have e2 : (u.record .fenceR).noteRead .host (slotAddr s.rx.base s.rx.current 2) 4 = drainRead s := by
    rw [hu]
    apply State.ext <;> simp [drainRead, State.wordRead]
    exact bytesAt_congr rfl _ _
  have read : ∀ {r q'}, Runs a i ((drainStatus left s.rx.current (s.rxWord 0 1) (s.rxWord 0 2) (drainRead s)).2 ++ rest)
      (drainStatus left s.rx.current (s.rxWord 0 1) (s.rxWord 0 2) (drainRead s)).1 r q' →
      Runs a i (.quiet (.drainLoop (left + 1)) :: rest) s r (q' + 4) := by
    intro r q' h6
    refine .prim (ps := [.slotGet .rx s.rx.current 1 (.drainOwn left s.rx.current)]) (s' := s) rfl ?_
    refine .prim (ps := [.quiet .fenceR, .slotGet .rx s.rx.current 2 (.drainStatus left s.rx.current (s.rxWord 0 1))])
      (s' := u) ?_ ?_
    · simp only [perform]
      rw [hostSlotRead_ok (by exact p1) (by exact p2) (.inl rfl)]
      simp only [Res.bind, onWord, drainOwnSteps, State.ringBase, ← hw, ho, Bool.false_eq_true, if_false, ← hu]
    refine .prim (ps := []) (s' := u.record .fenceR) rfl ?_
    have mf : (u.record .fenceR).memory = s.memory := by rw [hu]; rfl
    have bf : (u.record .fenceR).ringBase .rx = s.rx.base := by rw [hu]; rfl
    refine .prim (ps := (drainStatus left s.rx.current (s.rxWord 0 1) (s.rxWord 0 2) (drainRead s)).2)
      (s' := (drainStatus left s.rx.current (s.rxWord 0 1) (s.rxWord 0 2) (drainRead s)).1) ?_ h6
    simp only [perform]
    rw [hostSlotRead_ok (by rw [bf]; exact p3) (by rw [bf]; exact p4)
      (.inr (by rw [bf, wordAt_congr mf, ← hw]; exact ho))]
    rw [bf, wordAt_congr mf, ← hw, e2]
    rfl
  have arm : ∀ {r q} (v : State), v.rx = s.rx → v.params = s.params → v.memory = s.memory → rearmed v = drainedOne s →
      Runs a i (.quiet (.drainLoop left) :: rest) (drainedOne s) r q →
      Runs a i (rearmSteps left s.rx.current s ++ rest) v r (q + 4) := by
    intro r q v v1 v2 v3 v4 hr'
    rw [← v4] at hr'
    have := rearm_runs a i rest v left (by rw [v1]; exact hcur) (by rw [v1]; exact h.placed)
      (by rw [v1, wordAt_congr v3, ← hw]; exact ho) hr'
    rwa [v1, show rearmSteps left s.rx.current v = rearmSteps left s.rx.current s by simp only [rearmSteps, v2]] at this
  cases hg : s.rxGood 0 with
  | false =>
    obtain ⟨k1, k2⟩ := classify_bad h hg left
    refine ⟨8, by omega, fun {r q} hr => ?_⟩
    refine read (q' := q + 4) ?_
    rw [k1]
    exact arm _ rfl rfl rfl k2 hr
  | true =>
    have hbad : rxBad s.params.rxBufSize (s.rxWord 0 1) (s.rxWord 0 2) = false := by simpa [State.rxGood] using hg
    have hlen : s.rxLen 0 ≤ s.params.rxBufSize := rxBad_len hbad
    have hst : drainStatus left s.rx.current (s.rxWord 0 1) (s.rxWord 0 2) (drainRead s) =
        (drainRead s, .allocFrame s.rx.current (s.rxLen 0) :: rearmSteps left s.rx.current s) := by
      unfold drainStatus
      rw [if_neg (by rw [show (drainRead s).params = s.params from rfl, hbad]; decide)]
      rfl
    obtain ⟨u0, hu0⟩ : ∃ u, u = (drainRead s).takeFrame.record (.call (.allocFrame (s.rxLen 0) s.frameAnswer)) := ⟨_, rfl⟩
    have x0 : u0.rx = s.rx := by rw [hu0]; rfl
    have t0 : u0.tx = s.tx := by rw [hu0]; rfl
    have y0 : u0.params = s.params := by rw [hu0]; rfl
    have m0 : u0.memory = s.memory := by rw [hu0]; rfl
    have hstep : perform a i (.allocFrame s.rx.current (s.rxLen 0)) (drainRead s) =
        .ok (frameAllocated s.rx.current (s.rxLen 0) s.frameAnswer u0) := by rw [hu0]; rfl
    cases ha : s.frameAnswer with
    | none =>
      rw [ha] at hu0
      refine ⟨9, by omega, fun {r q} hr => ?_⟩
      refine read (q' := q + 4 + 1) ?_
      rw [hst]
      refine .prim (ps := []) (s' := u0.count fun c => { c with rxDropped := bump s.params c.rxDropped 1 }) ?_ ?_
      · rw [hstep, ha]
        unfold frameAllocated
        rw [y0]
      · exact arm _ x0 y0 m0 (classify_lost h hg ha hu0) hr
    | some hd =>
      rw [ha] at hu0
      obtain ⟨u1, hu1⟩ : ∃ u, u = (u0.noteRead .host (s.rxBuffer 0) (s.rxLen 0)).putFrame hd (s.rxBytes 0) := ⟨_, rfl⟩
      obtain ⟨u2, hu2⟩ : ∃ u, u = (u1.dropFrame hd).record (.call (.deliver hd (s.rxBytes 0))) := ⟨_, rfl⟩
      obtain ⟨u3, hu3⟩ : ∃ u, u = rxDelivered (s.rxLen 0) u2 := ⟨_, rfl⟩
      refine ⟨12, by omega, fun {r q} hr => ?_⟩
      refine read (q' := q + 4 + 1 + 1 + 1 + 1) ?_
      rw [hst]
      refine .prim (ps := [.copyFrame s.rx.current (s.rxLen 0) hd, .quiet (.rxDelivered (s.rxLen 0))])
        (s' := u0) (by rw [hstep, ha]; rfl) ?_
      refine .prim (ps := [.deliver hd (s.rxBytes 0)]) (s' := u1) ?_ ?_
      · simp only [perform, copyFrameStep]
        rw [x0, hb]
        dsimp only
        rw [← hbp, checkBytes_ok (s := u0) (by omega) (by
          rw [hbp, splits_congr t0 x0]
          exact splits_out hlen (fun ht => hb3 ht) (fun _ => hb2))]
        simp only [Res.bind, State.checkOwn]
        rw [wordAt_congr m0, ← hw, ho, if_neg (by decide), bytesAt_congr m0, hu1]
        rfl
      refine .prim (ps := []) (s' := u2) (by rw [hu2]; rfl) ?_
      refine .prim (ps := []) (s' := u3) (by rw [hu3]; rfl) ?_
      have f1 : u1 = { u0 with hostFrames := u1.hostFrames, history := u1.history } := by rw [hu1]; rfl
      have f2 : u2 = { u1 with hostFrames := u2.hostFrames, history := u2.history } := by rw [hu2]; rfl
      have f3 : u3 = { u2 with counters := u3.counters } := by rw [hu3]; rfl
      refine arm u3 ?_ ?_ ?_ (classify_kept h hg ha hu0 hu1 hu2 hu3) hr
      · rw [f3, f2, f1]; exact x0
      · rw [f3, f2, f1]; exact y0
      · rw [f3, f2, f1]; exact m0

/-- R293: a re-arm stores to the words 1 and 2 of its slot. -/
theorem rearm_byteAt {s t : State} {i : Nat} (ht : t.memory = s.rearm s.memory i) {x : Nat}
    (hx : x < slotAddr s.rx.base i 1 ∨ slotAddr s.rx.base i 1 + 8 ≤ x) : t.byteAt x = s.byteAt x := by
  have h12 : slotAddr s.rx.base i 2 = slotAddr s.rx.base i 1 + 4 := by unfold slotAddr; omega
  have e : t.byteAt x = ((s.store (slotAddr s.rx.base i 2) (wordBytes 0#32)).store (slotAddr s.rx.base i 1)
      (wordBytes (rxArmWord s.params.rxBufSize))).byteAt x := by
    simp only [State.byteAt, ht]
    rfl
  rw [e, byteAt_store, if_neg (by rw [byteOf_length]; omega), byteAt_store, if_neg (by rw [byteOf_length]; omega)]

/-- R293: what a re-arm leaves in the words 1 and 2 of its slot. -/
theorem rearm_words {s t : State} {i : Nat} (ht : t.memory = s.rearm s.memory i) :
    t.wordAt (slotAddr s.rx.base i 1) = rxArmWord s.params.rxBufSize ∧ t.wordAt (slotAddr s.rx.base i 2) = 0#32 := by
  have h12 : slotAddr s.rx.base i 2 = slotAddr s.rx.base i 1 + 4 := by unfold slotAddr; omega
  obtain ⟨u, hu⟩ : ∃ u, u = (s.store (slotAddr s.rx.base i 2) (wordBytes 0#32)).store (slotAddr s.rx.base i 1)
      (wordBytes (rxArmWord s.params.rxBufSize)) := ⟨_, rfl⟩
  have e : t.memory = u.memory := by rw [ht, hu]; rfl
  rw [wordAt_congr e, wordAt_congr e, hu]
  refine ⟨wordAt_store_same _ _ _, ?_⟩
  rw [wordAt_store_other _ _ _ _ (by rw [byteOf_length]; omega), wordAt_store_same]

section Shift

variable {s : State} (h : Drain.Ok s)

theorem drained_at (j : Nat) : (drainedOne s).rxAt j = s.rxAt (j + 1) := by
  simp only [State.rxAt, drainedOne, advance, Nat.mod_add_mod]
  congr 1; omega

theorem drained_byte {x : Nat} (hx : x < slotAddr s.rx.base s.rx.current 1 ∨ slotAddr s.rx.base s.rx.current 1 + 8 ≤ x) :
    (drainedOne s).byteAt x = s.byteAt x := rearm_byteAt rfl hx

include h

/-- The words of the slots behind the current one are untouched. -/
theorem drained_slot_byte {j k x : Nat} (hj : j + 1 < ringSize s.rx.exp) (hk : k < 4)
    (h1 : slotAddr s.rx.base (s.rxAt (j + 1)) k ≤ x) (h2 : x < slotAddr s.rx.base (s.rxAt (j + 1)) k + 4) :
    (drainedOne s).byteAt x = s.byteAt x := by
  have hne : s.rxAt (j + 1) ≠ s.rx.current := slot_behind h.inv.1 hj
  refine drained_byte ?_
  unfold slotAddr at *
  omega

theorem drained_word {j k : Nat} (hj : j + 1 < ringSize s.rx.exp) (hk : k < 4) :
    (drainedOne s).rxWord j k = s.rxWord (j + 1) k := by
  unfold State.rxWord
  rw [drained_at]
  exact wordAt_eq fun x h1 h2 => drained_slot_byte h hj hk h1 h2

theorem drained_wordRead {j k : Nat} (hj : j + 1 < ringSize s.rx.exp) (hk : k < 4) :
    (drainedOne s).wordRead s.rx.base (s.rxAt (j + 1)) k = s.wordRead s.rx.base (s.rxAt (j + 1)) k := by
  unfold State.wordRead State.bytesAt
  congr 1
  refine List.map_congr_left fun y hy => ?_
  have := List.mem_range.mp hy
  exact drained_slot_byte h hj hk (by omega) (by omega)

theorem drained_good {j : Nat} (hj : j + 1 < ringSize s.rx.exp) : (drainedOne s).rxGood j = s.rxGood (j + 1) := by
  unfold State.rxGood
  rw [drained_word h hj (by omega), drained_word h hj (by omega)]
  rfl

theorem drained_asks {k : Nat} (hk : k + 1 ≤ ringSize s.rx.exp) :
    s.rxAsks 1 + (drainedOne s).rxAsks k = s.rxAsks (k + 1) := by
  rw [rxAsks_one]
  unfold State.rxAsks
  rw [List.range_succ_eq_map, List.filter_cons, List.filter_map, List.filter_congr (q := s.rxGood ∘ Nat.succ)
    (fun j hj => drained_good h (by have := List.mem_range.mp hj; omega))]
  split <;> (simp only [List.length_cons, List.length_map]; omega)

omit h in
theorem drained_answer (m : Nat) : (drainedOne s).frameAnswerAt m = s.frameAnswerAt (s.rxAsks 1 + m) := by
  unfold State.frameAnswerAt
  change ((s.oracle.frames.drop (s.rxAsks 1))[m]?).getD (Config.freeFrame (s.oracle.asked + s.rxAsks 1 + m)) = _
  rw [List.getElem?_drop, Nat.add_assoc]

theorem drained_fate {j : Nat} (hj : j + 1 < ringSize s.rx.exp) : (drainedOne s).rxFate j = s.rxFate (j + 1) := by
  unfold State.rxFate
  rw [drained_good h hj, drained_answer, drained_asks h (by omega)]

theorem drained_len {j : Nat} (hj : j + 1 < ringSize s.rx.exp) : (drainedOne s).rxLen j = s.rxLen (j + 1) := by
  unfold State.rxLen
  rw [drained_word h hj (by omega)]

omit h in
theorem drained_buffer (j : Nat) : (drainedOne s).rxBuffer j = s.rxBuffer (j + 1) := by
  unfold State.rxBuffer
  rw [drained_at]
  rfl

/-- The buffers share no byte with the ring. -/
theorem drained_bytes {j : Nat} (hj : j + 1 < ringSize s.rx.exp) (hg : s.rxGood (j + 1) = true) :
    (drainedOne s).rxBytes j = s.rxBytes (j + 1) := by
  obtain ⟨b, _, hbp, hbm⟩ := rxBuffer_spec h (j + 1)
  obtain ⟨_, hb2, _⟩ := h.buffers b hbm
  have hlen : s.rxLen (j + 1) ≤ s.params.rxBufSize := rxBad_len (by simpa [State.rxGood] using hg)
  have hcur := h.inv.1
  simp only [disjointRegions, Bool.or_eq_true, decide_eq_true_eq] at hb2
  unfold State.rxBytes State.bytesAt
  rw [drained_len h hj, drained_buffer]
  refine List.map_congr_left fun y hy => ?_
  have := List.mem_range.mp hy
  refine drained_byte ?_
  rw [hbp]
  unfold slotAddr
  omega

theorem drained_events {j : Nat} (hj : j + 1 < ringSize s.rx.exp) :
    (drainedOne s).drainEvents j = s.drainEvents (j + 1) := by
  have hf : (drainedOne s).fateEvents j = s.fateEvents (j + 1) := by
    unfold State.fateEvents
    rw [drained_fate h hj]
    cases hh : s.rxFate (j + 1) with
    | bad => rfl
    | lost => simp only [drained_len h hj]
    | kept hd =>
      have hg : s.rxGood (j + 1) = true := by
        unfold State.rxFate at hh
        split at hh
        · assumption
        · cases hh
      simp only [drained_len h hj, drained_buffer, drained_bytes h hj hg]
  unfold State.drainEvents
  rw [hf, drained_at, show (drainedOne s).rx.base = s.rx.base from rfl, drained_wordRead h hj (by omega),
    drained_wordRead h hj (by omega)]
  rfl

theorem drained_ok : Drain.Ok (drainedOne s) :=
  ⟨⟨Nat.mod_lt _ (Nat.two_pow_pos _), h.inv.2⟩, h.placed, h.buffers⟩

end Shift

/-- R290, R294: the effect of `drain_body` on `k` of at most `n` slots. -/
def State.drained (s : State) (n k : Nat) : State :=
  { s with
    rx := { s.rx with current := s.rxAt k },
    counters := s.drainedCounts k s.counters, hostFrames := s.drainedFrames k s.hostFrames,
    memory := (List.range k).foldl (fun m j => s.rearm m (s.rxAt j)) s.memory, oracle := s.drainedOracle k,
    history := ((List.range k).flatMap s.drainEvents ++ s.lastRead s.rx.base (s.rxAt k) k n).reverse ++ s.history }

/-- The current slot, then the others. -/
theorem drained_succ {s : State} {n k : Nat} (h : Drain.Ok s) (hk : k ≤ n) (hn : n + 1 ≤ ringSize s.rx.exp) :
    (drainedOne s).drained n k = s.drained (n + 1) (k + 1) := by
  have h0 := rxAt_zero h
  have h1 : (drainedOne s).drainedCounts k (drainedOne s).counters = s.drainedCounts (k + 1) s.counters := by
    simp only [State.drainedCounts, foldl_range_succ]
    exact foldl_range_congr fun c j hj => by rw [drained_fate h (by omega), drained_len h (by omega)]; rfl
  have h2 : (drainedOne s).drainedFrames k (drainedOne s).hostFrames = s.drainedFrames (k + 1) s.hostFrames := by
    unfold State.drainedFrames
    rw [show (drainedOne s).hostFrames = s.hostFrames.filter fun f => !(s.rxFate 0).through f.handle from rfl,
      List.filter_filter]
    have e : ∀ f : HostFrame, (List.range k).all (fun j => !((drainedOne s).rxFate j).through f.handle) =
        (List.range k).all fun j => !(s.rxFate (j + 1)).through f.handle :=
      fun f => all_range_congr fun j hj => by rw [drained_fate h (by omega)]
    refine List.filter_congr fun f _ => ?_
    rw [all_range_succ, e f, Bool.and_comm]
  have h3 : (List.range k).foldl (fun m j => (drainedOne s).rearm m ((drainedOne s).rxAt j)) (drainedOne s).memory =
      (List.range (k + 1)).foldl (fun m j => s.rearm m (s.rxAt j)) s.memory := by
    simp only [foldl_range_succ, drained_at, h0]
    rfl
  have h4 : (drainedOne s).drainedOracle k = s.drainedOracle (k + 1) := by
    unfold State.drainedOracle
    rw [← drained_asks h (by omega)]
    change ({ s.oracle with
      frames := (s.oracle.frames.drop (s.rxAsks 1)).drop ((drainedOne s).rxAsks k),
      asked := s.oracle.asked + s.rxAsks 1 + (drainedOne s).rxAsks k } : Oracle) = _
    rw [List.drop_drop, Nat.add_assoc]
  have h5 : (drainedOne s).lastRead (drainedOne s).rx.base (s.rxAt (k + 1)) k n =
      s.lastRead s.rx.base (s.rxAt (k + 1)) (k + 1) (n + 1) := by
    unfold State.lastRead
    by_cases hh : k < n
    · rw [if_pos hh, if_pos (by omega), show (drainedOne s).rx.base = s.rx.base from rfl,
        drained_wordRead h (by omega) (by omega)]
    · rw [if_neg hh, if_neg (by omega)]
  have h6 : ((List.range k).flatMap (drainedOne s).drainEvents ++
      (drainedOne s).lastRead (drainedOne s).rx.base ((drainedOne s).rxAt k) k n).reverse ++ (drainedOne s).history =
      ((List.range (k + 1)).flatMap s.drainEvents ++
        s.lastRead s.rx.base (s.rxAt (k + 1)) (k + 1) (n + 1)).reverse ++ s.history := by
    rw [flatMap_range_succ, flatMap_range_congr fun j hj => drained_events h (by omega), drained_at, h5,
      show (drainedOne s).history = (s.drainEvents 0).reverse ++ s.history from rfl]
    simp only [List.reverse_append, List.append_assoc]
  have h7 : (drainedOne s).rxAt k = s.rxAt (k + 1) := drained_at k
  apply State.ext
  all_goals first
    | exact h1 | exact h2 | exact h3 | exact h4 | exact h6 | rfl | skip
  change (RxRing.mk _ _ _ _ _ _) = RxRing.mk _ _ _ _ _ _
  rw [h7]
  rfl

theorem drained_zero_rest {s : State} (h : Drain.Ok s) (n : Nat) :
    s.drained n 0 = { s with history := (s.lastRead s.rx.base s.rx.current 0 n).reverse ++ s.history } := by
  have h1 : s.drainedFrames 0 s.hostFrames = s.hostFrames := List.filter_eq_self.mpr fun _ _ => rfl
  unfold State.drained
  rw [rxAt_zero h, h1]
  rfl

/-- R290, R294: the loop of `drain_body` with `left` slots to take. -/
theorem drain_loop (a : Agent) (i : Instr) (rest : List Prim) : ∀ (left : Nat) (s : State),
    left ≤ ringSize s.rx.exp → Drain.Ok s →
    ∃ k m : Nat, k ≤ left ∧ (∀ j, j < k → owned (s.rxWord j 1) = false) ∧
      (k < left → owned (s.rxWord k 1) = true) ∧ m ≤ 12 * left + 2 ∧
      ∀ r q, Runs a i rest (s.drained left k) r q → Runs a i (.quiet (.drainLoop left) :: rest) s r (q + m) := by
  intro left
  induction left with
  | zero =>
    intro s _ h
    refine ⟨0, 1, by omega, by omega, by omega, by omega, ?_⟩
    intro r q hr
    rw [drained_zero_rest h] at hr
    exact .prim (ps := []) (s' := s) rfl hr
  | succ left ih =>
    intro s hle h
    have hcur := h.inv.1
    obtain ⟨p1, p2⟩ := slot_placed (w := 1) h.placed hcur (by omega)
    by_cases ho : owned (s.rxWord 0 1) = true
    · refine ⟨0, 2, by omega, by omega, fun _ => ho, by omega, ?_⟩
      intro r q hr
      rw [drained_zero_rest h, State.lastRead, if_pos (by omega)] at hr
      refine .prim (ps := [.slotGet .rx s.rx.current 1 (.drainOwn left s.rx.current)]) (s' := s) rfl ?_
      refine .prim (ps := []) (s' := s.noteRead .host (slotAddr s.rx.base s.rx.current 1) 4) ?_ hr
      simp only [perform]
      rw [hostSlotRead_ok (by exact p1) (by exact p2) (.inl rfl)]
      simp only [Res.bind, onWord, drainOwnSteps, State.ringBase, ← rxWord_zero h, ho, if_true]
    · have ho : owned (s.rxWord 0 1) = false := by simpa using ho
      obtain ⟨k, m, k1, k2, k3, k4, k5⟩ := ih (drainedOne s) (by exact Nat.le_of_succ_le hle) (drained_ok h)
      have hw : ∀ j, j < left → (drainedOne s).rxWord j 1 = s.rxWord (j + 1) 1 :=
        fun j hj => drained_word h (by omega) (by omega)
      obtain ⟨m2, hm2, iter⟩ := drain_iter a i rest s left h ho
      refine ⟨k + 1, m + m2, by omega, ?_, ?_, by omega, ?_⟩
      · intro j hj
        cases j with
        | zero => exact ho
        | succ j => rw [← hw j (by omega)]; exact k2 j (by omega)
      · intro hk; rw [← hw k (by omega)]; exact k3 (by omega)
      · intro r q hr
        rw [← drained_succ h k1 hle] at hr
        rw [← Nat.add_assoc]
        exact iter (k5 r q hr)

/-- Two slots of a ring less than a turn apart are different. -/
theorem slots_differ {c n j k : Nat} (hj : j < k) (hk : k < n) : (c + j) % n ≠ (c + k) % n := by
  intro h
  have h1 : (c + k) % n = ((c + j) % n + (k - j)) % n := by rw [Nat.mod_add_mod]; congr 1; omega
  have h2 := Nat.mod_lt (c + j) (show 0 < n by omega)
  rw [h1] at h
  generalize (c + j) % n = b at h h2
  by_cases hh : b + (k - j) < n
  · rw [Nat.mod_eq_of_lt hh] at h; omega
  · rw [Nat.mod_eq_sub_mod (by omega), Nat.mod_eq_of_lt (by omega)] at h; omega

/-- R293: the words the re-armed slots hold, and the bytes that no re-arm touches. -/
theorem drained_memory {s : State} {n : Nat} : ∀ {k : Nat}, k ≤ ringSize s.rx.exp →
    (∀ j, j < k → (s.drained n k).wordAt (slotAddr s.rx.base (s.rxAt j) 1) = rxArmWord s.params.rxBufSize ∧
      (s.drained n k).wordAt (slotAddr s.rx.base (s.rxAt j) 2) = 0#32) ∧
    s.sameBytesOutside (s.drained n k) ((List.range k).map fun j => (slotAddr s.rx.base (s.rxAt j) 1, 8)) := by
  intro k
  induction k with
  | zero => exact fun _ => ⟨by omega, fun _ _ => rfl⟩
  | succ k ih =>
    intro hk
    obtain ⟨h1, h2⟩ := ih (by omega)
    have hm : (s.drained n (k + 1)).memory = (s.drained n k).rearm (s.drained n k).memory (s.rxAt k) := by
      change (List.range (k + 1)).foldl _ _ = _
      rw [List.range_succ, List.foldl_append]
      rfl
    have hb : ∀ x, (x < slotAddr s.rx.base (s.rxAt k) 1 ∨ slotAddr s.rx.base (s.rxAt k) 1 + 8 ≤ x) →
        (s.drained n (k + 1)).byteAt x = (s.drained n k).byteAt x := fun x hx => rearm_byteAt hm hx
    refine ⟨fun j hj => ?_, fun x hx => ?_⟩
    · by_cases e : j = k
      · subst e
        exact rearm_words (s := s.drained n j) hm
      · have hne : s.rxAt j ≠ s.rxAt k := slots_differ (by omega) (by omega)
        have hw : ∀ w, w < 4 → (s.drained n (k + 1)).wordAt (slotAddr s.rx.base (s.rxAt j) w) =
            (s.drained n k).wordAt (slotAddr s.rx.base (s.rxAt j) w) := fun w hw =>
          wordAt_eq fun x x1 x2 => hb x (by unfold slotAddr at *; omega)
        rw [hw 1 (by omega), hw 2 (by omega)]
        exact h1 j (by omega)
    · rw [List.range_succ, List.map_append] at hx
      rw [hb x (hx _ (List.mem_append_right _ (List.mem_singleton.mpr rfl)))]
      exact h2 x fun r hr => hx r (List.mem_append_left _ hr)

end Sys2Proof.Machine
end

