-- ==== Sys2Proof/Laws/Transmit.lean ====
section
/-! SUPPORT. `reclaim_body` (43_transmit.md R270): one iteration, the loop, and what it keeps of the ring (R34, R35). -/

namespace Sys2Proof.Machine

theorem inv_get {t : TxRing} (h : t.inv) (hc : 0 < t.count) : ∃ m, t.map[t.last]? = some (some m) := by
  obtain ⟨⟨h1, h2, h3, h4⟩, h5, h6⟩ := h
  have := (h6 t.last h2).2 (by rw [show t.last + ringSize t.exp - t.last = ringSize t.exp by omega, Nat.mod_self]; exact hc)
  obtain ⟨m, hm⟩ := Option.isSome_iff_exists.mp this
  refine ⟨m, ?_⟩
  cases hx : t.map[t.last]? with
  | none => rw [hx] at hm; cases hm
  | some x => rw [hx] at hm; simp at hm; rw [hm]

theorem inv_next {t : TxRing} (h : t.inv) (hc : 0 < t.count) :
    TxRing.inv { t with map := t.map.set t.last none, last := advance t.last (ringSize t.exp), count := t.count - 1 } := by
  obtain ⟨⟨h1, h2, h3, h4⟩, h5, h6⟩ := h
  generalize hn : ringSize t.exp = n at *
  have hn0 : 0 < n := by omega
  refine ⟨⟨by simp only [hn]; exact h1, by simp only [advance, hn]; exact Nat.mod_lt _ hn0, by simp only [hn]; omega, ?_⟩, by simp [hn, h5], ?_⟩
  · simp only [advance, hn]
    rw [← h4]
    rw [Nat.mod_add_mod]
    congr 1; omega
  · simp only [advance, hn]
    intro i hi
    by_cases hil : i = t.last
    · subst hil
      rw [List.getElem?_set_self (by omega)]
      constructor
      · intro h; cases h
      intro h; exfalso; revert h
      by_cases hw : t.last + 1 = n
      · rw [hw, Nat.mod_self]; 
        rw [show t.last + n - 0 = t.last + n by omega, Nat.add_mod_right, Nat.mod_eq_of_lt hi]; omega
      · rw [Nat.mod_eq_of_lt (show t.last + 1 < n by omega), show t.last + n - (t.last+1) = n - 1 by omega, Nat.mod_eq_of_lt (show n - 1 < n by omega)]; omega
    · rw [List.getElem?_set_ne (by omega), h6 i hi]
      by_cases hw : t.last + 1 = n
      · rw [hw, Nat.mod_self, show i + n - 0 = i + n by omega, Nat.add_mod_right, Nat.mod_eq_of_lt hi]
        rw [show i + n - t.last = i + 1 by omega, Nat.mod_eq_of_lt (by omega)]; omega
      · rw [Nat.mod_eq_of_lt (show t.last + 1 < n by omega)]
        by_cases hlt : i < t.last
        · rw [Nat.mod_eq_of_lt (show i + n - t.last < n by omega), Nat.mod_eq_of_lt (show i + n - (t.last+1) < n by omega)]; omega
        · rw [show i + n - t.last = (i - t.last) + n by omega, Nat.add_mod_right, Nat.mod_eq_of_lt (show i - t.last < n by omega),
            show i + n - (t.last+1) = (i - (t.last+1)) + n by omega, Nat.add_mod_right, Nat.mod_eq_of_lt (show i - (t.last+1) < n by omega)]; omega

/-- The state after reclaiming the oldest in-flight slot, whose entry is `m`. -/
def reclaimedOne (s : State) (m : TxMapping) : State :=
  { s with
    tx := { s.tx with
      map := s.tx.map.set s.tx.last none, last := advance s.tx.last (ringSize s.tx.exp), count := s.tx.count - 1 },
    counters := countTx s.params (s.wordAt (slotAddr s.tx.base s.tx.last 1)) (s.wordAt (slotAddr s.tx.base s.tx.last 2))
      m.len s.counters,
    hostFrames := s.hostFrames.filter fun f => f.handle != m.handle,
    history := .call (.releaseFrame m.handle) :: .call (.unmap m.phys m.len .toDevice) ::
      s.wordRead s.tx.base s.tx.last 2 :: .fenceR :: s.wordRead s.tx.base s.tx.last 1 :: s.history }

/-- R270: one iteration of `reclaim_body` on a completed slot. -/
theorem reclaim_iter (a : Agent) (i : Instr) (rest : List Prim) (s : State) (hc : 0 < s.tx.count) (hinv : s.tx.inv)
    (hp : ringPlaced s.tx.base s.tx.exp) (m : TxMapping) (hm : s.tx.map[s.tx.last]? = some (some m))
    (ho : owned (s.wordAt (slotAddr s.tx.base s.tx.last 1)) = false) {r : Res State} {q : Nat}
    (h : Runs a i (.quiet .reclaimLoop :: rest) (reclaimedOne s m) r q) :
    Runs a i (.quiet .reclaimLoop :: rest) s r (q + 7) := by
  have hlast := hinv.1.2.1
  obtain ⟨p1, p2⟩ := slot_placed (w := 1) hp hlast (by omega)
  obtain ⟨p3, p4⟩ := slot_placed (w := 2) hp hlast (by omega)
  obtain ⟨sr, hsr⟩ : ∃ u, u = s.noteRead .host (slotAddr s.tx.base s.tx.last 1) 4 := ⟨_, rfl⟩
  obtain ⟨s1, hs1⟩ : ∃ u, u = (sr.record .fenceR).noteRead .host (slotAddr s.tx.base s.tx.last 2) 4 := ⟨_, rfl⟩
  obtain ⟨s2, hs2⟩ : ∃ u, u = ((s1.record (.call (.unmap m.phys m.len .toDevice))).dropFrame m.handle).record
    (.call (.releaseFrame m.handle)) := ⟨_, rfl⟩
  obtain ⟨s3, hs3⟩ : ∃ u, u = reclaimed s.tx.last (s.wordAt (slotAddr s.tx.base s.tx.last 1))
    (s.wordAt (slotAddr s.tx.base s.tx.last 2)) m.len s2 := ⟨_, rfl⟩
  have e3 : s3 = reclaimedOne s m := by
    rw [hs3, hs2, hs1, hsr]
    apply State.ext <;> simp [reclaimedOne, State.wordRead]
    exact bytesAt_congr rfl _ _
  have mf : (sr.record .fenceR).memory = s.memory := by rw [hsr]; rfl
  have bf : (sr.record .fenceR).ringBase .tx = s.tx.base := by rw [hsr]; rfl
  have hm1 : s1.tx.map[s.tx.last]? = some (some m) := by rw [hs1, hsr]; exact hm
  rw [← e3] at h
  refine .prim (ps := [.slotGet .tx s.tx.last 1 (.reclaimOwn s.tx.last)]) (s' := s)
    (by simp only [perform, quietStep, reclaimLoopSteps, hc, if_true]) ?_
  refine .prim (ps := [.quiet .fenceR, .slotGet .tx s.tx.last 2
    (.reclaimStatus s.tx.last (s.wordAt (slotAddr s.tx.base s.tx.last 1)))]) (s' := sr) ?_ ?_
  · simp only [perform]
    rw [hostSlotRead_ok (by exact p1) (by exact p2) (.inl rfl)]
    simp only [Res.bind, onWord, reclaimOwnSteps, State.ringBase, ho, Bool.false_eq_true, if_false, ← hsr]
  refine .prim (ps := []) (s' := sr.record .fenceR) rfl ?_
  refine .prim (ps := [.unmap m.phys m.len, .releaseFrame m.handle, .quiet (.reclaimed s.tx.last
    (s.wordAt (slotAddr s.tx.base s.tx.last 1)) (s.wordAt (slotAddr s.tx.base s.tx.last 2)) m.len), .quiet .reclaimLoop])
    (s' := s1) ?_ ?_
  · simp only [perform]
    rw [hostSlotRead_ok (by rw [bf]; exact p3) (by rw [bf]; exact p4) (.inr (by rw [bf, wordAt_congr mf]; exact ho))]
    rw [bf, wordAt_congr mf, ← hs1]
    simp only [Res.bind, onWord, reclaimStatusSteps, hm1]
  refine .prim (ps := []) (s' := s1.record (.call (.unmap m.phys m.len .toDevice))) rfl ?_
  refine .prim (ps := []) (s' := s2) (by rw [hs2]; rfl) ?_
  refine .prim (ps := []) (s' := s3) (by rw [hs3]; rfl) ?_
  exact h

section Shift

variable {s : State} (hinv : s.tx.inv) (hc : 0 < s.tx.count) (m : TxMapping)

theorem reclaimed_at (j : Nat) : (reclaimedOne s m).txAt j = s.txAt (j + 1) := by
  simp only [State.txAt, reclaimedOne, advance, Nat.mod_add_mod]
  congr 1; omega

theorem reclaimed_word (j k : Nat) : (reclaimedOne s m).txWord j k = s.txWord (j + 1) k := by
  simp only [State.txWord, reclaimed_at]
  rfl

include hinv in
theorem reclaimed_entry {j : Nat} (hj : j + 1 < s.tx.count) : (reclaimedOne s m).txEntry j = s.txEntry (j + 1) := by
  have h1 := hinv.1.2.2.1
  unfold State.txEntry
  rw [reclaimed_at]
  change (((s.tx.map.set s.tx.last none)[s.txAt (j + 1)]?).join).getD _ = _
  rw [List.getElem?_set_ne (by exact fun h => slot_behind hinv.1.2.1 (by omega) h.symm)]

include hinv in
theorem reclaimed_events {j : Nat} (hj : j + 1 < s.tx.count) :
    (reclaimedOne s m).reclaimEvents j = s.reclaimEvents (j + 1) := by
  simp only [State.reclaimEvents, reclaimed_entry hinv m hj, reclaimed_at]
  rfl

end Shift

/-- The effect of `reclaim_body` on `k` slots. -/
def State.reclaimed (s : State) (k : Nat) : State :=
  { s with
    tx := { s.tx with map := s.reclaimedMap k, last := s.txAt k, count := s.tx.count - k },
    counters := s.reclaimedCounts k s.counters, hostFrames := s.reclaimedFrames k s.hostFrames,
    history := ((List.range k).flatMap s.reclaimEvents ++ s.lastRead s.tx.base (s.txAt k) k s.tx.count).reverse ++
      s.history }

/-- The oldest slot, then the others. -/
theorem reclaimed_succ {s : State} {m : TxMapping} {k : Nat} (hinv : s.tx.inv)
    (hm : s.tx.map[s.tx.last]? = some (some m)) (hk : k + 1 ≤ s.tx.count) :
    (reclaimedOne s m).reclaimed k = s.reclaimed (k + 1) := by
  have hs0 : s.txAt 0 = s.tx.last := Nat.mod_eq_of_lt hinv.1.2.1
  have he : s.txEntry 0 = m := by unfold State.txEntry; rw [hs0, hm]; rfl
  have h1 : (reclaimedOne s m).reclaimedMap k = s.reclaimedMap (k + 1) := by
    simp only [State.reclaimedMap, foldl_range_succ, reclaimed_at, hs0]
    rfl
  have h2 : (reclaimedOne s m).reclaimedCounts k (reclaimedOne s m).counters = s.reclaimedCounts (k + 1) s.counters := by
    simp only [State.reclaimedCounts, foldl_range_succ, he]
    have hw : ∀ w, s.txWord 0 w = s.wordAt (slotAddr s.tx.base s.tx.last w) := fun w => by unfold State.txWord; rw [hs0]
    rw [hw, hw]
    exact foldl_range_congr fun c j hj => by
      rw [reclaimed_word, reclaimed_word, reclaimed_entry hinv m (by omega)]; rfl
  have h3 : (reclaimedOne s m).reclaimedFrames k (reclaimedOne s m).hostFrames = s.reclaimedFrames (k + 1) s.hostFrames := by
    unfold State.reclaimedFrames
    change List.filter _ (s.hostFrames.filter fun f => f.handle != m.handle) = _
    rw [List.filter_filter]
    refine List.filter_congr fun f _ => ?_
    rw [all_range_succ, he, Bool.and_comm]
    congr 1
    exact all_range_congr fun j hj => by rw [reclaimed_entry hinv m (by omega)]
  have h4 : ((List.range k).flatMap (reclaimedOne s m).reclaimEvents ++ (reclaimedOne s m).lastRead
      (reclaimedOne s m).tx.base ((reclaimedOne s m).txAt k) k (reclaimedOne s m).tx.count).reverse ++
      (reclaimedOne s m).history =
      ((List.range (k + 1)).flatMap s.reclaimEvents ++
        s.lastRead s.tx.base (s.txAt (k + 1)) (k + 1) s.tx.count).reverse ++ s.history := by
    rw [flatMap_range_succ, flatMap_range_congr fun j hj => reclaimed_events hinv m (by omega), reclaimed_at]
    have e1 : (reclaimedOne s m).history = (s.reclaimEvents 0).reverse ++ s.history := by
      unfold State.reclaimEvents; rw [he, hs0]; rfl
    have e2 : (reclaimedOne s m).lastRead (reclaimedOne s m).tx.base (s.txAt (k + 1)) k (reclaimedOne s m).tx.count =
        s.lastRead s.tx.base (s.txAt (k + 1)) (k + 1) s.tx.count := by
      unfold State.lastRead
      have : (reclaimedOne s m).tx.count = s.tx.count - 1 := rfl
      rw [this]
      by_cases hh : k + 1 < s.tx.count
      · rw [if_pos hh, if_pos (by omega)]; rfl
      · rw [if_neg hh, if_neg (by omega)]
    rw [e1, e2]
    simp only [List.reverse_append, List.append_assoc]
  apply State.ext
  all_goals first
    | exact h2 | exact h3 | exact h4 | rfl | skip
  change (TxRing.mk _ _ _ _ _ _ _ _) = TxRing.mk _ _ _ _ _ _ _ _
  rw [h1, reclaimed_at]
  have : (reclaimedOne s m).tx.count - k = s.tx.count - (k + 1) := by
    change s.tx.count - 1 - k = _
    omega
  rw [this]
  rfl

/-- R270: the loop of `reclaim_body`. -/
theorem reclaim_loop (a : Agent) (i : Instr) (rest : List Prim) : ∀ (c : Nat) (s : State), s.tx.count = c → s.tx.inv →
    ringPlaced s.tx.base s.tx.exp →
    ∃ k m : Nat, k ≤ s.tx.count ∧ (∀ j, j < k → owned (s.txWord j 1) = false) ∧
      (k < s.tx.count → owned (s.txWord k 1) = true) ∧ (s.reclaimed k).tx.inv ∧ m ≤ 7 * s.tx.count + 2 ∧
      ∀ r q, Runs a i rest (s.reclaimed k) r q → Runs a i (.quiet .reclaimLoop :: rest) s r (q + m) := by
  intro c
  induction c with
  | zero =>
    intro s hc hinv hp
    have hz : s.reclaimed 0 = s := by
      have h0 : s.txAt 0 = s.tx.last := Nat.mod_eq_of_lt hinv.1.2.1
      have h1 : s.reclaimedFrames 0 s.hostFrames = s.hostFrames := List.filter_eq_self.mpr fun _ _ => rfl
      unfold State.reclaimed State.lastRead
      rw [h0, h1, hc]
      simp only [Nat.lt_irrefl, if_false, List.range_zero, List.flatMap_nil, List.nil_append, List.reverse_nil]
      rw [show (0 - 0 : Nat) = s.tx.count from hc.symm]
      rfl
    refine ⟨0, 1, by omega, by omega, by omega, by rw [hz]; exact hinv, by omega, ?_⟩
    intro r q h
    rw [hz] at h
    exact .prim (ps := []) (by simp [perform, quietStep, reclaimLoopSteps, hc]) h
  | succ c ih =>
    intro s hc hinv hp
    have hlast := hinv.1.2.1
    have hs0 : s.txAt 0 = s.tx.last := Nat.mod_eq_of_lt hlast
    have hw0 : s.txWord 0 1 = s.wordAt (slotAddr s.tx.base s.tx.last 1) := by unfold State.txWord; rw [hs0]
    obtain ⟨p1, p2⟩ := slot_placed (w := 1) hp hlast (by omega)
    by_cases ho : owned (s.txWord 0 1) = true
    · have hz : s.reclaimed 0 = s.noteRead .host (slotAddr s.tx.base s.tx.last 1) 4 := by
        have h1 : s.reclaimedFrames 0 s.hostFrames = s.hostFrames := List.filter_eq_self.mpr fun _ _ => rfl
        unfold State.reclaimed State.lastRead
        rw [hs0, h1, if_pos (by omega)]
        rfl
      refine ⟨0, 2, by omega, by omega, fun _ => ho, by rw [hz]; exact hinv, by omega, ?_⟩
      intro r q h
      rw [hz] at h
      refine .prim (ps := [.slotGet .tx s.tx.last 1 (.reclaimOwn s.tx.last)]) (s' := s)
        (by simp [perform, quietStep, reclaimLoopSteps, hc]) ?_
      refine .prim (ps := []) (s' := s.noteRead .host (slotAddr s.tx.base s.tx.last 1) 4) ?_ h
      simp only [perform, hostSlotRead_ok (s := s) (r := .tx) (i := s.tx.last) (k := 1) p1 p2 (.inl rfl), Res.bind,
        onWord, reclaimOwnSteps, State.ringBase, ← hw0, ho, if_true]
    · have ho : owned (s.txWord 0 1) = false := by simpa using ho
      obtain ⟨m, hm⟩ := inv_get hinv (by omega)
      obtain ⟨k, m', h1, h2, h3, h4, h5, h6⟩ := ih (reclaimedOne s m) (by show s.tx.count - 1 = c; omega)
        (inv_next hinv (by omega)) hp
      have hcnt : (reclaimedOne s m).tx.count = c := by show s.tx.count - 1 = c; omega
      rw [hcnt] at h1 h3 h5
      refine ⟨k + 1, m' + 7, by omega, ?_, ?_, ?_, by omega, ?_⟩
      · intro j hj
        cases j with
        | zero => exact ho
        | succ j => rw [← reclaimed_word]; exact h2 j (by omega)
      · intro hk; rw [← reclaimed_word]; exact h3 (by omega)
      · rw [← reclaimed_succ hinv hm (by omega)]; exact h4
      · intro r q h
        rw [← reclaimed_succ hinv hm (by omega)] at h
        have := reclaim_iter a i rest s (by omega) hinv hp m hm (by rw [← hw0]; exact ho) (h6 r q h)
        rwa [show q + (m' + 7) = q + m' + 7 by omega]

end Sys2Proof.Machine
end

