-- ==== Sys2Proof/Tests/Slice0.lean ====
section
/-! SUPPORT. Tests of the model against the vectors of 95_test_vectors.md, and for every statement with hypotheses a
witness that meets them. -/

namespace Sys2Proof.Tests

open Sys2Proof Sys2Proof.Machine

set_option Elab.async false

abbrev Out := Host.Outcome State Fault Refusal

/-- The outcome is a next state with a property. -/
def nextIs (o : Out) (f : State → Bool) : Bool :=
  match o with
  | .next t => f t
  | .fault _ => false
  | .refused _ => false

/-- The outcome is a fault with a property. -/
def faultIs (o : Out) (f : Fault → Bool) : Bool :=
  match o with
  | .next _ => false
  | .fault x => f x
  | .refused _ => false

/-- The outcome is a refusal with a property. -/
def refusalIs (o : Out) (f : Refusal → Bool) : Bool :=
  match o with
  | .next _ => false
  | .fault _ => false
  | .refused x => f x

/-- A device step goes on to a state with a property. -/
def okIs (r : Res State) (f : State → Bool) : Bool :=
  match r with
  | .ok t => f t
  | .stop _ _ => false

/-- Words of DMA memory from an address on. -/
def withWords (s : State) (a : Nat) (ws : List Word) : State := s.store a (ws.flatMap wordBytes)

/-- A device in a state with stored CSR0 bits, initialised with the rings of program P1. -/
def dev (st : DevState) (latches : Half) : Device where
  state := st
  latches := latches
  rap := 0#16
  csr1 := 0x0000#16
  csr2 := 0x0001#16
  cfg := ⟨0#16, 0x00020000#32, 0x00021000#32, 2#4, 2#4, 0x563412005452#48, 0#64⟩
  devTx := 0
  devRx := 0

/-- The RX buffers of program P1. -/
def bufs : List RxBuffer := [⟨10, 0x00030000#32⟩, ⟨11, 0x00031000#32⟩, ⟨12, 0x00032000#32⟩, ⟨13, 0x00033000#32⟩]

/-- ATTACHED after program P1's ATTACH (R201). -/
def att : State :=
  { State.reset with
    lifecycle := .attached, mode := .wio, ib := ⟨true, 1, 0x00010000#32⟩,
    oracle := ⟨[], [], [], [0, 0, 0, 0], 0⟩ }

/-- RUNNING after program P1 and the first IRQ of P2 (V10.1): CSR0 = 0x0073. The TX ring is empty with cursor 0. -/
def up : State :=
  let s : State := { att with
    lifecycle := .running, ienaShadow := true, device := dev .running 0x0043#16,
    tx := TxRing.made 2 3 0x00021000#32, rx := RxRing.made 2 2 0x00020000#32 bufs,
    oracle := ⟨[], [0x00050000#32], [some 0x00700000#32, some 0x00700001#32], [0, 0, 0, 0], 0⟩ }
  let arm := fun (p : Word) => [p, 0x8000F9F8#32, 0#32, 0#32]
  withWords (withWords s 0x20000
    (arm 0x00030000#32 ++ arm 0x00031000#32 ++ arm 0x00032000#32 ++ arm 0x00033000#32))
    0x21000 (List.replicate 16 0#32)

/-- `up` with two frames in flight, in slots 3 and 0 (V8.10). -/
def busy : State :=
  { up with tx := { up.tx with
    last := 3, current := 1, count := 2,
    map := [some ⟨0x00050000#32, 60, 0x00100000#32⟩, none, none, some ⟨0x00051000#32, 64, 0x00100001#32⟩] } }

/-- `busy` with slot 3 completed and slot 0 owned by the device. -/
def done1 (w1 w2 : Word) : State :=
  withWords (withWords busy 0x21030 [0x00051000#32, w1, w2]) 0x21000 [0x00050000#32, 0x8300FFC4#32, 0#32]

/-- `up` with RX slot 0 completed. -/
def got (w1 w2 : Word) : State := withWords up 0x20004 [w1, w2]

/-- CLOSED, the device stopped, the rings still there. -/
def shut : State := { busy with lifecycle := .closed, ienaShadow := false, device := dev .stopped 0#16 }

/-! ### Well-formedness -/

theorem test_wf_ralloc_exp : (Instr.ralloc .tx 16).wf = false := by decide
theorem test_wf_xmit_len : (Instr.xmit 0#32 4096).wf = false := by decide

/-! ### Decoding: the words of V2.1 to V2.16 and R153, and the rejected ones of V2.17 to V2.25 -/

theorem test_decode_attach : decode 0x1000000000000000#64 = .ok .attach := by decide
theorem test_decode_open : decode 0x1100563412005452#64 = .ok (.openDev 0x563412005452#48) := by decide
theorem test_decode_xmit : decode 0x200005EA00100000#64 = .ok (.xmit 0x00100000#32 1514) := by decide
theorem test_decode_wrcsr : decode 0x0200000020000001#64 = .ok (.wrcsr 1#16 0x2000#16) := by decide
theorem test_decode_rdcsr : decode 0x0100000000000000#64 = .ok (.rdcsr 0#16) := by decide
theorem test_decode_rdbcr : decode 0x0300000000000014#64 = .ok (.rdbcr 20#16) := by decide
/-- From R141 format W and R143: opcode 0x04, val in bits 31:16, idx in bits 15:0. -/
theorem test_decode_wrbcr : decode 0x0400000000020014#64 = .ok (.wrbcr 20#16 2#16) := by decide
theorem test_decode_rreset : decode 0x0500000000000000#64 = .ok .rreset := by decide
theorem test_decode_ralloc_tx : decode 0x1800000000000103#64 = .ok (.ralloc .tx 3) := by decide
theorem test_decode_ralloc_rx : decode 0x1800000000000002#64 = .ok (.ralloc .rx 2) := by decide
theorem test_decode_rfree_tx : decode 0x1900000000000100#64 = .ok (.rfree .tx) := by decide
theorem test_decode_close : decode 0x1200000000000000#64 = .ok .close := by decide
theorem test_decode_detach : decode 0x1300000000000000#64 = .ok .detach := by decide
theorem test_decode_irq : decode 0x3000000000000000#64 = .ok .irq := by decide
theorem test_decode_dtask : decode 0x3100000000000000#64 = .ok .dtask := by decide
theorem test_decode_reclaim : decode 0x2100000000000000#64 = .ok .reclaim := by decide
theorem test_decode_drain : decode 0x2200000000000000#64 = .ok .drain := by decide
theorem test_decode_reserved :
    decode 0#64 = .error .reservedOpcode ∧ decode 0xFF00000000000000#64 = .error .reservedOpcode ∧
    decode 0x1000000000000001#64 = .error .reservedBits ∧ decode 0x1800000000000013#64 = .error .reservedBits ∧
    decode 0x2000100000000000#64 = .error .reservedBits ∧ decode 0x1101000000000000#64 = .error .reservedBits := by
  decide
/-- V2.22, V2.23, V2.24. -/
theorem test_wrong_port :
    (Port.command 0).spells 0x3000000000000000#64 = none ∧ (Port.command 0).spells 0x2200000000000000#64 = none ∧
    Port.deferredRun.spells 0x1000000000000000#64 = none := by decide
theorem test_encode_edges :
    encode (.xmit 0xFFFFFFFF#32 4095) = 0x20000FFFFFFFFFFF#64 ∧ encode (.ralloc .tx 15) = 0x180000000000010F#64 ∧
    encode (.wrcsr 0xFFFF#16 0x8001#16) = 0x020000008001FFFF#64 := by decide
theorem test_decode_table_word : decodeTableWord 64 0x2000003C00100000 = some (.xmit 0x00100000#32 60) := by decide

/-! ### Byte counts and predicates: V3.1 to V3.13 -/

theorem test_bcnt : [1, 14, 60, 64, 1514, 1544, 2048, 4095].map bcnt16 =
    [0xFFFF#32, 0xFFF2#32, 0xFFC4#32, 0xFFC0#32, 0xFA16#32, 0xF9F8#32, 0xF800#32, 0xF001#32] := by decide
theorem test_bcnt_len : [0xFFFF#32, 0xFFC4#32, 0xF001#32].map bcntLen = [1, 60, 4095] := by decide
theorem test_publish_arm : txPublishWord 60 = 0x8300FFC4#32 ∧ rxArmWord 1544 = 0x8000F9F8#32 := by decide
theorem test_slot_address : slotAddr 0x00020000#32 5 0 = 0x20050 ∧ slotAddr 0x00020000#32 5 1 = 0x20054 ∧
    advance 3 4 = 0 := by decide
theorem test_tx_done : txDoneW1 0x8300FFC4#32 0#32 0#32 = 0x0300FFC4#32 ∧
    txDoneW1 0x8300FFC4#32 0x40000000#32 0#32 = 0x4300FFC4#32 := by decide
theorem test_tx_err : txErr 0x0300FFC4#32 0#32 = false ∧ txErr 0x4300FFC4#32 0x40000000#32 = true ∧
    txErr 0x0300FFC4#32 0x20000000#32 = false := by decide
theorem test_rx_err : rxErr 0x0300F9F8#32 = false ∧ rxErr 0x4B00F9F8#32 = true ∧ rxErr 0x0700F9F8#32 = false := by
  decide
/-- V9.4 to V9.14. -/
theorem test_rx_bad :
    ([(0x0300F9F8, 0x40), (0x0300F9F8, 3), (0x0300F9F8, 4), (0x0300F9F8, 0x60C), (0x0300F9F8, 0x60D),
      (0x4B00F9F8, 0x40), (0x6300F9F8, 0x40), (0x0200F9F8, 0x40), (0x0100F9F8, 0x40), (0x0300F9F8, 0xFFFFF040)].map
      fun (x : Word × Word) => rxBad 1544 x.1 x.2) =
    [false, true, false, false, true, true, true, true, true, false] := by decide

/-! ### CSR0: V6.1 to V6.17 -/

/-- CSR0 and the device state after a write. -/
def after (d : Device) (v : Half) : DevState × Half := ((csr0Write d v).state, csr0Value Params.default (csr0Write d v))

theorem test_csr0_stopped :
    ([0x0001, 0x0003, 0x0002, 0x0040, 0x0008, 0x0004].map fun (v : Half) => after (dev .stopped 0#16) v) =
    [(.initialising, 0x0001#16), (.initialising, 0x0001#16), (.stopped, 0x0004#16), (.stopped, 0x0044#16),
     (.stopped, 0x0004#16), (.stopped, 0x0004#16)] := by decide
theorem test_csr0_start : after (dev .initialised 0x0101#16) 0x0042#16 = (.running, 0x01F3#16) := by decide
theorem test_csr0_running :
    after (dev .running 0x0143#16) 0x01B3#16 = (.running, 0x0033#16) ∧
    after (dev .running 0x0003#16) 0x0040#16 = (.running, 0x0073#16) ∧
    after (dev .running 0x0043#16) 0x0048#16 = (.running, 0x007B#16) ∧
    after (dev .running 0x0043#16) 0x0008#16 = (.running, 0x003B#16) ∧
    after (dev .running 0x0643#16) 0x04B3#16 = (.running, 0x02B3#16) ∧
    after (dev .running 0x0643#16) 0x0446#16 = (.stopped, 0x0004#16) := by decide
theorem test_csr0_derived :
    csr0Value Params.default (dev .running 0x2043#16) = 0xA073#16 ∧
    csr0Value Params.default (dev .running 0x1043#16) = 0x90F3#16 := by decide

/-! ### Commands, each run alone -/

/-- The I/O events and calls of a run, oldest first, without DMA accesses. -/
def io (s : State) : List Event :=
  s.history.reverse.filter fun e => match e with
    | .ioRead _ _ _ => true
    | .ioWrite _ _ _ => true
    | .call _ => true
    | .issued _ _ => false
    | .returned _ _ _ => false
    | .memRead _ _ _ => false
    | .memWrite _ _ _ => false
    | .fenceW => false
    | .fenceR => false
    | .wireTx _ => false
    | .wireRx _ => false

/-- V4.2: DWIO, the upper bits drawn as 0xABCD. -/
def dwio : State :=
  { att with
    mode := .dwio, params := { Params.default with deviceIoMode := .dwio, wrongModeRead := .notStopped },
    oracle := ⟨[], [], [], [0xABCD, 0, 0], 0⟩ }

theorem test_rdcsr_wio : nextIs (exec (.rdcsr 0#16) att) (fun t =>
    t.replyOf (.caller 0) = some ⟨.ok, 0x0004#16⟩ ∧
    io t = [.ioWrite 16 0x312 0#32, .ioRead 16 0x310 0x0004#32]) = true := by decide +kernel
theorem test_rdcsr_dwio : nextIs (exec (.rdcsr 0#16) dwio) (fun t =>
    t.replyOf (.caller 0) = some ⟨.ok, 0x0004#16⟩ ∧
    io t = [.ioWrite 32 0x314 0#32, .ioRead 32 0x310 0xABCD0004#32]) = true := by decide +kernel
theorem test_wrcsr_csr1 : nextIs (exec (.wrcsr 1#16 0x2000#16) att) (fun t =>
    t.device.csr1 = 0x2000#16 ∧ io t = [.ioWrite 16 0x312 1#32, .ioWrite 16 0x310 0x2000#32]) = true := by
  decide +kernel
/-- V4.10. -/
theorem test_wrcsr_unmodelled : refusalIs (exec (.wrcsr 5#16 0x1234#16) att) (fun r => match r with
    | .deviceUnmodelled t => io t = [.ioWrite 16 0x312 5#32, .ioWrite 16 0x310 0x1234#32]
    | _ => false) = true := by decide +kernel
/-- V4.5, with the value drawn as 7. -/
theorem test_rdbcr : nextIs (exec (.rdbcr 20#16) { att with oracle := ⟨[], [], [], [7], 0⟩ }) (fun t =>
    t.replyOf (.caller 0) = some ⟨.ok, 7#16⟩ ∧
    io t = [.ioWrite 16 0x312 0x14#32, .ioRead 16 0x316 7#32]) = true := by decide +kernel
/-- V4.11. -/
theorem test_wrbcr_unmodelled : refusalIs (exec (.wrbcr 20#16 2#16) att) (fun r => match r with
    | .deviceUnmodelled t => io t = [.ioWrite 16 0x312 0x14#32, .ioWrite 16 0x316 2#32]
    | _ => false) = true := by decide +kernel
/-- R369: on a device that answers the other strategy, WRBCR completes with no effect (log 16). -/
theorem test_wrbcr_wrong_mode : nextIs (exec (.wrbcr 20#16 2#16) { dwio with mode := .wio }) (fun t =>
    t.replyOf (.caller 0) = some ⟨.ok, 0#16⟩ ∧ t.device = dwio.device) = true := by decide +kernel
/-- V4.8, from RUNNING. -/
theorem test_rreset : nextIs (exec .rreset { dwio with device := dev .running 0x0043#16 }) (fun t =>
    t.device.state = .stopped ∧ csr0Value t.params t.device = 0x0004#16 ∧
    io t = [.ioRead 32 0x318 0xABCD#32]) = true := by decide +kernel
/-- V4.9. -/
theorem test_no_mode : faultIs (exec (.rdcsr 0#16) State.reset) (fun f => match f with
    | .noMode r t => r.info = .command (.rdcsr 0#16) ∧ io t = []
    | _ => false) = true := by decide +kernel
/-- V5.1. -/
theorem test_attach_wio :
    nextIs (exec .attach { State.reset with oracle := ⟨[some (1, 0x00010000#32)], [], [], [0], 0⟩ }) (fun t =>
      t.lifecycle = .attached ∧ t.mode = .wio ∧ t.ib = ⟨true, 1, 0x00010000#32⟩ ∧
      io t = [.ioRead 16 0x314 0#32, .ioWrite 16 0x312 0#32, .ioRead 16 0x310 4#32,
        .call (.alloc 28 (some (1, 0x00010000#32)))]) = true := by decide +kernel
/-- V5.3: six accesses and no `alloc`; the wrong-mode draws are not 0x0004. -/
theorem test_attach_absent :
    nextIs (exec .attach { State.reset with
      params := { Params.default with deviceIoMode := .absent, wrongModeRead := .notStopped },
      oracle := ⟨[], [], [], [0, 0, 4, 0, 0], 0⟩ }) (fun t =>
      t.replyOf (.caller 0) = some ⟨.deviceNotFound, 0#16⟩ ∧ t.mode = .none ∧ t.lifecycle = .detached ∧
      (io t).length = 6) = true := by decide +kernel
/-- Program P1: OPEN, with the device's INIT handshake in the schedule. -/
theorem test_open_p1 :
    nextIs (exec (.openDev 0x563412005452#48) { att with
      sched := List.replicate 100 [.device .init],
      oracle := ⟨[some (2, 0x00020000#32), some (10, 0x00030000#32), some (11, 0x00031000#32),
        some (12, 0x00032000#32), some (13, 0x00033000#32), some (3, 0x00021000#32)], [], [], [0], 0⟩ }) (fun t =>
      t.lifecycle = .running ∧ csr0Value t.params t.device = 0x01F3#16 ∧ t.ienaShadow = true ∧
      t.bytesAt 0x10000 28 = [0, 0, 0x20, 0x20, 0x52, 0x54, 0, 0x12, 0x34, 0x56, 0, 0, 0, 0, 0, 0, 0, 0, 0, 0,
        0, 0, 2, 0, 0, 0x10, 2, 0] ∧
      t.device.cfg.rxBase = 0x00020000#32 ∧ t.device.cfg.txBase = 0x00021000#32 ∧
      t.bytesAt 0x20030 12 = [0, 0x30, 3, 0, 0xF8, 0xF9, 0, 0x80, 0, 0, 0, 0]) = true := by decide +kernel
/-- Program P5: the device never raises IDON; two I/O accesses for each of ten polls. -/
theorem test_open_times_out :
    nextIs (exec (.openDev 0x563412005452#48) { att with
      oracle := ⟨[some (2, 0x00020000#32), some (10, 0x00030000#32), some (11, 0x00031000#32),
        some (12, 0x00032000#32), some (13, 0x00033000#32), some (3, 0x00021000#32)], [], [], [0], 0⟩ }) (fun t =>
      t.replyOf (.caller 0) = some ⟨.initTimeout, 0#16⟩ ∧ t.lifecycle = .closed ∧
      csr0Value t.params t.device = 0x0004#16) = true := by decide +kernel
/-- V5.9. -/
theorem test_close : nextIs (exec .close up) (fun t =>
    t.lifecycle = .closed ∧ t.ienaShadow = false ∧ csr0Value t.params t.device = 0x0004#16 ∧
    io t = [.ioWrite 16 0x312 0#32, .ioWrite 16 0x310 4#32]) = true := by decide +kernel
/-- V5.10. -/
theorem test_detach : nextIs (exec .detach { shut with tx := TxRing.made 2 3 0x00021000#32 }) (fun t =>
    t.lifecycle = .detached ∧ t.mode = .none ∧
    io t = [.call (.free 10 0x00030000#32 1544), .call (.free 11 0x00031000#32 1544),
      .call (.free 12 0x00032000#32 1544), .call (.free 13 0x00033000#32 1544),
      .call (.free 2 0x00020000#32 64), .call (.free 3 0x00021000#32 64),
      .call (.free 1 0x00010000#32 28)]) = true := by decide +kernel
/-- V5.11. -/
theorem test_detach_live : faultIs (exec .detach { shut with device := dev .initialising 1#16 }) (fun f => match f with
    | .releaseLive r t => r.info = .ring .rx ∧ io t = []
    | _ => false) = true := by decide +kernel
/-- V7.1. -/
theorem test_ralloc_tx :
    nextIs (exec (.ralloc .tx 3) { att with oracle := ⟨[some (5, 0x00021000#32)], [], [], [], 0⟩ }) (fun t =>
      t.tx = TxRing.made 3 5 0x00021000#32 ∧ t.wordAt 0x2107C = 0#32 ∧ t.memory.length = 128) = true := by
  decide +kernel
/-- V7.4. -/
theorem test_ralloc_operand : refusalIs (exec (.ralloc .tx 10) att) (fun r => match r with
    | .operand _ => true
    | _ => false) = true := by decide +kernel
/-- V7.7, with slots 3 and 0. -/
theorem test_rfree_tx : nextIs (exec (.rfree .tx) shut) (fun t =>
    t.tx.count = 0 ∧ t.tx.alloc = false ∧ t.counters = shut.counters ∧
    io t = [.call (.unmap 0x00050000#32 60 .toDevice), .call (.releaseFrame 0x00100000#32),
      .call (.unmap 0x00051000#32 64 .toDevice), .call (.releaseFrame 0x00100001#32),
      .call (.free 3 0x00021000#32 64)]) = true := by decide +kernel
/-- V8.1. -/
theorem test_xmit : nextIs (exec (.xmit 0x00100000#32 60) up) (fun t =>
    t.tx.current = 1 ∧ t.tx.count = 1 ∧ t.wordAt 0x21000 = 0x00050000#32 ∧ t.wordAt 0x21004 = 0x8300FFC4#32 ∧
    csr0Value t.params t.device = 0x007B#16) = true := by decide +kernel
/-- V8.3 and V8.2. -/
theorem test_xmit_wraps :
    nextIs (exec (.xmit 0x00100000#32 60) { up with tx := { up.tx with current := 3, last := 3 }, ienaShadow := false })
      (fun t => t.tx.current = 0 ∧ t.tx.count = 1 ∧ t.wordAt 0x21034 = 0x8300FFC4#32 ∧
        csr0Value t.params t.device = 0x003B#16) = true := by decide +kernel
/-- V8.10. -/
theorem test_reclaim : nextIs (exec .reclaim (done1 0x0300FFC0#32 0#32)) (fun t =>
    t.tx.last = 0 ∧ t.tx.count = 1 ∧ t.counters.txPackets = 1 ∧ t.counters.txBytes = 64 ∧
    io t = [.call (.unmap 0x00051000#32 64 .toDevice), .call (.releaseFrame 0x00100001#32)]) = true := by decide +kernel
/-- V8.13. -/
theorem test_reclaim_error : nextIs (exec .reclaim (done1 0x4300FFC4#32 0x40000000#32)) (fun t =>
    t.tx.last = 0 ∧ t.counters.txErrors = 1 ∧ t.counters.txPackets = 0 ∧ t.counters.txBytes = 0) = true := by
  decide +kernel
/-- V9.4. -/
theorem test_drain : nextIs (exec .drain (got 0x0300F9F8#32 0x00000040#32)) (fun t =>
    t.rx.current = 1 ∧ t.counters.rxPackets = 1 ∧ t.counters.rxBytes = 60 ∧ t.wordAt 0x20004 = 0x8000F9F8#32 ∧
    t.wordAt 0x20008 = 0#32) = true := by decide +kernel
/-- V9.13. -/
theorem test_drain_dropped :
    nextIs (exec .drain { got 0x0300F9F8#32 0x00000040#32 with oracle := ⟨[], [], [none], [], 0⟩ }) (fun t =>
      t.rx.current = 1 ∧ t.counters.rxDropped = 1 ∧ t.counters.rxPackets = 0 ∧
      t.wordAt 0x20004 = 0x8000F9F8#32) = true := by decide +kernel
/-- V10.1. -/
theorem test_irq_idon : nextIs (exec .irq { up with device := dev .running 0x0143#16 }) (fun t =>
    t.taskPending = false ∧ t.ienaShadow = true ∧ csr0Value t.params t.device = 0x0073#16 ∧
    io t = [.ioWrite 16 0x312 0#32, .ioRead 16 0x310 0x01F3#32, .ioWrite 16 0x312 0#32, .ioWrite 16 0x310 0x01B3#32,
      .ioWrite 16 0x312 0#32, .ioRead 16 0x310 0x0033#32, .ioWrite 16 0x312 0#32, .ioWrite 16 0x310 0x0040#32]) =
    true := by decide +kernel
/-- V10.4. -/
theorem test_irq_completions : nextIs (exec .irq { up with device := dev .running 0x0643#16 }) (fun t =>
    t.taskPending = true ∧ t.ienaShadow = false ∧ csr0Value t.params t.device = 0x0033#16) = true := by decide +kernel
/-- V10.12 with one frame in flight: the drain, the reclaim, the wake, the re-enable. -/
theorem test_dtask :
    nextIs (exec .dtask { withWords (done1 0x0300FFC0#32 0#32) 0x20004 [0x0300F9F8#32, 0x40#32] with
      taskPending := true, queueStopped := true, device := dev .running 0x0003#16 }) (fun t =>
      t.counters.rxPackets = 1 ∧ t.counters.txPackets = 1 ∧ t.tx.count = 1 ∧ t.queueStopped = false ∧
      t.taskPending = false ∧ t.defBusy = false ∧ t.lockOwner = none ∧
      csr0Value t.params t.device = 0x0073#16) = true := by decide +kernel
/-- V10.13, with the block closed from the start. -/
theorem test_dtask_closed : nextIs (exec .dtask { shut with taskPending := true }) (fun t =>
    t.taskPending = false ∧ io t = []) = true := by decide +kernel
/-- The scheduled gaps: a TINT that latches between the first read and the acknowledgement (V10.10). -/
theorem test_irq_race :
    nextIs (exec .irq { withWords up 0x21000 [0x00050000#32, 0x8300FFC4#32, 0#32] with
      device := dev .running 0x0443#16, sched := [[], [], [.device (.txPoll 0#32 0#32 false)]] }) (fun t =>
      t.taskPending = true ∧ csr0Value t.params t.device = 0x0033#16 ∧
      io t = [.ioWrite 16 0x312 0#32, .ioRead 16 0x310 0x04F3#32, .ioWrite 16 0x312 0#32, .ioWrite 16 0x310 0x04B3#32,
        .ioWrite 16 0x312 0#32, .ioRead 16 0x310 0x02B3#32, .ioWrite 16 0x312 0#32, .ioWrite 16 0x310 0x02B3#32,
        .ioWrite 16 0x312 0#32, .ioRead 16 0x310 0x0033#32]) = true := by decide +kernel
/-- R150: the outcome codes. -/
theorem test_outcome_numbers :
    [OutcomeCode.ok, .queueFull, .deviceNotFound, .initTimeout].map OutcomeCode.number = [0, 1, 2, 3] := by decide
/-- R340: a refusal inside the critical section gives the lock back. -/
theorem test_refusal_releases_lock : refusalIs (exec (.wrbcr 20#16 2#16) att) (fun r => match r with
    | .deviceUnmodelled t => t.lockOwner = none
    | _ => false) = true := by decide +kernel
/-- V9.15, V8.16: outside RUNNING, DRAIN and RECLAIM leave `def_busy` 0. -/
theorem test_drain_not_running : nextIs (exec .drain shut) (fun t => t.defBusy = false ∧ io t = []) = true := by
  decide +kernel
/-- R134: what is delivered is what was copied, although the environment replaces the frame's bytes in between. -/
theorem test_deliver_copied :
    nextIs (exec .drain { withWords (got 0x0300F9F8#32 0x00000008#32) 0x00030000 [0x44332211#32] with
      sched := [[], [], [], [.hostFrame 0x00700000#32 [9]]] }) (fun t =>
      (io t).contains (.call (.deliver 0x00700000#32 [0x11, 0x22, 0x33, 0x44]))) = true := by decide +kernel

/-! ### Witnesses: for each statement a state and operands that meet its hypotheses together -/

/-- A word that spells no command, and one command at a wrong port for each port. -/
theorem witness_WrongWordRefused :
    ({ up with inbox := [.word (.command 0) 0#64] } : State).ended = false ∧
    (∃ e, decode 0#64 = .error e) ∧ (∃ i, decode 0x3000000000000000#64 = .ok i ∧ i = .irq) ∧
    (∃ i, decode 0x1000000000000000#64 = .ok i ∧ i ≠ .irq) ∧
    (∃ i, decode 0x1000000000000000#64 = .ok i ∧ i ≠ .dtask ∧ i ≠ .drain ∧ i ≠ .reclaim) :=
  ⟨by decide, ⟨.reservedOpcode, by decide⟩, ⟨.irq, by decide⟩, ⟨.attach, by decide⟩, ⟨.attach, by decide⟩⟩
theorem witness_StepRunsDecoded :
    let s : State := { up with inbox := [.word .deferredRun 0x3100000000000000#64], taskPending := true }
    s.ended = false ∧ decode 0x3100000000000000#64 = .ok .dtask ∧ Instr.dtask.wf = true ∧
    Port.deferredRun.accepts .dtask = true ∧ s.isIdle Port.deferredRun.agent = true ∧ s.taskPending = true := by
  decide
/-- The commands of a caller reach it through its port. -/
theorem witness_StepRunsDecoded_caller :
    up.ended = false ∧ decode 0x2000003C00100000#64 = .ok (.xmit 0x00100000#32 60) ∧
    (Port.command 1).accepts (.xmit 0x00100000#32 60) = true ∧ up.isIdle (Port.command 1).agent = true := by decide
theorem witness_DecodeOfEncode : (Instr.xmit 0xFFFFFFFF#32 4095).wf = true ∧ (Instr.ralloc .tx 15).wf = true := by
  decide
theorem witness_EndedRunStays :
    ({ up with faultRecord := some ⟨.noMode, .ring .rx, .irq, none⟩ } : State).faultRecord.isSome = true ∧
    ({ up with refusalMark := some .encoding } : State).faultRecord = none := by decide
theorem witness_ResetPortResets : answers up.params .wio = true ∧ answers dwio.params .dwio = true := by decide
theorem witness_ByteCountEncoding :
    (1 ≤ 1 ∧ 1 ≤ 4095 ∧ 0xABCFFFFF#32 &&& 0x00000FFF#32 = bcnt16 1 &&& 0x00000FFF#32) ∧
    (1 ≤ 4095 ∧ 4095 ≤ 4095 ∧ 0x0000F001#32 &&& 0x00000FFF#32 = bcnt16 4095 &&& 0x00000FFF#32) := by decide
theorem witness_Csr0WriteEffect : (0x01B3#16).getLsbD 2 = false ∧ (0xFFFB#16).getLsbD 2 = false := by decide
theorem witness_StopHasPriority :
    (0x0446#16).getLsbD 2 = true ∧ ({ up with device := csr0Write up.device 0x0446#16 } : State).device =
      csr0Write up.device 0x0446#16 := by decide
theorem witness_RdcsrReads : up.ready up.caller ∧ up.answeredBy .wio ∧ dwio.ready dwio.caller ∧
    dwio.answeredBy .dwio := by
  unfold State.ready State.answeredBy
  decide
theorem witness_WrcsrWrites : up.ready up.caller ∧ up.answeredBy .wio ∧
    (2#16 = 0#16 ∨ 2#16 = 1#16 ∨ 2#16 = 2#16) := by
  unfold State.ready State.answeredBy
  decide
theorem witness_UnmodelledWriteRefused : up.ready up.caller ∧ up.answeredBy .wio ∧
    3#16 ≠ 0#16 ∧ 3#16 ≠ 1#16 ∧ 3#16 ≠ 2#16 := by
  unfold State.ready State.answeredBy
  decide
theorem witness_RdbcrReads : att.ready att.caller ∧ att.answeredBy .wio := by
  unfold State.ready State.answeredBy
  decide
theorem witness_WrongModeNoEffect :
    let s : State := { dwio with mode := .wio }
    s.ready s.caller ∧ s.mode.strategy = some .wio ∧ answers s.params .wio = false ∧
    s.params.wrongModeRead = .notStopped ∧ (∃ idx val, Instr.wrbcr 20#16 2#16 = .wrbcr idx val) := by
  refine ⟨?_, by decide, by decide, by decide, ⟨_, _, rfl⟩⟩
  unfold State.ready
  decide
theorem witness_RresetResets : up.ready up.caller ∧ up.answeredBy .wio := by
  unfold State.ready State.answeredBy
  decide
theorem witness_RawNeedsMode : State.reset.ready State.reset.caller ∧ State.reset.mode = .none ∧
    (∃ idx, Instr.rdcsr 0#16 = .rdcsr idx) := by
  refine ⟨?_, by decide, ⟨_, rfl⟩⟩
  unfold State.ready
  decide
/-- For each kind of device. -/
theorem witness_AttachProbes :
    ∀ m ∈ [DeviceIoMode.wio, .dwio, .absent],
      let s : State := { State.reset with
        params := { Params.default with deviceIoMode := m, wrongModeRead := .notStopped },
        oracle := ⟨[some (1, 0xFFFFFFE4#32)], [], [], [], 0⟩ }
      s.ready s.caller ∧ s.lifecycle = .detached ∧ s.oracle.allocs = [some (1, 0xFFFFFFE4#32)] ∧
      s.fresh [((0xFFFFFFE4#32).toNat, 28)] ∧ (0xFFFFFFE4#32).toNat % 4 = 0 := by
  unfold State.ready State.fresh
  decide

/-- The answers of program P1's OPEN. -/
def opening (base : State) (n : Nat) : State :=
  { base with
    sched := List.replicate n [.device .init],
    oracle := ⟨some (2, 0x00020000#32) :: answersOf bufs ++ some (3, 0x00021000#32) :: [], [], [], [0], 0⟩ }

theorem witness_OpenBringsUp :
    let s := opening att (2 ^ 20)
    s.isIdle s.caller = true ∧ s.lockOwner = none ∧ s.sched = List.replicate (2 ^ 20) [.device .init] ∧
    s.answeredBy .wio ∧ s.taskPending = false ∧ s.defBusy = false ∧ s.device.state ≠ .initialising ∧
    (s.lifecycle = .attached ∨ s.lifecycle = .closed) ∧ s.sized ∧
    s.ib.alloc = true ∧ s.ib.phys.toNat + 28 ≤ memTop ∧ s.params.rxLenExp ≤ 15 ∧ s.params.txLenExp ≤ 15 ∧
    1 ≤ s.params.initPollBudget ∧ bufs.length = ringSize s.params.rxLenExp ∧
    s.oracle.allocs = some (2, 0x00020000#32) :: answersOf bufs ++ some (3, 0x00021000#32) :: [] ∧
    s.released.fresh (((0x00020000#32).toNat, 16 * ringSize s.params.rxLenExp) ::
      ((0x00021000#32).toNat, 16 * ringSize s.params.txLenExp) :: bufferRegions s.params.rxBufSize bufs) ∧
    (0x00020000#32).toNat % 16 = 0 ∧ (0x00021000#32).toNat % 16 = 0 := by
  unfold State.answeredBy State.sized State.fresh
  refine ⟨by decide, rfl, rfl, by decide, rfl, rfl, ?_⟩
  decide
/-- CLOSED, with the rings of an earlier OPEN still there (V5.13). -/
theorem witness_OpenTimesOut :
    let s := opening shut 0
    s.ready s.caller ∧ s.answeredBy .wio ∧ s.taskPending = false ∧ s.defBusy = false ∧
    (s.lifecycle = .attached ∨ s.lifecycle = .closed) ∧ s.sized ∧
    s.ib.alloc = true ∧ s.ib.phys.toNat + 28 ≤ memTop ∧ s.params.rxLenExp ≤ 15 ∧ s.params.txLenExp ≤ 15 ∧
    bufs.length = ringSize s.params.rxLenExp ∧
    s.oracle.allocs = some (2, 0x00020000#32) :: answersOf bufs ++ some (3, 0x00021000#32) :: [] ∧
    s.released.fresh (((0x00020000#32).toNat, 16 * ringSize s.params.rxLenExp) ::
      ((0x00021000#32).toNat, 16 * ringSize s.params.txLenExp) :: bufferRegions s.params.rxBufSize bufs) ∧
    (0x00020000#32).toNat % 16 = 0 ∧ (0x00021000#32).toNat % 16 = 0 := by
  unfold State.ready State.answeredBy State.sized State.fresh
  decide
theorem witness_CloseStops : up.ready up.caller ∧ up.answeredBy .wio ∧ up.lifecycle = .running := by
  unfold State.ready State.answeredBy
  decide
theorem witness_NotRunningNoEffect : shut.lifecycle ≠ .running ∧ shut.ready shut.caller ∧ shut.ready .irq ∧
    shut.ready .deferred ∧ (1 ≤ 4095 ∧ 4095 ≤ shut.params.maxTxLen) ∧ shut.isIdle .deferred = true ∧
    shut.sched = [] := by
  unfold State.ready
  decide
/-- A stopped device with both rings, and a running one with none (started by WRCSR). -/
theorem witness_DetachReleases :
    (shut.ready shut.caller ∧ shut.taskPending = false ∧ shut.defBusy = false ∧
      (shut.lifecycle = .attached ∨ shut.lifecycle = .closed) ∧ shut.sized ∧ shut.device.state = .stopped) ∧
    let s : State := { att with device := dev .running 0x0043#16 }
    s.ready s.caller ∧ s.taskPending = false ∧ s.defBusy = false ∧
      (s.lifecycle = .attached ∨ s.lifecycle = .closed) ∧ s.sized ∧ s.rx.alloc = false ∧ s.tx.alloc = false := by
  unfold State.ready State.sized
  decide
/-- Each of the four refused forms. -/
theorem witness_LifecycleRefused :
    (att.ready att.caller ∧ att.taskPending = false ∧ att.defBusy = false ∧ att.lifecycle ≠ .detached) ∧
    (up.ready up.caller ∧ up.taskPending = false ∧ up.defBusy = false ∧ up.lifecycle ≠ .attached ∧
      up.lifecycle ≠ .closed) ∧
    att.ringAlloc .rx = false ∧
    (shut.ready shut.caller ∧ 1 ≤ 9 ∧ 9 ≤ shut.params.maxLenExp ∧ shut.ringAlloc .tx = true) := by
  unfold State.ready
  decide
/-- A lock that another agent holds. -/
theorem witness_OperandRefused_locked :
    let s : State := { att with lockOwner := some .deferred }
    s.isIdle s.caller = true ∧ s.sched = [] ∧ s.lockOwner ≠ some s.caller := by decide
/-- Lengths 0 and 4096, exponents 0 and 10, and a failed allocation at exponents 1 and 9. -/
theorem witness_OperandRefused :
    (let s : State := { att with oracle := ⟨[none], [], [], [], 0⟩ }
     s.isIdle s.caller = true ∧ s.sched = [] ∧ (1 ≤ 1 ∧ 1 ≤ s.params.maxLenExp) ∧ (1 ≤ 9 ∧ 9 ≤ s.params.maxLenExp) ∧
     s.lockOwner = none ∧ (s.lifecycle = .attached ∨ s.lifecycle = .closed) ∧ s.ringAlloc .rx = false ∧
     s.oracle.allocs = none :: []) ∧
    att.isIdle att.caller = true ∧ att.sched = [] ∧
    (0 < 1 ∨ att.params.maxTxLen < 0) ∧ (4096 < 1 ∨ att.params.maxTxLen < 4096) ∧
    (0 < 1 ∨ att.params.maxLenExp < 0) ∧ (10 < 1 ∨ att.params.maxLenExp < 10) ∧ att.lockOwner = none ∧
    (att.lifecycle = .attached ∨ att.lifecycle = .closed) := by decide
theorem witness_RallocTx :
    let s : State := { att with oracle := ⟨[some (5, 0xFFFFE000#32)], [], [], [], 0⟩ }
    s.ready s.caller ∧ (s.lifecycle = .attached ∨ s.lifecycle = .closed) ∧ 1 ≤ 9 ∧ 9 ≤ s.params.maxLenExp ∧
    9 ≤ 15 ∧ s.tx.alloc = false ∧ s.oracle.allocs = [some (5, 0xFFFFE000#32)] ∧
    s.fresh [((0xFFFFE000#32).toNat, 16 * ringSize 9)] ∧ (0xFFFFE000#32).toNat % 16 = 0 := by
  unfold State.ready State.fresh
  decide
theorem witness_RallocRx :
    let s : State := { att with oracle := ⟨some (2, 0x00020000#32) :: answersOf bufs ++ [], [], [], [], 0⟩ }
    s.ready s.caller ∧ (s.lifecycle = .attached ∨ s.lifecycle = .closed) ∧ 1 ≤ 2 ∧ 2 ≤ s.params.maxLenExp ∧
    2 ≤ 15 ∧ s.rx.alloc = false ∧ bufs.length = ringSize 2 ∧
    s.oracle.allocs = some (2, 0x00020000#32) :: answersOf bufs ++ [] ∧
    s.fresh (((0x00020000#32).toNat, 16 * ringSize 2) :: bufferRegions s.params.rxBufSize bufs) ∧
    (0x00020000#32).toNat % 16 = 0 := by
  unfold State.ready State.fresh
  decide
theorem witness_RfreeReleases : shut.ready shut.caller ∧ shut.taskPending = false ∧ shut.defBusy = false ∧
    (shut.lifecycle = .attached ∨ shut.lifecycle = .closed) ∧ shut.sized ∧ shut.device.state = .stopped ∧
    shut.ringAlloc .tx = true ∧ shut.ringAlloc .rx = true := by
  unfold State.ready State.sized
  decide
/-- With both rings, and with the TX ring alone; for OPEN, on a device that answers the other strategy. -/
theorem witness_ReleaseLiveFaults :
    let s : State := { shut with
      device := dev .initialising 1#16, params := { Params.default with deviceIoMode := .dwio } }
    let u : State := { s with rx := { s.rx with alloc := false } }
    (s.ready s.caller ∧ s.taskPending = false ∧ s.defBusy = false ∧
      (s.lifecycle = .attached ∨ s.lifecycle = .closed) ∧ s.device.state ≠ .stopped ∧ s.ringAlloc .rx = true ∧
      s.mode.strategy = some .wio ∧ answers s.params .wio = false) ∧
    (u.ready u.caller ∧ u.ringAlloc .tx = true ∧ u.ringAlloc .rx = false ∧ u.device.state ≠ .stopped) := by
  unfold State.ready
  decide
/-- The last free slot but one, length 4095, with the frame's bytes known. -/
theorem witness_XmitPublishes :
    let s : State := { up with
      hostFrames := [⟨0x00100000#32, [1, 2, 3]⟩],
      tx := { up.tx with current := 3, last := 0, count := 3 } }
    s.ready s.caller ∧ s.answeredBy .wio ∧ s.lifecycle = .running ∧ 1 ≤ 4095 ∧ 4095 ≤ s.params.maxTxLen ∧
    s.tx.alloc = true ∧ s.tx.count < ringSize s.tx.exp ∧ s.tx.current < ringSize s.tx.exp ∧
    ringPlaced s.tx.base s.tx.exp ∧ owned (s.wordAt (slotAddr s.tx.base s.tx.current 1)) = false ∧
    s.oracle.maps = [0x00050000#32] ∧ s.fresh [((0x00050000#32).toNat, 4095)] := by
  unfold State.ready State.answeredBy ringPlaced State.fresh
  decide +kernel
theorem witness_XmitFullRing :
    let s : State := { up with tx := { up.tx with count := 4 } }
    s.ready s.caller ∧ s.lifecycle = .running ∧ 1 ≤ 1 ∧ 1 ≤ s.params.maxTxLen ∧
    s.tx.count = ringSize s.tx.exp := by
  unfold State.ready
  decide
/-- A slot the device still owns although the ring has room. -/
theorem witness_XmitOwnedSlotFaults :
    let s := withWords up 0x21004 [0x8300FFC4#32]
    s.ready s.caller ∧ s.lifecycle = .running ∧ 1 ≤ 60 ∧ 60 ≤ s.params.maxTxLen ∧
    s.tx.alloc = true ∧ s.tx.count < ringSize s.tx.exp ∧ s.tx.current < ringSize s.tx.exp ∧
    ringPlaced s.tx.base s.tx.exp ∧ owned (s.wordAt (slotAddr s.tx.base s.tx.current 1)) = true ∧
    s.oracle.maps = [0x00050000#32] ∧ s.fresh [((0x00050000#32).toNat, 60)] := by
  unfold State.ready ringPlaced State.fresh
  decide +kernel
theorem witness_ReclaimCompleted :
    let s := done1 0x0300FFC0#32 0#32
    s.ready .deferred ∧ s.lifecycle = .running ∧ s.tx.inv ∧ s.sized ∧ ringPlaced s.tx.base s.tx.exp := by
  unfold State.ready TxRing.inv TxRing.cursorsOk TxRing.mapOk State.sized ringPlaced
  decide +kernel
theorem witness_TxRingInvariantKept :
    (∃ t, exec .reclaim (done1 0x0300FFC0#32 0#32) = .next t) ∧
    (∃ t, exec (.xmit 0x00100000#32 60) up = .next t) ∧
    up.sched = [] ∧ up.lockOwner = none ∧ up.sized ∧ up.tx.inv ∧ ringPlaced up.tx.base up.tx.exp := by
  refine ⟨?_, ?_, ?_⟩
  · have h : nextIs (exec .reclaim (done1 0x0300FFC0#32 0#32)) (fun _ => true) = true := by decide +kernel
    revert h
    cases exec .reclaim (done1 0x0300FFC0#32 0#32) <;> simp [nextIs]
  · have h : nextIs (exec (.xmit 0x00100000#32 60) up) (fun _ => true) = true := by decide +kernel
    revert h
    cases exec (.xmit 0x00100000#32 60) up <;> simp [nextIs]
  · unfold TxRing.inv TxRing.cursorsOk TxRing.mapOk State.sized ringPlaced
    decide +kernel
theorem witness_DrainEmptyRing : up.isIdle .deferred = true ∧ up.sched = [] ∧ up.lifecycle = .running ∧
    up.rx.current < ringSize up.rx.exp ∧ ringPlaced up.rx.base up.rx.exp ∧
    owned (up.wordAt (slotAddr up.rx.base up.rx.current 1)) = true := by
  unfold ringPlaced
  decide +kernel
theorem witness_DrainCompleted :
    let s := got 0x0300F9F8#32 0x00000040#32
    s.isIdle .deferred = true ∧ s.sched = [] ∧ s.lifecycle = .running ∧ s.rx.inv ∧ s.sized ∧
    ringPlaced s.rx.base s.rx.exp ∧ s.buffersPlaced := by
  unfold RxRing.inv State.sized ringPlaced State.buffersPlaced
  decide +kernel
theorem witness_IrqServices :
    let s : State := { up with device := dev .running 0x3643#16 }
    s.ready .irq ∧ s.answeredBy .wio ∧ s.lifecycle = .running ∧ s.device.statusOk ∧
    s.params.ackClearMask &&& 0x7F00#16 = 0#16 ∧ s.params.ackClearMask &&& 0x0040#16 = 0x0040#16 := by
  unfold State.ready State.answeredBy Device.statusOk
  decide
theorem witness_DtaskNotRunning : shut.ready .deferred ∧ shut.lifecycle ≠ .running := by
  unfold State.ready
  decide
theorem witness_DtaskRuns :
    let s := withWords (done1 0x0300FFC0#32 0#32) 0x20004 [0x0300F9F8#32, 0x40#32]
    s.ready .deferred ∧ s.answeredBy .wio ∧ s.lifecycle = .running ∧ s.sized ∧
    s.rx.inv ∧ ringPlaced s.rx.base s.rx.exp ∧ s.buffersPlaced ∧
    s.tx.inv ∧ ringPlaced s.tx.base s.tx.exp ∧
    disjointRegions s.rx.base.toNat (16 * ringSize s.rx.exp) s.tx.base.toNat (16 * ringSize s.tx.exp) = true := by
  unfold State.ready State.answeredBy State.sized RxRing.inv TxRing.inv TxRing.cursorsOk TxRing.mapOk ringPlaced
    State.buffersPlaced
  decide +kernel
theorem witness_LockHolds :
    let s : State := { up with lockOwner := some .deferred }
    s.isIdle s.caller = true ∧ s.sched = [] ∧ s.lockOwner = some .deferred ∧ 1 ≤ 1 ∧ 1 ≤ s.params.maxTxLen := by
  decide
theorem witness_TeardownHolds :
    let s : State := { shut with taskPending := true }
    let u : State := { shut with defBusy := true }
    s.ready s.caller ∧ s.taskPending = true ∧ u.ready u.caller ∧ u.defBusy = true := by
  unfold State.ready
  decide
theorem witness_QuiescentDevice : shut.device.state = .stopped ∧
    ({ shut with device := dev .initialised 0x0101#16 } : State).device.state = .initialised ∧
    ({ shut with device := dev .initialising 1#16 } : State).device.state = .initialising ∧
    DeviceStep.cerr ≠ .init := by decide
theorem witness_DeviceInitLatches :
    let s : State := { shut with device := dev .initialising 1#16 }
    s.device.state = .initialising ∧ (s.device.csr2 ++ s.device.csr1 : Word).toNat + 28 ≤ memTop ∧
    s.splits (s.device.csr2 ++ s.device.csr1 : Word).toNat 28 = false := by decide
theorem witness_DeviceTransmits :
    let s := withWords up 0x21000 [0x00050000#32, 0x8300FFC4#32, 0#32]
    let c := s.device.cfg
    s.device.state = .running ∧ s.device.devTx < 2 ^ c.txExp.toNat ∧ ringPlaced c.txBase c.txExp.toNat ∧
    owned (s.wordAt (slotAddr c.txBase s.device.devTx 1)) = true ∧
    (s.wordAt (slotAddr c.txBase s.device.devTx 1)).getLsbD 25 = true ∧
    (s.wordAt (slotAddr c.txBase s.device.devTx 1)).getLsbD 24 = true ∧
    (s.wordAt (slotAddr c.txBase s.device.devTx 0)).toNat + bcntLen (s.wordAt (slotAddr c.txBase s.device.devTx 1)) ≤
      memTop ∧
    s.splits (s.wordAt (slotAddr c.txBase s.device.devTx 0)).toNat
      (bcntLen (s.wordAt (slotAddr c.txBase s.device.devTx 1))) = false := by
  unfold ringPlaced
  decide +kernel
/-- The longest frame that fits: 1540 bytes and its check sequence in a buffer of 1544. -/
theorem witness_DeviceReceives :
    let frame : List Byte := List.replicate 1540 0
    let c := up.device.cfg
    let b := (up.wordAt (slotAddr c.rxBase up.device.devRx 0)).toNat
    up.device.state = .running ∧ 1 ≤ frame.length ∧
    frame.length + 4 ≤ bcntLen (up.wordAt (slotAddr c.rxBase up.device.devRx 1)) ∧
    up.device.devRx < 2 ^ c.rxExp.toNat ∧ ringPlaced c.rxBase c.rxExp.toNat ∧
    owned (up.wordAt (slotAddr c.rxBase up.device.devRx 1)) = true ∧ b + (frame.length + 4) ≤ memTop ∧
    up.splits b (frame.length + 4) = false ∧
    disjointRegions b (frame.length + 4) (slotAddr c.rxBase up.device.devRx 0) 16 = true := by
  unfold ringPlaced
  decide +kernel
theorem witness_DeviceMisses :
    let s := got 0x0300F9F8#32 0x00000040#32
    s.device.state = .running ∧ 1 ≤ ([0] : List Byte).length ∧
    ringPlaced s.device.cfg.rxBase s.device.cfg.rxExp.toNat ∧ s.device.devRx < 2 ^ s.device.cfg.rxExp.toNat ∧
    owned (s.wordAt (slotAddr s.device.cfg.rxBase s.device.devRx 1)) = false := by
  unfold ringPlaced
  decide +kernel
theorem witness_DeviceOtherSteps :
    let c := up.device.cfg
    up.device.state = .running ∧ up.device.devTx < 2 ^ c.txExp.toNat ∧ ringPlaced c.txBase c.txExp.toNat ∧
    owned (up.wordAt (slotAddr c.txBase up.device.devTx 1)) = false ∧
    (∃ t, deviceStep .cerr up = .ok t) := by
  exact ⟨by decide, by decide, by unfold ringPlaced; decide, by decide +kernel, ⟨_, rfl⟩⟩
/-- One byte more than fits: 1541 bytes and the check sequence in a buffer of 1544. -/
theorem witness_DeviceOversize :
    let c := up.device.cfg
    let n := 2 ^ c.rxExp.toNat
    let slot := fun j => (up.device.devRx + j) % n
    let w1 := fun j => up.wordAt (slotAddr c.rxBase (slot j) 1)
    let buf := fun j => (up.wordAt (slotAddr c.rxBase (slot j) 0)).toNat
    up.device.state = .running ∧ 1 ≤ (List.replicate 1541 (0 : Byte)).length ∧
    bcntLen (w1 0) < (List.replicate 1541 (0 : Byte)).length + 4 ∧
    up.device.devRx < n ∧ ringPlaced c.rxBase c.rxExp.toNat ∧ owned (w1 0) = true ∧
    (∀ j, j < n → buf j + bcntLen (w1 j) ≤ memTop ∧
      disjointRegions (buf j) (bcntLen (w1 j)) c.rxBase.toNat (16 * n) = true) ∧
    ∀ j, j < n → ∀ a m, buf j ≤ a → a + m ≤ buf j + bcntLen (w1 j) → up.splits a m = false := by
  refine ⟨by decide, by decide +kernel, by decide +kernel, by decide, by unfold ringPlaced; decide, by decide +kernel,
    by decide +kernel, ?_⟩
  intro j hj a m h1 h2
  have hb : ∀ j, j < 4 → 0x30000 ≤
      (up.wordAt (slotAddr up.device.cfg.rxBase ((up.device.devRx + j) % 4) 0)).toNat := by decide +kernel
  have h : 0x30000 ≤ a := (hb j hj).trans h1
  have cuts : ∀ base ∈ [0x00020000#32, 0x00021000#32], ∀ x, 0x30000 ≤ x → cutsWord base 2 x = false := by
    intro base hbase x hx
    have hlt : base.toNat + 64 ≤ 0x30000 := by
      simp only [List.mem_cons, List.not_mem_nil, or_false] at hbase
      rcases hbase with rfl | rfl <;> decide
    have hx' : decide (x < base.toNat + 16 * ringSize 2) = false := by
      have h4 : ringSize 2 = 4 := by decide
      rw [h4, decide_eq_false_iff_not]
      omega
    simp only [cutsWord, hx', Bool.and_false, Bool.false_and]
  have e1 : up.tx.base = 0x00021000#32 ∧ up.tx.exp = 2 := ⟨rfl, rfl⟩
  have e2 : up.rx.base = 0x00020000#32 ∧ up.rx.exp = 2 := ⟨rfl, rfl⟩
  simp [State.splits, e1, e2, cuts _ _ a h, cuts _ _ (a + m) (by omega)]
theorem witness_CausesStayLatched :
    let s : State := { up with device := dev .running 0x4143#16 }
    (∃ t, deviceStep .cerr s = .ok t) ∧ s.device.latches.getLsbD 8 = true ∧ s.device.latches.getLsbD 14 = true ∧
    (0xFEFB#16).getLsbD 2 = false ∧ (0x0004#16).getLsbD 2 = true ∧ answers s.params .wio = true :=
  ⟨⟨_, rfl⟩, by decide, by decide, by decide, by decide, by decide⟩
/-- The accesses that leave a cause alone: a write of CSR1, a write on the mode the device does not answer, its RESET. -/
theorem witness_CausesStayLatched_accesses :
    let s : State := { up with device := { dev .running 0x4143#16 with rap := 1#16 } }
    s.device.rap ≠ 0#16 ∧ (∃ t, writeData .wio .csr 5#16 s = .ok t) ∧ (∃ t, writeData .dwio .bcr 5#16 s = .ok t) ∧
    answers s.params .dwio = false ∧ (dev .running 0x4143#16).rap = 0#16 :=
  ⟨by decide, ⟨_, rfl⟩, ⟨_, rfl⟩, by decide, by decide⟩
theorem witness_MisalignedAccessFaults :
    slotAddr (({ up with tx := { up.tx with base := 0x00021002#32 } } : State).ringBase .tx) 0 0 % 4 ≠ 0 := by decide
/-- A step of a machine with work to do: the invariant holds before it, and it answers a next state. -/
theorem witness_InvKeptByEveryStep :
    let s := State.reset.withFetchWord 64 0x2000003C00100000
    Inv s ∧ ∃ t, step s = .next t := by
  refine ⟨⟨by decide, ?_, ?_, ?_, ?_⟩, ?_⟩
  · unfold Memory.inSpace
    decide
  · unfold Device.statusOk
    decide
  · unfold Device.cursorsOk
    decide
  · unfold Counters.below
    decide
  · have h : nextIs (step (State.reset.withFetchWord 64 0x2000003C00100000)) (fun _ => true) = true := by decide
    revert h
    cases step (State.reset.withFetchWord 64 0x2000003C00100000) <;> simp [nextIs]
/-- R442: a launch whose first word is a caller's ATTACH, an IRQ word behind it. -/
theorem witness_Launch :
    Launch { State.reset with inbox := [.word (.command 0) 0x1000000000000000#64, .word .interrupt 0x3000000000000000#64] } :=
  ⟨rfl, by decide, by decide, ⟨0, _, _, rfl, by decide⟩⟩
theorem witness_HistoryOnlyGrows : ∃ t, step (State.reset.withFetchWord 64 0x3000000000000000) = .next t := by
  have h : nextIs (step (State.reset.withFetchWord 64 0x3000000000000000)) (fun _ => true) = true := by decide
  revert h
  cases step (State.reset.withFetchWord 64 0x3000000000000000) <;> simp [nextIs]
theorem witness_ModeOnlyByAttachDetach :
    (∃ t, step (State.reset.withFetchWord 64 0x3000000000000000) = .next t) ∧
    shut.sched = [] ∧ Instr.close ≠ .attach ∧ Instr.close ≠ .detach ∧ ∃ t, exec .close shut = .next t := by
  refine ⟨witness_HistoryOnlyGrows, by decide, by decide, by decide, ?_⟩
  have h : nextIs (exec .close shut) (fun _ => true) = true := by decide +kernel
  revert h
  cases exec .close shut <;> simp [nextIs]

/-! ### Device steps: V6.6, V3.11 -/

theorem test_device_init : okIs (deviceStep .init { att with device := dev .initialising 1#16 }) (fun t =>
    csr0Value t.params t.device = 0x0181#16) = true := by decide +kernel
theorem test_device_tx :
    okIs (deviceStep (.txPoll 0x40000000#32 0#32 false) (withWords up 0x21000 [0x00050000#32, 0x8300FFC4#32, 0#32]))
      (fun t => t.wordAt 0x21004 = 0x4300FFC4#32 ∧ csr0Value t.params t.device = 0x02F3#16) = true := by decide +kernel

end Sys2Proof.Tests
end

section
/-! SUPPORT. The end of a run (00_scope.md R23) and the holds of a caller's command (45_interrupt.md R340,
42_ring.md R247). -/

namespace Sys2Proof.Machine

/-! ### A run that has ended -/

theorem step_of_fault {s : State} {r : FaultRecord} (h : s.faultRecord = some r) : step s = .fault (Fault.of r s) := by
  simp [step, State.ended, State.endOutcome, h]

theorem step_of_refusal {s : State} {r : RefusalReason} (hf : s.faultRecord = none) (h : s.refusalMark = some r) :
    step s = .refused (Refusal.of r s) := by
  simp [step, State.ended, State.endOutcome, hf, h]

/-- Settles O7: an ended state is the only case of `step`, and `endOutcome` reads the fault record first. -/
theorem endedRunStays : Obligations.EndedRunStays :=
  fun _ => ⟨fun _ h => step_of_fault h, fun _ hf h => step_of_refusal hf h⟩

/-! ### A command that holds at its `acquire` -/

/-- The commands a command port takes are run by the caller whose word it is. -/
theorem exec_of_caller {i : Instr} {k : Nat} (h : (Port.command k).accepts i = true) (s : State) :
    exec i s = runCommand s.caller i s := by
  cases i with
  | reclaim | drain | irq | dtask => cases h
  | _ => rfl

/-- The commands a command port takes start with their `acquire`. -/
theorem script_of_caller {i : Instr} {k : Nat} (h : (Port.command k).accepts i = true) : script i = [.acquire] := by
  cases i with
  | reclaim | drain | irq | dtask => cases h
  | _ => rfl

theorem not_acquirable_of_locked {i : Instr} {s : State} {b : Agent} (h : s.lockOwner = some b) :
    acquirable i s = false := by
  simp [acquirable, State.lockFree, h]

/-- R247. -/
theorem not_acquirable_of_teardown {i : Instr} {s : State} (ht : teardown i = true)
    (h : s.taskPending = true ∨ s.defBusy = true) : acquirable i s = false := by
  rcases h with h | h <;> simp [acquirable, State.deferredQuiet, ht, h]

/-- R16 `hold until`: an agent at an `acquire` whose predicate is false has no enabled step. -/
theorem not_enabled_of_hold {a : Agent} {i : Instr} {rest : List Prim} {s : State}
    (ha : s.activity a = some ⟨i, .acquire :: rest⟩) (hw : acquirable i s = false)
    (hop : operandOk s.params i = true) : enabled a s = false := by
  have hset : settle settleDepth a i (.acquire :: rest) s = .ok (s, .acquire :: rest) := rfl
  simp [enabled, ha, hset, passes, hw, hop]

/-- A command whose `acquire` holds, with nothing else scheduled, is issued and stays in mid-command. -/
theorem runCommand_of_hold {a : Agent} {i : Instr} {s : State} (hi : s.isIdle a = true) (hs : s.sched = [])
    (hscript : script i = [.acquire]) (hw : acquirable i s = false) (hop : operandOk s.params i = true) :
    runCommand a i s = .next (issue a i s) := by
  have ha : (issue a i s).activity a = some ⟨i, [.acquire]⟩ := by
    rw [← hscript]
    exact activity_setActivity (s := s) _
  have hrest : atRest a (issue a i s) = true := by
    have hen : enabled a (issue a i s) = false := not_enabled_of_hold ha hw hop
    have hsched : (issue a i s).sched = [] := hs
    simp [atRest, hen, hsched]
  simp only [runCommand, hi, if_true]
  exact runAgent_rest hrest

/-- A caller's command whose `acquire` holds, as an update of the state before. -/
theorem exec_of_hold {i : Instr} {k : Nat} {s : State} (hc : (Port.command k).accepts i = true)
    (hi : s.isIdle s.caller = true) (hs : s.sched = []) (hw : acquirable i s = false)
    (hop : operandOk s.params i = true) :
    exec i s = .next { s with
      tasks := (s.caller, ⟨i, [.acquire]⟩) :: s.tasks.filter (fun y => y.1 != s.caller),
      history := s.traced [.issued s.caller i] } := by
  rw [exec_of_caller hc, runCommand_of_hold hi hs (script_of_caller hc) hw hop, issue, script_of_caller hc]
  rfl

/-- Settles O45: with the lock held no command is acquirable, so the caller rests at its `acquire`. -/
theorem lockHolds : Obligations.LockHolds := by
  intro s i b hi hs hlock hcmd
  have hcaller : (Port.command s.issuer).accepts i = true ∧ operandOk s.params i = true := by
    rcases hcmd with ⟨_, rfl⟩ | ⟨_, _, rfl⟩ | ⟨_, rfl⟩ | ⟨_, _, rfl⟩ | rfl | rfl | ⟨_, rfl⟩ | rfl | rfl | ⟨_, _, rfl⟩ |
      ⟨_, rfl⟩ | ⟨_, len, rfl, hlen⟩
    on_goal 12 => exact ⟨rfl, decide_eq_true hlen⟩
    all_goals exact ⟨rfl, rfl⟩
  obtain ⟨hport, hop⟩ := hcaller
  exact exec_of_hold hport hi hs (not_acquirable_of_locked hlock) hop

/-- Settles O46: the teardown commands are not acquirable before the deferred agent is quiet. -/
theorem teardownHolds : Obligations.TeardownHolds := by
  intro s i hready hbusy hcmd
  obtain ⟨hi, -, hs⟩ := hready
  have hcaller : (Port.command s.issuer).accepts i = true ∧ operandOk s.params i = true ∧ teardown i = true := by
    rcases hcmd with ⟨_, rfl⟩ | rfl | ⟨_, rfl⟩ <;> exact ⟨rfl, rfl, rfl⟩
  obtain ⟨hport, hop, htear⟩ := hcaller
  exact exec_of_hold hport hi hs (not_acquirable_of_teardown htear hbusy) hop

end Sys2Proof.Machine
end

section
/-! SUPPORT. What every transition leaves of the past: the parameters (00_scope.md R13), the events recorded so far
(R24), and `mode`, but where a primitive may set it (10_state.md R32). -/

namespace Sys2Proof.Machine

/-- The primitive sets `mode`, or a command that does so goes on from it: R200's probe of a status word, R230's last
update, and the `acquire` of ATTACH and DETACH. -/
def Prim.touchesMode (i : Instr) : Prim → Bool
  | .acquire => i == .attach || i == .detach
  | .dataGet _ _ (.probe _) => true
  | .quiet .detached => true
  | _ => false

/-- No primitive of the row touches `mode`. -/
def Calm (i : Instr) (ps : List Prim) : Prop := ∀ p ∈ ps, p.touchesMode i = false

section Calm

variable {i : Instr} {p : Prim} {ps qs : List Prim}

@[simp] theorem calm_nil : Calm i [] := fun _ h => nomatch h

@[simp] theorem calm_cons : Calm i (p :: ps) ↔ p.touchesMode i = false ∧ Calm i ps := List.forall_mem_cons

@[simp] theorem calm_append : Calm i (ps ++ qs) ↔ Calm i ps ∧ Calm i qs := List.forall_mem_append

@[simp] theorem calm_map {α : Type} {f : α → Prim} {l : List α} :
    Calm i (l.map f) ↔ ∀ x ∈ l, (f x).touchesMode i = false := List.forall_mem_map

@[simp] theorem calm_flatMap {α : Type} {f : α → List Prim} {l : List α} :
    Calm i (l.flatMap f) ↔ ∀ x ∈ l, Calm i (f x) := List.forall_mem_flatMap

@[simp] theorem calm_replicate {n : Nat} : Calm i (List.replicate n p) ↔ n = 0 ∨ p.touchesMode i = false := by
  simp [Calm, List.mem_replicate, or_iff_not_imp_left]

@[simp] theorem calm_ite {c : Prop} [Decidable c] :
    Calm i (if c then ps else qs) ↔ (c → Calm i ps) ∧ (¬c → Calm i qs) := by
  split <;> simp_all

end Calm

/-- What `t` keeps of `s`; `mode` too, unless the step is one that may set it. -/
structure Continues (setsMode : Bool) (s t : State) : Prop where
  params : t.params = s.params
  history : s.history <:+ t.history
  mode : setsMode = false → t.mode = s.mode

section Continues

variable {b : Bool} {s t u : State}

theorem Continues.same (h1 : t.params = s.params) (h2 : t.history = s.history) (h3 : t.mode = s.mode) :
    Continues b s t :=
  ⟨h1, h2 ▸ List.suffix_refl _, fun _ => h3⟩

theorem Continues.refl : Continues b s s := .same rfl rfl rfl

theorem Continues.trans (h : Continues b s t) (k : Continues b t u) : Continues b s u :=
  ⟨k.params.trans h.params, h.history.trans k.history, fun hb => (k.mode hb).trans (h.mode hb)⟩

theorem Continues.record {e : Event} (h : Continues b s t) : Continues b s (t.record e) :=
  ⟨h.params, h.history.trans (List.suffix_cons e _), h.mode⟩

/-- A primitive that may set `mode` keeps the rest. -/
theorem Continues.weaken (h : Continues b s t) : Continues true s t := ⟨h.params, h.history, fun hb => nomatch hb⟩

theorem continues_memWrite {who : Performer} {a : Nat} {bs : List Byte} (h : Continues b s t) :
    Continues b s (t.memWrite who a bs) :=
  (h.trans (u := t.store a bs) (.same rfl rfl rfl)).record

theorem continues_noteRead {who : Performer} {a n : Nat} (h : Continues b s t) :
    Continues b s (t.noteRead who a n) := h.record

theorem continues_withDevice {d : Device} (h : Continues b s t) : Continues b s (t.withDevice d) :=
  h.trans (.same rfl rfl rfl)

/-! ### The shared operations -/

theorem draw_continues : Continues b s s.draw.2 := by
  unfold State.draw
  split <;> exact .same rfl rfl rfl

theorem widen_continues (S : Strategy) (v : Half) : Continues b s (widen S v s).2 := by
  cases S with
  | wio => exact .refl
  | dwio => exact draw_continues

theorem writeRap_continues (S : Strategy) (i : Half) : Continues b s (writeRap S i s) := by
  unfold writeRap
  split
  · exact Continues.refl.record.trans (.same rfl rfl rfl)
  · exact Continues.refl.record

theorem readData_continues (S : Strategy) (file : RegFile) : Continues b s (readData S file s).2 := by
  unfold readData
  simp only
  split
  · split
    · exact (widen_continues S _).record
    · exact (draw_continues.trans (widen_continues S _)).record
  · exact draw_continues.record

theorem writeData_continues {S : Strategy} {file : RegFile} {x : Half} (h : writeData S file x s = .ok t) :
    Continues b s t := by
  unfold writeData at h
  simp only at h
  split at h
  · split at h
    · cases h
      exact Continues.refl.record.trans (.same rfl rfl rfl)
    · cases h
  · cases h
    exact Continues.refl.record

theorem readReset_continues (S : Strategy) : Continues b s (readReset S s) := by
  unfold readReset
  simp only
  split
  · exact (continues_withDevice draw_continues).record
  · exact draw_continues.record

theorem allocate_continues {u : AllocUse} {n : Nat} {x : Nat × Word × State} (h : s.allocate u n = .ok x) :
    Continues b s x.2.2 := by
  unfold State.allocate at h
  simp only at h
  split at h
  · split at h
    · cases h
      exact Continues.record (.same rfl rfl rfl)
    · cases h
  · cases h

theorem hostSlotWrite_continues {r : Ring} {i k : Nat} {v : Word} (h : s.hostSlotWrite r i k v = .ok t) :
    Continues b s t := by
  obtain ⟨_, -, h⟩ := bind_ok_cases h
  obtain ⟨_, -, h⟩ := bind_ok_cases h
  cases h
  exact continues_memWrite .refl

theorem hostSlotRead_continues {r : Ring} {i k : Nat} {x : Word × State} (h : s.hostSlotRead r i k = .ok x) :
    Continues b s x.2 := by
  obtain ⟨_, -, h⟩ := bind_ok_cases h
  obtain ⟨_, -, h⟩ := bind_ok_cases h
  cases h
  exact continues_noteRead .refl

/-! ### The device's steps -/

theorem devInit_continues (h : devInit s = .ok t) : Continues b s t := by
  unfold devInit at h
  split at h
  · obtain ⟨_, -, h⟩ := bind_ok_cases h
    cases h
    exact continues_withDevice (continues_noteRead .refl)
  · cases h
    exact .refl

theorem txComplete_continues {w1 status any : Word} {cerr : Bool} (h : txComplete w1 status any cerr s = .ok t) :
    Continues b s t := by
  obtain ⟨_, -, h⟩ := bind_ok_cases h
  cases h
  exact continues_withDevice (continues_memWrite (continues_memWrite .refl))

theorem txTransmit_continues {w1 status any : Word} {cerr : Bool} (h : txTransmit w1 status any cerr s = .ok t) :
    Continues b s t := by
  obtain ⟨_, -, h⟩ := bind_ok_cases h
  exact (continues_noteRead (continues_noteRead .refl)).record.trans (txComplete_continues h)

theorem txSlot_continues {status any : Word} {cerr : Bool} (h : txSlot status any cerr s = .ok t) :
    Continues b s t := by
  obtain ⟨_, -, h⟩ := bind_ok_cases h
  simp only at h
  have hread : Continues b s (s.noteRead .device (devTxAddr s 1) 4) := continues_noteRead .refl
  split at h
  · cases h
    exact hread
  · split at h
    · cases h
    · exact hread.trans (txTransmit_continues h)

theorem devTxPoll_continues {status any : Word} {cerr : Bool} (h : devTxPoll status any cerr s = .ok t) :
    Continues b s t := by
  unfold devTxPoll at h
  split at h
  · exact (continues_withDevice .refl).trans (txSlot_continues h)
  · cases h
    exact .refl

theorem rxStore_continues {off : Nat} {bs : List Byte} {w1 w2 : Word} (h : rxStore off bs w1 w2 s = .ok t) :
    Continues b s t := by
  obtain ⟨_, -, h⟩ := bind_ok_cases h
  obtain ⟨_, -, h⟩ := bind_ok_cases h
  cases h
  exact continues_withDevice (continues_memWrite (continues_memWrite (continues_memWrite (continues_noteRead .refl))))

theorem oversizeMore_continues : ∀ {os : List OversizeSlot} {s : State}, oversizeMore os s = .ok t → Continues b s t
  | [], _, h => by
    cases h
    exact .refl
  | o :: os, s, h => by
    obtain ⟨_, -, h⟩ := bind_ok_cases h
    simp only at h
    have hread : Continues b s (s.noteRead .device (devRxAddr s 1) 4) := continues_noteRead .refl
    split at h
    · obtain ⟨v, hv, h⟩ := bind_ok_cases h
      exact hread.trans ((rxStore_continues hv).trans (oversizeMore_continues h))
    · cases h
      exact hread

theorem rxOversize_continues {w1 : Word} {os : List OversizeSlot} (h : rxOversize w1 os s = .ok t) :
    Continues b s t := by
  obtain ⟨v, hv, h⟩ := bind_ok_cases h
  exact (rxStore_continues hv).trans (oversizeMore_continues h)

theorem rxFrame_continues {frame : List Byte} {fcs errs x y w1 : Word} {os : List OversizeSlot}
    (h : rxFrame frame fcs errs x y os w1 s = .ok t) : Continues b s t := by
  unfold rxFrame at h
  split at h
  · cases h
    exact continues_withDevice .refl
  · obtain ⟨v, hv, h⟩ := bind_ok_cases h
    cases h
    split at hv
    · exact (rxStore_continues hv).record
    · exact (rxOversize_continues hv).record

theorem devReceive_continues {frame : List Byte} {fcs errs x y : Word} {os : List OversizeSlot}
    (h : devReceive frame fcs errs x y os s = .ok t) : Continues b s t := by
  unfold devReceive at h
  split at h
  · obtain ⟨_, -, h⟩ := bind_ok_cases h
    exact (continues_noteRead .refl).trans (rxFrame_continues h)
  · cases h
    exact .refl

theorem devCause_continues {c : Half} (h : devCause c s = .ok t) : Continues b s t := by
  unfold devCause at h
  split at h <;> cases h
  · exact continues_withDevice .refl
  · exact .refl

theorem deviceStep_continues {m : DeviceStep} (h : deviceStep m s = .ok t) : Continues b s t := by
  cases m with
  | init => exact devInit_continues h
  | txPoll status any cerr => exact devTxPoll_continues h
  | receive frame fcs errs x y os => exact devReceive_continues h
  | cerr | babl | merr => exact devCause_continues h

end Continues

/-! ### The primitives -/

/-- A primitive's result: what it keeps of the state, and that it goes on to one that touches `mode` only where it
touches `mode` itself. -/
structure PrimStep (i : Instr) (touches : Bool) (s : State) (x : State × List Prim) : Prop where
  continues : Continues touches s x.1
  calm : touches = false → Calm i x.2

section PrimStep

variable {a : Agent} {i : Instr} {b : Bool} {s s' t : State} {x : State × List Prim}

theorem PrimStep.nil (h : Continues b s t) : PrimStep i b s (t, []) := ⟨h, fun _ => calm_nil⟩

theorem PrimStep.after (h : Continues b s t) (k : PrimStep i b t x) : PrimStep i b s x :=
  ⟨h.trans k.continues, k.calm⟩

theorem afterAcquire_continues : Continues b s (afterAcquire i s).1 := by
  cases i with
  | openDev mac =>
    simp only [afterAcquire, openBody]
    split <;> exact .same rfl rfl rfl
  | _ => exact .refl

/-- Only ATTACH and DETACH go on from their `acquire` to a primitive that touches `mode`. -/
theorem afterAcquire_calm (h : Prim.touchesMode i .acquire = false) :
    Calm i (afterAcquire i s).2 := by
  cases i with
  | attach | detach => cases h
  | _ =>
    simp only [afterAcquire, rdcsrBody, wrcsrBody, rdbcrBody, wrbcrBody, rresetBody, rawBody, openBody, closeBody,
      rallocBody, rfreeBody, xmitBody, reclaimBody, irqBody, dtaskBody]
    repeat' split
    all_goals simp [Prim.touchesMode, releaseReturn, releaseRefuse, csrRead, csrWrite, bcrRead, bcrWrite]

theorem ringReleaseSteps_calm (r : Ring) : Calm i (ringReleaseSteps r s) := by
  cases r with
  | rx => simp [ringReleaseSteps, Prim.touchesMode]
  | tx =>
    simp only [ringReleaseSteps, calm_append, calm_flatMap]
    refine ⟨?_, by simp [Prim.touchesMode]⟩
    rintro ⟨_ | m, k⟩ - <;> simp [Prim.touchesMode]

theorem pollSteps_calm (n : Nat) : Calm i (pollSteps n) := by
  cases n <;> simp [pollSteps, timeoutSteps, csrRead, csrWrite, releaseReturn, Prim.touchesMode]

theorem drainLoopSteps_calm (n : Nat) : Calm i (drainLoopSteps n s) := by
  cases n <;> simp [drainLoopSteps, Prim.touchesMode]

/-- The branches of the pseudocode that only go on to other primitives. -/
theorem PrimStep.branch {ps : List Prim} (h : Calm i ps) : PrimStep i b s (s, ps) :=
  ⟨.refl, fun _ => h⟩

theorem quietStep_primStep {q : Quiet} (h : quietStep a i q s = .ok x) :
    PrimStep i (Prim.touchesMode i (.quiet q)) s x := by
  cases q with
  | refuse | raise => cases h
  | releaseRing r =>
    simp only [quietStep] at h
    split at h <;> cases h
    exact .branch (ringReleaseSteps_calm r)
  | poll n =>
    cases h
    exact .branch (pollSteps_calm n)
  | drainLoop n =>
    cases h
    exact .branch (drainLoopSteps_calm n)
  | armRx | loadAddress | demand | reclaimLoop | drainStart | wake =>
    cases h
    exact .branch (by
      simp [armSteps, loadAddressSteps, demandSteps, reclaimLoopSteps, drainStartSteps, wakeSteps, csrWrite,
        releaseReturn, Prim.touchesMode])
  | fillIb mac =>
    cases h
    exact ⟨.same rfl rfl rfl, fun _ => by simp [fillIbSteps, Prim.touchesMode]⟩
  | acked v deferred =>
    cases h
    exact ⟨.same rfl rfl rfl, fun _ => by simp [acked, csrRead, Prim.touchesMode]⟩
  | ret | fenceW | fenceR =>
    cases h
    exact .nil (Continues.record (.same rfl rfl rfl))
  | detached =>
    cases h
    exact .nil ⟨rfl, List.suffix_refl _, fun hb => nomatch hb⟩
  | ringFreed r | ringMade r =>
    cases h
    cases r <;> exact .nil (.same rfl rfl rfl)
  | _ =>
    cases h
    exact .nil (.same rfl rfl rfl)

theorem onRead_primStep {via : Via} {file : RegFile} (k : OnRead) (v : Half) :
    PrimStep i (Prim.touchesMode i (.dataGet via file k)) s (onRead k v s) := by
  cases k with
  | reply => exact .branch (by simp [releaseReturn, Prim.touchesMode])
  | probe S =>
    refine ⟨?_, fun hb => nomatch hb⟩
    simp only [onRead, probed]
    split
    · exact ⟨rfl, List.suffix_refl _, fun hb => nomatch hb⟩
    · cases S <;> exact .refl
  | poll n =>
    refine .branch ?_
    unfold polled
    split
    · simp [startSteps, csrWrite, releaseReturn, Prim.touchesMode]
    · exact pollSteps_calm n
  | status ran deferred =>
    refine .branch ?_
    unfold statusSteps
    split <;> simp [csrWrite, releaseReturn, Prim.touchesMode]

theorem onWord_primStep (k : OnWord) (w : Word) : PrimStep i b s (onWord k w s) := by
  cases k with
  | reclaimOwn n =>
    refine .branch ?_
    unfold reclaimOwnSteps
    split <;> simp [Prim.touchesMode]
  | reclaimStatus n w1 =>
    refine .branch ?_
    unfold reclaimStatusSteps
    split <;> simp [Prim.touchesMode]
  | drainOwn left n =>
    refine .branch ?_
    unfold drainOwnSteps
    split <;> simp [Prim.touchesMode]
  | drainStatus left n w1 =>
    simp only [onWord, drainStatus]
    split <;> exact ⟨.same rfl rfl rfl, fun _ => by simp [rearmSteps, Prim.touchesMode]⟩

/-- R13, R24, R32: what every primitive keeps. -/
theorem perform_primStep {p : Prim} (h : perform a i p s = .ok x) : PrimStep i (p.touchesMode i) s x := by
  cases p with
  | acquire =>
    simp only [perform, acquireStep] at h
    split at h <;> cases h
    have htaken : Continues (Prim.touchesMode i .acquire) s { s with lockOwner := some a } := .same rfl rfl rfl
    exact ⟨htaken.trans afterAcquire_continues, afterAcquire_calm⟩
  | rap via idx =>
    obtain ⟨S, h⟩ := withStrategy_ok h
    cases h
    exact .nil (writeRap_continues S idx)
  | dataGet via file k =>
    obtain ⟨S, h⟩ := withStrategy_ok h
    cases h
    exact .after (readData_continues S file) (onRead_primStep k _)
  | dataPut via file x =>
    obtain ⟨S, h⟩ := withStrategy_ok h
    obtain ⟨t, ht, h⟩ := bind_ok_cases h
    cases h
    exact .nil (writeData_continues ht)
  | resetPort via =>
    obtain ⟨S, h⟩ := withStrategy_ok h
    cases h
    exact .nil (readReset_continues S)
  | allocIb | allocBuf =>
    obtain ⟨y, hy, h⟩ := bind_ok_cases h
    cases h
    exact .nil ((allocate_continues hy).trans (.same rfl rfl rfl))
  | allocRing r e =>
    obtain ⟨y, hy, h⟩ := bind_ok_cases h
    cases h
    refine ⟨allocate_continues hy, fun _ => ?_⟩
    cases r <;> simp [ringMakeSteps, Prim.touchesMode]
  | zeroIb | ibPut | zeroWord =>
    obtain ⟨_, -, h⟩ := bind_ok_cases h
    cases h
    exact .nil (continues_memWrite .refl)
  | slotPut r k word v =>
    obtain ⟨t, ht, h⟩ := bind_ok_cases h
    cases h
    exact .nil (hostSlotWrite_continues ht)
  | slotGet r k word c =>
    obtain ⟨y, hy, h⟩ := bind_ok_cases h
    cases h
    exact .after (hostSlotRead_continues hy) (onWord_primStep c _)
  | mapFrame addr len =>
    simp only [perform, mapFrameStep] at h
    split at h <;> cases h
    have hask : ∀ c, Continues (Prim.touchesMode i (.mapFrame addr len)) s (s.takeMap.record (.call c)) :=
      fun c => Continues.record (.same rfl rfl rfl)
    exact ⟨(hask _).trans (.same rfl rfl rfl), fun _ => by simp [publishSteps, Prim.touchesMode]⟩
  | allocFrame k len =>
    simp only [perform, allocFrameStep, frameAllocated] at h
    have hask : ∀ c, Continues (Prim.touchesMode i (.allocFrame k len)) s (s.takeFrame.record (.call c)) :=
      fun c => Continues.record (.same rfl rfl rfl)
    split at h <;> cases h
    · exact ⟨hask _, fun _ => by simp [Prim.touchesMode]⟩
    · exact .nil ((hask _).trans (.same rfl rfl rfl))
  | copyFrame k len hd =>
    simp only [perform, copyFrameStep] at h
    split at h
    · obtain ⟨_, -, h⟩ := bind_ok_cases h
      obtain ⟨_, -, h⟩ := bind_ok_cases h
      cases h
      exact ⟨(continues_noteRead .refl).trans (.same rfl rfl rfl), fun _ => by simp [Prim.touchesMode]⟩
    · cases h
  | release =>
    cases h
    exact .nil (.same rfl rfl rfl)
  | freeIb | free | unmap | releaseFrame | stopQueue | wakeQueue | deliver =>
    cases h
    exact .nil (Continues.record (.same rfl rfl rfl))
  | quiet q => exact quietStep_primStep h

end PrimStep

/-! ### Every step of the machine -/

/-- R13, R24: the one induction over a step, for the parameters and the history. -/
theorem kept_continues (s₀ : State) : Kept (Continues true s₀) where
  perform h e := h.trans (perform_primStep e).continues.weaken
  device h e := h.trans (deviceStep_continues e)
  sequencer h := h.trans (.same rfl rfl rfl)
  issued h := h.record
  hostFrame h := h.trans (.same rfl rfl rfl)

theorem step_continues {s t : State} (h : step s = .next t) : Continues true s t :=
  (kept_continues s).step .refl h

/-- Settles O57: every transition only records events. -/
theorem historyOnlyGrows : Obligations.HistoryOnlyGrows := by
  intro s t h
  obtain ⟨es, hes⟩ := (step_continues h).history
  exact ⟨es, hes.symm⟩

end Sys2Proof.Machine
end

section
/-! SUPPORT. The one induction over a command run alone, and `mode` over such a run (10_state.md R32). -/

namespace Sys2Proof.Machine

/-- What the run of command `i` alone needs of a property of a state and the primitives still to come: each primitive
keeps it, and it does not depend on the sequencers. -/
structure KeptAlone (a : Agent) (i : Instr) (P : State → List Prim → Prop) : Prop where
  alone : ∀ {s ps}, P s ps → s.sched = []
  perform : ∀ {p rest s s' ps}, P s (p :: rest) → perform a i p s = .ok (s', ps) → P s' (ps ++ rest)
  sequencer : ∀ {s x ps}, P s ps → P (s.setActivity a x) ps

namespace KeptAlone

variable {a : Agent} {i : Instr} {P : State → List Prim → Prop} (k : KeptAlone a i P) {s t : State}
  {todo todo' : List Prim}

include k

theorem settle : ∀ {n : Nat} {todo : List Prim} {s : State}, P s todo → settle n a i todo s = .ok (t, todo') → P t todo'
  | 0, _, _, h, e => by
    unfold Machine.settle at e
    cases e
    exact h
  | _ + 1, [], _, h, e => by
    unfold Machine.settle at e
    cases e
    exact h
  | n + 1, p :: rest, s, h, e => by
    cases p with
    | quiet q =>
      obtain ⟨x, hx, e⟩ := bind_ok_cases e
      exact settle (k.perform h hx) e
    | _ =>
      cases e
      exact h

theorem performNext (h : P s todo) (e : performNext a i todo s = .ok (t, todo')) : P t todo' := by
  cases todo with
  | nil =>
    cases e
    exact h
  | cons p rest =>
    obtain ⟨x, hx, e⟩ := bind_ok_cases e
    exact k.settle (k.perform h hx) e

omit k in
theorem activity_activityOf (s : State) : (s.setActivity a (activityOf i todo)).activity a = activityOf i todo := by
  cases todo with
  | nil =>
    simpa [activityOf, State.setActivity, State.activity, List.lookup_eq_none_iff] using
      fun _ _ _ hne he => hne (Eq.symm he)
  | cons p rest => exact activity_setActivity _

/-- The sequencer after a turn holds the primitives still to come. -/
theorem turn (ha : s.activity a = activityOf i todo) (h : P s todo) (e : turn a s = .next t) :
    ∃ todo', t.activity a = activityOf i todo' ∧ P t todo' := by
  have hgap : ∀ {u : State} {ps : List Prim}, P u ps → gap u = .next u := by
    intro u ps hu
    simp only [gap, k.alone hu]
  have hstay : Machine.turn a s = andThen (.next s) gap → ∃ todo', t.activity a = activityOf i todo' ∧ P t todo' := by
    intro hs
    rw [hs] at e
    cases (hgap h).symm.trans e
    exact ⟨todo, ha, h⟩
  cases todo with
  | nil => exact hstay (by simp [Machine.turn, tick, enabled, ha, activityOf])
  | cons p rest =>
    by_cases hen : enabled a s = true
    · have htick : tick a s = (transition a i (p :: rest) s).outcome a (some i) := by
        simp only [tick, hen, if_true, ha, activityOf]
      rw [Machine.turn, htick] at e
      cases hr : transition a i (p :: rest) s with
      | stop w f =>
        rw [hr] at e
        cases w <;> cases e
      | ok u =>
        rw [hr] at e
        obtain ⟨x, hx, hr⟩ := bind_ok_cases hr
        obtain ⟨y, hy, hx⟩ := bind_ok_cases hx
        cases hr
        have hP := k.sequencer (x := activityOf i x.2) (k.performNext (k.settle h hy) hx)
        cases (hgap hP).symm.trans e
        exact ⟨x.2, activity_activityOf x.1, hP⟩
    · exact hstay (by simp [Machine.turn, tick, hen])

theorem runAgent : ∀ {n : Nat} {s : State} {todo : List Prim}, s.activity a = activityOf i todo → P s todo →
    runAgent n a s = .next t → ∃ todo', P t todo'
  | 0, _, _, _, h, e => by
    cases e
    exact ⟨_, h⟩
  | n + 1, s, todo, ha, h, e => by
    unfold Machine.runAgent at e
    split at e
    · cases e
      exact ⟨_, h⟩
    · cases hu : Machine.turn a s with
      | next u =>
        rw [hu] at e
        obtain ⟨todo', ha', h'⟩ := k.turn ha h hu
        exact runAgent ha' h' e
      | fault f => rw [hu] at e; cases e
      | refused f => rw [hu] at e; cases e

theorem runCommand (h : P (s.record (.issued a i)) (script i)) (e : runCommand a i s = .next t) : ∃ todo, P t todo := by
  unfold Machine.runCommand at e
  split at e
  · have hissue : P (issue a i s) (script i) := k.sequencer (x := some ⟨i, script i⟩) h
    refine k.runAgent (todo := script i) ?_ hissue e
    cases i <;> exact activity_setActivity (s := s) _
  · cases e

end KeptAlone

/-! ### `mode` -/

/-- The rest of a run that leaves `mode` at `m`. -/
structure ModeHeld (i : Instr) (m : Mode) (s : State) (todo : List Prim) : Prop where
  alone : s.sched = []
  mode : s.mode = m
  calm : Calm i todo

theorem modeHeld_kept (a : Agent) (i : Instr) (m : Mode) : KeptAlone a i (ModeHeld i m) where
  alone h := h.alone
  perform h e := by
    obtain ⟨hp, hrest⟩ := calm_cons.mp h.calm
    have hstep := perform_primStep e
    exact ⟨(perform_keeps e).2.trans h.alone, (hstep.continues.mode hp).trans h.mode,
      calm_append.mpr ⟨hstep.calm hp, hrest⟩⟩
  sequencer h := ⟨h.alone, h.mode, h.calm⟩

theorem script_calm {i : Instr} (h1 : i ≠ .attach) (h2 : i ≠ .detach) : Calm i (script i) := by
  cases i <;> simp_all [script, Prim.touchesMode]

/-- Every command is run by some agent. -/
theorem exec_runCommand (i : Instr) (s : State) : ∃ a, exec i s = runCommand a i s := by
  cases i <;> exact ⟨_, rfl⟩

/-- R32. -/
theorem exec_mode {i : Instr} {s t : State} (hs : s.sched = []) (h1 : i ≠ .attach) (h2 : i ≠ .detach)
    (e : exec i s = .next t) : t.mode = s.mode := by
  obtain ⟨a, ha⟩ := exec_runCommand i s
  have hstart : ModeHeld i s.mode (s.record (.issued a i)) (script i) := ⟨hs, rfl, script_calm h1 h2⟩
  obtain ⟨_, hend⟩ := (modeHeld_kept a i s.mode).runCommand hstart (ha.symm.trans e)
  exact hend.mode

/-- Settles O58: no transition touches the parameters, and the primitives of the other commands are calm. -/
theorem modeOnlyByAttachDetach : Obligations.ModeOnlyByAttachDetach :=
  ⟨fun _ _ h => (step_continues h).params, fun _ _ _ hs h1 h2 e => exec_mode hs h1 h2 e⟩

end Sys2Proof.Machine
end

section
/-! SUPPORT. The power-on state (10_state.md R58, R60) and the bits of CSR0 (R50 to R53). -/

namespace Sys2Proof.Machine

/-! ### The power-on state -/

/-- Settles O8: each clause is the value `State.reset` gives; no agent has an activity where `tasks` is empty. -/
theorem powerOnState : Obligations.PowerOnState := by
  have hregisters : State.reset.lifecycle = .detached ∧ State.reset.mode = .none ∧ State.reset.device.state = .stopped ∧
      csr0Value State.reset.params State.reset.device = 0x0004#16 := by decide
  obtain ⟨hlifecycle, hmode, hstate, hcsr0⟩ := hregisters
  have hidle : ∀ a, State.reset.activity a = none := fun _ => rfl
  exact ⟨hlifecycle, hmode, rfl, rfl, rfl, rfl, rfl, rfl, rfl, rfl, nofun, rfl, rfl, rfl, rfl, rfl, rfl, rfl, rfl, rfl,
    rfl, rfl, rfl, rfl, hidle, rfl, rfl, hstate, hcsr0, rfl⟩

/-! ### CSR0, bit by bit -/

/-- A mask has a bit in common with a register value. -/
theorem bitSet_iff {v b : Half} : bitSet v b = true ↔ ∃ i, v.getLsbD i = true ∧ b.getLsbD i = true := by
  constructor
  · intro h
    by_contra hno
    have hzero : v &&& b = 0#16 := BitVec.eq_of_getLsbD_eq fun i _ => by
      rw [BitVec.getLsbD_and, BitVec.getLsbD_zero, Bool.and_eq_false_iff, ← Bool.not_eq_true, ← Bool.not_eq_true]
      exact not_and_or.mp fun hi => hno ⟨i, hi⟩
    simp [bitSet, hzero] at h
  · rintro ⟨i, hv, hb⟩
    have hne : v &&& b ≠ 0#16 := fun h => by
      have hi := congrArg (fun w => w.getLsbD i) h
      simp [hv, hb] at hi
    simpa [bitSet] using hne

/-- A mask of one bit tests that bit. -/
theorem bitSet_twoPow (v : Half) (k : Nat) (hk : k < 16) : bitSet v (BitVec.twoPow 16 k) = v.getLsbD k := by
  rw [Bool.eq_iff_iff, bitSet_iff]
  simp [BitVec.getLsbD_twoPow, hk]

/-- A 16-bit value is known from its 16 bits. -/
theorem getLsbD_eq_decide {v : Half} (p : Nat → Prop) [DecidablePred p] (h : ∀ i < 16, v.getLsbD i = decide (p i))
    (hp : ∀ i, p i → i < 16) (i : Nat) : v.getLsbD i = decide (p i) := by
  by_cases hi : i < 16
  · exact h i hi
  · rw [BitVec.getLsbD_of_ge _ _ (Nat.not_lt.mp hi), decide_eq_false fun hpi => hi (hp i hpi)]

/-- R51. -/
theorem csr0Causes_bit (i : Nat) : csr0Causes.getLsbD i = decide (8 ≤ i ∧ i ≤ 14) :=
  getLsbD_eq_decide (fun i => 8 ≤ i ∧ i ≤ 14) (by decide) (by omega) i

/-- R52. -/
theorem csr0ErrCauses_bit (i : Nat) : csr0ErrCauses.getLsbD i = decide (11 ≤ i ∧ i ≤ 14) :=
  getLsbD_eq_decide (fun i => 11 ≤ i ∧ i ≤ 14) (by decide) (by omega) i

/-- R50. -/
theorem csr0Stored_bit (i : Nat) :
    csr0Stored.getLsbD i = decide ((8 ≤ i ∧ i ≤ 14) ∨ i = 6 ∨ i = 3 ∨ i = 1 ∨ i = 0) :=
  getLsbD_eq_decide (fun i => (8 ≤ i ∧ i ≤ 14) ∨ i = 6 ∨ i = 3 ∨ i = 1 ∨ i = 0) (by decide) (by omega) i

/-- R52: INTR, over the causes of `INTR_SOURCES`. -/
theorem intrPending_iff (p : Params) (d : Device) :
    intrPending p d = true ↔ ∃ b, 8 ≤ b ∧ b ≤ 14 ∧ p.intrSources.getLsbD b = true ∧ d.latches.getLsbD b = true := by
  simp only [intrPending, bitSet_iff, BitVec.getLsbD_and, csr0Causes_bit, Bool.and_eq_true, decide_eq_true_eq]
  exact exists_congr fun b => by tauto

/-- R52: ERR. -/
theorem bitSet_errCauses (v : Half) :
    bitSet v csr0ErrCauses = (v.getLsbD 14 || v.getLsbD 13 || v.getLsbD 12 || v.getLsbD 11) := by
  rw [Bool.eq_iff_iff, bitSet_iff]
  simp only [csr0ErrCauses_bit, decide_eq_true_eq, Bool.or_eq_true]
  constructor
  · rintro ⟨i, hv, hlo, hhi⟩
    interval_cases i <;> simp [hv]
  · rintro (((h | h) | h) | h) <;> exact ⟨_, h, by decide⟩

/-- R52: every bit of a read of CSR0; a stored bit is the latch, the others are computed. -/
theorem csr0Value_bit (p : Params) (d : Device) (i : Nat) : (csr0Value p d).getLsbD i =
    (d.latches.getLsbD i && csr0Stored.getLsbD i || decide (i = 15) && bitSet d.latches csr0ErrCauses ||
      decide (i = 7) && intrPending p d || decide (i = 5 ∨ i = 4) && decide (d.state = .running) ||
      decide (i = 2) && decide (d.state = .stopped)) := by
  have hif : ∀ (c : Prop) [Decidable c] (m : Half), (if c then m else 0#16).getLsbD i = (m.getLsbD i && decide c) := by
    intro c _ m
    by_cases hc : c <;> simp [hc]
  have herr : csr0ERR.getLsbD i = decide (i = 15) := getLsbD_eq_decide (· = 15) (by decide) (by omega) i
  have hintr : csr0INTR.getLsbD i = decide (i = 7) := getLsbD_eq_decide (· = 7) (by decide) (by omega) i
  have hon : (csr0RXON ||| csr0TXON).getLsbD i = decide (i = 5 ∨ i = 4) :=
    getLsbD_eq_decide (fun i => i = 5 ∨ i = 4) (by decide) (by omega) i
  have hstop : csr0STOP.getLsbD i = decide (i = 2) := getLsbD_eq_decide (· = 2) (by decide) (by omega) i
  simp only [csr0Value, BitVec.getLsbD_or, BitVec.getLsbD_and, hif, herr, hintr, hon, hstop, Bool.decide_eq_true]

/-- R52: INTR stands at bit 7. -/
theorem csr0Value_intr (p : Params) (d : Device) : (csr0Value p d).getLsbD 7 = intrPending p d := by
  rw [csr0Value_bit, csr0Stored_bit]
  simp

/-- R52: a bit that is stored reads as stored. -/
theorem csr0Value_stored (p : Params) (d : Device) {i : Nat} (h : (8 ≤ i ∧ i ≤ 14) ∨ i = 6 ∨ i = 3 ∨ i = 1 ∨ i = 0) :
    (csr0Value p d).getLsbD i = d.latches.getLsbD i := by
  have h15 : i ≠ 15 := by omega
  have h7 : i ≠ 7 := by omega
  have hon : ¬(i = 5 ∨ i = 4) := by omega
  have h2 : i ≠ 2 := by omega
  simp only [csr0Value_bit, csr0Stored_bit, h, h15, h7, hon, h2, decide_true, decide_false, Bool.and_true,
    Bool.false_and, Bool.or_false]

/-- Settles O13: the derived bits one by one, and the stored ones at once. -/
theorem csr0DerivedBits : Obligations.Csr0DerivedBits := by
  intro p d
  refine ⟨?_, ?_, ?_, ?_, ?_, fun i h => csr0Value_stored p d h⟩
  · rw [csr0Value_bit, csr0Stored_bit, bitSet_errCauses]
    simp
  · rw [csr0Value_intr, intrPending_iff]
  all_goals
    rw [csr0Value_bit, csr0Stored_bit]
    simp

/-- Settles O14: INTR is read at bit 7, and IENA, a stored bit, at bit 6. -/
theorem interruptLineRule : Obligations.InterruptLineRule := by
  intro p d
  have hiena : bitSet d.latches csr0IENA = (csr0Value p d).getLsbD 6 :=
    (bitSet_twoPow d.latches 6 (by decide)).trans (csr0Value_stored p d (by decide)).symm
  rw [interruptLine, hiena, csr0Value_intr, Bool.and_eq_true]

end Sys2Proof.Machine
end

section
/-! SUPPORT. The invariant (10_state.md R44, R50 to R56; 20_memory.md R90): what keeps each of its clauses, then that
every primitive and every device step does. -/

namespace Sys2Proof.Machine

/-! ### CSR0 and `dev_state` -/

/-- The bits of CSR0 the device may have latched in a state (R350 to R367). -/
def DevState.mayLatch (st : DevState) (i : Nat) : Prop :=
  i = 6 ∨ (i = 0 ∧ st ≠ .stopped) ∨ (i = 8 ∧ (st = .initialised ∨ st = .running)) ∨
    (st = .running ∧ (i = 1 ∨ i = 3 ∨ (9 ≤ i ∧ i ≤ 14)))

/-- The bits of CSR0 the device has latched in a state: INIT, and STRT in RUNNING. -/
def DevState.mustLatch (st : DevState) (i : Nat) : Prop :=
  (i = 0 ∧ st ≠ .stopped) ∨ (i = 1 ∧ st = .running)

section Latched

variable {i : Nat}

@[simp] theorem mayLatch_stopped : DevState.stopped.mayLatch i ↔ i = 6 := by simp [DevState.mayLatch]

@[simp] theorem mayLatch_initialising : DevState.initialising.mayLatch i ↔ i = 6 ∨ i = 0 := by
  simp [DevState.mayLatch]

@[simp] theorem mayLatch_initialised : DevState.initialised.mayLatch i ↔ i = 6 ∨ i = 0 ∨ i = 8 := by
  simp [DevState.mayLatch]

@[simp] theorem mayLatch_running :
    DevState.running.mayLatch i ↔ i = 6 ∨ i = 0 ∨ i = 1 ∨ i = 3 ∨ (8 ≤ i ∧ i ≤ 14) := by
  simp [DevState.mayLatch]
  omega

@[simp] theorem mustLatch_stopped : ¬DevState.stopped.mustLatch i := by simp [DevState.mustLatch]

@[simp] theorem mustLatch_initialising : DevState.initialising.mustLatch i ↔ i = 0 := by simp [DevState.mustLatch]

@[simp] theorem mustLatch_initialised : DevState.initialised.mustLatch i ↔ i = 0 := by simp [DevState.mustLatch]

@[simp] theorem mustLatch_running : DevState.running.mustLatch i ↔ i = 0 ∨ i = 1 := by simp [DevState.mustLatch]

theorem mustLatch_low {st : DevState} (h : st.mustLatch i) : i < 2 := by
  unfold DevState.mustLatch at h
  omega

end Latched

theorem csr0Causes_not_idon_bit (i : Nat) : (csr0Causes &&& ~~~csr0IDON).getLsbD i = decide (9 ≤ i ∧ i ≤ 14) :=
  getLsbD_eq_decide (fun i => 9 ≤ i ∧ i ≤ 14) (by decide) (by omega) i

/-- `statusOk`, bit by bit. -/
theorem statusOk_iff (d : Device) : d.statusOk ↔
    (∀ i, d.latches.getLsbD i = true → d.state.mayLatch i) ∧
    (∀ i, d.state.mustLatch i → d.latches.getLsbD i = true) := by
  have hstored : d.latches &&& ~~~csr0Stored = 0#16 ↔
      ∀ i, d.latches.getLsbD i = true → (8 ≤ i ∧ i ≤ 14) ∨ i = 6 ∨ i = 3 ∨ i = 1 ∨ i = 0 := by
    have h : d.latches &&& ~~~csr0Stored = 0#16 ↔ ¬bitSet d.latches (~~~csr0Stored) = true := by simp [bitSet]
    rw [h, bitSet_iff, not_exists]
    refine forall_congr' fun i => ?_
    rw [not_and]
    refine forall_congr' fun hi => ?_
    have hlt : i < 16 := BitVec.lt_of_getLsbD hi
    simp only [BitVec.getLsbD_not, csr0Stored_bit, hlt, decide_true, Bool.true_and, Bool.not_eq_true',
      decide_eq_false_iff_not, not_not]
  have hinit : bitSet d.latches csr0INIT = d.latches.getLsbD 0 := bitSet_twoPow _ 0 (by decide)
  have hstrt : bitSet d.latches csr0STRT = d.latches.getLsbD 1 := bitSet_twoPow _ 1 (by decide)
  have htdmd : bitSet d.latches csr0TDMD = d.latches.getLsbD 3 := bitSet_twoPow _ 3 (by decide)
  rw [Device.statusOk, hstored, hinit, hstrt, htdmd, bitSet_iff, bitSet_iff]
  simp only [csr0Causes_bit, csr0Causes_not_idon_bit, decide_eq_true_eq, DevState.mayLatch, DevState.mustLatch]
  constructor
  · rintro ⟨hbits, hI, hS, hT, hcause, herr⟩
    refine ⟨fun i hi => ?_, ?_⟩
    · rcases hbits i hi with h | rfl | rfl | rfl | rfl
      · by_cases h8 : i = 8
        · exact .inr (.inr (.inl ⟨h8, hcause ⟨i, hi, h⟩⟩))
        · have h9 : 9 ≤ i ∧ i ≤ 14 := by omega
          exact .inr (.inr (.inr ⟨herr ⟨i, hi, h9⟩, .inr (.inr h9)⟩))
      · exact .inl rfl
      · exact .inr (.inr (.inr ⟨hT hi, .inr (.inl rfl)⟩))
      · exact .inr (.inr (.inr ⟨hS.mp hi, .inl rfl⟩))
      · exact .inr (.inl ⟨rfl, hI.mp hi⟩)
    · rintro i (⟨rfl, h⟩ | ⟨rfl, h⟩)
      · exact hI.mpr h
      · exact hS.mpr h
  · rintro ⟨hmay, hmust⟩
    refine ⟨fun i hi => ?_, ⟨fun h => ?_, fun h => hmust 0 (.inl ⟨rfl, h⟩)⟩,
      ⟨fun h => ?_, fun h => hmust 1 (.inr ⟨rfl, h⟩)⟩, fun h => ?_, ?_, ?_⟩
    · have := hmay i hi
      omega
    · simpa using hmay 0 h
    · simpa using hmay 1 h
    · simpa using hmay 3 h
    · rintro ⟨i, hi, h⟩
      rcases hmay i hi with h' | ⟨h', -⟩ | ⟨-, h'⟩ | ⟨h', -⟩
      · omega
      · omega
      · exact h'
      · exact .inr h'
    · rintro ⟨i, hi, h⟩
      rcases hmay i hi with h' | ⟨h', -⟩ | ⟨h', -⟩ | ⟨h', -⟩
      · omega
      · omega
      · omega
      · exact h'

/-- A device that goes on to a state that allows what the one before allowed. -/
theorem statusOk_progress {d : Device} {st : DevState} {l : Half} (h : d.statusOk)
    (hst : ∀ i, d.state.mayLatch i → st.mayLatch i)
    (hmay : ∀ i, l.getLsbD i = true → d.latches.getLsbD i = true ∨ st.mayLatch i)
    (hmust : ∀ i, st.mustLatch i → l.getLsbD i = true) : ({ d with state := st, latches := l } : Device).statusOk := by
  obtain ⟨hold, -⟩ := (statusOk_iff d).mp h
  exact (statusOk_iff _).mpr ⟨fun i hi => (hmay i hi).elim (fun hl => hst i (hold i hl)) id, hmust⟩

/-- The device may latch what its state allows. -/
theorem statusOk_latch {d : Device} {b : Half} (h : d.statusOk) (hb : ∀ i, b.getLsbD i = true → d.state.mayLatch i) :
    (d.latch b).statusOk := by
  obtain ⟨-, hmust⟩ := (statusOk_iff d).mp h
  refine statusOk_progress h (fun _ => id) ?_ ?_ <;> intro i hi
  · rw [BitVec.getLsbD_or, Bool.or_eq_true] at hi
    exact hi.imp_right (hb i)
  · rw [BitVec.getLsbD_or, hmust i hi, Bool.true_or]

/-- R362 to R366: in RUNNING the device may latch any cause. -/
theorem statusOk_latch_cause {d : Device} {b : Half} (h : d.statusOk) (hr : d.state = .running)
    (hb : b &&& csr0Causes = b) : (d.latch b).statusOk := by
  refine statusOk_latch h fun i hi => ?_
  rw [← hb, BitVec.getLsbD_and, csr0Causes_bit, Bool.and_eq_true, decide_eq_true_eq] at hi
  simp [hr, hi.2]

/-- R351, R359: a stopped device with no latch. -/
theorem statusOk_stopped {d : Device} (hs : d.state = .stopped) (hl : d.latches = 0#16) : d.statusOk := by
  rw [statusOk_iff, hs, hl]
  simp

/-- R361: TDMD may be cleared. -/
theorem statusOk_demandCleared {d : Device} (h : d.statusOk) :
    ({ d with latches := d.latches &&& ~~~csr0TDMD } : Device).statusOk := by
  obtain ⟨-, hmust⟩ := (statusOk_iff d).mp h
  have htdmd : ∀ i, csr0TDMD.getLsbD i = decide (i = 3) := getLsbD_eq_decide (· = 3) (by decide) (by omega)
  refine statusOk_progress h (fun _ => id) ?_ ?_ <;> intro i hi
  · rw [BitVec.getLsbD_and, Bool.and_eq_true] at hi
    exact .inl hi.1
  · have hlow : i < 2 := mustLatch_low hi
    have h3 : i ≠ 3 := by omega
    have h16 : i < 16 := by omega
    rw [BitVec.getLsbD_and, hmust i hi, BitVec.getLsbD_not, htdmd]
    simp [h3, h16]

/-- A device that goes on to a state and latches the bit that stands for it: R360 (IDON), R350 (INIT and STRT). -/
theorem statusOk_advance {d : Device} {st : DevState} {l b : Half} (k : Nat) (h : d.statusOk)
    (hbit : b = BitVec.twoPow 16 k) (hk : st.mayLatch k) (hst : ∀ i, d.state.mayLatch i → st.mayLatch i)
    (hnew : ∀ i, st.mustLatch i → d.state.mustLatch i ∨ i = k)
    (hmay : ∀ i, l.getLsbD i = true → d.latches.getLsbD i = true ∨ d.state.mayLatch i)
    (hmust : ∀ i, d.state.mustLatch i → l.getLsbD i = true) :
    ({ d with state := st, latches := l ||| b } : Device).statusOk := by
  subst hbit
  refine statusOk_progress h hst (fun i hi => ?_) (fun i hi => ?_)
  · rw [BitVec.getLsbD_or, BitVec.getLsbD_twoPow, Bool.or_eq_true, Bool.and_eq_true, decide_eq_true_eq,
      decide_eq_true_eq] at hi
    exact hi.elim (fun hl => (hmay i hl).imp_right (hst i)) fun hik => .inr (hik.2 ▸ hk)
  · rw [BitVec.getLsbD_or, Bool.or_eq_true]
    refine (hnew i hi).imp (hmust i) fun hik => ?_
    have hlow : i < 2 := mustLatch_low hi
    simp [BitVec.getLsbD_twoPow, ← hik]
    omega

/-- R360: the end of the INIT handshake. -/
theorem statusOk_initialised {d : Device} (h : d.statusOk) (hs : d.state = .initialising) :
    ({ d with state := .initialised, latches := d.latches ||| csr0IDON } : Device).statusOk := by
  obtain ⟨-, hmust⟩ := (statusOk_iff d).mp h
  refine statusOk_advance 8 h rfl (by simp) ?_ ?_ (fun i => .inl) hmust
  · simp +contextual [hs, or_imp]
  · simp +contextual [hs]

/-- R350: a write clears causes and sets IENA. -/
theorem csr0ClearAndEnable_bit (l v : Half) (i : Nat) : (csr0ClearAndEnable l v).getLsbD i =
    (if i = 6 then v.getLsbD 6 else l.getLsbD i && !(v.getLsbD i && decide (8 ≤ i ∧ i ≤ 14))) := by
  have hiena : csr0IENA.getLsbD i = decide (i = 6) := getLsbD_eq_decide (· = 6) (by decide) (by omega) i
  simp only [csr0ClearAndEnable, BitVec.getLsbD_or, BitVec.getLsbD_and, BitVec.getLsbD_not, csr0Causes_bit, hiena]
  by_cases h6 : i = 6
  · simp [h6]
  · cases hi : l.getLsbD i with
    | false => simp [h6]
    | true => simp [h6, BitVec.lt_of_getLsbD hi]

/-- R350, R354: a write sets TDMD in RUNNING. -/
theorem csr0Demand_bit (st : DevState) (v : Half) (i : Nat) :
    (csr0Demand st v).getLsbD i = (decide (i = 3) && v.getLsbD 3 && decide (st = .running)) := by
  have htdmd : csr0TDMD.getLsbD i = decide (i = 3) := getLsbD_eq_decide (· = 3) (by decide) (by omega) i
  have hset : bitSet v csr0TDMD = v.getLsbD 3 := bitSet_twoPow v 3 (by decide)
  unfold csr0Demand
  rw [hset]
  split <;> simp_all

/-- R350, R351: a CSR0 write. -/
theorem statusOk_csr0Write {d : Device} (h : d.statusOk) (v : Half) : (csr0Write d v).statusOk := by
  obtain ⟨-, hmust⟩ := (statusOk_iff d).mp h
  obtain ⟨l, hl⟩ : ∃ l, csr0ClearAndEnable d.latches v ||| csr0Demand d.state v = l := ⟨_, rfl⟩
  have hmay : ∀ i, l.getLsbD i = true → d.latches.getLsbD i = true ∨ d.state.mayLatch i := by
    intro i hi
    rw [← hl, BitVec.getLsbD_or, csr0ClearAndEnable_bit, csr0Demand_bit, Bool.or_eq_true] at hi
    rcases hi with hi | hi
    · split at hi
      · exact .inr (.inl ‹i = 6›)
      · exact .inl (Bool.and_eq_true_iff.mp hi).1
    · simp only [Bool.and_eq_true, decide_eq_true_eq] at hi
      obtain ⟨⟨rfl, -⟩, hr⟩ := hi
      simp [hr]
  have hkeep : ∀ i, d.state.mustLatch i → l.getLsbD i = true := by
    intro i hi
    have hlow : i < 2 := mustLatch_low hi
    have hcause : ¬(8 ≤ i ∧ i ≤ 14) := by omega
    rw [← hl, BitVec.getLsbD_or, csr0ClearAndEnable_bit, if_neg (by omega), hmust i hi, decide_eq_false hcause,
      Bool.and_false]
    rfl
  simp only [csr0Write, hl]
  split
  · exact statusOk_stopped rfl rfl
  · split
    · obtain ⟨-, hs⟩ := ‹_ ∧ d.state = .stopped›
      refine statusOk_advance 0 h rfl (by simp) ?_ ?_ hmay hkeep
      · simp +contextual [hs]
      · simp
    · split
      · obtain ⟨-, hs⟩ := ‹_ ∧ d.state = .initialised›
        refine statusOk_advance 1 h rfl (by simp) ?_ ?_ hmay hkeep
        · simp +contextual [hs, or_imp]
        · simp [hs]
      · exact statusOk_progress h (fun _ => id) hmay hkeep

/-! ### What a transition keeps of `Inv` -/

/-- R44. -/
theorem bump_lt (p : Params) (c n : Nat) : bump p c n < 2 ^ p.counterWidth := Nat.mod_lt _ (Nat.two_pow_pos _)

/-- R59. -/
theorem counters_zero_below {n : Nat} (h : 0 < n) : Counters.zero.below n := ⟨h, h, h, h, h, h, h, h, h⟩

section Counting

variable {p : Params} {c : Counters}

/-- R271. -/
theorem countTx_below (w1 w2 : Word) (len : Nat) (h : c.below (2 ^ p.counterWidth)) :
    (countTx p w1 w2 len c).below (2 ^ p.counterWidth) := by
  unfold countTx
  split <;> simp_all [Counters.below, bump_lt]

/-- R326. -/
theorem countCauses_below (v : Half) (h : c.below (2 ^ p.counterWidth)) :
    (countCauses p v c).below (2 ^ p.counterWidth) := by
  obtain ⟨h1, h2, h3, h4, h5, h6, h7, hcol, hmiss⟩ := h
  refine ⟨h1, h2, h3, h4, h5, h6, h7, ?_, ?_⟩
  · simp only [countCauses]
    split
    · exact bump_lt p _ 1
    · exact hcol
  · simp only [countCauses]
    split
    · exact bump_lt p _ 1
    · exact hmiss

end Counting

/-- R56: the cursors depend on the latched configuration and on themselves alone. -/
theorem cursorsOk_congr {d e : Device} (h : d.cursorsOk) (hcfg : e.cfg = d.cfg) (htx : e.devTx = d.devTx)
    (hrx : e.devRx = d.devRx) : e.cursorsOk := by
  rw [Device.cursorsOk, hcfg, htx, hrx]
  exact h

theorem csr0Write_cursorsOk {d : Device} (h : d.cursorsOk) (v : Half) : (csr0Write d v).cursorsOk := by
  unfold csr0Write
  split
  · exact h
  · simp only
    split
    · exact h
    · split <;> exact h

/-- R110: a cursor that advances is a slot number. -/
theorem advance_lt (k e : Nat) : advance k (ringSize e) < ringSize e := Nat.mod_lt _ (Nat.two_pow_pos e)

theorem afterReset_cursorsOk (n : Nat) : (Device.afterReset n).cursorsOk :=
  ⟨Nat.mod_lt _ (Nat.two_pow_pos _), Nat.mod_lt _ (Nat.two_pow_pos _)⟩

section Frame

variable {s t : State} (h : Inv s)

include h

theorem Inv.same (hp : t.params = s.params) (hd : t.device = s.device) (hm : t.memory = s.memory)
    (hc : t.counters = s.counters) : Inv t where
  memoryWf := hm ▸ h.memoryWf
  memoryInSpace := hm ▸ h.memoryInSpace
  statusOk := hd ▸ h.statusOk
  cursorsOk := hd ▸ h.cursorsOk
  countersBelow := by rw [hp, hc]; exact h.countersBelow

theorem Inv.record (e : Event) : Inv (s.record e) := h.same rfl rfl rfl rfl

theorem Inv.noteRead (who : Performer) (a n : Nat) : Inv (s.noteRead who a n) := h.record _

theorem Inv.store {a : Nat} {bs : List Byte} (ha : a + bs.length ≤ memTop) : Inv (s.store a bs) :=
  ⟨Memory.wf_setBytes h.memoryWf a bs, Memory.inSpace_setBytes h.memoryInSpace ha, h.statusOk, h.cursorsOk,
    h.countersBelow⟩

theorem Inv.memWrite {a : Nat} {bs : List Byte} (who : Performer) (ha : a + bs.length ≤ memTop) :
    Inv (s.memWrite who a bs) := (h.store ha).record _

theorem Inv.mapBytes {len : Nat} {phys : Word} (f : Word) (hp : phys.toNat + len ≤ memTop) :
    Inv (s.mapBytes f len phys) := h.store (by rwa [mappedBytes_length])

theorem Inv.withDevice {d : Device} (hs : d.statusOk) (hc : d.cursorsOk) : Inv (s.withDevice d) :=
  ⟨h.memoryWf, h.memoryInSpace, hs, hc, h.countersBelow⟩

theorem Inv.count {f : Counters → Counters} (hf : (f s.counters).below (2 ^ s.params.counterWidth)) :
    Inv (s.count f) := ⟨h.memoryWf, h.memoryInSpace, h.statusOk, h.cursorsOk, hf⟩

/-- R292: the counters of a delivered, a bad and a dropped frame. -/
theorem Inv.rxDelivered (len : Nat) : Inv (rxDelivered len s) := by
  obtain ⟨h1, h2, h3, -, -, h6, h7, h8, h9⟩ := h.countersBelow
  exact h.count (f := fun c => { c with rxPackets := _, rxBytes := _ })
    ⟨h1, h2, h3, bump_lt _ _ _, bump_lt _ _ _, h6, h7, h8, h9⟩

theorem Inv.rxErrors : Inv (s.count fun c => { c with rxErrors := bump s.params c.rxErrors 1 }) := by
  obtain ⟨h1, h2, h3, h4, h5, -, h7, h8, h9⟩ := h.countersBelow
  exact h.count ⟨h1, h2, h3, h4, h5, bump_lt _ _ _, h7, h8, h9⟩

theorem Inv.rxDropped : Inv (s.count fun c => { c with rxDropped := bump s.params c.rxDropped 1 }) := by
  obtain ⟨h1, h2, h3, h4, h5, h6, -, h8, h9⟩ := h.countersBelow
  exact h.count ⟨h1, h2, h3, h4, h5, h6, bump_lt _ _ _, h8, h9⟩

end Frame

/-! ### The shared operations -/

section Ops

variable {s t : State}

theorem checkWord_inSpace {a : Nat} {u : Unit} (e : s.checkWord a = .ok u) : a + 4 ≤ memTop := by
  unfold State.checkWord at e
  split at e
  · cases e
  · split at e
    · cases e
    · omega

theorem checkBytes_inSpace {a n : Nat} {u : Unit} (e : s.checkBytes a n = .ok u) : a + n ≤ memTop := by
  unfold State.checkBytes at e
  split at e
  · cases e
  · omega

theorem admits_inSpace {p n : Nat} (e : s.admits p n = true) : p + n ≤ memTop := by
  simp only [State.admits, Bool.and_eq_true, decide_eq_true_eq] at e
  exact e.1

/-- R110: the words of a slot stand in order. -/
theorem slotAddr_inSpace {base : Word} {i k l : Nat} (h : slotAddr base i l + 4 ≤ memTop) (hk : k ≤ l) :
    slotAddr base i k + 4 ≤ memTop := by
  unfold slotAddr at *
  omega

variable (h : Inv s)

include h

theorem Inv.draw : Inv s.draw.2 := by
  unfold State.draw
  split <;> exact h.same rfl rfl rfl rfl

theorem Inv.widen (S : Strategy) (v : Half) : Inv (widen S v s).2 := by
  cases S with
  | wio => exact h
  | dwio => exact h.draw

theorem Inv.writeRap (S : Strategy) (i : Half) : Inv (writeRap S i s) := by
  unfold Machine.writeRap
  split
  · exact (h.record _).withDevice h.statusOk h.cursorsOk
  · exact h.record _

theorem Inv.readData (S : Strategy) (file : RegFile) : Inv (readData S file s).2 := by
  unfold Machine.readData
  simp only
  split
  · split
    · exact (h.widen S _).record _
    · exact (h.draw.widen S _).record _
  · exact h.draw.record _

/-- R350, R356: the device after a write through RDP. -/
theorem Inv.csrStore {x : Half} {d : Device} (e : csrStore s.device x = some d) : d.statusOk ∧ d.cursorsOk := by
  unfold Machine.csrStore at e
  split at e
  · cases e
    exact ⟨statusOk_csr0Write h.statusOk x, csr0Write_cursorsOk h.cursorsOk x⟩
  · split at e
    · cases e
      exact ⟨h.statusOk, h.cursorsOk⟩
    · split at e <;> cases e
      exact ⟨h.statusOk, h.cursorsOk⟩

theorem Inv.writeData {S : Strategy} {file : RegFile} {x : Half} (e : writeData S file x s = .ok t) : Inv t := by
  unfold Machine.writeData at e
  simp only at e
  split at e
  · split at e <;> cases e
    cases file with
    | bcr => cases ‹none = some _›
    | csr =>
      obtain ⟨hs, hc⟩ := h.csrStore (by assumption)
      exact (h.record _).withDevice hs hc
  · cases e
    exact h.record _

theorem Inv.readReset (S : Strategy) : Inv (readReset S s) := by
  unfold Machine.readReset
  simp only
  split
  · exact (h.draw.withDevice (statusOk_stopped rfl rfl) (afterReset_cursorsOk _)).record _
  · exact h.draw.record _

theorem Inv.allocate {u : AllocUse} {n : Nat} {x : Nat × Word × State} (e : s.allocate u n = .ok x) : Inv x.2.2 := by
  unfold State.allocate at e
  simp only at e
  split at e
  · split at e <;> cases e
    exact h.same rfl rfl rfl rfl
  · cases e

theorem Inv.hostSlotWrite {r : Ring} {i k : Nat} {v : Word} (e : s.hostSlotWrite r i k v = .ok t) : Inv t := by
  obtain ⟨_, hw, e⟩ := bind_ok_cases e
  obtain ⟨_, -, e⟩ := bind_ok_cases e
  cases e
  exact h.memWrite _ (checkWord_inSpace hw)

theorem Inv.hostSlotRead {r : Ring} {i k : Nat} {x : Word × State} (e : s.hostSlotRead r i k = .ok x) : Inv x.2 := by
  obtain ⟨_, -, e⟩ := bind_ok_cases e
  obtain ⟨_, -, e⟩ := bind_ok_cases e
  cases e
  exact h.noteRead _ _ _

end Ops

/-! ### The device's steps -/

section Device

variable {s t : State}

theorem Inv.devInit (h : Inv s) (e : devInit s = .ok t) : Inv t := by
  unfold Machine.devInit at e
  split at e
  · obtain ⟨_, -, e⟩ := bind_ok_cases e
    cases e
    exact (h.noteRead _ _ _).withDevice (statusOk_initialised h.statusOk ‹_›)
      ⟨Nat.two_pow_pos _, Nat.two_pow_pos _⟩
  · cases e
    exact h

/-- R362: TINT, and CERR where the device chooses it. -/
theorem transmitted_statusOk {d : Device} (h : d.statusOk) (hr : d.state = .running) (cerr : Bool) :
    (d.transmitted cerr).statusOk := by
  have hlatched : (d.latch (csr0TINT ||| if cerr then csr0CERR else 0#16)).statusOk :=
    statusOk_latch_cause h hr (by cases cerr <;> decide)
  rw [Device.latch, ← BitVec.or_assoc] at hlatched
  exact hlatched

theorem Inv.txComplete {w1 status any : Word} {cerr : Bool} (h : Inv s) (hr : s.device.state = .running)
    (e : txComplete w1 status any cerr s = .ok t) : Inv t := by
  obtain ⟨_, hw, e⟩ := bind_ok_cases e
  cases e
  have hw2 := checkWord_inSpace hw
  exact ((h.memWrite _ hw2).memWrite _ (slotAddr_inSpace hw2 (by decide))).withDevice
    (transmitted_statusOk h.statusOk hr cerr) ⟨advance_lt _ _, h.cursorsOk.2⟩

theorem Inv.txTransmit {w1 status any : Word} {cerr : Bool} (h : Inv s) (hr : s.device.state = .running)
    (e : txTransmit w1 status any cerr s = .ok t) : Inv t := by
  obtain ⟨_, -, e⟩ := bind_ok_cases e
  exact Inv.txComplete (((h.noteRead _ _ _).noteRead _ _ _).record _) hr e

theorem Inv.txSlot {status any : Word} {cerr : Bool} (h : Inv s) (hr : s.device.state = .running)
    (e : txSlot status any cerr s = .ok t) : Inv t := by
  obtain ⟨_, -, e⟩ := bind_ok_cases e
  simp only at e
  split at e
  · cases e
    exact h.noteRead _ _ _
  · split at e
    · cases e
    · exact Inv.txTransmit (h.noteRead _ _ _) hr e

theorem Inv.devTxPoll {status any : Word} {cerr : Bool} (h : Inv s) (e : devTxPoll status any cerr s = .ok t) :
    Inv t := by
  unfold Machine.devTxPoll at e
  split at e
  · exact Inv.txSlot (h.withDevice (statusOk_demandCleared h.statusOk) h.cursorsOk) ‹_› e
  · cases e
    exact h

/-- R363, R373: a stored slot; the device stays in RUNNING, so that it may store more. -/
theorem Inv.rxStore {off : Nat} {bs : List Byte} {w1 w2 : Word} (h : Inv s) (hr : s.device.state = .running)
    (e : rxStore off bs w1 w2 s = .ok t) : Inv t ∧ t.device.state = .running := by
  obtain ⟨_, hw, e⟩ := bind_ok_cases e
  obtain ⟨_, hb, e⟩ := bind_ok_cases e
  cases e
  have hw2 := checkWord_inSpace hw
  have hbuf := (h.noteRead .device (devRxAddr s 0) 4).memWrite .device (checkBytes_inSpace hb)
  exact ⟨((hbuf.memWrite _ hw2).memWrite _ (slotAddr_inSpace hw2 (by decide))).withDevice
    (statusOk_latch_cause h.statusOk hr (by decide)) ⟨h.cursorsOk.1, advance_lt _ _⟩, hr⟩

theorem Inv.oversizeMore : ∀ {os : List OversizeSlot} {s : State}, Inv s → s.device.state = .running →
    oversizeMore os s = .ok t → Inv t
  | [], _, h, _, e => by
    cases e
    exact h
  | o :: os, s, h, hr, e => by
    obtain ⟨_, -, e⟩ := bind_ok_cases e
    simp only at e
    split at e
    · obtain ⟨u, hu, e⟩ := bind_ok_cases e
      obtain ⟨hu, hur⟩ := Inv.rxStore (h.noteRead _ _ _) hr hu
      exact Inv.oversizeMore hu hur e
    · cases e
      exact h.noteRead _ _ _

theorem Inv.rxFrame {frame : List Byte} {fcs errs x y w1 : Word} {os : List OversizeSlot} (h : Inv s)
    (hr : s.device.state = .running) (e : rxFrame frame fcs errs x y os w1 s = .ok t) : Inv t := by
  unfold Machine.rxFrame at e
  split at e
  · cases e
    exact h.withDevice (statusOk_latch_cause h.statusOk hr (by decide)) h.cursorsOk
  · obtain ⟨u, hu, e⟩ := bind_ok_cases e
    cases e
    split at hu
    · exact (Inv.rxStore h hr hu).1.record _
    · obtain ⟨v, hv, hu⟩ := bind_ok_cases hu
      obtain ⟨hv, hvr⟩ := Inv.rxStore h hr hv
      exact (Inv.oversizeMore hv hvr hu).record _

theorem Inv.devReceive {frame : List Byte} {fcs errs x y : Word} {os : List OversizeSlot} (h : Inv s)
    (e : devReceive frame fcs errs x y os s = .ok t) : Inv t := by
  unfold Machine.devReceive at e
  split at e
  · obtain ⟨hr, -⟩ := ‹_ ∧ _›
    obtain ⟨_, -, e⟩ := bind_ok_cases e
    exact Inv.rxFrame (h.noteRead _ _ _) hr e
  · cases e
    exact h

theorem Inv.devCause {b : Half} (hb : b &&& csr0Causes = b) (h : Inv s) (e : devCause b s = .ok t) : Inv t := by
  unfold Machine.devCause at e
  split at e <;> cases e
  · exact h.withDevice (statusOk_latch_cause h.statusOk ‹_› hb) h.cursorsOk
  · exact h

theorem Inv.deviceStep {m : DeviceStep} (h : Inv s) (e : deviceStep m s = .ok t) : Inv t := by
  cases m with
  | init => exact h.devInit e
  | txPoll status any cerr => exact h.devTxPoll e
  | receive frame fcs errs x y os => exact h.devReceive e
  | cerr | babl | merr => exact h.devCause (by decide) e

end Device

/-! ### The primitives -/

section Primitives

variable {a : Agent} {i : Instr} {s s' : State} {x : State × List Prim}

theorem Inv.afterAcquire (h : Inv s) : Inv (afterAcquire i s).1 := by
  cases i with
  | openDev mac =>
    simp only [Machine.afterAcquire, openBody]
    split
    · exact h
    · exact h.same rfl rfl rfl rfl
  | _ => exact h

theorem Inv.quietStep {q : Quiet} (h : Inv s) (e : quietStep a i q s = .ok x) : Inv x.1 := by
  cases q with
  | refuse | raise => cases e
  | releaseRing r =>
    simp only [Machine.quietStep] at e
    split at e <;> cases e
    exact h
  | ringFreed r | ringMade r =>
    cases e
    cases r <;> exact h.same rfl rfl rfl rfl
  | attachDone =>
    cases e
    exact ⟨h.memoryWf, h.memoryInSpace, h.statusOk, h.cursorsOk, counters_zero_below (Nat.two_pow_pos _)⟩
  | reclaimed k w1 w2 len =>
    cases e
    exact (h.count (countTx_below w1 w2 len h.countersBelow)).same rfl rfl rfl rfl
  | rxDelivered len =>
    cases e
    exact h.rxDelivered len
  | acked v deferred =>
    cases e
    exact (h.count (countCauses_below v h.countersBelow)).same rfl rfl rfl rfl
  | _ =>
    cases e
    exact h.same rfl rfl rfl rfl

theorem Inv.onRead (h : Inv s) (k : OnRead) (v : Half) : Inv (onRead k v s).1 := by
  cases k with
  | probe S =>
    simp only [Machine.onRead, probed]
    split
    · exact h.same rfl rfl rfl rfl
    · cases S <;> exact h
  | _ => exact h

theorem Inv.onWord (h : Inv s) (k : OnWord) (w : Word) : Inv (onWord k w s).1 := by
  cases k with
  | drainStatus left n w1 =>
    simp only [Machine.onWord, drainStatus]
    split
    · exact h.rxErrors
    · exact h
  | _ => exact h

/-- Every primitive keeps `Inv`. -/
theorem Inv.perform {p : Prim} (h : Inv s) (e : perform a i p s = .ok x) : Inv x.1 := by
  cases p with
  | acquire =>
    simp only [Machine.perform, acquireStep] at e
    split at e <;> cases e
    exact Inv.afterAcquire (h.same rfl rfl rfl rfl)
  | rap via idx =>
    obtain ⟨S, e⟩ := withStrategy_ok e
    cases e
    exact h.writeRap S idx
  | dataGet via file k =>
    obtain ⟨S, e⟩ := withStrategy_ok e
    cases e
    exact (h.readData S file).onRead k _
  | dataPut via file x =>
    obtain ⟨S, e⟩ := withStrategy_ok e
    obtain ⟨t, ht, e⟩ := bind_ok_cases e
    cases e
    exact h.writeData ht
  | resetPort via =>
    obtain ⟨S, e⟩ := withStrategy_ok e
    cases e
    exact h.readReset S
  | allocIb | allocBuf =>
    obtain ⟨y, hy, e⟩ := bind_ok_cases e
    cases e
    exact (h.allocate hy).same rfl rfl rfl rfl
  | allocRing r n =>
    obtain ⟨y, hy, e⟩ := bind_ok_cases e
    cases e
    exact h.allocate hy
  | zeroIb | ibPut =>
    obtain ⟨_, hb, e⟩ := bind_ok_cases e
    cases e
    exact h.memWrite _ (checkBytes_inSpace hb)
  | zeroWord =>
    obtain ⟨_, hw, e⟩ := bind_ok_cases e
    cases e
    exact h.memWrite _ (checkWord_inSpace hw)
  | slotPut r k word v =>
    obtain ⟨t, ht, e⟩ := bind_ok_cases e
    cases e
    exact h.hostSlotWrite ht
  | slotGet r k word c =>
    obtain ⟨y, hy, e⟩ := bind_ok_cases e
    cases e
    exact (h.hostSlotRead hy).onWord c _
  | mapFrame addr len =>
    simp only [Machine.perform, mapFrameStep] at e
    split at e <;> cases e
    have hasked : Inv (s.takeMap.record (.call (.mapForDevice addr len .toDevice s.mapAnswer))) :=
      h.same rfl rfl rfl rfl
    exact (hasked.mapBytes addr (admits_inSpace ‹_›)).same rfl rfl rfl rfl
  | allocFrame k len =>
    simp only [Machine.perform, allocFrameStep, frameAllocated] at e
    have hasked : Inv (s.takeFrame.record (.call (.allocFrame len s.frameAnswer))) := h.same rfl rfl rfl rfl
    split at e <;> cases e
    · exact hasked
    · exact hasked.rxDropped
  | copyFrame k len hd =>
    simp only [Machine.perform, copyFrameStep] at e
    split at e
    · obtain ⟨_, -, e⟩ := bind_ok_cases e
      obtain ⟨_, -, e⟩ := bind_ok_cases e
      cases e
      exact h.same rfl rfl rfl rfl
    · cases e
  | release | freeIb | free | unmap | releaseFrame | stopQueue | wakeQueue | deliver =>
    cases e
    exact h.same rfl rfl rfl rfl
  | quiet q => exact h.quietStep e

end Primitives

/-- What `Kept.step` asks of the invariant. -/
theorem kept_inv : Kept Inv where
  perform h e := h.perform e
  device h e := h.deviceStep e
  sequencer h := h.same rfl rfl rfl rfl
  issued h := h.record _
  hostFrame h := h.same rfl rfl rfl rfl

/-- Settles O55: nothing is written, the device is stopped with no latch, and the cursors and counters are 0. -/
theorem invHoldsAtReset : Obligations.InvHoldsAtReset where
  memoryWf := .nil
  memoryInSpace := nofun
  statusOk := statusOk_stopped rfl rfl
  cursorsOk := ⟨Nat.two_pow_pos _, Nat.two_pow_pos _⟩
  countersBelow := counters_zero_below (Nat.two_pow_pos _)

/-- Settles O56, by the one induction over a step: every primitive and every device step keeps `Inv`. -/
theorem invKeptByEveryStep : Obligations.InvKeptByEveryStep := fun _ _ h e => kept_inv.step h e

end Sys2Proof.Machine
end

section
/-! SUPPORT. RDBCR alone (40_register_interface.md R182): the two accesses of `bcr_read` (R173), then the reply. -/

namespace Sys2Proof.Machine

variable {s : State}

theorem draw_frame : ∃ o : Oracle, s.draw.2 = { s with oracle := o } := by
  unfold State.draw
  split <;> exact ⟨_, rfl⟩

theorem widen_frame (S : Strategy) (v : Half) (s : State) : ∃ o : Oracle, (widen S v s).2 = { s with oracle := o } := by
  cases S with
  | wio => exact ⟨s.oracle, rfl⟩
  | dwio => exact draw_frame

/-- R171, R357, R369: a read of a data port answers the low half of the port value and records it; only draws are used
up. -/
theorem readData_effect (S : Strategy) (file : RegFile) (s : State) : ∃ (w : Word) (o : Oracle),
    readData S file s = (w.extractLsb' 0 16,
      { s with oracle := o, history := .ioRead S.width (dataPort S s.params file) w :: s.history }) := by
  have hdone : ∀ {x : Word × State}, (∃ o, x.2 = { s with oracle := o }) → ∃ (w : Word) (o : Oracle),
      (x.1.setWidth 16, x.2.record (.ioRead S.width (dataPort S s.params file) x.1)) = (w.extractLsb' 0 16,
        { s with oracle := o, history := .ioRead S.width (dataPort S s.params file) w :: s.history }) := by
    rintro ⟨w, u⟩ ⟨o, rfl⟩
    exact ⟨w, o, by rw [BitVec.setWidth_eq_extractLsb' (by decide)]; rfl⟩
  obtain ⟨od, hd⟩ := draw_frame (s := s)
  unfold readData
  simp only
  split
  · split
    · exact hdone (widen_frame S _ s)
    · refine hdone ?_
      obtain ⟨o, ho⟩ := widen_frame S (BitVec.ofNat 16 s.draw.1) s.draw.2
      exact ⟨o, by rw [ho, hd]⟩
  · exact hdone (x := (_, s.draw.2)) ⟨od, hd⟩

/-- R171, R173: on an answered mode a write of RAP sets it. -/
theorem writeRap_answered {S : Strategy} (h : answers s.params S = true) (i : Half) : writeRap S i s =
    { s with
      device := { s.device with rap := i },
      history := .ioWrite S.width (rapPort S s.params) (i.setWidth 32) :: s.history } := by
  unfold writeRap
  rw [if_pos h]
  rfl

/-- The state after `IoWrite` of RAP and `IoRead` of a data port that returned `w`. -/
def State.portRead (s : State) (S : Strategy) (file : RegFile) (idx : Half) (w : Word) (o : Oracle) : State :=
  { s with
    device := { s.device with rap := idx }, oracle := o,
    history := .ioRead S.width (dataPort S s.params file) w ::
      .ioWrite S.width (rapPort S s.params) (idx.setWidth 32) :: s.history }

/-- R171, R173: `csr_read` and `bcr_read` on an answered mode. -/
theorem runPrims_portRead {S : Strategy} (hm : s.answeredBy S) (file : RegFile) (idx : Half) :
    ∃ (w : Word) (o : Oracle), ∀ (a : Agent) (i : Instr) (n : Nat) (k : OnRead) (rest : List Prim),
      runPrims a i (n + 2) (.rap .bound idx :: .dataGet .bound file k :: rest) s =
        runPrims a i n ((onRead k (w.extractLsb' 0 16) (s.portRead S file idx w o)).2 ++ rest)
          (onRead k (w.extractLsb' 0 16) (s.portRead S file idx w o)).1 := by
  obtain ⟨hmode, hans⟩ := hm
  obtain ⟨u, hu⟩ : ∃ u, u = writeRap S idx s := ⟨_, rfl⟩
  obtain ⟨w, o, hread⟩ := readData_effect S file u
  have hmode : Via.bound.resolve s.mode = some S := hmode
  have hmode' : Via.bound.resolve u.mode = some S := by
    rw [hu, writeRap_answered hans]
    exact hmode
  have hport : readData S file u = (w.extractLsb' 0 16, s.portRead S file idx w o) := by
    rw [hread, hu, writeRap_answered hans]
    rfl
  refine ⟨w, o, fun a i n k rest => ?_⟩
  rw [runPrims_rap hmode, ← hu, runPrims_dataGet hmode', hport]

/-- A mode that names a strategy is not NONE. -/
theorem mode_ne_none {m : Mode} {S : Strategy} (h : m.strategy = some S) : m ≠ .none := by
  rintro rfl
  cases h

/-- R182: RDBCR alone, without its issue. -/
theorem runPrims_rdbcr {S : Strategy} (hlock : s.lockOwner = none) (hm : s.answeredBy S) (a : Agent) (idx : Half) :
    ∃ (w : Word) (o : Oracle), runPrims a (.rdbcr idx) 5 (script (.rdbcr idx)) s =
      some (.ok ((s.portRead S .bcr idx w o).giveReply a (.rdbcr idx) ⟨.ok, w.extractLsb' 0 16⟩)) := by
  have hbody : afterAcquire (.rdbcr idx) { s with lockOwner := some a } =
      ({ s with lockOwner := some a }, [.rap .bound idx, .dataGet .bound .bcr .reply]) := by
    simp only [afterAcquire, rdbcrBody, rawBody, if_neg (mode_ne_none hm.1)]
    rfl
  obtain ⟨w, o, hread⟩ := runPrims_portRead (s := { s with lockOwner := some a }) hm .bcr idx
  refine ⟨w, o, ?_⟩
  rw [script, runPrims_acquire hlock (by simp [teardown]) rfl, hbody]
  simp only [List.cons_append, List.nil_append]
  rw [hread]
  simp only [onRead, releaseReturn, List.append_nil, runPrims_release, runPrims_ret, runPrims_nil]
  rw [State.portRead, State.portRead, ← hlock]

/-- Settles O18: the run of RDBCR alone, with the issue recorded before it. -/
theorem rdbcrReads : Obligations.RdbcrReads := by
  intro s idx S hready hm
  obtain ⟨hidle, hlock, hsched⟩ := hready
  obtain ⟨w, o, hrun⟩ := runPrims_rdbcr (s := s.record (.issued s.caller (.rdbcr idx))) hlock hm s.caller idx
  exact ⟨w, o, _, runCommand_eval 5 hidle hsched hrun, rfl, fun _ => rfl⟩

end Sys2Proof.Machine
end

section
/-! SUPPORT. XMIT and RECLAIM alone and the invariant of the TX ring (10_state.md R34, R35; 43_transmit.md R274): where
a run ends, whichever of its primitives stops it. -/

namespace Sys2Proof.Machine

/-- The run of these primitives comes to an end within `n` of them: a stop, or a state with `Q`. -/
def Ends (a : Agent) (i : Instr) (Q : State → Prop) (n : Nat) (todo : List Prim) (s : State) : Prop :=
  ∃ r m, m ≤ n ∧ Runs a i todo s r m ∧ ∀ t, r = .ok t → Q t

section Ends

variable {a : Agent} {i : Instr} {Q : State → Prop} {n : Nat} {p : Prim} {rest : List Prim} {s t : State}

theorem Ends.nil (h : Q s) : Ends a i Q n [] s :=
  ⟨.ok s, 0, Nat.zero_le n, .done s, fun _ e => by cases e; exact h⟩

theorem Ends.mono {k : Nat} (h : Ends a i Q k rest s) (hk : k ≤ n) : Ends a i Q n rest s := by
  obtain ⟨r, m, hm, hrun, hQ⟩ := h
  exact ⟨r, m, le_trans hm hk, hrun, hQ⟩

/-- A primitive that does not wait: it stops the run, or the run goes on from what it answers. -/
theorem Ends.cons (hr : ready i p s)
    (h : ∀ s' ps, perform a i p s = .ok (s', ps) → Ends a i Q n (ps ++ rest) s') :
    Ends a i Q (n + 1) (p :: rest) s := by
  rcases hp : perform a i p s with ⟨s', ps⟩ | ⟨w, f⟩
  · obtain ⟨r, m, hm, hrun, hQ⟩ := h s' ps hp
    exact ⟨r, m + 1, by omega, .step hr hp hrun, hQ⟩
  · refine ⟨.stop w f, 1, by omega, .stop hr hp, fun t e => ?_⟩
    cases e

/-- A command alone that answers a next state has come to the end of its run. -/
theorem next_of_ends (hs : s.sched = []) (hn : n ≤ fuel s) (h : Ends a i Q n (script i) (s.record (.issued a i)))
    (e : runCommand a i s = .next t) : Q t := by
  obtain ⟨r, m, hm, hrun, hend⟩ := h
  by_cases hi : s.isIdle a = true
  · obtain ⟨x, hx⟩ := runCommand_runs hi hs hrun (by omega)
    rw [hx] at e
    cases r with
    | stop w f => cases w <;> cases e
    | ok u =>
      cases e
      exact hend _ rfl
  · simp only [runCommand, hi] at e
    cases e

end Ends

/-! ### The primitives that leave the TX ring alone -/

/-- The primitives of XMIT and RECLAIM that leave the TX ring registers and go on to no other primitive. -/
def Prim.still : Prim → Bool
  | .release => true
  | .rap _ _ => true
  | .dataPut _ _ _ => true
  | .slotPut _ _ _ _ => true
  | .stopQueue => true
  | .quiet .fenceW => true
  | .quiet .defIdle => true
  | .quiet (.ret _ _) => true
  | _ => false

section Still

variable {a : Agent} {i : Instr} {Q : State → Prop} {n : Nat} {p : Prim} {s s' : State} {ps pre rest : List Prim}

theorem writeRap_tx (S : Strategy) (idx : Half) : (writeRap S idx s).tx = s.tx := by
  unfold writeRap
  split <;> rfl

theorem writeData_tx {S : Strategy} {file : RegFile} {x : Half} (e : writeData S file x s = .ok s') : s'.tx = s.tx := by
  unfold writeData at e
  simp only at e
  split at e
  · split at e <;> cases e
    rfl
  · cases e
    rfl

theorem hostSlotWrite_tx {r : Ring} {k word : Nat} {v : Word} (e : s.hostSlotWrite r k word v = .ok s') :
    s'.tx = s.tx := by
  obtain ⟨_, -, e⟩ := bind_ok_cases e
  obtain ⟨_, -, e⟩ := bind_ok_cases e
  cases e
  rfl

theorem perform_still (h : p.still = true) (e : perform a i p s = .ok (s', ps)) : s'.tx = s.tx ∧ ps = [] := by
  cases p with
  | rap via idx =>
    obtain ⟨S, e⟩ := withStrategy_ok e
    cases e
    exact ⟨writeRap_tx S idx, rfl⟩
  | dataPut via file x =>
    obtain ⟨S, e⟩ := withStrategy_ok e
    obtain ⟨t, ht, e⟩ := bind_ok_cases e
    cases e
    exact ⟨writeData_tx ht, rfl⟩
  | slotPut r k word v =>
    obtain ⟨t, ht, e⟩ := bind_ok_cases e
    cases e
    exact ⟨hostSlotWrite_tx ht, rfl⟩
  | release | stopQueue =>
    cases e
    exact ⟨rfl, rfl⟩
  | quiet q =>
    cases q with
    | fenceW | defIdle | ret =>
      cases e
      exact ⟨rfl, rfl⟩
    | _ => cases h
  | _ => cases h

theorem ready_of_still (h : p.still = true) : ready i p s := by
  rintro rfl
  cases h

/-- A row of such primitives, and then the others. -/
theorem Ends.still : ∀ {pre : List Prim} {s : State}, (∀ p ∈ pre, p.still = true) →
    (∀ t, t.tx = s.tx → Ends a i Q n rest t) → Ends a i Q (n + pre.length) (pre ++ rest) s
  | [], s, _, h => h s rfl
  | p :: pre, s, hp, h => by
    obtain ⟨hp, hpre⟩ := List.forall_mem_cons.mp hp
    refine Ends.cons (n := n + pre.length) (ready_of_still hp) fun s' ps e => ?_
    obtain ⟨htx, rfl⟩ := perform_still hp e
    exact Ends.still hpre fun t ht => h t (ht.trans htx)

/-- The end of a command that no longer touches the TX ring. -/
theorem ends_of_still (hp : ∀ p ∈ pre, p.still = true) (hn : pre.length ≤ n) (h : s.tx.inv) :
    Ends a i (fun t => t.tx.inv) n pre s := by
  have hend : Ends a i (fun t => t.tx.inv) (0 + pre.length) (pre ++ []) s :=
    Ends.still hp fun t ht => .nil (ht ▸ h)
  rw [List.append_nil, Nat.zero_add] at hend
  exact hend.mono hn

end Still

/-! ### XMIT -/

/-- R110: the slot at a distance from another, around the ring. -/
theorem slot_at_distance {i l c n : Nat} (hi : i < n) (hl : l < n) (hc : c < n) :
    (i + n - l) % n = c ↔ i = (l + c) % n := by
  have hdist : (i + n - l) % n = if l ≤ i then i - l else i + n - l := by
    split
    · rw [show i + n - l = i - l + n by omega, Nat.add_mod_right, Nat.mod_eq_of_lt (by omega)]
    · exact Nat.mod_eq_of_lt (by omega)
  have hslot : (l + c) % n = if l + c < n then l + c else l + c - n := by
    split
    · exact Nat.mod_eq_of_lt ‹_›
    · rw [Nat.mod_eq_sub_mod (by omega), Nat.mod_eq_of_lt (by omega)]
  rw [hdist, hslot]
  split <;> split <;> omega

/-- R260: the slot taken by XMIT is the first one behind the frames in flight. -/
theorem inv_enqueue {t : TxRing} (h : t.inv) (hc : t.count < ringSize t.exp) (m : TxMapping) :
    TxRing.inv { t with
      map := t.map.set t.current (some m), current := advance t.current (ringSize t.exp), count := t.count + 1 } := by
  obtain ⟨⟨hcur, hlast, hcount, hnext⟩, hlen, hslots⟩ := h
  refine ⟨⟨advance_lt _ _, hlast, hc, ?_⟩, (List.length_set ..).trans hlen, fun i hi => ?_⟩
  · change (t.last + (t.count + 1)) % ringSize t.exp = (t.current + 1) % ringSize t.exp
    rw [← hnext, Nat.mod_add_mod, Nat.add_assoc]
  · change ((t.map.set t.current (some m))[i]?.join).isSome = true ↔
      (i + ringSize t.exp - t.last) % ringSize t.exp < t.count + 1
    have hdist : (i + ringSize t.exp - t.last) % ringSize t.exp = t.count ↔ i = (t.last + t.count) % ringSize t.exp :=
      slot_at_distance hi hlast hc
    rw [hnext] at hdist
    by_cases hic : i = t.current
    · rw [hic, List.getElem?_set_self (by omega), ← hic, hdist.mpr hic]
      simp
    · rw [List.getElem?_set_ne (Ne.symm hic), hslots i hi]
      have hne := mt hdist.mp hic
      omega

/-- R262, R260, R261: the publish of a frame mapped into the free slot, the cursor and count, the demand. -/
theorem ends_publish {a : Agent} {i : Instr} {s t : State} {m : TxMapping} (h : s.tx.inv)
    (hc : s.tx.count < ringSize s.tx.exp) (ht : t.tx = { s.tx with map := s.tx.map.set s.tx.current (some m) })
    (k len : Nat) (phys : Word) :
    Ends a i (fun t => t.tx.inv) 10 (publishSteps k len phys) t := by
  have hput : ∀ p ∈ [Prim.slotPut .tx k 0 phys, .slotPut .tx k 2 0#32, .quiet .fenceW,
      .slotPut .tx k 1 (txPublishWord len)], p.still = true := by
    simp [Prim.still]
  refine Ends.still (n := 6) (rest := [.quiet .enqueued, .quiet .demand]) hput fun u hu => ?_
  refine Ends.cons (n := 5) nofun fun u' ps e => ?_
  cases e
  refine Ends.cons (n := 4) nofun fun v ps e => ?_
  cases e
  have hinv : (enqueued u).tx.inv := by
    rw [enqueued, hu, ht]
    exact inv_enqueue h hc m
  exact ends_of_still (by simp [demandSteps, csrWrite, releaseReturn, Prim.still]) le_rfl hinv

/-- R260, R263, R264: XMIT alone. -/
theorem ends_xmit {a : Agent} {addr : Word} {len : Nat} {s : State} (h : s.tx.inv) (hlock : s.lockOwner = none) :
    Ends a (.xmit addr len) (fun t => t.tx.inv) 12 (script (.xmit addr len)) s := by
  refine Ends.cons (n := 11) (fun _ => by simp [acquirable, State.lockFree, teardown, hlock]) fun s' ps e => ?_
  simp only [perform, acquireStep] at e
  split at e <;> cases e
  rw [List.append_nil]
  split
  · exact ends_of_still (by simp [releaseReturn, Prim.still]) (by simp [releaseReturn]) h
  · split
    · refine ends_of_still ?_ ?_ h
      · split <;> simp [releaseReturn, Prim.still]
      · split <;> simp [releaseReturn]
    · have hroom : s.tx.count < ringSize s.tx.exp := lt_of_le_of_ne h.1.2.2.1 ‹_›
      refine Ends.cons (n := 10) nofun fun t ps e => ?_
      simp only [perform, mapFrameStep] at e
      split at e <;> cases e
      rw [List.append_nil]
      exact ends_publish h hroom rfl _ _ _

/-! ### RECLAIM -/

/-- R270: RECLAIM alone. -/
theorem ends_reclaim {a : Agent} {s : State} (h : s.tx.inv) (hlock : s.lockOwner = none)
    (hp : ringPlaced s.tx.base s.tx.exp) :
    Ends a .reclaim (fun t => t.tx.inv) (7 * s.tx.count + 7) (script .reclaim) s := by
  refine Ends.cons (n := 7 * s.tx.count + 6) nofun fun s' ps e => ?_
  cases e
  refine Ends.cons (n := 7 * s.tx.count + 5) (fun _ => by simp [acquirable, State.lockFree, teardown, hlock])
    fun s' ps e => ?_
  cases e
  have hend : ∀ p ∈ [Prim.release, .quiet .defIdle, .quiet (.ret .ok 0#16)], p.still = true := by simp [Prim.still]
  rw [List.append_nil]
  split
  · obtain ⟨k, m, -, -, -, hinv, hm, hloop⟩ := reclaim_loop a .reclaim
      [.release, .quiet .defIdle, .quiet (.ret .ok 0#16)] s.tx.count { s with defBusy := true, lockOwner := some a }
      rfl h hp
    obtain ⟨r, q, hq, hrun, hQ⟩ := ends_of_still (a := a) (i := .reclaim) (n := 3) hend (by simp) hinv
    have hm : m ≤ 7 * s.tx.count + 2 := hm
    exact ⟨r, q + m, by omega, hloop r q hrun, hQ⟩
  · exact ends_of_still hend (by simp) h

/-- Settles O38: whichever primitive ends the run, the invariant holds there; a slot taken by XMIT and slots reclaimed
keep it. -/
theorem txRingInvariantKept : Obligations.TxRingInvariantKept := by
  intro s t i hsched hlock hsized hinv hplaced hi e
  have hfuel := fuel_ge s
  rcases hi with ⟨addr, len, rfl⟩ | rfl
  · exact next_of_ends hsched (by omega) (ends_xmit hinv hlock) e
  · have hcount : s.tx.count ≤ 2 ^ 15 :=
      le_trans hinv.1.2.2.1 (Nat.pow_le_pow_right (by omega) hsized.1)
    have hbound : 7 * s.tx.count + 7 ≤ fuel s := by omega
    exact next_of_ends hsched hbound (ends_reclaim (s := s.record (.issued .deferred .reclaim)) hinv hlock hplaced) e

end Sys2Proof.Machine
end

section
/-! SUPPORT. The byte-count encoding (20_memory.md R109), the descriptor bits a completed RX slot is classified by (R108),
the stored word (R92), the misaligned access (R94), and the device's INIT handshake (48_device_agent.md R360). -/

namespace Sys2Proof.Machine

/-! ### The byte-count field -/

/-- R105, R109: the low 12 bits of a descriptor word, as a number. -/
theorem toNat_low12 (x : Word) : (x &&& 0x00000FFF#32).toNat = x.toNat % 4096 :=
  Nat.and_two_pow_sub_one_eq_mod x.toNat 12

/-- R109: the low 12 bits hold the two's complement of the length. -/
theorem neg_low12 {len : Nat} (h1 : 1 ≤ len) (h2 : len ≤ 4095) :
    (-(BitVec.ofNat 32 len) &&& 0x00000FFF#32).toNat = 4096 - len := by
  rw [toNat_low12, BitVec.toNat_neg, BitVec.toNat_ofNat]
  omega

/-- R109: the ONES field stands above the byte count, so the two add up. -/
theorem toNat_bcnt16 {len : Nat} (h1 : 1 ≤ len) (h2 : len ≤ 4095) : (bcnt16 len).toNat = 0xF000 + (4096 - len) := by
  have hlow : 4096 - len < 2 ^ 12 := by omega
  calc (bcnt16 len).toNat = 2 ^ 12 * 15 ||| (4096 - len) := by rw [bcnt16, BitVec.toNat_or, neg_low12 h1 h2]; rfl
    _ = 2 ^ 12 * 15 + (4096 - len) := (Nat.two_pow_add_eq_or_of_lt hlow 15).symm

/-- R109: only the low 12 bits of a word count for the length it encodes. -/
theorem bcntLen_eq (w : Word) : bcntLen w = (4096 - w.toNat % 4096) % 4096 := by
  rw [bcntLen, toNat_low12, BitVec.toNat_neg, toNat_low12]
  omega

/-- Settles O10: the field is `65536 - len`, whose low 12 bits decode to `len` again. -/
theorem byteCountEncoding : Obligations.ByteCountEncoding := by
  intro len h1 h2
  have henc := toNat_bcnt16 h1 h2
  refine ⟨henc, by omega, fun w hw => ?_⟩
  have hlow : w.toNat % 4096 = (bcnt16 len).toNat % 4096 := by rw [← toNat_low12, ← toNat_low12, hw]
  rw [bcntLen_eq, hlow, henc]
  omega

/-! ### The classification of a completed RX slot -/

/-- A mask of one bit tests that bit. -/
theorem hasBits_twoPow (w : Word) (k : Nat) (hk : k < 32) : hasBits w (BitVec.twoPow 32 k) = w.getLsbD k := by
  have hne : BitVec.twoPow 32 k ≠ 0#32 := fun h => by
    have hbit := congrArg (fun v => v.getLsbD k) h
    simp [hk] at hbit
  rw [hasBits, BitVec.and_twoPow]
  cases w.getLsbD k <;> simp [hne]

/-- A word has a bit of two masks together where it has a bit of one of them. -/
theorem hasBits_or (w a b : Word) : hasBits w (a ||| b) = (hasBits w a || hasBits w b) := by
  rw [Bool.eq_iff_iff]
  simp only [hasBits, bne_iff_ne, ne_eq, Bool.or_eq_true, BitVec.and_or_distrib_left, BitVec.or_eq_zero_iff,
    Classical.not_and_iff_not_or_not]

/-- R108: `rx_err` reads ERR_D, FRAM, OFLO and CRC. -/
theorem rxErr_bits (w : Word) :
    rxErr w = (w.getLsbD 30 || w.getLsbD 29 || w.getLsbD 28 || w.getLsbD 27) := by
  have hmask : rxErrW1 =
      BitVec.twoPow 32 30 ||| BitVec.twoPow 32 29 ||| BitVec.twoPow 32 28 ||| BitVec.twoPow 32 27 := by decide
  rw [rxErr, hmask]
  simp only [hasBits_or, hasBits_twoPow w 30 (by decide), hasBits_twoPow w 29 (by decide),
    hasBits_twoPow w 28 (by decide), hasBits_twoPow w 27 (by decide)]

/-- R102: STP. -/
theorem hasBits_dSTP (w : Word) : hasBits w dSTP = w.getLsbD 25 := hasBits_twoPow w 25 (by decide)

/-- R102: ENP. -/
theorem hasBits_dENP (w : Word) : hasBits w dENP = w.getLsbD 24 := hasBits_twoPow w 24 (by decide)

/-- R105: MCNT is the field `w2[11:0]`. -/
theorem mcnt_eq (w : Word) : mcnt w = (w.extractLsb' 0 12).toNat :=
  (toNat_low12 w).trans (BitVec.extractLsb'_toNat 0 12 w).symm

/-- Settles O41: the bits of `rx_err`, STP, ENP and the two bounds on MCNT are the disjuncts of `rxBad`. -/
theorem rxClassification : Obligations.RxClassification := by
  intro n w1 w2
  simp only [rxBad, rxErr_bits, hasBits_dSTP, hasBits_dENP, mcnt_eq, Bool.or_eq_true, Bool.not_eq_true',
    decide_eq_true_eq, or_assoc]

/-! ### A stored word, a misaligned access -/

/-- R92: byte `k` of a stored word. -/
theorem memWrite_byte (s : State) (who : Performer) (a : Nat) (v : Word) {k : Nat} (hk : k < 4) :
    (s.memWrite who a (wordBytes v)).byteAt (a + k) = byteOf v k := by
  change (s.store a (wordBytes v)).byteAt (a + k) = byteOf v k
  rw [byteAt_store, if_pos (by rw [byteOf_length]; omega), Nat.add_sub_cancel_left]
  match k, hk with
  | 0, _ | 1, _ | 2, _ | 3, _ => rfl

/-- A stored word leaves every byte outside it alone. -/
theorem memWrite_outside (s : State) (who : Performer) (a : Nat) (v : Word) :
    s.sameBytesOutside (s.memWrite who a (wordBytes v)) [(a, 4)] :=
  fun _ hx => memWrite_other (hx (a, 4) (List.mem_singleton.mpr rfl))

/-- Settles O53: the bytes of a stored word, the word they make, and its frame. -/
theorem wordStoredLittleEndian : Obligations.WordStoredLittleEndian :=
  fun s a v => ⟨memWrite_word, fun _ hk => memWrite_byte s .host a v hk, memWrite_outside s .host a v⟩

/-- R94: the alignment of a descriptor-word access is checked before everything else (log 41). -/
theorem checkWord_misaligned {s : State} {a : Nat} (h : a % 4 ≠ 0) :
    s.checkWord a = .stop (.fault .misaligned (.address a)) s := by
  unfold State.checkWord
  rw [if_pos h]

/-- Settles O54: both accesses check the word's address first, and stop there. -/
theorem misalignedAccessFaults : Obligations.MisalignedAccessFaults := by
  intro s r i k v h
  constructor
  · rw [State.hostSlotWrite, checkWord_misaligned h]
    rfl
  · rw [State.hostSlotRead, checkWord_misaligned h]
    rfl

/-! ### The INIT handshake -/

/-- R360: in INITIALISING, with the Initialization Block in memory and splitting no descriptor word. -/
theorem devInit_ok {s : State} (hstate : s.device.state = .initialising)
    (hspace : s.device.ibAddr.toNat + ibSize ≤ memTop) (hsplit : s.splits s.device.ibAddr.toNat ibSize = false) :
    devInit s = .ok ((s.noteRead .device s.device.ibAddr.toNat ibSize).withDevice
      { s.device.latch csr0IDON with
        state := .initialised, cfg := latchCfg s s.device.ibAddr.toNat, devTx := 0, devRx := 0 }) := by
  unfold devInit
  rw [if_pos hstate]
  simp only [checkBytes_ok hspace hsplit, Res.bind]

/-- Settles O48: the step reads the block once and latches `latchCfg`, whose offsets are those of R112. -/
theorem deviceInitLatches : Obligations.DeviceInitLatches :=
  fun _ hstate hspace hsplit => ⟨_, devInit_ok hstate hspace hsplit, rfl⟩

end Sys2Proof.Machine
end

section
/-! SUPPORT. XMIT on a ring with room (43_transmit.md R260 to R262): the mapping, the publish, the demand; and the stop at
a slot the device still owns (20_memory.md R125). -/

namespace Sys2Proof.Machine

variable {s : State} {a : Agent} {i : Instr} {addr phys : Word} {len n : Nat} {ms : List Word}

/-- A command alone that evaluates to a stop. -/
theorem runCommand_eval_stop {f : State} {w : Stop} (n : Nat) (hi : s.isIdle a = true) (hs : s.sched = [])
    (h : runPrims a i n (script i) (s.record (.issued a i)) = some (.stop w f)) (hn : n ≤ 1048576 := by omega) :
    ∃ x, runCommand a i s = (Res.stop w (f.setActivity a x) : Res State).outcome a (some i) := by
  obtain ⟨m, hm, hrun⟩ := runs_of_runPrims h
  exact runCommand_stop hi hs hrun (by have := fuel_ge s; omega)

/-- R125: a host write of word 0 or 2 of a slot the device owns stops before the store. -/
theorem hostSlotWrite_owned {r : Ring} {k w : Nat} {v : Word} (haligned : slotAddr (s.ringBase r) k w % 4 = 0)
    (hspace : slotAddr (s.ringBase r) k w + 4 ≤ memTop) (hw : w ≠ 1)
    (hown : owned (s.wordAt (slotAddr (s.ringBase r) k 1)) = true) :
    s.hostSlotWrite r k w v = .stop (.fault .ownViolation (.address (slotAddr (s.ringBase r) k w))) s := by
  simp only [State.hostSlotWrite, checkWord_ok haligned hspace, Res.bind, if_neg hw, State.checkOwn, hown, if_true]

/-! ### A CSR write on an answered mode -/

/-- R172, R173: `csr_write` of a register the device models. -/
theorem runPrims_csrWrite {S : Strategy} {idx x : Half} {d : Device} {rest : List Prim} (hm : s.answeredBy S)
    (hd : csrStore { s.device with rap := idx } x = some d) :
    runPrims a i (n + 2) (csrWrite .bound idx x ++ rest) s = runPrims a i n rest { s with
      device := d,
      history := .ioWrite S.width (dataPort S s.params .csr) (x.setWidth 32) ::
        .ioWrite S.width (rapPort S s.params) (idx.setWidth 32) :: s.history } := by
  obtain ⟨hmode, hans⟩ := hm
  have hrap := writeRap_answered hans idx
  obtain ⟨u, hu⟩ : ∃ u, u = writeRap S idx s := ⟨_, rfl⟩
  have hmode' : Via.bound.resolve u.mode = some S := by rw [hu, hrap]; exact hmode
  have hwrite : writeData S .csr x u = .ok { s with
      device := d,
      history := .ioWrite S.width (dataPort S s.params .csr) (x.setWidth 32) ::
        .ioWrite S.width (rapPort S s.params) (idx.setWidth 32) :: s.history } := by
    rw [hu, hrap, writeData, if_pos (by exact hans)]
    simp only [record_device, hd]
    rfl
  have hmode : Via.bound.resolve s.mode = some S := hmode
  rw [csrWrite, List.cons_append, runPrims_rap hmode, ← hu]
  exact runPrims_dataPut hmode' hwrite

/-- R261: the value of the demand, as it goes through the port. -/
theorem demandValue_setWidth (shadow : Bool) :
    (demandValue shadow).setWidth 32 = if shadow then 0x00000048#32 else 0x00000008#32 := by
  cases shadow <;> rfl

/-! ### The mapping -/

/-- XMIT can take the slot at `tx_current`: R264 and R263 do not apply, the length is legal (R265), the ring is in place
(R94), and the mapper's next answer meets its duties (R98). -/
structure Xmit.Ok (s : State) (len : Nat) (phys : Word) (ms : List Word) : Prop where
  lock : s.lockOwner = none
  running : s.lifecycle = .running
  length : 1 ≤ len ∧ len ≤ s.params.maxTxLen
  alloc : s.tx.alloc = true
  room : s.tx.count < ringSize s.tx.exp
  cursor : s.tx.current < ringSize s.tx.exp
  placed : ringPlaced s.tx.base s.tx.exp
  answer : s.oracle.maps = phys :: ms
  fresh : s.fresh [(phys.toNat, len)]

/-- An event recorded before XMIT does not matter to it. -/
theorem Xmit.Ok.record (h : Xmit.Ok s len phys ms) (e : Event) : Xmit.Ok (s.record e) len phys ms :=
  ⟨h.lock, h.running, h.length, h.alloc, h.room, h.cursor, h.placed, h.answer, h.fresh⟩

/-- R98: the mapped region shares no byte with the slot. -/
theorem Xmit.Ok.apart (h : Xmit.Ok s len phys ms) :
    phys.toNat + len ≤ slotAddr s.tx.base s.tx.current 0 ∨ slotAddr s.tx.base s.tx.current 0 + 16 ≤ phys.toNat := by
  have hring : disjointRegions phys.toNat len s.tx.base.toNat (16 * ringSize s.tx.exp) = true :=
    (h.fresh.1 _ (List.mem_singleton.mpr rfl)).2 (s.tx.base.toNat, 16 * ringSize s.tx.exp)
      (by simp [State.liveRegions, h.alloc])
  have hcursor := h.cursor
  simp only [disjointRegions, Bool.or_eq_true, decide_eq_true_eq] at hring
  unfold slotAddr
  omega

/-- R260, R133: the state after the lock is taken and `map_for_device` answered `phys`. -/
def State.frameMapped (s : State) (a : Agent) (addr : Word) (len : Nat) (phys : Word) : State :=
  (({ s with lockOwner := some a }.takeMap.record (.call (.mapForDevice addr len .toDevice phys))).mapBytes addr len
    phys).setTxMap s.tx.current (some ⟨phys, len, addr⟩)

@[simp] theorem frameMapped_base : (s.frameMapped a addr len phys).tx.base = s.tx.base := rfl
@[simp] theorem frameMapped_current : (s.frameMapped a addr len phys).tx.current = s.tx.current := rfl

/-- R260: XMIT up to its mapping. -/
theorem runPrims_xmit (h : Xmit.Ok s len phys ms) :
    runPrims a (.xmit addr len) (n + 2) (script (.xmit addr len)) s =
      runPrims a (.xmit addr len) n (publishSteps s.tx.current len phys) (s.frameMapped a addr len phys) := by
  have hoperand : operandOk s.params (.xmit addr len) = true := decide_eq_true h.length
  have hroom : s.tx.count ≠ ringSize s.tx.exp := Nat.ne_of_lt h.room
  have hbody : afterAcquire (.xmit addr len) { s with lockOwner := some a } =
      ({ s with lockOwner := some a }, [.mapFrame addr len]) := by
    simp [afterAcquire, xmitBody, h.running, hroom]
  have hphys : { s with lockOwner := some a }.mapAnswer = phys := by simp only [State.mapAnswer, h.answer]
  have hadmits : { s with lockOwner := some a }.admits phys.toNat len = true :=
    fresh_admits h.fresh (List.mem_singleton.mpr rfl)
  have hmap : perform a (.xmit addr len) (.mapFrame addr len) { s with lockOwner := some a } =
      .ok (s.frameMapped a addr len phys, publishSteps s.tx.current len phys) := by
    simp only [perform, mapFrameStep, hphys, hadmits, if_true]
    rfl
  rw [script, runPrims_acquire h.lock (by simp [teardown]) hoperand, hbody]
  exact runPrims_ok hmap

/-- R133: the mapper stores in the mapped region only. -/
theorem frameMapped_outside : s.sameBytesOutside (s.frameMapped a addr len phys) [(phys.toNat, len)] :=
  fun _ hx => mapBytes_out (hx (phys.toNat, len) (List.mem_singleton.mpr rfl))

/-- R98: the words of the slot keep their values. -/
theorem frameMapped_slot (h : Xmit.Ok s len phys ms) {k : Nat} (hk : k < 4) :
    (s.frameMapped a addr len phys).wordAt (slotAddr s.tx.base s.tx.current k) =
      s.wordAt (slotAddr s.tx.base s.tx.current k) := by
  have hapart := h.apart
  refine wordAt_eq fun x h1 h2 => mapBytes_out ?_
  unfold slotAddr at h1 h2 hapart
  omega

/-- R133: the frame's known bytes stand in the mapped region. -/
theorem frameMapped_byte {bs : List Byte} {k : Nat} {b : Byte} (hbs : s.frameBytes addr = some bs) (hk : k < len)
    (hb : bs[k]? = some b) : (s.frameMapped a addr len phys).byteAt (phys.toNat + k) = b :=
  mapBytes_in hbs hk hb

/-! ### The publish -/

@[simp] theorem record_byteAt (e : Event) (x : Nat) : (s.record e).byteAt x = s.byteAt x := rfl

@[simp] theorem record_wordAt (e : Event) (x : Nat) : (s.record e).wordAt x = s.wordAt x := rfl

/-- R262: the state after slot `k` of a ring is written and published. -/
def State.published (s : State) (base : Word) (k len : Nat) (phys : Word) : State :=
  (((s.memWrite .host (slotAddr base k 0) (wordBytes phys)).memWrite .host (slotAddr base k 2)
    (wordBytes 0#32)).record .fenceW).memWrite .host (slotAddr base k 1) (wordBytes (txPublishWord len))

/-- R262, R260: the publish of a slot the host owns, then the cursor and the count. -/
theorem runPrims_publish (hplaced : ringPlaced s.tx.base s.tx.exp) (hcursor : s.tx.current < ringSize s.tx.exp)
    (hown : owned (s.wordAt (slotAddr s.tx.base s.tx.current 1)) = false) :
    runPrims a i (n + 6) (publishSteps s.tx.current len phys) s =
      runPrims a i n (demandSteps (enqueued (s.published s.tx.base s.tx.current len phys)))
        (enqueued (s.published s.tx.base s.tx.current len phys)) := by
  obtain ⟨al0, in0⟩ := slot_placed (w := 0) hplaced hcursor (by decide)
  obtain ⟨al1, in1⟩ := slot_placed (w := 1) hplaced hcursor (by decide)
  obtain ⟨al2, in2⟩ := slot_placed (w := 2) hplaced hcursor (by decide)
  have hown0 : owned ((s.memWrite .host (slotAddr s.tx.base s.tx.current 0) (wordBytes phys)).wordAt
      (slotAddr s.tx.base s.tx.current 1)) = false := by
    rw [memWrite_word_other (slotAddr_apart (by decide) (by decide) (by omega))]
    exact hown
  calc runPrims a i (n + 6) (publishSteps s.tx.current len phys) s
      = runPrims a i (n + 5) _ _ := runPrims_slotPut (r := .tx) al0 in0 (.inr hown)
    _ = runPrims a i (n + 4) _ _ := runPrims_slotPut (r := .tx) al2 in2 (.inr hown0)
    _ = runPrims a i (n + 3) _ _ := runPrims_quiet (q := .fenceW) rfl
    _ = runPrims a i (n + 2) _ (s.published s.tx.base s.tx.current len phys) :=
      runPrims_slotPut (r := .tx) al1 in1 (.inl rfl)
    _ = runPrims a i (n + 1) _ (enqueued (s.published s.tx.base s.tx.current len phys)) :=
      runPrims_quiet (q := .enqueued) rfl
    _ = runPrims a i n _ _ := runPrims_quiet (q := .demand) rfl
    _ = _ := by rw [List.append_nil]

/-- R262: what the publish leaves in the slot. -/
theorem published_words (s : State) (base : Word) (k len : Nat) (phys : Word) :
    (s.published base k len phys).wordAt (slotAddr base k 0) = phys ∧
    (s.published base k len phys).wordAt (slotAddr base k 1) = txPublishWord len ∧
    (s.published base k len phys).wordAt (slotAddr base k 2) = 0#32 := by
  have apart : ∀ {v w : Nat}, v < 4 → w < 4 → v ≠ w →
      slotAddr base k v + 4 ≤ slotAddr base k w ∨ slotAddr base k w + 4 ≤ slotAddr base k v :=
    fun hv hw hne => slotAddr_apart hv hw fun h => hne h.2
  refine ⟨?_, memWrite_word, ?_⟩
  · rw [State.published, memWrite_word_other (apart (by decide) (by decide) (by decide)), record_wordAt,
      memWrite_word_other (apart (by decide) (by decide) (by decide)), memWrite_word]
  · rw [State.published, memWrite_word_other (apart (by decide) (by decide) (by decide)), record_wordAt, memWrite_word]

/-- R262: the publish stores to the words 0, 1 and 2 of its slot only. -/
theorem published_outside (base : Word) (k len : Nat) (phys : Word) {x : Nat}
    (hx : x < slotAddr base k 0 ∨ slotAddr base k 0 + 12 ≤ x) :
    (s.published base k len phys).byteAt x = s.byteAt x := by
  have hout : ∀ w, w < 3 → x < slotAddr base k w ∨ slotAddr base k w + 4 ≤ x := by
    intro w hw
    unfold slotAddr at hx ⊢
    omega
  rw [State.published, memWrite_other (hout 1 (by decide)), record_byteAt, memWrite_other (hout 2 (by decide)),
    memWrite_other (hout 0 (by decide))]

/-! ### The demand -/

/-- R261: the state after the transmit demand and the release. -/
def State.demanded (s : State) (S : Strategy) : State :=
  { s with
    device := csr0Write { s.device with rap := 0#16 } (demandValue s.ienaShadow), lockOwner := none,
    history := .ioWrite S.width (dataPort S s.params .csr) ((demandValue s.ienaShadow).setWidth 32) ::
      .ioWrite S.width (rapPort S s.params) 0#32 :: s.history }

/-- R261: the demand on an answered mode, and the end of XMIT. -/
theorem runPrims_demand {S : Strategy} (hm : s.answeredBy S) :
    runPrims a i (n + 4) (demandSteps s) s = some (.ok ((s.demanded S).giveReply a i ⟨.ok, 0#16⟩)) := by
  rw [demandSteps, runPrims_csrWrite (n := n + 2) hm rfl, releaseReturn, runPrims_release, runPrims_ret, runPrims_nil]
  rfl

/-! ### XMIT alone -/

/-- R260 to R262: the state after XMIT on a ring with room. -/
def State.xmitted (s : State) (a : Agent) (addr : Word) (len : Nat) (phys : Word) (S : Strategy) : State :=
  ((enqueued ((s.frameMapped a addr len phys).published s.tx.base s.tx.current len phys)).demanded S).giveReply a
    (.xmit addr len) ⟨.ok, 0#16⟩

/-- R260 to R262: XMIT alone, without its issue. -/
theorem runPrims_xmitted {S : Strategy} (h : Xmit.Ok s len phys ms) (hm : s.answeredBy S)
    (hown : owned (s.wordAt (slotAddr s.tx.base s.tx.current 1)) = false) :
    runPrims a (.xmit addr len) 12 (script (.xmit addr len)) s = some (.ok (s.xmitted a addr len phys S)) := by
  have hown' : owned ((s.frameMapped a addr len phys).wordAt (slotAddr (s.frameMapped a addr len phys).tx.base
      (s.frameMapped a addr len phys).tx.current 1)) = false := by
    rw [frameMapped_base, frameMapped_current, frameMapped_slot h (by decide)]
    exact hown
  have hm' : (enqueued ((s.frameMapped a addr len phys).published s.tx.base s.tx.current len phys)).answeredBy S := by
    simpa [State.answeredBy, State.published, State.frameMapped] using hm
  have hpublish := runPrims_publish (a := a) (i := .xmit addr len) (n := 4) (len := len) (phys := phys)
    (s := s.frameMapped a addr len phys) h.placed h.cursor hown'
  rw [frameMapped_base, frameMapped_current, runPrims_demand hm'] at hpublish
  exact (runPrims_xmit h).trans hpublish

/-- R125: XMIT alone, without its issue, at a slot the device owns: the check before the store of word 0 stops it. -/
theorem runPrims_xmit_owned (h : Xmit.Ok s len phys ms)
    (hown : owned (s.wordAt (slotAddr s.tx.base s.tx.current 1)) = true) :
    runPrims a (.xmit addr len) 3 (script (.xmit addr len)) s =
      some (.stop (.fault .ownViolation (.address (slotAddr s.tx.base s.tx.current 0)))
        (s.frameMapped a addr len phys)) := by
  obtain ⟨haligned, hspace⟩ := slot_placed (w := 0) h.placed h.cursor (by decide)
  have hbase : (s.frameMapped a addr len phys).ringBase .tx = s.tx.base := frameMapped_base
  have hown' : owned ((s.frameMapped a addr len phys).wordAt (slotAddr s.tx.base s.tx.current 1)) = true := by
    rw [frameMapped_slot h (by decide)]
    exact hown
  have hput : (s.frameMapped a addr len phys).hostSlotWrite .tx s.tx.current 0 phys =
      .stop (.fault .ownViolation (.address (slotAddr s.tx.base s.tx.current 0))) (s.frameMapped a addr len phys) := by
    have hfault := hostSlotWrite_owned (s := s.frameMapped a addr len phys) (r := .tx) (k := s.tx.current) (w := 0)
      (v := phys)
    rw [hbase] at hfault
    exact hfault haligned hspace (by decide) hown'
  rw [runPrims_xmit h, publishSteps]
  exact runPrims_stop (by simp only [perform, hput, Res.bind])

/-- The demand and the reply leave memory alone. -/
theorem xmitted_memory (S : Strategy) :
    (s.xmitted a addr len phys S).memory =
      ((s.frameMapped a addr len phys).published s.tx.base s.tx.current len phys).memory := by
  simp only [State.xmitted, State.demanded, giveReply_memory, enqueued_memory]

/-- R262: what XMIT leaves in the slot. -/
theorem xmitted_words (s : State) (a : Agent) (addr : Word) (len : Nat) (phys : Word) (S : Strategy) :
    (s.xmitted a addr len phys S).wordAt (slotAddr s.tx.base s.tx.current 0) = phys ∧
    (s.xmitted a addr len phys S).wordAt (slotAddr s.tx.base s.tx.current 1) = txPublishWord len ∧
    (s.xmitted a addr len phys S).wordAt (slotAddr s.tx.base s.tx.current 2) = 0#32 := by
  simp only [wordAt_congr (xmitted_memory S)]
  exact published_words _ s.tx.base s.tx.current len phys

/-- R260 to R262: XMIT stores in the mapped region and to the words 0, 1 and 2 of its slot. -/
theorem xmitted_outside (s : State) (a : Agent) (addr : Word) (len : Nat) (phys : Word) (S : Strategy) :
    s.sameBytesOutside (s.xmitted a addr len phys S) [(phys.toNat, len), (slotAddr s.tx.base s.tx.current 0, 12)] := by
  intro x hx
  obtain ⟨hframe, hslot⟩ := List.forall_mem_cons.mp hx
  have hslot : x < slotAddr s.tx.base s.tx.current 0 ∨ slotAddr s.tx.base s.tx.current 0 + 12 ≤ x :=
    hslot _ (List.mem_singleton.mpr rfl)
  rw [byteAt_congr (xmitted_memory S), published_outside _ _ _ _ hslot]
  exact frameMapped_outside x (List.forall_mem_singleton.mpr hframe)

/-- R133: the frame's known bytes stand in the mapped region, which the publish leaves alone. -/
theorem xmitted_frame (h : Xmit.Ok s len phys ms) (S : Strategy) {bs : List Byte} {k : Nat} {b : Byte}
    (hbs : s.frameBytes addr = some bs) (hk : k < len) (hb : bs[k]? = some b) :
    (s.xmitted a addr len phys S).byteAt (phys.toNat + k) = b := by
  have hout : phys.toNat + k < slotAddr s.tx.base s.tx.current 0 ∨
      slotAddr s.tx.base s.tx.current 0 + 12 ≤ phys.toNat + k := by
    have hapart := h.apart
    omega
  rw [byteAt_congr (xmitted_memory S), published_outside _ _ _ _ hout]
  exact frameMapped_byte hbs hk hb

/-- R260 to R262: the registers after XMIT, its issue recorded before it. -/
theorem xmitted_eq (hlock : s.lockOwner = none) (a : Agent) (addr : Word) (len : Nat) (phys : Word) (S : Strategy) :
    let t := (s.record (.issued a (.xmit addr len))).xmitted a addr len phys S
    t = { s with
      tx := { s.tx with
        map := s.tx.map.set s.tx.current (some ⟨phys, len, addr⟩),
        current := (s.tx.current + 1) % ringSize s.tx.exp, count := s.tx.count + 1 },
      device := csr0Write { s.device with rap := 0#16 } (demandValue s.ienaShadow),
      memory := t.memory, oracle := t.oracle, replies := s.replied a ⟨.ok, 0#16⟩,
      history := s.traced [.issued a (.xmit addr len), .call (.mapForDevice addr len .toDevice phys),
        wordWrite s.tx.base s.tx.current 0 phys, wordWrite s.tx.base s.tx.current 2 0#32, .fenceW,
        wordWrite s.tx.base s.tx.current 1 (txPublishWord len), .ioWrite S.width (rapPort S s.params) 0#32,
        .ioWrite S.width (dataPort S s.params .csr) ((demandValue s.ienaShadow).setWidth 32),
        .returned a (.xmit addr len) ⟨.ok, 0#16⟩] } := by
  apply State.ext <;> simp [State.xmitted, State.demanded, hlock, State.published, State.frameMapped, State.traced,
    State.replied, advance, wordWrite]

/-- Settles O34: the run of XMIT alone, with the issue recorded before it. -/
theorem xmitPublishes : Obligations.XmitPublishes := by
  intro s addr len S phys ms hready hm hrunning hlen hmax halloc hroom hcursor hplaced hown hanswer hfresh
  obtain ⟨hidle, hlock, hsched⟩ := hready
  have hok : Xmit.Ok s len phys ms :=
    ⟨hlock, hrunning, ⟨hlen, hmax⟩, halloc, hroom, hcursor, hplaced, hanswer, hfresh⟩
  have hrun := runPrims_xmitted (a := s.caller) (addr := addr) (hok.record (.issued s.caller (.xmit addr len))) hm hown
  have hnext := runCommand_eval 12 hidle hsched hrun
  obtain ⟨u, hu⟩ : ∃ u, u = s.record (.issued s.caller (.xmit addr len)) := ⟨_, rfl⟩
  have heq := xmitted_eq hlock s.caller addr len phys S
  have hwords := xmitted_words u s.caller addr len phys S
  have hout := xmitted_outside u s.caller addr len phys S
  have hframe : ∀ bs, s.frameBytes addr = some bs → ∀ k b, k < len → bs[k]? = some b →
      (u.xmitted s.caller addr len phys S).byteAt (phys.toNat + k) = b := by
    rw [hu]
    exact fun bs hbs k b hk hb => xmitted_frame (hok.record _) S hbs hk hb
  have hmaps : (u.xmitted s.caller addr len phys S).oracle.maps = ms := by
    simp [State.xmitted, State.demanded, State.published, State.frameMapped, hu, hanswer]
  rw [demandValue_setWidth] at heq
  rw [hu, record_tx] at hwords hout
  rw [hu] at hframe hmaps
  obtain ⟨hword0, hword1, hword2⟩ := hwords
  generalize (s.record (.issued s.caller (.xmit addr len))).xmitted s.caller addr len phys S = t at *
  exact ⟨t, hnext, heq, hmaps, hword0, hword1, hword2, hframe, hout⟩

/-- Settles O36: the run of XMIT alone stops right after the mapping, with the issue recorded before it. -/
theorem xmitOwnedSlotFaults : Obligations.XmitOwnedSlotFaults := by
  intro s addr len phys ms hready hrunning hlen hmax halloc hroom hcursor hplaced hown hanswer hfresh
  obtain ⟨hidle, hlock, hsched⟩ := hready
  have hok : Xmit.Ok s len phys ms :=
    ⟨hlock, hrunning, ⟨hlen, hmax⟩, halloc, hroom, hcursor, hplaced, hanswer, hfresh⟩
  have hrun := runPrims_xmit_owned (a := s.caller) (addr := addr) (hok.record (.issued s.caller (.xmit addr len))) hown
  obtain ⟨x, hx⟩ := runCommand_eval_stop 3 hidle hsched hrun
  obtain ⟨u, hu⟩ : ∃ u, u = s.record (.issued s.caller (.xmit addr len)) := ⟨_, rfl⟩
  have hout := frameMapped_outside (s := u) (a := s.caller) (addr := addr) (len := len) (phys := phys)
  have hdevice : (u.frameMapped s.caller addr len phys).device = s.device := by simp [State.frameMapped, hu]
  rw [hu] at hout hdevice
  generalize (s.record (.issued s.caller (.xmit addr len))).frameMapped s.caller addr len phys = t at *
  exact ⟨_, hx, hout, hdevice⟩

end Sys2Proof.Machine
end

section
/-! SUPPORT. DRAIN alone (44_receive.md R290): the loop of `drain_body` between `def_busy <- 1` and `def_busy <- 0`. -/

namespace Sys2Proof.Machine

variable {s : State}

/-- The state in which DRAIN runs `drain_body`: its issue is recorded and `def_busy` is set (R334). -/
def State.draining (s : State) : State := { s.record (.issued .deferred .drain) with defBusy := true }

/-- R334: the state after DRAIN has taken `k` slots. -/
def State.drainDone (s : State) (k : Nat) : State :=
  { s.draining.drained (ringSize s.rx.exp) k with defBusy := false }.giveReply .deferred .drain ⟨.ok, 0#16⟩

/-- R290, R294: DRAIN alone in RUNNING. -/
theorem drain_runs (hrunning : s.lifecycle = .running) (h : Drain.Ok s.draining) : ∃ k m : Nat,
    k ≤ ringSize s.rx.exp ∧ (∀ j, j < k → owned (s.rxWord j 1) = false) ∧
    (k < ringSize s.rx.exp → owned (s.rxWord k 1) = true) ∧ m ≤ 12 * ringSize s.rx.exp + 6 ∧
    Runs .deferred .drain (script .drain) (s.record (.issued .deferred .drain)) (.ok (s.drainDone k)) m := by
  obtain ⟨k, m, hk, hfree, howned, hm, hloop⟩ := drain_loop .deferred .drain
    [.quiet .defIdle, .quiet (.ret .ok 0#16)] (ringSize s.rx.exp) s.draining le_rfl h
  have hend : Runs .deferred .drain [.quiet .defIdle, .quiet (.ret .ok 0#16)]
      (s.draining.drained (ringSize s.rx.exp) k) (.ok (s.drainDone k)) 2 :=
    .prim (ps := []) rfl (.prim (ps := []) rfl (.done _))
  have hstart : perform .deferred .drain (.quiet .drainStart) s.draining =
      .ok (s.draining, [.quiet (.drainLoop (ringSize s.rx.exp))]) := by
    have hrunning : s.draining.lifecycle = .running := hrunning
    simp only [perform, quietStep, drainStartSteps, hrunning, if_true]
    rfl
  exact ⟨k, 2 + m + 1 + 1, hk, hfree, howned, by omega,
    .prim (ps := []) (s' := s.draining) rfl (.prim hstart (hloop _ _ hend))⟩

/-- R292: the counters of one drained slot, by what is found in it and what `alloc_frame` answers. -/
theorem rxFate_count (s : State) (j : Nat) (c : Counters) : (s.rxFate j).count s.params (s.rxLen j) c =
    if s.rxGood j then
      match s.frameAnswerAt (s.rxAsks j) with
      | some _ =>
        { c with
          rxPackets := bump s.params c.rxPackets 1, rxBytes := bump s.params c.rxBytes (mcnt (s.rxWord j 2) - 4) }
      | none => { c with rxDropped := bump s.params c.rxDropped 1 }
    else { c with rxErrors := bump s.params c.rxErrors 1 } := by
  unfold State.rxFate
  cases s.rxGood j with
  | false => rfl
  | true => cases s.frameAnswerAt (s.rxAsks j) <;> rfl

/-- R24: the history of DRAIN. -/
theorem drainDone_history (s : State) (k : Nat) : (s.drainDone k).history =
    s.traced ([.issued .deferred .drain] ++ (List.range k).flatMap s.drainEvents ++
      s.lastRead s.rx.base (s.rxAt k) k (ringSize s.rx.exp) ++ [.returned .deferred .drain ⟨.ok, 0#16⟩]) := by
  have hpushed : (s.drainDone k).history = .returned .deferred .drain ⟨.ok, 0#16⟩ ::
      (((List.range k).flatMap s.drainEvents ++ s.lastRead s.rx.base (s.rxAt k) k (ringSize s.rx.exp)).reverse ++
        .issued .deferred .drain :: s.history) := rfl
  rw [hpushed, State.traced]
  simp only [List.reverse_append, List.reverse_cons, List.reverse_nil, List.nil_append, List.cons_append,
    List.append_assoc]

/-- Settles O40: the loop of `drain_body`, the counters slot by slot, and the re-armed words. -/
theorem drainCompleted : Obligations.DrainCompleted := by
  intro s hidle hsched hrunning hinv hsized hplaced hbuffers
  obtain ⟨k, m, hk, hfree, howned, hm, hruns⟩ := drain_runs hrunning ⟨hinv, hplaced, hbuffers⟩
  obtain ⟨-, hexp, -, -⟩ := hsized
  have hslots : ringSize s.rx.exp ≤ 2 ^ 15 := Nat.pow_le_pow_right (by decide) hexp
  have hfuel := fuel_ge s
  obtain ⟨hwords, hout⟩ := drained_memory (s := s.draining) (n := ringSize s.rx.exp) hk
  refine ⟨k, s.drainDone k, runCommand_next hidle hsched hruns (by omega), hk, hfree, howned, ?_, hwords, hout⟩
  apply State.ext
  case counters => exact foldl_range_congr fun c j _ => rxFate_count s j c
  case history => exact drainDone_history s k
  all_goals rfl

end Sys2Proof.Machine
end

section
/-! SUPPORT. The decoder against the encoder (30_encoding.md R140 to R145): the fields of a command word, what the
decoder accepts, the one word of a command, and the words the decoder rejects. -/

namespace Sys2Proof.Laws.EncodedWord

open Sys2Proof

/-! ### The fields of a word -/

/-- R140: a field below the opcode byte is read from the operand bits. -/
theorem extract_commandWord (op : Byte) (low : Cmd) {start len : Nat} (h : start + len ≤ 56) :
    (commandWord op low).extractLsb' start len = low.extractLsb' start len := by
  apply BitVec.eq_of_getLsbD_eq
  intro k hk
  have hbelow : start + k < 56 := by omega
  simp [commandWord, hbelow]

/-- The lower of two adjacent fields. -/
theorem extract_low {m n : Nat} (hi : BitVec m) (lo : BitVec n) (h : n ≤ 64) :
    ((hi.setWidth 64 <<< n) ||| lo.setWidth 64 : Cmd).extractLsb' 0 n = lo := by
  apply BitVec.eq_of_getLsbD_eq
  intro k hk
  have hword : k < 64 := by omega
  simp [hk, hword]

/-- The upper of two adjacent fields. -/
theorem extract_high {m n : Nat} (hi : BitVec m) (lo : BitVec n) (h : n + m ≤ 64) :
    ((hi.setWidth 64 <<< n) ||| lo.setWidth 64 : Cmd).extractLsb' n m = hi := by
  apply BitVec.eq_of_getLsbD_eq
  intro k hk
  have hword : n + k < 64 := by omega
  simp [hk, hword]

/-- A field that stands alone. -/
theorem extract_only {n : Nat} (x : BitVec n) (h : n ≤ 64) : (x.setWidth 64 : Cmd).extractLsb' 0 n = x := by
  simpa using extract_low (0#0) x h

/-- R141: words with the same field have the same bits there. -/
theorem getLsbD_eq_of_extract_eq {w v : Cmd} {start len k : Nat}
    (h : w.extractLsb' start len = v.extractLsb' start len) (hlo : start ≤ k) (hhi : k < start + len) :
    w.getLsbD k = v.getLsbD k := by
  have hin : k - start < len := by omega
  have hbit := congrArg (fun x => x.getLsbD (k - start)) h
  simpa only [BitVec.getLsbD_extractLsb', hin, decide_true, Bool.true_and, Nat.add_sub_cancel' hlo] using hbit

/-! ### The reserved bits of a format -/

/-- R144: a reserved bit of the word is set. -/
theorem and_ne_zero_iff {w m : Cmd} {lo hi : Nat} (hm : ∀ k < 64, m.getLsbD k = decide (lo ≤ k ∧ k ≤ hi)) :
    w &&& m ≠ 0#64 ↔ ∃ k, lo ≤ k ∧ k ≤ hi ∧ w.getLsbD k = true := by
  constructor
  · intro hne
    by_contra hclear
    refine hne (BitVec.eq_of_getLsbD_eq fun k hk => ?_)
    rw [BitVec.getLsbD_and, hm k hk, BitVec.getLsbD_zero, Bool.and_eq_false_iff, decide_eq_false_iff_not]
    by_cases hrange : lo ≤ k ∧ k ≤ hi
    · exact .inl (Bool.eq_false_iff.mpr fun hbit => hclear ⟨k, hrange.1, hrange.2, hbit⟩)
    · exact .inr hrange
  · rintro ⟨k, hlo, hhi, hbit⟩ hzero
    have hk : k < 64 := BitVec.lt_of_getLsbD hbit
    have hand := congrArg (fun x => x.getLsbD k) hzero
    simp [hbit, hm k hk, hlo, hhi] at hand

/-- A mask in two parts. -/
theorem and_or_ne_zero_iff (w m n : Cmd) : w &&& (m ||| n) ≠ 0#64 ↔ w &&& m ≠ 0#64 ∨ w &&& n ≠ 0#64 := by
  rw [BitVec.and_or_distrib_left, ne_eq, BitVec.or_eq_zero_iff, not_and_or]

variable {w v : Cmd} {i : Instr}

theorem reservedN_set_iff : w &&& reservedN ≠ 0#64 ↔ ∃ k, 0 ≤ k ∧ k ≤ 55 ∧ w.getLsbD k = true :=
  and_ne_zero_iff (by decide)

theorem reservedR_set_iff : w &&& reservedR ≠ 0#64 ↔ ∃ k, 16 ≤ k ∧ k ≤ 55 ∧ w.getLsbD k = true :=
  and_ne_zero_iff (by decide)

theorem reservedW_set_iff : w &&& reservedW ≠ 0#64 ↔ ∃ k, 32 ≤ k ∧ k ≤ 55 ∧ w.getLsbD k = true :=
  and_ne_zero_iff (by decide)

theorem reservedM_set_iff : w &&& reservedM ≠ 0#64 ↔ ∃ k, 48 ≤ k ∧ k ≤ 55 ∧ w.getLsbD k = true :=
  and_ne_zero_iff (by decide)

theorem reservedF_set_iff : w &&& reservedF ≠ 0#64 ↔ ∃ k, 44 ≤ k ∧ k ≤ 55 ∧ w.getLsbD k = true :=
  and_ne_zero_iff (by decide)

theorem reservedA_set_iff : w &&& reservedA ≠ 0#64 ↔
    (∃ k, 9 ≤ k ∧ k ≤ 55 ∧ w.getLsbD k = true) ∨ ∃ k, 4 ≤ k ∧ k ≤ 7 ∧ w.getLsbD k = true := by
  rw [show reservedA = 0x00FFFFFFFFFFFE00#64 ||| 0x00000000000000F0#64 from rfl, and_or_ne_zero_iff]
  exact or_congr (and_ne_zero_iff (by decide)) (and_ne_zero_iff (by decide))

theorem reservedS_set_iff : w &&& reservedS ≠ 0#64 ↔
    (∃ k, 9 ≤ k ∧ k ≤ 55 ∧ w.getLsbD k = true) ∨ ∃ k, 0 ≤ k ∧ k ≤ 7 ∧ w.getLsbD k = true := by
  rw [show reservedS = 0x00FFFFFFFFFFFE00#64 ||| 0x00000000000000FF#64 from rfl, and_or_ne_zero_iff]
  exact or_congr (and_ne_zero_iff (by decide)) (and_ne_zero_iff (by decide))

/-! ### What the decoder accepts -/

/-- R141: the command of `i`'s row, with the operands the word holds. -/
def readAs (w : Cmd) : Instr → Instr
  | .rdcsr _ => .rdcsr (idxOf w)
  | .wrcsr _ _ => .wrcsr (idxOf w) (valOf w)
  | .rdbcr _ => .rdbcr (idxOf w)
  | .wrbcr _ _ => .wrbcr (idxOf w) (valOf w)
  | .openDev _ => .openDev (macOf w)
  | .ralloc _ _ => .ralloc (ringOf w) (expOf w)
  | .rfree _ => .rfree (ringOf w)
  | .xmit _ _ => .xmit (addrOf w) (lenOf w)
  | i => i

/-- R141: what is read from a word fits its fields. -/
theorem readAs_wf (w : Cmd) (i : Instr) : (readAs w i).wf = true := by
  cases i with
  | ralloc _ _ => exact decide_eq_true (BitVec.isLt _)
  | xmit _ _ => exact decide_eq_true (BitVec.isLt _)
  | _ => rfl

@[simp] theorem opcode_readAs (w : Cmd) (i : Instr) : opcode (readAs w i) = opcode i := by
  cases i <;> rfl

@[simp] theorem reserved_readAs (w : Cmd) (i : Instr) : reserved (readAs w i) = reserved i := by
  cases i <;> rfl

@[simp] theorem readAs_readAs (w v : Cmd) (i : Instr) : readAs v (readAs w i) = readAs v i := by
  cases i <;> rfl

theorem checked_eq_ok_iff {m : Cmd} {j : Instr} : checked w m i = .ok j ↔ w &&& m = 0#64 ∧ i = j := by
  unfold checked
  split <;> simp [*]

theorem checked_eq_reservedBits_iff {m : Cmd} : checked w m i = .error .reservedBits ↔ w &&& m ≠ 0#64 := by
  unfold checked
  split <;> simp [*]

theorem checked_ne_reservedOpcode {m : Cmd} : checked w m i ≠ .error .reservedOpcode := by
  unfold checked
  split <;> simp

/-- R144: the reserved opcodes. -/
def ReservedOpcode (op : Nat) : Prop :=
  op = 0x00 ∨ (0x06 ≤ op ∧ op ≤ 0x0F) ∨ (0x14 ≤ op ∧ op ≤ 0x17) ∨ (0x1A ≤ op ∧ op ≤ 0x1F) ∨
    (0x23 ≤ op ∧ op ≤ 0x2F) ∨ 0x32 ≤ op

/-- R143, R144: the word's opcode is in the table, or the decoder rejects it as reserved. -/
theorem opcode_cases (w : Cmd) : (∃ i, opcodeOf w = opcode i) ∨
    (decode w = .error .reservedOpcode ∧ ReservedOpcode (opcodeOf w).toNat) := by
  have hrow : ∀ i, (opcodeOf w).toNat = (opcode i).toNat → ∃ i, opcodeOf w = opcode i :=
    fun i h => ⟨i, BitVec.eq_of_toNat_eq h⟩
  unfold decode
  split
  case h_1 h => exact .inl (hrow (.rdcsr 0#16) h)
  case h_2 h => exact .inl (hrow (.wrcsr 0#16 0#16) h)
  case h_3 h => exact .inl (hrow (.rdbcr 0#16) h)
  case h_4 h => exact .inl (hrow (.wrbcr 0#16 0#16) h)
  case h_5 h => exact .inl (hrow .rreset h)
  case h_6 h => exact .inl (hrow .attach h)
  case h_7 h => exact .inl (hrow (.openDev 0#48) h)
  case h_8 h => exact .inl (hrow .close h)
  case h_9 h => exact .inl (hrow .detach h)
  case h_10 h => exact .inl (hrow (.ralloc .rx 0) h)
  case h_11 h => exact .inl (hrow (.rfree .rx) h)
  case h_12 h => exact .inl (hrow (.xmit 0#32 0) h)
  case h_13 h => exact .inl (hrow .reclaim h)
  case h_14 h => exact .inl (hrow .drain h)
  case h_15 h => exact .inl (hrow .irq h)
  case h_16 h => exact .inl (hrow .dtask h)
  case h_17 =>
    refine .inr ⟨rfl, ?_⟩
    simp only [imp_false] at *
    unfold ReservedOpcode
    omega

/-- R143: the decoder at an opcode of the table. -/
theorem decode_of_opcode (h : opcodeOf w = opcode i) : decode w = checked w (reserved i) (readAs w i) := by
  rw [decode, h]
  cases i <;> rfl

/-- R143, R144: a word spells a command exactly when it has its opcode, no reserved bit and its operands. -/
theorem decode_eq_ok_iff :
    decode w = .ok i ↔ opcodeOf w = opcode i ∧ w &&& reserved i = 0#64 ∧ readAs w i = i := by
  constructor
  · intro h
    rcases opcode_cases w with ⟨j, hop⟩ | ⟨hdec, -⟩
    · obtain ⟨hclear, rfl⟩ := checked_eq_ok_iff.mp ((decode_of_opcode hop).symm.trans h)
      simp [hop, hclear]
    · cases hdec.symm.trans h
  · rintro ⟨hop, hclear, hread⟩
    rw [decode_of_opcode hop, checked_eq_ok_iff]
    exact ⟨hclear, hread⟩

/-! ### Decode of encode -/

/-- R141, R143: `Statement` for every command. -/
theorem encode_opcode_reserved : ∀ i : Instr, Statement i
  | .rdcsr idx => rdcsr idx
  | .wrcsr idx val => wrcsr idx val
  | .rdbcr idx => rdbcr idx
  | .wrbcr idx val => wrbcr idx val
  | .rreset => rreset
  | .attach => attach
  | .openDev mac => openDev mac
  | .close => close
  | .detach => detach
  | .ralloc r e => ralloc r e
  | .rfree r => rfree r
  | .xmit addr len => xmit addr len
  | .reclaim => reclaim
  | .drain => drain
  | .irq => irq
  | .dtask => dtask

theorem idxOf_commandWord (op : Byte) (idx : Half) : idxOf (commandWord op (idx.setWidth 64)) = idx :=
  (extract_commandWord op _ (by decide)).trans (extract_only idx (by decide))

theorem idxOf_commandWord_val (op : Byte) (idx val : Half) :
    idxOf (commandWord op ((val.setWidth 64 <<< 16) ||| idx.setWidth 64)) = idx :=
  (extract_commandWord op _ (by decide)).trans (extract_low val idx (by decide))

theorem valOf_commandWord (op : Byte) (idx val : Half) :
    valOf (commandWord op ((val.setWidth 64 <<< 16) ||| idx.setWidth 64)) = val :=
  (extract_commandWord op _ (by decide)).trans (extract_high val idx (by decide))

theorem macOf_commandWord (op : Byte) (mac : BitVec 48) : macOf (commandWord op (mac.setWidth 64)) = mac :=
  (extract_commandWord op _ (by decide)).trans (extract_only mac (by decide))

theorem addrOf_commandWord (op : Byte) (addr : Word) (len : Nat) :
    addrOf (commandWord op ((BitVec.ofNat 64 len <<< 32) ||| addr.setWidth 64)) = addr := by
  have h := extract_low (BitVec.ofNat 64 len) addr (by decide)
  rw [BitVec.setWidth_eq] at h
  exact (extract_commandWord op _ (by decide)).trans h

theorem lenOf_commandWord (op : Byte) (addr : Word) {len : Nat} (hlen : len < 4096) :
    lenOf (commandWord op ((BitVec.ofNat 64 len <<< 32) ||| addr.setWidth 64)) = len := by
  have hfield : BitVec.ofNat 64 len = (BitVec.ofNat 12 len).setWidth 64 := by
    apply BitVec.eq_of_toNat_eq
    simp only [BitVec.toNat_ofNat, BitVec.toNat_setWidth]
    omega
  rw [lenOf, extract_commandWord op _ (by decide), hfield, extract_high _ addr (by decide), BitVec.toNat_ofNat]
  exact Nat.mod_eq_of_lt hlen

theorem ringOf_expOf_ralloc (r : Ring) {e : Nat} (he : e < 16) :
    ringOf (encode (.ralloc r e)) = r ∧ expOf (encode (.ralloc r e)) = e := by
  revert e
  cases r <;> decide

theorem ringOf_rfree (r : Ring) : ringOf (encode (.rfree r)) = r := by
  cases r <;> decide

/-- R142: no operand bit is dropped or moved. -/
theorem readAs_encode (h : i.wf = true) : readAs (encode i) i = i := by
  cases i with
  | rdcsr idx => exact congrArg Instr.rdcsr (idxOf_commandWord _ idx)
  | wrcsr idx val => exact congrArg₂ Instr.wrcsr (idxOf_commandWord_val _ idx val) (valOf_commandWord _ idx val)
  | rdbcr idx => exact congrArg Instr.rdbcr (idxOf_commandWord _ idx)
  | wrbcr idx val => exact congrArg₂ Instr.wrbcr (idxOf_commandWord_val _ idx val) (valOf_commandWord _ idx val)
  | openDev mac => exact congrArg Instr.openDev (macOf_commandWord _ mac)
  | ralloc r e =>
    obtain ⟨hring, hexp⟩ := ringOf_expOf_ralloc r (of_decide_eq_true h)
    exact congrArg₂ Instr.ralloc hring hexp
  | rfree r => exact congrArg Instr.rfree (ringOf_rfree r)
  | xmit addr len =>
    exact congrArg₂ Instr.xmit (addrOf_commandWord _ addr len) (lenOf_commandWord _ addr (of_decide_eq_true h))
  | _ => rfl

/-- Settles O2: the word has the command's opcode and no reserved bit, and its fields read back as the operands. -/
theorem decodeOfEncode : Obligations.DecodeOfEncode := fun i hwf =>
  have ⟨hop, hclear⟩ := encode_opcode_reserved i hwf
  decode_eq_ok_iff.mpr ⟨hop, hclear, readAs_encode hwf⟩

/-! ### A command has one word -/

/-- Words with the same opcode and no reserved bit are the same where their operand bits are. -/
theorem eq_of_operands {m : Cmd} (hop : opcodeOf w = opcodeOf v) (hw : w &&& m = 0#64) (hv : v &&& m = 0#64)
    (hoperand : ∀ k < 56, m.getLsbD k = false → w.getLsbD k = v.getLsbD k) : w = v := by
  have hclear : ∀ {x : Cmd} {k : Nat}, x &&& m = 0#64 → m.getLsbD k = true → x.getLsbD k = false := by
    intro x k hx hm
    simpa [hm] using congrArg (fun y => y.getLsbD k) hx
  apply BitVec.eq_of_getLsbD_eq
  intro k hk
  by_cases hhigh : 56 ≤ k
  · exact getLsbD_eq_of_extract_eq hop hhigh (by omega)
  cases hm : m.getLsbD k with
  | true => rw [hclear hw hm, hclear hv hm]
  | false => exact hoperand k (by omega) hm

theorem ringOf_bit (h : ringOf w = ringOf v) : w.getLsbD 8 = v.getLsbD 8 := by
  unfold ringOf at h
  generalize w.getLsbD 8 = a at h ⊢
  generalize v.getLsbD 8 = b at h ⊢
  revert a b
  decide

/-- R141: the operands name every bit of the format that is not reserved. -/
theorem operand_bits (h : readAs w i = readAs v i) {k : Nat} (hk : k < 56) (hfree : (reserved i).getLsbD k = false) :
    w.getLsbD k = v.getLsbD k := by
  have hN : ∀ k < 56, reservedN.getLsbD k = true := by decide
  have hR : ∀ k < 56, reservedR.getLsbD k = false → k < 0 + 16 := by decide
  have hW : ∀ k < 56, reservedW.getLsbD k = false → k < 16 + 16 := by decide
  have hM : ∀ k < 56, reservedM.getLsbD k = false → k < 0 + 48 := by decide
  have hF : ∀ k < 56, reservedF.getLsbD k = false → k < 32 + 12 := by decide
  have hA : ∀ k < 56, reservedA.getLsbD k = false → k < 0 + 4 ∨ k = 8 := by decide
  have hS : ∀ k < 56, reservedS.getLsbD k = false → k = 8 := by decide
  cases i with
  | rdcsr _ | rdbcr _ =>
    injection h with hidx
    exact getLsbD_eq_of_extract_eq hidx (Nat.zero_le k) (hR k hk hfree)
  | wrcsr _ _ | wrbcr _ _ =>
    injection h with hidx hval
    rcases Nat.lt_or_ge k 16 with hlow | hhigh
    · exact getLsbD_eq_of_extract_eq hidx (Nat.zero_le k) (by omega)
    · exact getLsbD_eq_of_extract_eq hval hhigh (hW k hk hfree)
  | openDev _ =>
    injection h with hmac
    exact getLsbD_eq_of_extract_eq hmac (Nat.zero_le k) (hM k hk hfree)
  | ralloc _ _ =>
    injection h with hring hexp
    rcases hA k hk hfree with hlow | rfl
    · exact getLsbD_eq_of_extract_eq (BitVec.eq_of_toNat_eq hexp) (Nat.zero_le k) hlow
    · exact ringOf_bit hring
  | rfree _ =>
    injection h with hring
    rw [hS k hk hfree]
    exact ringOf_bit hring
  | xmit _ _ =>
    injection h with haddr hlen
    rcases Nat.lt_or_ge k 32 with hlow | hhigh
    · exact getLsbD_eq_of_extract_eq haddr (Nat.zero_le k) (by omega)
    · exact getLsbD_eq_of_extract_eq (BitVec.eq_of_toNat_eq hlen) hhigh (hF k hk hfree)
  | _ => cases (hN k hk).symm.trans hfree

/-- R145: no two words spell one command. -/
theorem decode_injective (hw : decode w = .ok i) (hv : decode v = .ok i) : w = v := by
  obtain ⟨hopw, hclearw, hreadw⟩ := decode_eq_ok_iff.mp hw
  obtain ⟨hopv, hclearv, hreadv⟩ := decode_eq_ok_iff.mp hv
  exact eq_of_operands (hopw.trans hopv.symm) hclearw hclearv fun k => operand_bits (hreadw.trans hreadv.symm)

/-- R145: what the decoder reads is well-formed, and its word is the one read. -/
theorem encode_of_decode (h : decode w = .ok i) : i.wf = true ∧ encode i = w := by
  obtain ⟨-, -, hread⟩ := decode_eq_ok_iff.mp h
  have hwf : i.wf = true := hread ▸ readAs_wf w i
  exact ⟨hwf, decode_injective (decodeOfEncode i hwf) h⟩

/-- Settles O3: decode and encode are inverse, so a command with this word is the one the decoder answers. -/
theorem everyWordOneMeaning : Obligations.EveryWordOneMeaning := by
  intro w
  have hspelt : ∀ j : Instr, j.wf = true → encode j = w → decode w = .ok j := by
    rintro j hj rfl
    exact decodeOfEncode j hj
  cases hdec : decode w with
  | ok i =>
    obtain ⟨hwf, hword⟩ := encode_of_decode hdec
    refine .inl ⟨i, rfl, hwf, hword, fun j hj hjw => ?_⟩
    cases hdec.symm.trans (hspelt j hj hjw)
    rfl
  | error e => exact .inr ⟨e, rfl, fun j hj hjw => by cases hdec.symm.trans (hspelt j hj hjw)⟩

/-! ### What the decoder rejects -/

/-- Settles O4: a reserved opcode has no row; a row of the table rejects by the reserved bits of its format alone. -/
theorem reservedEncodingsRejected : Obligations.ReservedEncodingsRejected := by
  intro w
  dsimp only
  rcases opcode_cases w with ⟨i, hop⟩ | ⟨hdec, hop⟩
  · rw [decode_of_opcode hop, hop, checked_eq_reservedBits_iff, iff_false_left checked_ne_reservedOpcode]
    cases i with
    | rreset | attach | close | detach | reclaim | drain | irq | dtask =>
      simpa [opcode, reserved] using reservedN_set_iff
    | rdcsr _ | rdbcr _ => simpa [opcode, reserved] using reservedR_set_iff
    | wrcsr _ _ | wrbcr _ _ => simpa [opcode, reserved] using reservedW_set_iff
    | openDev _ => simpa [opcode, reserved] using reservedM_set_iff
    | ralloc _ _ => simpa [opcode, reserved] using reservedA_set_iff
    | rfree _ => simpa [opcode, reserved] using reservedS_set_iff
    | xmit _ _ => simpa [opcode, reserved] using reservedF_set_iff
  · refine ⟨iff_of_true hdec hop, iff_of_false (by simp [hdec]) ?_⟩
    unfold ReservedOpcode at hop
    rintro (⟨hop', -⟩ | ⟨hop', -⟩ | ⟨hop', -⟩ | ⟨hop', -⟩ | ⟨hop', -⟩ | ⟨hop', -⟩ | ⟨hop', -⟩) <;> omega

/-- Settles O1: the published words, evaluated. -/
theorem publishedWordsDecode : Obligations.PublishedWordsDecode := by
  unfold Obligations.PublishedWordsDecode
  decide

end Sys2Proof.Laws.EncodedWord
end

section
/-! SUPPORT. A delivered word (30_encoding.md R143, R144; 45_interrupt.md R345, R346): the ports that accept it, and the
step that takes it. -/

namespace Sys2Proof.Machine

variable {s : State} {p : Port} {w : Cmd} {i : Instr} {rest : List Delivery}

theorem command_accepts_iff {k : Nat} :
    (Port.command k).accepts i = true ↔ ¬ (i = .irq ∨ i = .dtask ∨ i = .drain ∨ i = .reclaim) := by
  cases i <;> simp [Port.accepts, Port.isCommand]

theorem interrupt_accepts_iff : Port.interrupt.accepts i = true ↔ i = .irq := by
  cases i <;> simp [Port.accepts, Port.isCommand]

theorem deferredRun_accepts_iff : Port.deferredRun.accepts i = true ↔ i = .dtask ∨ i = .drain ∨ i = .reclaim := by
  cases i <;> simp [Port.accepts, Port.isCommand]

theorem spells_eq_some_iff : p.spells w = some i ↔ decode w = .ok i ∧ p.accepts i = true := by
  unfold Port.spells
  cases decode w with
  | ok j =>
    simp only [Option.ite_none_right_eq_some, Option.some.injEq, Decoded.ok.injEq]
    rw [and_comm]
    exact and_congr_right (by rintro rfl; rfl)
  | error e => simp

/-- R23: a run that has not ended takes the word its input holds next. -/
theorem step_of_word (hrun : s.ended = false) (hin : s.inbox = .word p w :: rest) :
    step s = deliverWord p w rest s := by
  simp [step, deliver, hrun, hin]

/-- R144, R406: the refusal of a word that spells nothing at its port. -/
theorem deliverWord_of_spells_none (h : p.spells w = none) :
    deliverWord p w rest s = .refused (.encoding { s with inbox := rest, refusalMark := some .encoding }) := by
  rw [deliverWord, h]
  rfl

/-- R143, R345, R346: a word that is admitted is taken and run. -/
theorem deliverWord_of_admitted (h : p.spells w = some i) (ha : admitted p i s = true) :
    deliverWord p w rest s = exec i { s with inbox := rest, issuer := p.issuer s } := by
  simp only [deliverWord, h, ha, if_true]

/-- Settles O5: no port spells such a word. -/
theorem wrongWordRefused : Obligations.WrongWordRefused := by
  intro s p w rest hrun hin hwrong
  rw [step_of_word hrun hin]
  refine deliverWord_of_spells_none (Option.eq_none_iff_forall_not_mem.mpr fun j hj => ?_)
  obtain ⟨hdec, haccepts⟩ := spells_eq_some_iff.mp hj
  rcases hwrong with ⟨e, he⟩ | ⟨i, hi, hport⟩
  · cases he.symm.trans hdec
  · cases hi.symm.trans hdec
    cases p with
    | command k => exact command_accepts_iff.mp haccepts hport
    | interrupt => exact hport (interrupt_accepts_iff.mp haccepts)
    | deferredRun => exact absurd (deferredRun_accepts_iff.mp haccepts) (by simpa only [not_or] using hport)

/-- Settles O6: the port spells the command and admits it. -/
theorem stepRunsDecoded : Obligations.StepRunsDecoded := by
  intro s p w rest i hrun hin hdec _ haccepts hidle htask
  have hadmitted : admitted p i s = true := by
    by_cases hi : i = .dtask
    · simp [admitted, hidle, htask hi]
    · simp [admitted, hidle, hi]
  rw [step_of_word hrun hin]
  exact deliverWord_of_admitted (spells_eq_some_iff.mpr ⟨hdec, haccepts⟩) hadmitted

end Sys2Proof.Machine
end

section
/-! SUPPORT. The raw register commands alone (40_register_interface.md R180 to R184): what each port access answers on a
mode the device answers and on one it does not (48_device_agent.md R350 to R359, R369), the run of a command from its
`acquire`, and the three ways it ends: its return, a refusal (R183), F_NO_MODE (R175). -/

namespace Sys2Proof.Machine

variable {s : State} {S : Strategy} {file : RegFile} {idx x v : Half} {a : Agent} {i : Instr} {n : Nat}
  {steps rest : List Prim}

/-! ### The port accesses -/

theorem writeRap_mode (S : Strategy) (idx : Half) (s : State) : (writeRap S idx s).mode = s.mode := by
  unfold writeRap
  split <;> rfl

/-- R369: a write of RAP on a mode the device does not answer is only recorded. -/
theorem writeRap_unanswered (h : answers s.params S = false) (idx : Half) :
    writeRap S idx s = s.record (.ioWrite S.width (rapPort S s.params) (idx.setWidth 32)) := by
  simp [writeRap, h]

/-- R93: the low half of a port value is the register value. -/
theorem widen_low (S : Strategy) (v : Half) (s : State) : (widen S v s).1.setWidth 16 = v := by
  cases S with
  | wio => exact BitVec.setWidth_setWidth_of_le v (by decide)
  | dwio => exact BitVec.setWidth_append_eq_right

/-- R357: a read of RDP answers the modelled register that RAP names. -/
theorem readData_csr (h : answers s.params S = true) (hv : csrValue s.params s.device = some v) :
    (readData S .csr s).1 = v := by
  simp only [readData, h, if_true, hv, widen_low]

/-- R369: with `WRONG_MODE_READ = not_stopped` the low half of a wrong-mode value is not 0x0004. -/
theorem wrongModeValue_low {p : Params} (h : p.wrongModeRead = .notStopped) (S : Strategy) (d : Nat) :
    (wrongModeValue p S d).setWidth 16 ≠ stoppedStatus := by
  have hlow : ∀ w : Word, (if p.wrongModeRead = .notStopped ∧ w.setWidth 16 = stoppedStatus then w &&& 0xFFFF0000#32
      else w).setWidth 16 ≠ stoppedStatus := by
    intro w
    split
    · rw [BitVec.setWidth_and]
      simp [stoppedStatus]
    · next hw => exact fun hlow => hw ⟨h, hlow⟩
  exact hlow _

/-- R369: a wrong-mode read uses up a draw and is recorded. -/
theorem readData_unanswered (h : answers s.params S = false) (file : RegFile) :
    ∃ (v : Half) (o : Oracle) (es : List Event), readData S file s = (v, { s with oracle := o, history := es }) ∧
      (s.params.wrongModeRead = .notStopped → v ≠ stoppedStatus) := by
  obtain ⟨w, o, hread⟩ := readData_effect S file s
  refine ⟨_, o, _, hread, fun hp => ?_⟩
  have hv : (readData S file s).1 = (wrongModeValue s.params S s.draw.1).setWidth 16 := by simp [readData, h]
  rw [hread] at hv
  rw [show w.extractLsb' 0 16 = _ from hv]
  exact wrongModeValue_low hp S _

/-- R369: a wrong-mode write of a data port is only recorded. -/
theorem writeData_unanswered (h : answers s.params S = false) (file : RegFile) (x : Half) :
    writeData S file x s = .ok (s.record (.ioWrite S.width (dataPort S s.params file) (x.setWidth 32))) := by
  simp [writeData, h]

/-- R359: a read of the RESET port the device answers resets it. -/
theorem readReset_answered (h : answers s.params S = true) : ∃ (w : Word) (o : Oracle) (d : Nat),
    readReset S s = { s with
      device := Device.afterReset d, oracle := o,
      history := .ioRead S.width (resetPortAddr S s.params) w :: s.history } := by
  obtain ⟨o, ho⟩ := draw_frame (s := s)
  simp only [readReset, h, if_true, ho]
  exact ⟨_, o, _, rfl⟩

/-- R369: a wrong-mode read of the RESET port uses up a draw and is recorded. -/
theorem readReset_unanswered (h : answers s.params S = false) : ∃ (o : Oracle) (es : List Event),
    readReset S s = { s with oracle := o, history := es } := by
  obtain ⟨o, ho⟩ := draw_frame (s := s)
  simp only [readReset, h, Bool.false_eq_true, if_false, ho]
  exact ⟨o, _, rfl⟩

/-- R359, R50, R52: CSR0 after a reset. -/
theorem csr0Value_stopped (p : Params) {d : Device} (hstate : d.state = .stopped) (hlatches : d.latches = 0#16) :
    csr0Value p d = 0x0004#16 := by
  simp [csr0Value, intrPending, bitSet, hstate, hlatches, csr0STOP]

/-! ### The strategy operations -/

/-- R171, R173: `csr_read` and `bcr_read` of a raw command, on either kind of mode. -/
theorem runPrims_read (hm : s.mode.strategy = some S) :
    runPrims a i (n + 2) [.rap .bound idx, .dataGet .bound file .reply] s =
      runPrims a i n (releaseReturn .ok (readData S file (writeRap S idx s)).1)
        (readData S file (writeRap S idx s)).2 := by
  have hm' : Via.bound.resolve (writeRap S idx s).mode = some S := by rw [writeRap_mode]; exact hm
  rw [runPrims_rap (show Via.bound.resolve s.mode = some S from hm), runPrims_dataGet hm', onRead, List.append_nil]

/-- R172, R173: `csr_write` and `bcr_write` where the write goes through. -/
theorem runPrims_write {t : State} (hm : s.mode.strategy = some S)
    (hw : writeData S file x (writeRap S idx s) = .ok t) :
    runPrims a i (n + 2) (.rap .bound idx :: .dataPut .bound file x :: rest) s = runPrims a i n rest t := by
  have hm' : Via.bound.resolve (writeRap S idx s).mode = some S := by rw [writeRap_mode]; exact hm
  rw [runPrims_rap (show Via.bound.resolve s.mode = some S from hm), runPrims_dataPut hm' hw]

/-- R174, R184: the read of the RESET port in RRESET; its return needs no more than two of the primitives left. -/
theorem runPrims_reset (hm : s.mode.strategy = some S) :
    runPrims a i 4 (.resetPort .bound :: releaseReturn .ok v) s =
      runPrims a i 2 (releaseReturn .ok v) (readReset S s) := by
  rw [runPrims_resetPort (show Via.bound.resolve s.mode = some S from hm)]
  simp only [releaseReturn, runPrims_release, runPrims_ret, runPrims_nil]

/-- R171, R357: `csr_read` on an answered mode; the value is the modelled register, where RAP names one. -/
theorem runPrims_csrRead_answered (hm : s.answeredBy S) (idx : Half) : ∃ (w : Word) (o : Oracle),
    runPrims a i (n + 2) [.rap .bound idx, .dataGet .bound .csr .reply] s =
      runPrims a i n (releaseReturn .ok (w.extractLsb' 0 16)) (s.portRead S .csr idx w o) ∧
    ∀ v, csrValue s.params { s.device with rap := idx } = some v → w.extractLsb' 0 16 = v := by
  obtain ⟨hmode, hans⟩ := hm
  obtain ⟨w, o, hread⟩ := readData_effect S .csr (writeRap S idx s)
  refine ⟨w, o, ?_, fun v hv => ?_⟩
  · rw [runPrims_read hmode, hread, writeRap_answered hans]
    rfl
  · have hcsr : (readData S .csr (writeRap S idx s)).1 = v := by
      rw [writeRap_answered hans]
      exact readData_csr hans hv
    rwa [hread] at hcsr

/-- R177, R369: `csr_read` and `bcr_read` on a mode the device does not answer. -/
theorem runPrims_read_unanswered (hm : s.mode.strategy = some S) (hans : answers s.params S = false) (file : RegFile)
    (idx : Half) : ∃ (v : Half) (o : Oracle) (es : List Event),
      runPrims a i (n + 2) [.rap .bound idx, .dataGet .bound file .reply] s =
        runPrims a i n (releaseReturn .ok v) { s with oracle := o, history := es } ∧
      (s.params.wrongModeRead = .notStopped → v ≠ stoppedStatus) := by
  obtain ⟨v, o, es, hread, hv⟩ := readData_unanswered
    (s := s.record (.ioWrite S.width (rapPort S s.params) (idx.setWidth 32))) hans file
  refine ⟨v, o, es, ?_, hv⟩
  rw [runPrims_read hm, writeRap_unanswered hans, hread]
  rfl

/-- R177, R369: `csr_write` and `bcr_write` on a mode the device does not answer. -/
theorem runPrims_write_unanswered (hm : s.mode.strategy = some S) (hans : answers s.params S = false) (file : RegFile)
    (idx x : Half) : runPrims a i (n + 2) (.rap .bound idx :: .dataPut .bound file x :: rest) s =
      runPrims a i n rest { s with
        history := .ioWrite S.width (dataPort S s.params file) (x.setWidth 32) ::
          .ioWrite S.width (rapPort S s.params) (idx.setWidth 32) :: s.history } := by
  refine runPrims_write hm ?_
  rw [writeRap_unanswered hans]
  exact writeData_unanswered (by exact hans) file x

/-- R358: a write through a data port the device answers, to a register with no modelled effect. -/
theorem writeData_unmodelled (h : answers s.params S = true) (hreg : file = .bcr ∨ csrStore s.device x = none) :
    writeData S file x s = .stop (.refuse .deviceUnmodelled)
      (s.record (.ioWrite S.width (dataPort S s.params file) (x.setWidth 32))) := by
  cases file with
  | bcr => simp [writeData, h]
  | csr =>
    have hstore : csrStore s.device x = none := hreg.resolve_left nofun
    simp [writeData, h, hstore]

/-- R183, R358: `csr_write` and `bcr_write` of a register with no modelled effect stop after their two accesses. -/
theorem runPrims_write_unmodelled (hm : s.answeredBy S)
    (hreg : file = .bcr ∨ csrStore { s.device with rap := idx } x = none) :
    runPrims a i (n + 2) (.rap .bound idx :: .dataPut .bound file x :: rest) s =
      some (.stop (.refuse .deviceUnmodelled) { s with
        device := { s.device with rap := idx },
        history := .ioWrite S.width (dataPort S s.params file) (x.setWidth 32) ::
          .ioWrite S.width (rapPort S s.params) (idx.setWidth 32) :: s.history }) := by
  obtain ⟨hmode, hans⟩ := hm
  have hmode : Via.bound.resolve s.mode = some S := hmode
  rw [runPrims_rap hmode, writeRap_answered hans]
  refine runPrims_stop ?_
  rw [perform, withStrategy, hmode]
  simp only
  rw [writeData_unmodelled (by exact hans) hreg]
  rfl

/-- R357: the register RDP reaches where RAP is 0, 1 or 2. -/
theorem csrValue_modelled (p : Params) (d : Device) : csrValue p { d with rap := 0#16 } = some (csr0Value p d) ∧
    csrValue p { d with rap := 1#16 } = some d.csr1 ∧ csrValue p { d with rap := 2#16 } = some d.csr2 :=
  ⟨rfl, rfl, rfl⟩

/-- R350, R356: a write through RDP where RAP is 0, 1 or 2. -/
theorem csrStore_modelled {d : Device} (h : d.rap = 0#16 ∨ d.rap = 1#16 ∨ d.rap = 2#16) (x : Half) :
    csrStore d x = some (if d.rap = 0#16 then csr0Write d x
      else if d.rap = 1#16 then { d with csr1 := x } else { d with csr2 := x }) := by
  unfold csrStore
  split
  · rfl
  · next h0 =>
    split
    · rfl
    · next h1 => rw [if_pos ((h.resolve_left h0).resolve_left h1)]

/-! ### A raw command alone -/

/-- R180 to R184: the raw register commands, each with the primitives of its body. -/
inductive RawCommand : Instr → List Prim → Prop
  | rdcsr (idx : Half) : RawCommand (.rdcsr idx) [.rap .bound idx, .dataGet .bound .csr .reply]
  | wrcsr (idx val : Half) :
    RawCommand (.wrcsr idx val) (.rap .bound idx :: .dataPut .bound .csr val :: releaseReturn .ok 0#16)
  | rdbcr (idx : Half) : RawCommand (.rdbcr idx) [.rap .bound idx, .dataGet .bound .bcr .reply]
  | wrbcr (idx val : Half) :
    RawCommand (.wrbcr idx val) (.rap .bound idx :: .dataPut .bound .bcr val :: releaseReturn .ok 0#16)
  | rreset : RawCommand .rreset (.resetPort .bound :: releaseReturn .ok 0#16)

theorem exists_rawCommand (h : (∃ idx, i = .rdcsr idx) ∨ (∃ idx val, i = .wrcsr idx val) ∨ (∃ idx, i = .rdbcr idx) ∨
    (∃ idx val, i = .wrbcr idx val) ∨ i = .rreset) : ∃ steps, RawCommand i steps := by
  rcases h with ⟨idx, rfl⟩ | ⟨idx, val, rfl⟩ | ⟨idx, rfl⟩ | ⟨idx, val, rfl⟩ | rfl
  · exact ⟨_, .rdcsr idx⟩
  · exact ⟨_, .wrcsr idx val⟩
  · exact ⟨_, .rdbcr idx⟩
  · exact ⟨_, .wrbcr idx val⟩
  · exact ⟨_, .rreset⟩

/-- R140, R340: the state once the caller has issued its command and taken the lock. -/
def State.taken (s : State) (i : Instr) : State :=
  { s.record (.issued s.caller i) with lockOwner := some s.caller }

namespace RawCommand

variable {d : Device} {o : Oracle} {es : List Event}

/-- R143: a command port takes the raw commands. -/
theorem accepts (h : RawCommand i steps) (k : Nat) : (Port.command k).accepts i = true := by
  cases h <;> rfl

/-- R180 to R184: the caller takes the lock, and goes on with the body. -/
theorem runPrims_script (h : RawCommand i steps) (hlock : s.lockOwner = none) :
    runPrims s.caller i (n + 1) (script i) (s.record (.issued s.caller i)) =
      runPrims s.caller i n (rawBody i s steps) (s.taken i) := by
  have hbody : teardown i = false ∧ operandOk s.params i = true ∧
      afterAcquire i (s.taken i) = (s.taken i, rawBody i s steps) := by cases h <;> exact ⟨rfl, rfl, rfl⟩
  obtain ⟨hteardown, hoperand, hafter⟩ := hbody
  rw [script_of_caller (h.accepts s.issuer),
    runPrims_acquire (s := s.record (.issued s.caller i)) hlock (by simp [hteardown]) hoperand]
  change runPrims _ _ _ ((afterAcquire i (s.taken i)).2 ++ []) (afterAcquire i (s.taken i)).1 = _
  rw [hafter, List.append_nil]

/-- R150, R340: a raw command whose body comes to its `release; return (OK, v)`. -/
theorem completes (h : RawCommand i steps) (hready : s.ready s.caller) (hm : s.mode ≠ .none)
    (hrun : runPrims s.caller i 4 steps (s.taken i) =
      runPrims s.caller i 2 (releaseReturn .ok v) { s.taken i with device := d, oracle := o, history := es }) :
    exec i s = .next { s with
      device := d, oracle := o, replies := s.replied s.caller ⟨.ok, v⟩,
      history := .returned s.caller i ⟨.ok, v⟩ :: es } := by
  obtain ⟨hidle, hlock, hsched⟩ := hready
  rw [exec_of_caller (h.accepts s.issuer)]
  refine runCommand_eval 5 hidle hsched ?_
  rw [h.runPrims_script hlock, rawBody, if_neg hm, hrun, releaseReturn, runPrims_release, runPrims_ret, runPrims_nil,
    ← hlock]
  rfl

/-- R340, R406: a raw command whose body is refused gives the lock back. -/
theorem refuses {r : RefusalReason} (h : RawCommand i steps) (hready : s.ready s.caller) (hm : s.mode ≠ .none)
    (hrun : runPrims s.caller i 4 steps (s.taken i) =
      some (.stop (.refuse r) { s.taken i with device := d, history := es })) :
    ∃ q, exec i s = .refused (Refusal.of r { s with
      tasks := q, lockOwner := none, device := d, refusalMark := some r, history := es }) := by
  obtain ⟨hidle, hlock, hsched⟩ := hready
  have hstop : runPrims s.caller i 5 (script i) (s.record (.issued s.caller i)) =
      some (.stop (.refuse r) { s.taken i with device := d, history := es }) := by
    rw [h.runPrims_script hlock, rawBody, if_neg hm, hrun]
  obtain ⟨q, hq⟩ := runCommand_eval_stop 5 hidle hsched hstop
  rw [exec_of_caller (h.accepts s.issuer), hq, Res.outcome, State.unlock, if_pos (by rfl)]
  exact ⟨_, rfl⟩

/-- R175, R180: with `mode = NONE` the lock is released and F_NO_MODE raised. -/
theorem faults (h : RawCommand i steps) (hready : s.ready s.caller) (hm : s.mode = .none) :
    ∃ q, exec i s = .fault (.noMode ⟨.noMode, .command i, s.caller, some i⟩ { s with
      tasks := q, faultRecord := some ⟨.noMode, .command i, s.caller, some i⟩,
      history := .issued s.caller i :: s.history }) := by
  obtain ⟨hidle, hlock, hsched⟩ := hready
  have hstop : runPrims s.caller i 3 (script i) (s.record (.issued s.caller i)) =
      some (.stop (.fault .noMode (.command i)) (s.record (.issued s.caller i))) := by
    rw [h.runPrims_script hlock, rawBody, if_pos hm, runPrims_release, runPrims_stop rfl, ← hlock]
    rfl
  obtain ⟨q, hq⟩ := runCommand_eval_stop 3 hidle hsched hstop
  rw [exec_of_caller (h.accepts s.issuer), hq]
  exact ⟨_, rfl⟩

/-- R177, R369: on a mode the device does not answer, the body of a raw command comes to its return with nothing but
draws used up and events recorded; what it returns is the value of a wrong-mode read, or 0. -/
theorem runPrims_unanswered (h : RawCommand i steps) (hm : s.mode.strategy = some S)
    (hans : answers s.params S = false) : ∃ (v : Half) (o : Oracle) (es : List Event),
      runPrims a i 4 steps s = runPrims a i 2 (releaseReturn .ok v) { s with oracle := o, history := es } ∧
      ((∃ idx, i = .rdcsr idx) ∨ (∃ idx, i = .rdbcr idx) ∨ v = 0#16) ∧
      (s.params.wrongModeRead = .notStopped → v ≠ stoppedStatus) := by
  have hzero : s.params.wrongModeRead = .notStopped → 0#16 ≠ stoppedStatus := fun _ => by decide
  cases h with
  | rdcsr idx =>
    obtain ⟨v, o, es, hrun, hv⟩ := runPrims_read_unanswered (a := a) (n := 2) hm hans .csr idx
    exact ⟨v, o, es, hrun, .inl ⟨idx, rfl⟩, hv⟩
  | rdbcr idx =>
    obtain ⟨v, o, es, hrun, hv⟩ := runPrims_read_unanswered (a := a) (n := 2) hm hans .bcr idx
    exact ⟨v, o, es, hrun, .inr (.inl ⟨idx, rfl⟩), hv⟩
  | wrcsr idx val =>
    exact ⟨0#16, s.oracle, _, runPrims_write_unanswered hm hans .csr idx val, .inr (.inr rfl), hzero⟩
  | wrbcr idx val =>
    exact ⟨0#16, s.oracle, _, runPrims_write_unanswered hm hans .bcr idx val, .inr (.inr rfl), hzero⟩
  | rreset =>
    obtain ⟨o, es, hreset⟩ := readReset_unanswered hans
    refine ⟨0#16, o, es, ?_, .inr (.inr rfl), hzero⟩
    rw [runPrims_reset hm, hreset]

end RawCommand

/-! ### The statements -/

/-- Settles O15: the run of RDCSR alone; RDP reaches the register RAP was set to. -/
theorem rdcsrReads : Obligations.RdcsrReads := by
  intro s idx S hready hm
  obtain ⟨w, o, hrun, hvalue⟩ := runPrims_csrRead_answered (a := s.caller) (i := .rdcsr idx) (n := 2)
    (s := s.taken (.rdcsr idx)) hm idx
  obtain ⟨h0, h1, h2⟩ := csrValue_modelled s.params s.device
  exact ⟨w, o, _, (RawCommand.rdcsr idx).completes hready (mode_ne_none hm.1) hrun, rfl, fun _ => rfl,
    fun h => hvalue _ (h ▸ h0), fun h => hvalue _ (h ▸ h1), fun h => hvalue _ (h ▸ h2)⟩

/-- Settles O16: the run of WRCSR alone, with the effect of the write through RDP. -/
theorem wrcsrWrites : Obligations.WrcsrWrites := by
  intro s idx val S hready hm hidx
  have hrun := runPrims_csrWrite (a := s.caller) (i := .wrcsr idx val) (n := 2) (s := s.taken (.wrcsr idx val))
    (rest := releaseReturn .ok 0#16) hm (csrStore_modelled hidx val)
  exact ⟨_, (RawCommand.wrcsr idx val).completes hready (mode_ne_none hm.1) hrun, rfl, fun _ => rfl⟩

/-- Settles O17: the write stops after its two accesses, and the refusal gives the lock back. -/
theorem unmodelledWriteRefused : Obligations.UnmodelledWriteRefused := by
  intro s idx val S hready hm
  have hmode := mode_ne_none hm.1
  refine ⟨?_, fun h0 h1 h2 => ?_⟩
  · obtain ⟨q, hq⟩ := (RawCommand.wrbcr idx val).refuses hready hmode (runPrims_write_unmodelled hm (.inl rfl))
    exact ⟨_, hq, rfl, fun _ => rfl⟩
  · have hstore : csrStore { s.device with rap := idx } val = none := by simp [csrStore, h0, h1, h2]
    obtain ⟨q, hq⟩ := (RawCommand.wrcsr idx val).refuses hready hmode (runPrims_write_unmodelled hm (.inr hstore))
    exact ⟨_, hq, rfl, fun _ => rfl⟩

/-- Settles O19: no access of a raw command reaches the device, and the command returns. -/
theorem wrongModeNoEffect : Obligations.WrongModeNoEffect := by
  intro s i S hready hmode hans hcmd
  obtain ⟨steps, hraw⟩ := exists_rawCommand hcmd
  obtain ⟨v, o, es, hrun, hv, hstopped⟩ := hraw.runPrims_unanswered (a := s.caller) (s := s.taken i) hmode hans
  refine ⟨v, _, hraw.completes hready (mode_ne_none hmode) hrun, rfl, fun _ => rfl, fun hwrite => ?_, hstopped⟩
  rcases hwrite with ⟨idx, val, rfl⟩ | ⟨idx, val, rfl⟩ | rfl <;> simpa using hv

/-- Settles O20: the run of RRESET alone; the device is reset by the read of the port. -/
theorem rresetResets : Obligations.RresetResets := by
  intro s S hready hm
  obtain ⟨hmode, hans⟩ := hm
  obtain ⟨w, o, d, hreset⟩ := readReset_answered (s := s.taken .rreset) hans
  have hrun := runPrims_reset (a := s.caller) (i := .rreset) (s := s.taken .rreset) (v := 0#16) hmode
  rw [hreset] at hrun
  exact ⟨w, o, _, _, RawCommand.rreset.completes hready (mode_ne_none hmode) hrun, rfl, fun _ => rfl, rfl, rfl,
    csr0Value_stopped s.params rfl rfl⟩

/-- Settles O21: the lock is released, and the fault raised, before any access. -/
theorem rawNeedsMode : Obligations.RawNeedsMode := by
  intro s i hready hm hcmd
  obtain ⟨steps, hraw⟩ := exists_rawCommand hcmd
  obtain ⟨q, hq⟩ := hraw.faults hready hm
  exact ⟨_, hq, rfl, fun _ => rfl⟩

end Sys2Proof.Machine
end

section
/-! SUPPORT. The lifecycle commands that end soon after their `acquire` (41_lifecycle.md): CLOSE of a running block (R220),
the refusals (R406), and `ring_release` of a device that is not stopped (42_ring.md R246). -/

namespace Sys2Proof.Machine

variable {s : State} {i : Instr} {r : Ring} {S : Strategy} {n k : Nat} {rest : List Prim}

/-! ### A caller's command from its `acquire` -/

/-- R340: a caller's command alone takes the lock and goes on with its body. -/
theorem runPrims_taken (hport : (Port.command k).accepts i = true) (hlock : s.lockOwner = none)
    (hquiet : teardown i = true → s.taskPending = false ∧ s.defBusy = false) (hop : operandOk s.params i = true) :
    runPrims s.caller i (n + 1) (script i) (s.record (.issued s.caller i)) =
      runPrims s.caller i n (afterAcquire i (s.taken i)).2 (afterAcquire i (s.taken i)).1 := by
  rw [script_of_caller hport, runPrims_acquire (s := s.record (.issued s.caller i)) hlock hquiet hop, List.append_nil]
  rfl

/-- R24, R406: a caller's command alone whose body is `release; refuse(REFUSED_LIFECYCLE)`. -/
theorem exec_refuses_lifecycle (hport : (Port.command k).accepts i = true) (hready : s.ready s.caller)
    (hquiet : s.taskPending = false ∧ s.defBusy = false) (hop : operandOk s.params i = true)
    (hbody : afterAcquire i (s.taken i) = (s.taken i, releaseRefuse .lifecycle)) :
    ∃ q, exec i s = .refused (.lifecycle { s with
      tasks := q, refusalMark := some .lifecycle, history := s.traced [.issued s.caller i] }) := by
  obtain ⟨hidle, hlock, hsched⟩ := hready
  have hstop : runPrims s.caller i 3 (script i) (s.record (.issued s.caller i)) =
      some (.stop (.refuse .lifecycle) (s.record (.issued s.caller i))) := by
    rw [runPrims_taken hport hlock (fun _ => hquiet) hop, hbody, releaseRefuse, runPrims_release, runPrims_stop rfl,
      ← hlock]
    rfl
  obtain ⟨q, hq⟩ := runCommand_eval_stop 3 hidle hsched hstop
  rw [exec_of_caller hport, hq, Res.outcome, State.unlock, if_neg (by simp [hlock])]
  exact ⟨_, rfl⟩

/-! ### Refusals -/

/-- R210, R230, R240, R245: the states the teardown commands and RALLOC have a rule for. -/
theorem attachedOrClosed_iff : s.attachedOrClosed = true ↔ s.lifecycle = .attached ∨ s.lifecycle = .closed := by
  simp [State.attachedOrClosed]

/-- Settles O28: in each of the four forms the body is `release; refuse(REFUSED_LIFECYCLE)`. -/
theorem lifecycleRefused : Obligations.LifecycleRefused := by
  intro s i hready htask hbusy hcase
  have hbody : (Port.command s.issuer).accepts i = true ∧ operandOk s.params i = true ∧
      afterAcquire i (s.taken i) = (s.taken i, releaseRefuse .lifecycle) := by
    rcases hcase with ⟨rfl, hstate⟩ | ⟨hcmd, hattached, hclosed⟩ | ⟨r, rfl, hring⟩ | ⟨r, e, rfl, hlow, hhigh, hring⟩
    · exact ⟨rfl, rfl, by simp [afterAcquire, attachBody, State.taken, hstate]⟩
    · have hstate : (s.taken i).attachedOrClosed = false := by
        simp [State.attachedOrClosed, State.taken, hattached, hclosed]
      rcases hcmd with ⟨mac, rfl⟩ | rfl | ⟨r, e, rfl⟩ | ⟨r, rfl⟩
      · exact ⟨rfl, rfl, by simp [afterAcquire, openBody, hstate]⟩
      · exact ⟨rfl, rfl, by simp [afterAcquire, detachBody, hstate]⟩
      · exact ⟨rfl, rfl, by simp [afterAcquire, rallocBody, hstate]⟩
      · exact ⟨rfl, rfl, by simp [afterAcquire, rfreeBody, hstate]⟩
    · have hring : (s.taken (.rfree r)).ringAlloc r = false := by cases r <;> exact hring
      exact ⟨rfl, rfl, by simp [afterAcquire, rfreeBody, hring]⟩
    · have hring : (s.taken (.ralloc r e)).ringAlloc r = true := by cases r <;> exact hring
      have hexp : ¬(e < 1 ∨ (s.taken (.ralloc r e)).params.maxLenExp < e) :=
        not_or.mpr ⟨Nat.not_lt.mpr hlow, Nat.not_lt.mpr hhigh⟩
      refine ⟨rfl, rfl, ?_⟩
      simp only [afterAcquire, rallocBody, if_neg hexp, if_pos hring, ite_self]
  obtain ⟨hport, hop, hafter⟩ := hbody
  obtain ⟨q, hq⟩ := exec_refuses_lifecycle hport hready ⟨htask, hbusy⟩ hop hafter
  exact ⟨_, hq, rfl, fun _ => rfl⟩

/-! ### CLOSE -/

/-- Settles O25: the STOP write through RDP, then the registers and the return. -/
theorem closeStops : Obligations.CloseStops := by
  intro s S hready hm hrunning
  obtain ⟨hidle, hlock, hsched⟩ := hready
  have hbody : afterAcquire .close (s.taken .close) =
      (s.taken .close, csrWrite .bound 0#16 csr0STOP ++ .quiet .closed :: releaseReturn .ok 0#16) := by
    have hrunning : (s.taken .close).lifecycle = .running := hrunning
    simp [afterAcquire, closeBody, hrunning]
  have hrun : runPrims s.caller .close 6 (script .close) (s.record (.issued s.caller .close)) =
      some (.ok { s with
        lifecycle := .closed, ienaShadow := false,
        device := { s.device with rap := 0#16, state := .stopped, latches := 0#16 },
        replies := s.replied s.caller ⟨.ok, 0#16⟩,
        history := s.traced [.issued s.caller .close, .ioWrite S.width (rapPort S s.params) 0#32,
          .ioWrite S.width (dataPort S s.params .csr) 0x00000004#32, .returned s.caller .close ⟨.ok, 0#16⟩] }) := by
    rw [runPrims_taken (k := s.issuer) rfl hlock (by simp [teardown]) rfl, hbody,
      runPrims_csrWrite (n := 3) (s := s.taken .close) hm rfl, runPrims_quiet (q := .closed) rfl, List.nil_append,
      releaseReturn, runPrims_release, runPrims_ret, runPrims_nil, ← hlock]
    rfl
  exact ⟨_, runCommand_eval 6 hidle hsched hrun, rfl, fun _ => rfl, csr0Value_stopped s.params rfl rfl⟩

/-! ### F_RELEASE_LIVE -/

/-- R246: `ring_release` while the device is not stopped. -/
theorem runPrims_releaseRing_live {a : Agent} (h : s.device.state ≠ .stopped) :
    runPrims a i (n + 1) (.quiet (.releaseRing r) :: rest) s = some (.stop (.fault .releaseLive (.ring r)) s) :=
  runPrims_stop (if_neg h)

/-- R405: a teardown command alone that comes to `ring_release` while the device is not stopped; what it has done before
is in `f`. -/
theorem exec_faults_releaseLive {f : State} (hready : s.ready s.caller) (hquiet : s.taskPending = false ∧ s.defBusy = false)
    (hport : (Port.command k).accepts i = true) (hop : operandOk s.params i = true) (hn : n ≤ 2 ^ 16)
    (hrun : runPrims s.caller i n (afterAcquire i (s.taken i)).2 (afterAcquire i (s.taken i)).1 =
      some (.stop (.fault .releaseLive (.ring r)) f)) :
    ∃ q, exec i s = .fault (.releaseLive ⟨.releaseLive, .ring r, s.caller, some i⟩ { f with
      tasks := q, faultRecord := some ⟨.releaseLive, .ring r, s.caller, some i⟩ }) := by
  obtain ⟨hidle, hlock, hsched⟩ := hready
  obtain ⟨q, hq⟩ := runCommand_eval_stop (n + 1) hidle hsched
    ((runPrims_taken hport hlock (fun _ => hquiet) hop).trans hrun)
  rw [exec_of_caller hport, hq]
  exact ⟨_, rfl⟩

/-- R211, R230: the releases of OPEN and DETACH: the rings that are allocated, RX first. -/
def State.ringReleases (s : State) : List Prim :=
  (if s.rx.alloc then [.quiet (.releaseRing .rx)] else []) ++ (if s.tx.alloc then [.quiet (.releaseRing .tx)] else [])

theorem ringReleases_first (hring : s.ringAlloc r = true) (hfirst : r = .rx ∨ s.ringAlloc .rx = false) :
    ∃ more, s.ringReleases = .quiet (.releaseRing r) :: more := by
  cases r with
  | rx => exact ⟨_, by rw [State.ringReleases, if_pos (show s.rx.alloc = true from hring)]; rfl⟩
  | tx =>
    have hrx : s.rx.alloc = false := hfirst.resolve_left nofun
    exact ⟨[], by rw [State.ringReleases, hrx, if_pos (show s.tx.alloc = true from hring)]; rfl⟩

/-- R230. -/
theorem detachBody_of_allowed (h : s.attachedOrClosed = true) :
    detachBody s = (s, s.ringReleases ++ (.freeIb :: .quiet .detached :: releaseReturn .ok 0#16)) := by
  simp [detachBody, h, State.ringReleases]

/-- R211 to R215: OPEN from the making of the rings on. -/
def bringUpSteps (mac : BitVec 48) (p : Params) : List Prim :=
  .allocRing .rx p.rxLenExp :: .allocRing .tx p.txLenExp :: .quiet .armRx :: .quiet (.fillIb mac) ::
    .quiet .loadAddress :: (csrWrite .bound 0#16 csr0INIT ++ [.quiet (.poll p.initPollBudget)])

/-- R210, R211. -/
theorem openBody_of_allowed (h : s.attachedOrClosed = true) (mac : BitVec 48) :
    openBody mac s = ({ s with lifecycle := .opening },
      .resetPort .bound :: (s.ringReleases ++ bringUpSteps mac s.params)) := by
  simp [openBody, h, State.ringReleases, bringUpSteps]

/-- R174, R369: a wrong-mode read of the RESET port is recorded. -/
theorem readReset_unanswered_event (h : answers s.params S = false) : ∃ (w : Word) (o : Oracle),
    readReset S s = { s with oracle := o, history := .ioRead S.width (resetPortAddr S s.params) w :: s.history } := by
  obtain ⟨o, ho⟩ := draw_frame (s := s)
  simp only [readReset, h, Bool.false_eq_true, if_false, ho]
  exact ⟨_, o, rfl⟩

/-- Settles O33: each command comes to `ring_release` with the device as it was. -/
theorem releaseLiveFaults : Obligations.ReleaseLiveFaults := by
  intro s r hready htask hbusy hstate hlive hring
  have hquiet : s.taskPending = false ∧ s.defBusy = false := ⟨htask, hbusy⟩
  have hallowed : s.attachedOrClosed = true := attachedOrClosed_iff.mpr hstate
  refine ⟨?_, fun hfirst => ⟨?_, fun mac S hmode hans => ?_⟩⟩
  · have hbody : afterAcquire (.rfree r) (s.taken (.rfree r)) =
        (s.taken (.rfree r), .quiet (.releaseRing r) :: releaseReturn .ok 0#16) := by
      have hallowed : (s.taken (.rfree r)).attachedOrClosed = true := hallowed
      have hring : (s.taken (.rfree r)).ringAlloc r = true := by cases r <;> exact hring
      simp [afterAcquire, rfreeBody, hallowed, hring]
    obtain ⟨q, hq⟩ := exec_faults_releaseLive (i := .rfree r) (k := s.issuer) (n := 1) hready hquiet rfl rfl
      (by decide) (by rw [hbody]; exact runPrims_releaseRing_live hlive)
    exact ⟨_, hq, rfl, fun _ => rfl⟩
  · obtain ⟨more, hmore⟩ := ringReleases_first hring hfirst
    have hbody := detachBody_of_allowed (s := s.taken .detach) hallowed
    rw [show (s.taken .detach).ringReleases = _ from hmore] at hbody
    obtain ⟨q, hq⟩ := exec_faults_releaseLive (i := .detach) (k := s.issuer) (n := 1) hready hquiet rfl rfl
      (by decide) (by rw [afterAcquire, hbody]; exact runPrims_releaseRing_live hlive)
    exact ⟨_, hq, rfl, fun _ => rfl⟩
  · obtain ⟨more, hmore⟩ := ringReleases_first hring hfirst
    have hbody := openBody_of_allowed (s := s.taken (.openDev mac)) hallowed mac
    rw [show (s.taken (.openDev mac)).ringReleases = _ from hmore] at hbody
    obtain ⟨u, hu⟩ : ∃ u, u = { s.taken (.openDev mac) with lifecycle := .opening } := ⟨_, rfl⟩
    rw [← hu] at hbody
    have hmode : Via.bound.resolve u.mode = some S := by rw [hu]; exact hmode
    obtain ⟨w, o, hreset⟩ := readReset_unanswered_event (s := u) (S := S) (by rw [hu]; exact hans)
    obtain ⟨q, hq⟩ := exec_faults_releaseLive (i := .openDev mac) (k := s.issuer) (n := 2) hready hquiet rfl rfl
      (by decide) (by
        rw [afterAcquire, hbody, runPrims_resetPort hmode, hreset]
        exact runPrims_releaseRing_live (by rw [hu]; exact hlive))
    subst hu
    exact ⟨w, _, hq, rfl, fun _ => rfl⟩

end Sys2Proof.Machine
end

section
/-! SUPPORT. A part of a command alone, from one row of primitives to another, and `ring_release` (42_ring.md R246) as such
a part; DETACH (41_lifecycle.md R230). -/

namespace Sys2Proof.Machine

/-! ### A part of a run -/

/-- The primitives `todo` of a command alone, on `s`, come after at most `n` of them to the primitives `todo'`, on `s'`.
None of them starts the INIT handshake (R350), so that the device has no step of its own to take in between (R360). -/
inductive Path (a : Agent) (i : Instr) : List Prim → State → List Prim → State → Nat → Prop
  | refl (todo : List Prim) (s : State) (n : Nat) : Path a i todo s todo s n
  | step {p : Prim} {rest ps todo' : List Prim} {s u s' : State} {n : Nat} :
    ready i p s → perform a i p s = .ok (u, ps) →
    (s.device.state ≠ .initialising → u.device.state ≠ .initialising) →
    Path a i (ps ++ rest) u todo' s' n → Path a i (p :: rest) s todo' s' (n + 1)

section Paths

variable {a : Agent} {i : Instr} {p : Prim} {todo todo' todo'' rest ps : List Prim} {s s' s'' u : State} {m n : Nat}

theorem Path.mono (h : Path a i todo s todo' s' n) : n ≤ m → Path a i todo s todo' s' m := by
  induction h generalizing m with
  | refl => exact fun _ => .refl _ _ _
  | step hr hp hd _ ih =>
    intro hm
    obtain ⟨k, rfl⟩ : ∃ k, m = k + 1 := ⟨m - 1, by omega⟩
    exact .step hr hp hd (ih (by omega))

theorem Path.trans (h : Path a i todo s todo' s' n) (h' : Path a i todo' s' todo'' s'' m) :
    Path a i todo s todo'' s'' (n + m) := by
  induction h with
  | refl _ _ n => exact h'.mono (Nat.le_add_left m n)
  | step hr hp hd _ ih => exact Nat.succ_add _ m ▸ .step hr hp hd (ih h')

/-- A primitive other than `acquire` that leaves the device alone. -/
theorem Path.prim (hp : perform a i p s = .ok (u, ps)) (h : Path a i (ps ++ rest) u todo' s' n)
    (hne : p ≠ .acquire := by simp) (hd : u.device = s.device := by rfl) : Path a i (p :: rest) s todo' s' (n + 1) :=
  .step (ready_of_ne hne) hp (fun h => hd ▸ h) h

/-- The run goes on from the end of the part. -/
theorem Path.runs {r : Res State} (h : Path a i todo s todo' s' n) (hrun : Runs a i todo' s' r m) :
    ∃ k, k ≤ n + m ∧ Runs a i todo s r k := by
  induction h with
  | refl _ _ n => exact ⟨m, Nat.le_add_left m n, hrun⟩
  | step hr hp _ _ ih =>
    obtain ⟨k, hk, hrun⟩ := ih hrun
    exact ⟨k + 1, by omega, .step hr hp hrun⟩

/-- The end of a command. -/
theorem path_releaseReturn {c : OutcomeCode} {v : Half} :
    Path a i (releaseReturn c v) s [] ({ s with lockOwner := none }.giveReply a i ⟨c, v⟩) 2 :=
  .prim (ps := []) rfl (.prim (ps := []) rfl (.refl [] _ 0))

end Paths

/-! ### `ring_release` -/

section Release

variable {a : Agent} {i : Instr} {rest : List Prim} {s : State}

/-- R246: the RX buffers go in slot order. -/
theorem path_freeBuffers (size : Nat) : ∀ (bufs : List RxBuffer) (s : State),
    Path a i (bufs.map (fun b => Prim.free b.vptr b.phys size) ++ rest) s rest
      { s with history := s.traced (bufs.map fun b => .call (.free b.vptr b.phys size)) } bufs.length
  | [], s => .refl rest s 0
  | b :: bufs, s => by
    have h := path_freeBuffers size bufs (s.record (.call (.free b.vptr b.phys size)))
    refine .prim (ps := []) rfl ?_
    simpa [State.traced] using h

/-- R246: the primitives for one slot of the TX ring. -/
def frameRelease : Option TxMapping × Nat → List Prim
  | (some m, k) => [.unmap m.phys m.len, .releaseFrame m.handle, .quiet (.txUnmapped k)]
  | (none, _) => []

theorem ringReleaseSteps_tx (s : State) : ringReleaseSteps .tx s = s.tx.map.zipIdx.flatMap frameRelease ++
    [.free s.tx.vptr s.tx.base (16 * ringSize s.tx.exp), .quiet (.ringFreed .tx)] := by
  have hslot : ∀ x : Option TxMapping × Nat, frameRelease x =
      match x.1 with
      | some m => [.unmap m.phys m.len, .releaseFrame m.handle, .quiet (.txUnmapped x.2)]
      | none => [] := by
    rintro ⟨_ | m, k⟩ <;> rfl
  rw [funext hslot]
  rfl

/-- R246: the calls for the frames in flight. -/
def frameCalls (ms : List (Option TxMapping)) : List Event :=
  (ms.filterMap id).flatMap fun m => [.call (.unmap m.phys m.len .toDevice), .call (.releaseFrame m.handle)]

/-- R246: the frames in flight from slot `k` on, by ascending slot number (log 34); the slots before it are empty. -/
theorem path_releaseFrames : ∀ (ms before : List (Option TxMapping)) (s : State), s.tx.map = before ++ ms →
    ∃ fs, Path a i ((ms.zipIdx before.length).flatMap frameRelease ++ rest) s rest
      { s with
        tx := { s.tx with map := before ++ ms.map fun _ => none }, hostFrames := fs,
        history := s.traced (frameCalls ms) } (3 * ms.length)
  | [], before, s, h => by
    refine ⟨s.hostFrames, ?_⟩
    rw [List.map_nil, ← h]
    exact .refl rest s 0
  | none :: ms, before, s, h => by
    obtain ⟨fs, hpath⟩ := path_releaseFrames ms (before ++ [none]) s (by simp [h])
    refine ⟨fs, Path.mono ?_ (show 3 * ms.length ≤ _ by simp)⟩
    simpa [frameRelease, frameCalls] using hpath
  | some m :: ms, before, s, h => by
    obtain ⟨u, hu⟩ : ∃ u, u = (((s.record (.call (.unmap m.phys m.len .toDevice))).dropFrame m.handle).record
      (.call (.releaseFrame m.handle))).setTxMap before.length none := ⟨_, rfl⟩
    have hmap : u.tx.map = (before ++ [none]) ++ ms := by simp [hu, State.setTxMap, h]
    obtain ⟨fs, hpath⟩ := path_releaseFrames ms (before ++ [none]) u hmap
    refine ⟨fs, ?_⟩
    have hsteps : ((some m :: ms).zipIdx before.length).flatMap frameRelease ++ rest =
        .unmap m.phys m.len :: .releaseFrame m.handle :: .quiet (.txUnmapped before.length) ::
          ((ms.zipIdx (before ++ [none]).length).flatMap frameRelease ++ rest) := by
      simp [frameRelease]
    have hend : { u with
        tx := { u.tx with map := before ++ [none] ++ ms.map fun _ => none }, hostFrames := fs,
        history := u.traced (frameCalls ms) } =
      { s with
        tx := { s.tx with map := before ++ (some m :: ms).map fun _ => none }, hostFrames := fs,
        history := s.traced (frameCalls (some m :: ms)) } := by
      apply State.ext <;> simp [hu, State.setTxMap, State.traced, frameCalls]
    rw [hsteps, ← hend]
    exact .prim (ps := []) rfl (.prim (ps := []) rfl (.prim (ps := []) (congrArg (fun u => Res.ok (u, [])) hu.symm) hpath
      (hd := by rw [hu]; rfl)))

/-- R246: `ring_release(RX)` of a stopped device. -/
theorem path_releaseRx (hstop : s.device.state = .stopped) : Path a i (.quiet (.releaseRing .rx) :: rest) s rest
    { s with rx := s.rx.released, history := s.traced s.rxReleaseEvents } (s.rx.buf.length + 3) := by
  refine .prim (ps := ringReleaseSteps .rx s) (if_pos hstop) ?_
  rw [ringReleaseSteps, List.append_assoc]
  refine (path_freeBuffers s.params.rxBufSize s.rx.buf s).trans (m := 2) ?_
  refine .prim (ps := []) rfl (.prim (ps := []) (u := _) ?_ (.refl rest _ 0))
  simp only [perform, quietStep, ringFreed, State.traced, State.rxReleaseEvents, List.reverse_append]
  rfl

/-- R246: `ring_release(TX)` of a stopped device. -/
theorem path_releaseTx (hstop : s.device.state = .stopped) : ∃ fs,
    Path a i (.quiet (.releaseRing .tx) :: rest) s rest
      { s with tx := s.tx.released, hostFrames := fs, history := s.traced s.txReleaseEvents }
      (3 * s.tx.map.length + 3) := by
  obtain ⟨fs, hframes⟩ := path_releaseFrames (a := a) (i := i)
    (rest := .free s.tx.vptr s.tx.base (16 * ringSize s.tx.exp) :: .quiet (.ringFreed .tx) :: rest) s.tx.map [] s rfl
  refine ⟨fs, .prim (ps := ringReleaseSteps .tx s) (if_pos hstop) ?_⟩
  rw [ringReleaseSteps_tx, List.append_assoc]
  refine hframes.trans (m := 2) (.prim (ps := []) rfl (.prim (ps := []) ?_ (.refl rest _ 0)))
  simp only [perform, quietStep, ringFreed, State.traced, State.txReleaseEvents, List.reverse_append]
  rfl

/-- R246: the calls of the releases of OPEN and DETACH. -/
def State.releaseEvents (s : State) : List Event :=
  (if s.rx.alloc then s.rxReleaseEvents else []) ++ (if s.tx.alloc then s.txReleaseEvents else [])

/-- R211, R230: the RX ring is released where it is allocated. -/
theorem path_releaseRx_if (h : s.rx.alloc = true → s.device.state = .stopped) :
    Path a i ((if s.rx.alloc then [.quiet (.releaseRing .rx)] else []) ++ rest) s rest
      { s with
        rx := s.rx.released, history := s.traced (if s.rx.alloc then s.rxReleaseEvents else []) }
      (s.rx.buf.length + 3) := by
  by_cases halloc : s.rx.alloc = true
  · rw [if_pos halloc, if_pos halloc]
    exact path_releaseRx (h halloc)
  · have hsame : s.rx.released = s.rx := by rw [RxRing.released, ← Bool.eq_false_iff.mpr halloc]
    rw [if_neg halloc, if_neg halloc, hsame]
    exact .refl rest s _

/-- R211, R230: the TX ring is released where it is allocated. -/
theorem path_releaseTx_if (h : s.tx.alloc = true → s.device.state = .stopped) : ∃ fs,
    Path a i ((if s.tx.alloc then [.quiet (.releaseRing .tx)] else []) ++ rest) s rest
      { s with
        tx := if s.tx.alloc then s.tx.released else s.tx, hostFrames := fs,
        history := s.traced (if s.tx.alloc then s.txReleaseEvents else []) }
      (3 * s.tx.map.length + 3) := by
  by_cases halloc : s.tx.alloc = true
  · rw [if_pos halloc, if_pos halloc, if_pos halloc]
    exact path_releaseTx (h halloc)
  · rw [if_neg halloc, if_neg halloc, if_neg halloc]
    exact ⟨s.hostFrames, .refl rest s _⟩

/-- R211, R230: the releases of OPEN and DETACH, of a stopped device or of a block with no ring. -/
theorem path_ringReleases (h : s.device.state = .stopped ∨ (s.rx.alloc = false ∧ s.tx.alloc = false)) : ∃ fs,
    Path a i (s.ringReleases ++ rest) s rest
      { s.released with hostFrames := fs, history := s.traced s.releaseEvents }
      (s.rx.buf.length + 3 * s.tx.map.length + 6) := by
  have hrx : s.rx.alloc = true → s.device.state = .stopped := fun hon => h.resolve_right (by simp [hon])
  have htx : s.tx.alloc = true → s.device.state = .stopped := fun hon => h.resolve_right (by simp [hon])
  obtain ⟨u, hu⟩ : ∃ u : State, u = { s with
      rx := s.rx.released, history := s.traced (if s.rx.alloc then s.rxReleaseEvents else []) } := ⟨_, rfl⟩
  have hfirst := path_releaseRx_if (a := a) (i := i)
    (rest := (if s.tx.alloc then [.quiet (.releaseRing .tx)] else []) ++ rest) hrx
  rw [← hu] at hfirst
  obtain ⟨fs, hsecond⟩ := path_releaseTx_if (a := a) (i := i) (rest := rest) (s := u) (by rw [hu]; exact htx)
  have hend : { u with
      tx := if u.tx.alloc then u.tx.released else u.tx, hostFrames := fs,
      history := u.traced (if u.tx.alloc then u.txReleaseEvents else []) } =
      { s.released with hostFrames := fs, history := s.traced s.releaseEvents } := by
    subst hu
    simp only [State.traced, State.releaseEvents, State.released, State.txReleaseEvents, List.reverse_append,
      List.append_assoc]
  have hsteps : s.tx = u.tx := by rw [hu]
  rw [hend, ← hsteps] at hsecond
  rw [State.ringReleases, List.append_assoc]
  exact ⟨fs, (hfirst.trans hsecond).mono (by omega)⟩

end Release

/-! ### DETACH -/

/-- R340, R247: a caller's command whose `acquire` does not hold takes the lock and goes on with its body. -/
theorem path_taken {s : State} {i : Instr} {k : Nat} (hport : (Port.command k).accepts i = true)
    (hlock : s.lockOwner = none) (hquiet : teardown i = true → s.taskPending = false ∧ s.defBusy = false)
    (hop : operandOk s.params i = true) (hdevice : (afterAcquire i (s.taken i)).1.device = s.device) :
    Path s.caller i (script i) (s.record (.issued s.caller i)) (afterAcquire i (s.taken i)).2
      (afterAcquire i (s.taken i)).1 1 := by
  have hfree : acquirable i (s.record (.issued s.caller i)) = true := by
    by_cases ht : teardown i = true
    · simp [acquirable, State.lockFree, State.deferredQuiet, hlock, hquiet ht]
    · simp [acquirable, State.lockFree, hlock, ht]
  rw [script_of_caller hport]
  refine .step (fun _ => by rw [hfree]; rfl) (if_pos hop) (fun h => ?_) ?_
  · change (afterAcquire i (s.taken i)).1.device.state ≠ _
    rwa [hdevice]
  · rw [List.append_nil]
    exact .refl _ _ 0

/-- R340: a caller's command alone whose body comes to its end. -/
theorem exec_of_path {s t : State} {i : Instr} {k n : Nat} (hready : s.ready s.caller)
    (hport : (Port.command k).accepts i = true) (hop : operandOk s.params i = true)
    (hquiet : teardown i = true → s.taskPending = false ∧ s.defBusy = false)
    (hdevice : (afterAcquire i (s.taken i)).1.device = s.device)
    (hpath : Path s.caller i (afterAcquire i (s.taken i)).2 (afterAcquire i (s.taken i)).1 [] t n) (hn : n < 2 ^ 20) :
    exec i s = .next t := by
  obtain ⟨hidle, hlock, hsched⟩ := hready
  obtain ⟨m, hm, hrun⟩ := ((path_taken hport hlock hquiet hop hdevice).trans hpath).runs (.done t)
  have hfuel := fuel_ge s
  rw [exec_of_caller hport]
  exact runCommand_next hidle hsched hrun (by omega)

/-- R230: the end of DETACH, after the releases. -/
theorem path_freeIb {a : Agent} {i : Instr} {s : State} :
    Path a i (.freeIb :: .quiet .detached :: releaseReturn .ok 0#16) s []
      ({ detached (s.record (.call (.free s.ib.vptr s.ib.phys ibSize))) with lockOwner := none }.giveReply a i
        ⟨.ok, 0#16⟩) 4 :=
  .prim (ps := []) rfl (.prim (ps := []) rfl path_releaseReturn)

/-- Settles O27: the releases, then the Initialization Block and the registers. -/
theorem detachReleases : Obligations.DetachReleases := by
  intro s hready htask hbusy hstate hsized hstopped
  have hbody := detachBody_of_allowed (s := s.taken .detach) (attachedOrClosed_iff.mpr hstate)
  obtain ⟨fs, hreleases⟩ := path_ringReleases (a := s.caller) (i := .detach) (s := s.taken .detach)
    (rest := .freeIb :: .quiet .detached :: releaseReturn .ok 0#16) hstopped
  have hpath := hreleases.trans path_freeIb
  obtain ⟨-, -, hmap, hbuf⟩ := hsized
  have hlen : (s.taken .detach).tx.map.length ≤ 2 ^ 15 ∧ (s.taken .detach).rx.buf.length ≤ 2 ^ 15 := ⟨hmap, hbuf⟩
  have hexec := exec_of_path (i := .detach) (k := s.issuer) hready rfl rfl (fun _ => ⟨htask, hbusy⟩)
    (by rw [afterAcquire, hbody]; rfl) (by rw [afterAcquire, hbody]; exact hpath) (by omega)
  refine ⟨_, hexec, ?_, fun _ => rfl, ?_⟩
  · obtain ⟨-, hlock, -⟩ := hready
    apply State.ext
    case lockOwner => exact hlock.symm
    all_goals rfl
  · change .returned s.caller .detach ⟨.ok, 0#16⟩ :: .call (.free s.ib.vptr s.ib.phys ibSize) ::
      (s.releaseEvents.reverse ++ .issued s.caller .detach :: s.history) = _
    simp only [State.traced, State.releaseEvents, List.reverse_append, List.append_assoc]
    rfl

end Sys2Proof.Machine
end

section
/-! SUPPORT. Rows of byte writes of the host (20_memory.md R92, R98), and ATTACH (41_lifecycle.md R200, R201): the probe of
each strategy (48_device_agent.md R369), and the Initialization Block. -/

namespace Sys2Proof.Machine

variable {s u : State} {a : Agent} {i : Instr} {rest : List Prim} {S : Strategy} {n k m b : Nat}

/-! ### A row of writes -/

/-- Bytes stored one after another, each at its address. -/
def Memory.storeAll (m : Memory) (ws : List (Nat × List Byte)) : Memory := ws.foldl (fun m w => m.setBytes w.1 w.2) m

/-- R16 `MemWrite`, several of them. -/
def State.writeAll (s : State) (ws : List (Nat × List Byte)) : State :=
  { s with
    memory := s.memory.storeAll ws, history := s.traced (ws.map fun w => .memWrite .host w.1 w.2) }

/-- A row of primitives that each write bytes, whatever was written before. -/
theorem path_writes {α : Type} {p : α → Prim} {put : α → Nat × List Byte} : ∀ {xs : List α} {s : State},
    (∀ x ∈ xs, ∀ m es, perform a i (p x) { s with memory := m, history := es } =
      .ok ({ s with memory := m, history := es }.memWrite .host (put x).1 (put x).2, [])) →
    (∀ x, p x ≠ .acquire) → Path a i (xs.map p ++ rest) s rest (s.writeAll (xs.map put)) xs.length
  | [], s, _, _ => .refl rest s 0
  | x :: xs, s, h, hne => by
    obtain ⟨hx, hxs⟩ := List.forall_mem_cons.mp h
    have hpath := path_writes (s := s.memWrite .host (put x).1 (put x).2)
      (fun y hy m es => hxs y hy m es) hne
    have hend : (s.memWrite .host (put x).1 (put x).2).writeAll (xs.map put) = s.writeAll ((x :: xs).map put) := by
      simp only [State.writeAll, State.traced, List.map_cons, List.reverse_cons, List.append_assoc]
      rfl
    rw [hend] at hpath
    exact .prim (hx s.memory s.history) hpath (hne x)

/-- R201, R241: zeros in `n` words from `b` on. -/
def zeroWords (b n : Nat) : List (Nat × List Byte) := (List.range n).map fun k => (b + 4 * k, wordBytes 0#32)

theorem get?_zeroWords (m : Memory) (b n x : Nat) : Memory.get? (m.storeAll (zeroWords b n)) x =
    if b ≤ x ∧ x < b + 4 * n then some 0#8 else Memory.get? m x := by
  induction n with
  | zero => rw [if_neg (by omega)]; rfl
  | succ n ih =>
    have hlast : m.storeAll (zeroWords b (n + 1)) =
        (m.storeAll (zeroWords b n)).setBytes (b + 4 * n) (wordBytes 0#32) := by
      simp [Memory.storeAll, zeroWords, List.range_succ]
    have hzero : ∀ j, j < 4 → (wordBytes 0#32)[j]? = some 0#8 := by decide
    rw [hlast, Memory.get?_setBytes, ih, byteOf_length]
    by_cases hin : b + 4 * n ≤ x ∧ x < b + 4 * n + 4
    · rw [if_pos hin, if_pos (by omega), hzero _ (by omega)]
    · rw [if_neg hin]
      exact if_congr (by omega) rfl rfl

/-- R201, R241: what a row of zero writes leaves. -/
theorem byteAt_zeroWords {t : State} (h : t.memory = s.memory.storeAll (zeroWords b n)) (x : Nat) :
    t.byteAt x = if b ≤ x ∧ x < b + 4 * n then 0#8 else s.byteAt x := by
  rw [State.byteAt, h, get?_zeroWords]
  split <;> rfl

/-! ### Access beside the rings -/

/-- A part of a region that shares no byte with a region. -/
theorem disjointRegions_part {p q l : Nat} (h : disjointRegions p n q l = true) (hk : k + m ≤ n) :
    disjointRegions (p + k) m q l = true := by
  simp only [disjointRegions, Bool.or_eq_true, decide_eq_true_eq] at h ⊢
  omega

/-- R131: an access inside a region apart from the rings splits no descriptor word. -/
theorem splits_beside {p : Nat} (h : ∀ q ∈ s.liveRegions, disjointRegions p n q.1 q.2 = true) (hk : k + m ≤ n) :
    s.splits (p + k) m = false :=
  splits_out (Nat.le_refl m)
    (fun halloc => disjointRegions_part
      (h (s.tx.base.toNat, 16 * ringSize s.tx.exp) (by simp [State.liveRegions, halloc])) hk)
    (fun halloc => disjointRegions_part
      (h (s.rx.base.toNat, 16 * ringSize s.rx.exp) (by simp [State.liveRegions, halloc])) hk)

/-! ### The port accesses as a part of a run -/

theorem draw_allocs (s : State) : s.draw.2.oracle.allocs = s.oracle.allocs := by
  unfold State.draw
  split <;> rfl

theorem readReset_allocs (S : Strategy) (s : State) : (readReset S s).oracle.allocs = s.oracle.allocs := by
  unfold readReset
  simp only
  split <;> exact draw_allocs s

theorem readData_allocs (S : Strategy) (file : RegFile) (s : State) :
    (readData S file s).2.oracle.allocs = s.oracle.allocs := by
  have hwiden : ∀ v (s : State), (widen S v s).2.oracle.allocs = s.oracle.allocs := by
    intro v s
    cases S with
    | wio => rfl
    | dwio => exact draw_allocs s
  unfold readData
  simp only
  split
  · split
    · exact hwiden _ s
    · exact (hwiden _ _).trans (draw_allocs s)
  · exact draw_allocs s

/-- R174: the read of the RESET port. -/
theorem path_resetPort {via : Via} (hm : via.resolve s.mode = some S) :
    Path a i (.resetPort via :: rest) s rest (readReset S s) 1 := by
  refine .step (ps := []) (ready_of_ne (by simp)) (by simp only [perform, withStrategy, hm]) (fun h => ?_) (.refl _ _ 0)
  cases hans : answers s.params S with
  | true =>
    obtain ⟨w, o, d, hreset⟩ := readReset_answered hans
    rw [hreset]
    exact nofun
  | false =>
    obtain ⟨o, es, hreset⟩ := readReset_unanswered hans
    rw [hreset]
    exact h

theorem writeRap_state (S : Strategy) (idx : Half) (s : State) :
    (writeRap S idx s).device.state = s.device.state := by
  unfold writeRap
  split <;> rfl

theorem onRead_device (k : OnRead) (v : Half) (s : State) : (onRead k v s).1.device = s.device := by
  cases k with
  | probe S =>
    simp only [onRead, probed]
    split
    · rfl
    · cases S <;> rfl
  | _ => rfl

/-- R171: `csr_read`, and what the command does with the value. -/
theorem path_csrRead {via : Via} {k : OnRead} (hm : via.resolve s.mode = some S) (idx : Half) :
    Path a i (csrRead via idx k ++ rest) s
      ((onRead k (readData S .csr (writeRap S idx s)).1 (readData S .csr (writeRap S idx s)).2).2 ++ rest)
      (onRead k (readData S .csr (writeRap S idx s)).1 (readData S .csr (writeRap S idx s)).2).1 2 := by
  have hm' : via.resolve (writeRap S idx s).mode = some S := by rw [writeRap_mode]; exact hm
  have hdevice : (readData S .csr (writeRap S idx s)).2.device = (writeRap S idx s).device := by
    obtain ⟨w, o, hread⟩ := readData_effect S .csr (writeRap S idx s)
    rw [hread]
  refine .step (ps := []) (ready_of_ne (by simp)) (by simp only [perform, withStrategy, hm])
    (fun h => (writeRap_state S idx s).symm ▸ h) ?_
  exact .prim (by simp only [perform, withStrategy, hm']) (.refl _ _ 0) (hd := (onRead_device _ _ _).trans hdevice)

/-! ### The probe -/

/-- R200, R369: what one attempt of the probe read, and the state after it. -/
structure Probed (S : Strategy) (s : State) (v : Half) (u : State) : Prop where
  frame : u = { s with device := u.device, oracle := u.oracle, history := u.history }
  allocs : u.oracle.allocs = s.oracle.allocs
  answered : answers s.params S = true → v = stoppedStatus ∧ u.device.state = .stopped ∧ u.device.latches = 0#16
  unanswered : answers s.params S = false → s.params.wrongModeRead = .notStopped → v ≠ stoppedStatus
  events : S = .wio → answers s.params S = true → ∃ w, u.history = .ioRead 16 (dataPort .wio s.params .csr) 0x0004#32 ::
    .ioWrite 16 (rapPort .wio s.params) 0#32 :: .ioRead 16 (resetPortAddr .wio s.params) w :: s.history

/-- R357: a read of RDP in WIO. -/
theorem readData_wio {v : Half} (h : answers s.params .wio = true) (hv : csrValue s.params s.device = some v) :
    readData .wio .csr s = (v, s.record (.ioRead 16 (dataPort .wio s.params .csr) (v.setWidth 32))) := by
  have hlow : (v.setWidth 32).setWidth 16 = v := BitVec.setWidth_setWidth_of_le v (by decide)
  simp only [readData, h, if_true, hv, widen, hlow]
  rfl

/-- R200, R359: the probe under the strategy the device answers resets it and reads "stopped". -/
theorem probed_of_answered (h : answers s.params S = true) : Probed S s
    (readData S .csr (writeRap S 0#16 (readReset S s))).1 (readData S .csr (writeRap S 0#16 (readReset S s))).2 := by
  obtain ⟨w, o, d, hreset⟩ := readReset_answered h
  obtain ⟨u, hu⟩ : ∃ u, writeRap S 0#16 (readReset S s) = u := ⟨_, rfl⟩
  have hu' : u = { s with
      device := { Device.afterReset d with rap := 0#16 }, oracle := o,
      history := .ioWrite S.width (rapPort S s.params) 0#32 ::
        .ioRead S.width (resetPortAddr S s.params) w :: s.history } := by
    rw [← hu, hreset, writeRap_answered (by exact h)]
    rfl
  have hans : answers u.params S = true := by rw [hu']; exact h
  have hvalue : csrValue u.params u.device = some stoppedStatus := by
    rw [hu']
    exact congrArg some (csr0Value_stopped s.params rfl rfl)
  obtain ⟨w', o', hread⟩ := readData_effect S .csr u
  have hallocs : o.allocs = s.oracle.allocs := by rw [← readReset_allocs S s, hreset]
  rw [hu]
  refine ⟨?_, ?_, fun _ => ⟨readData_csr hans hvalue, ?_⟩, fun hno => by simp [h] at hno, ?_⟩
  · rw [hread, hu']
  · rw [readData_allocs, hu']
    exact hallocs
  · rw [hread, hu']
    exact ⟨rfl, rfl⟩
  · rintro rfl -
    rw [readData_wio hans hvalue, hu']
    exact ⟨w, rfl⟩

/-- R200, R369: the probe under the other strategy reads any value. -/
theorem probed_of_unanswered (h : answers s.params S = false) : Probed S s
    (readData S .csr (writeRap S 0#16 (readReset S s))).1 (readData S .csr (writeRap S 0#16 (readReset S s))).2 := by
  obtain ⟨o, es, hreset⟩ := readReset_unanswered h
  obtain ⟨u, hu⟩ : ∃ u, writeRap S 0#16 (readReset S s) = u := ⟨_, rfl⟩
  have hu' : u = { s with
      oracle := o, history := .ioWrite S.width (rapPort S s.params) 0#32 :: es } := by
    rw [← hu, hreset, writeRap_unanswered (by exact h)]
    rfl
  have hans : answers u.params S = false := by rw [hu']; exact h
  obtain ⟨v, o', es', hread, hvalue⟩ := readData_unanswered hans .csr
  have hallocs : o.allocs = s.oracle.allocs := by rw [← readReset_allocs S s, hreset]
  rw [hu]
  refine ⟨?_, ?_, fun hyes => by simp [h] at hyes, fun _ => ?_, fun _ hyes => by simp [h] at hyes⟩
  · rw [hread, hu']
  · rw [readData_allocs, hu']
    exact hallocs
  · rw [hread]
    rw [hu'] at hvalue
    exact hvalue

/-- R200: one attempt of the probe. -/
theorem path_probe (S : Strategy) (s : State) : ∃ v u, Probed S s v u ∧
    Path a i (probeSteps S ++ rest) s ((probed S v u).2 ++ rest) (probed S v u).1 3 := by
  refine ⟨_, _, ?_, (path_resetPort rfl).trans (path_csrRead rfl 0#16)⟩
  cases h : answers s.params S with
  | true => exact probed_of_answered h
  | false => exact probed_of_unanswered h

/-! ### The Initialization Block -/

/-- R201: the state after ATTACH has found the device. -/
def State.attached (s : State) (a : Agent) (i : Instr) (v : Nat) (p : Word) : State :=
  let made : State := { s.takeAlloc.record (.call (.alloc ibSize (some (v, p)))) with ib := ⟨true, v, p⟩ }
  { attachDone (made.writeAll (zeroWords p.toNat 7)) with lockOwner := none }.giveReply a i ⟨.ok, 0#16⟩

/-- R201: the completion of ATTACH. -/
theorem path_attachedSteps {v : Nat} {p : Word} {as : List (Option (Nat × Word))}
    (hanswer : s.oracle.allocs = some (v, p) :: as) (hfresh : s.fresh [(p.toNat, 28)]) (halign : p.toNat % 4 = 0) :
    Path a i attachedSteps s [] (s.attached a i v p) 11 := by
  obtain ⟨hspace, hlive⟩ := hfresh.1 _ (List.mem_singleton.mpr rfl)
  obtain ⟨made, hmade⟩ : ∃ made : State, made =
    { s.takeAlloc.record (.call (.alloc ibSize (some (v, p)))) with ib := ⟨true, v, p⟩ } := ⟨_, rfl⟩
  have halloc : perform a i .allocIb s = .ok (made, []) := by
    have hok := allocate_ok (u := .initBlock) (size := ibSize) hanswer
      (fresh_admits hfresh (List.mem_singleton.mpr rfl)) (by simp [alignOk, halign])
    simp only [perform, allocIbStep, hok, Res.bind, hmade]
  have hzero : Path a i ((List.range 7).map Prim.zeroIb ++ .quiet .attachDone :: releaseReturn .ok 0#16) made
      (.quiet .attachDone :: releaseReturn .ok 0#16) (made.writeAll (zeroWords p.toNat 7)) 7 := by
    refine path_writes (put := fun k => (p.toNat + 4 * k, wordBytes 0#32)) (fun k hk m es => ?_) nofun
    have hk : k < 7 := List.mem_range.mp hk
    have hcheck : { made with memory := m, history := es }.checkBytes (p.toNat + 4 * k) 4 = .ok () := by
      refine checkBytes_ok (by omega) ?_
      rw [splits_congr (s := s) (by rw [hmade]; rfl) (by rw [hmade]; rfl)]
      exact splits_beside hlive (by omega)
    have hphys : made.ib.phys = p := by rw [hmade]
    simp only [perform, hostBytesStep, hphys, byteOf_length, hcheck, Res.bind]
  have hend : Path a i (.quiet .attachDone :: releaseReturn .ok 0#16) (made.writeAll (zeroWords p.toNat 7)) []
      (s.attached a i v p) 3 := by
    rw [hmade]
    exact .prim (ps := []) rfl path_releaseReturn
  exact .prim halloc (hzero.trans hend) (hd := by rw [hmade]; rfl)

theorem attached_memory (s : State) (a : Agent) (i : Instr) (v : Nat) (p : Word) :
    (s.attached a i v p).memory = s.memory.storeAll (zeroWords p.toNat 7) := by
  simp [State.attached, State.writeAll]

/-- R200, R201: the registers, the zeros of the Initialization Block, and the nine events of the completion. -/
theorem attached_effect (s : State) (a : Agent) (i : Instr) (v : Nat) (p : Word) (t : State)
    (ht : t = s.attached a i v p) :
    t = { s with
      lockOwner := none, lifecycle := .attached, ib := ⟨true, v, p⟩, counters := Counters.zero, memory := t.memory,
      oracle := t.oracle, replies := s.replied a ⟨.ok, 0#16⟩, history := t.history } ∧
    (∀ k, k < 28 → t.byteAt (p.toNat + k) = 0#8) ∧ s.sameBytesOutside t [(p.toNat, 28)] ∧
    t.history.drop 9 = s.history := by
  have hbyte := byteAt_zeroWords (s := s) (t := t) (b := p.toNat) (n := 7) (by rw [ht, attached_memory])
  refine ⟨?_, fun k hk => ?_, fun x hx => ?_, ?_⟩
  · apply State.ext <;> simp [ht, State.attached, State.writeAll, attachDone, State.replied]
  · rw [hbyte, if_pos (by omega)]
  · have hx : x < p.toNat ∨ p.toNat + 28 ≤ x := hx _ (List.mem_singleton.mpr rfl)
    rw [hbyte, if_neg (by omega)]
  · simp [ht, State.attached, State.writeAll, State.traced, zeroWords, List.range_succ]

/-! ### ATTACH alone -/

/-- R200: the strategy the probes found, in what state. -/
structure FoundBy (S : Strategy) (s u : State) : Prop where
  frame : u = { s with device := u.device, oracle := u.oracle, history := u.history }
  allocs : u.oracle.allocs = s.oracle.allocs
  answered : answers s.params S = true → u.device.state = .stopped ∧ u.device.latches = 0#16
  wio : answers s.params .wio = true → S = .wio ∧ ∃ w, u.history = .ioRead 16 (dataPort .wio s.params .csr) 0x0004#32 ::
    .ioWrite 16 (rapPort .wio s.params) 0#32 :: .ioRead 16 (resetPortAddr .wio s.params) w :: s.history
  other : s.params.wrongModeRead = .notStopped → answers s.params S = true

/-- R200: the two probes in order. -/
theorem path_probes (a : Agent) (i : Instr) (s : State) :
    (∃ S u, FoundBy S s u ∧ Path a i (probeSteps .wio) s attachedSteps { u with mode := S.toMode } 6) ∨
    (∃ u : State, u = { s with device := u.device, oracle := u.oracle, history := u.history } ∧
      (∀ S, answers s.params S = false) ∧
      Path a i (probeSteps .wio) s (releaseReturn .deviceNotFound 0#16) u 6) := by
  obtain ⟨v, u, hwio, hpath⟩ := path_probe (a := a) (i := i) (rest := []) .wio s
  rw [List.append_nil, List.append_nil] at hpath
  by_cases hv : v = stoppedStatus
  · refine .inl ⟨.wio, u, ⟨hwio.frame, hwio.allocs, fun h => (hwio.answered h).2, fun h => ⟨rfl, hwio.events rfl h⟩,
      fun h => ?_⟩, ?_⟩
    · by_contra hans
      exact hwio.unanswered (Bool.eq_false_iff.mpr hans) h hv
    · rw [probed, if_pos hv] at hpath
      exact hpath.mono (by decide)
  have hans : answers s.params .wio = false := by
    by_contra hyes
    exact hv (hwio.answered (Bool.not_eq_false _ ▸ hyes)).1
  rw [probed, if_neg hv] at hpath
  obtain ⟨v', u', hdwio, hpath'⟩ := path_probe (a := a) (i := i) (rest := []) .dwio u
  rw [List.append_nil, List.append_nil] at hpath'
  have hparams : u.params = s.params := by rw [hwio.frame]
  have hframe : u' = { s with device := u'.device, oracle := u'.oracle, history := u'.history } := by
    rw [hdwio.frame, hwio.frame]
  by_cases hv' : v' = stoppedStatus
  · refine .inl ⟨.dwio, u', ⟨hframe, hdwio.allocs.trans hwio.allocs, fun h => (hdwio.answered (hparams ▸ h)).2,
      fun h => by simp [hans] at h, fun h => ?_⟩, ?_⟩
    · by_contra hans'
      exact hdwio.unanswered (by rw [hparams]; exact Bool.eq_false_iff.mpr hans') (by rw [hparams]; exact h) hv'
    · rw [probed, if_pos hv'] at hpath'
      exact hpath.trans hpath'
  · refine .inr ⟨u', hframe, fun S => ?_, ?_⟩
    · cases S with
      | wio => exact hans
      | dwio =>
        by_contra hyes
        exact hv' (hdwio.answered (by rw [hparams]; exact Bool.not_eq_false _ ▸ hyes)).1
    · rw [probed, if_neg hv'] at hpath'
      exact hpath.trans hpath'

theorem answers_wio {p : Params} : answers p .wio = true ↔ p.deviceIoMode = .wio := by
  unfold answers
  cases p.deviceIoMode <;> simp

theorem answers_dwio {p : Params} : answers p .dwio = true ↔ p.deviceIoMode = .dwio := by
  unfold answers
  cases p.deviceIoMode <;> simp

/-- Settles O22: the two probes, then the completion or the return of DEVICE_NOT_FOUND. -/
theorem attachProbes : Obligations.AttachProbes := by
  intro s v p as hready hdetached hanswer hfresh halign
  have hbody : afterAcquire .attach (s.taken .attach) = (s.taken .attach, probeSteps .wio) := by
    have hdetached : (s.taken .attach).lifecycle = .detached := hdetached
    simp [afterAcquire, attachBody, hdetached]
  have hexec : ∀ {t : State} {n : Nat}, Path s.caller .attach (probeSteps .wio) (s.taken .attach) [] t n →
      n < 2 ^ 20 → exec .attach s = .next t := fun hpath hn =>
    exec_of_path (i := .attach) (k := s.issuer) hready rfl rfl (by simp [teardown]) (by rw [hbody]; rfl)
      (by rw [hbody]; exact hpath) hn
  obtain ⟨-, hlock, -⟩ := hready
  rcases path_probes s.caller .attach (s.taken .attach) with ⟨S, u, hfound, hpath⟩ | ⟨u, hu, hans, hpath⟩
  · obtain ⟨u', hu'⟩ : ∃ u' : State, u' = { u with mode := S.toMode } := ⟨_, rfl⟩
    have hframe : u' = { s with
        lockOwner := some s.caller, mode := S.toMode, device := u.device, oracle := u.oracle, history := u.history } := by
      rw [hu', hfound.frame]
      rfl
    rw [← hu'] at hpath
    have hnext := hexec (hpath.trans (path_attachedSteps (v := v) (p := p) (as := as) (by
      rw [hframe]; exact hfound.allocs.trans hanswer) (by rw [hframe]; exact hfresh) halign)) (by decide)
    obtain ⟨t, ht⟩ : ∃ t, t = u'.attached s.caller .attach v p := ⟨_, rfl⟩
    obtain ⟨heq, hzero, hout, hevents⟩ := attached_effect u' s.caller .attach v p t ht
    rw [← ht] at hnext
    have heq : t = { s with
        lifecycle := .attached, mode := S.toMode, ib := ⟨true, v, p⟩, counters := Counters.zero, device := u.device,
        memory := t.memory, oracle := t.oracle, replies := s.replied s.caller ⟨.ok, 0#16⟩, history := t.history } := by
      rw [heq, hframe, hlock]
      rfl
    have hdevice : t.device = u.device := by rw [heq]
    have hmode : t.mode = S.toMode := by rw [heq]
    have hout : s.sameBytesOutside t [(p.toNat, 28)] := by rw [hframe] at hout; exact hout
    refine ⟨t, hnext, .inl ⟨S, by rw [hdevice]; exact heq, hzero, hout, fun hans => ?_⟩, fun hdev => ?_,
      fun hdev hread => ?_, fun hdev hread => ?_⟩
    · obtain ⟨hstate, hlatches⟩ := hfound.answered hans
      rw [hdevice]
      exact ⟨hstate, hlatches, csr0Value_stopped s.params hstate hlatches⟩
    · obtain ⟨rfl, w, hhistory⟩ := hfound.wio (answers_wio.mpr hdev)
      refine ⟨hmode, w, ?_⟩
      rw [hevents, hframe]
      exact hhistory
    · have hS : S = .dwio := by
        cases S with
        | wio => cases (answers_wio.mp (hfound.other hread)).symm.trans hdev
        | dwio => rfl
      rw [hmode, hS]
      rfl
    · cases S with
      | wio => cases (answers_wio.mp (hfound.other hread)).symm.trans hdev
      | dwio => cases (answers_dwio.mp (hfound.other hread)).symm.trans hdev
  · have hnext := hexec (hpath.trans path_releaseReturn) (by decide)
    obtain ⟨t, ht⟩ : ∃ t, t = { u with lockOwner := none }.giveReply s.caller .attach ⟨.deviceNotFound, 0#16⟩ := ⟨_, rfl⟩
    rw [← ht] at hnext
    have heq : t = { s with
        device := t.device, oracle := t.oracle, replies := s.replied s.caller ⟨.deviceNotFound, 0#16⟩,
        history := t.history } := by
      rw [ht, hu, ← hlock]
      rfl
    have hmemory : t.memory = s.memory := by rw [heq]
    refine ⟨t, hnext, .inr ⟨heq, byteAt_congr hmemory⟩, fun hdev => ?_, fun hdev _ => ?_, fun _ _ => ⟨?_, ?_, ?_⟩⟩
    · exact absurd (answers_wio.mpr hdev) (Bool.eq_false_iff.mp (hans .wio))
    · exact absurd (answers_dwio.mpr hdev) (Bool.eq_false_iff.mp (hans .dwio))
    · rw [State.replyOf, heq, State.replied]
      simp
    · rw [heq]
      exact hdetached
    · rw [heq]

end Sys2Proof.Machine
end

section
/-! SUPPORT. `ring_allocate` (42_ring.md R241): the zero writes, the registers of the new ring, the RX buffers; and the arming
of the RX slots (41_lifecycle.md R211). -/

namespace Sys2Proof.Machine

variable {s u : State} {a : Agent} {i : Instr} {rest : List Prim}

/-! ### Fresh answers -/

/-- R98: the structures alive. -/
theorem mem_liveRegions {q : Nat × Nat} : q ∈ s.liveRegions ↔
    (s.ib.alloc = true ∧ q = (s.ib.phys.toNat, ibSize)) ∨
    (s.tx.alloc = true ∧ q = (s.tx.base.toNat, 16 * ringSize s.tx.exp)) ∨
    (∃ m, some m ∈ s.tx.map ∧ q = (m.phys.toNat, m.len)) ∨
    (s.rx.alloc = true ∧ (q = (s.rx.base.toNat, 16 * ringSize s.rx.exp) ∨
      ∃ b ∈ s.rx.buf, q = (b.phys.toNat, s.params.rxBufSize))) := by
  simp [State.liveRegions, List.mem_ite_nil_right, @eq_comm _ q]

/-- R98: once the first region is taken, the others are fresh beside it. -/
theorem fresh_tail {r : Nat × Nat} {rs : List (Nat × Nat)} (h : s.fresh (r :: rs))
    (hlive : ∀ q ∈ u.liveRegions, q ∈ s.liveRegions ∨ q = r) : u.fresh rs := by
  obtain ⟨hall, hapart⟩ := h
  obtain ⟨hfirst, hrest⟩ := List.pairwise_cons.mp hapart
  refine ⟨fun x hx => ?_, hrest⟩
  obtain ⟨hspace, hx'⟩ := hall x (List.mem_cons_of_mem _ hx)
  refine ⟨hspace, fun q hq => ?_⟩
  rcases hlive q hq with hq | rfl
  · exact hx' q hq
  · have h := hfirst x hx
    simp only [disjointRegions, Bool.or_eq_true, decide_eq_true_eq] at h ⊢
    omega

/-! ### The new ring -/

/-- R241: the buffers of a new RX ring. -/
def bufferSteps (e : Nat) : Ring → List Prim
  | .rx => List.replicate (ringSize e) Prim.allocBuf
  | .tx => []

theorem ringMakeSteps_eq (r : Ring) (e v : Nat) (p : Word) : ringMakeSteps r e v p =
    (List.range (4 * ringSize e)).map (fun k => Prim.zeroWord (p.toNat + 4 * k)) ++
      .quiet (.ringMade r e v p) :: bufferSteps e r := by
  cases r <;> simp [ringMakeSteps, bufferSteps]

/-- R241: the array of a new ring is zero. -/
def State.ringZeroed (s : State) (e v : Nat) (p : Word) : State :=
  (s.takeAlloc.record (.call (.alloc (16 * ringSize e) (some (v, p))))).writeAll (zeroWords p.toNat (4 * ringSize e))

/-- R241: `ring_allocate` up to the registers of the new ring. -/
theorem path_allocRing {r : Ring} {e v : Nat} {p : Word} {as : List (Option (Nat × Word))} {rs : List (Nat × Nat)}
    (hanswer : s.oracle.allocs = some (v, p) :: as) (hfresh : s.fresh ((p.toNat, 16 * ringSize e) :: rs))
    (halign : p.toNat % 16 = 0) :
    Path a i (.allocRing r e :: rest) s (bufferSteps e r ++ rest) (ringMade r e v p (s.ringZeroed e v p))
      (4 * ringSize e + 2) := by
  obtain ⟨hspace, -⟩ := hfresh.1 _ List.mem_cons_self
  obtain ⟨w, hw⟩ : ∃ w, w = s.takeAlloc.record (.call (.alloc (16 * ringSize e) (some (v, p)))) := ⟨_, rfl⟩
  have halloc : perform a i (.allocRing r e) s = .ok (w, ringMakeSteps r e v p) := by
    have hok := allocate_ok (u := .ring) hanswer (fresh_admits hfresh List.mem_cons_self) (by simp [alignOk, halign])
    simp only [perform, allocRingStep, hok, Res.bind, hw]
  have hzero : Path a i ((List.range (4 * ringSize e)).map (fun k => Prim.zeroWord (p.toNat + 4 * k)) ++
      .quiet (.ringMade r e v p) :: (bufferSteps e r ++ rest)) w (.quiet (.ringMade r e v p) :: (bufferSteps e r ++ rest))
      (w.writeAll (zeroWords p.toNat (4 * ringSize e))) (4 * ringSize e) := by
    have hpath := path_writes (a := a) (i := i) (s := w) (rest := .quiet (.ringMade r e v p) :: (bufferSteps e r ++ rest))
      (p := fun k => Prim.zeroWord (p.toNat + 4 * k)) (put := fun k => (p.toNat + 4 * k, wordBytes 0#32))
      (xs := List.range (4 * ringSize e)) (fun k hk m es => by
        have hk : k < 4 * ringSize e := List.mem_range.mp hk
        simp only [perform, zeroWordStep, checkWord_ok (show (p.toNat + 4 * k) % 4 = 0 by omega)
          (show p.toNat + 4 * k + 4 ≤ memTop by omega), Res.bind]) (fun _ => by simp)
    rwa [List.length_range] at hpath
  have hmade : Path a i (.quiet (.ringMade r e v p) :: (bufferSteps e r ++ rest))
      (w.writeAll (zeroWords p.toNat (4 * ringSize e))) (bufferSteps e r ++ rest)
      (ringMade r e v p (w.writeAll (zeroWords p.toNat (4 * ringSize e)))) 1 :=
    .prim (ps := []) rfl (.refl _ _ 0) (hd := by cases r <;> rfl)
  have hpath := hzero.trans hmade
  rw [hw] at halloc hpath
  refine .prim halloc ?_
  rw [ringMakeSteps_eq, List.append_assoc]
  exact hpath

/-- R241: the buffers of the RX ring, in slot order; `rs` are regions still to be taken. -/
theorem path_allocBufs {as : List (Option (Nat × Word))} {rs : List (Nat × Nat)} : ∀ {bufs : List RxBuffer} {s : State},
    s.oracle.allocs = answersOf bufs ++ as → s.fresh (bufferRegions s.params.rxBufSize bufs ++ rs) →
    ∃ o es, Path a i (List.replicate bufs.length Prim.allocBuf ++ rest) s rest
      { s with rx := { s.rx with buf := s.rx.buf ++ bufs }, oracle := o, history := es } bufs.length ∧
      o.allocs = as ∧
      { s with rx := { s.rx with buf := s.rx.buf ++ bufs }, oracle := o, history := es }.fresh rs
  | [], s, hanswer, hfresh => by
    refine ⟨s.oracle, s.history, ?_, hanswer, ?_⟩
    · rw [List.append_nil]
      exact .refl rest s 0
    · rw [List.append_nil]
      exact hfresh
  | b :: bufs, s, hanswer, hfresh => by
    obtain ⟨u, hu⟩ : ∃ u, u = { s.takeAlloc.record (.call (.alloc s.params.rxBufSize (some (b.vptr, b.phys)))) with
      rx := { s.rx with buf := s.rx.buf ++ [b] } } := ⟨_, rfl⟩
    have hstep : perform a i .allocBuf s = .ok (u, []) := by
      have hok := allocate_ok (u := .buffer) (size := s.params.rxBufSize) hanswer
        (fresh_admits hfresh List.mem_cons_self) rfl
      simp only [perform, allocBufStep, hok, Res.bind, hu]
      rfl
    have hanswer' : u.oracle.allocs = answersOf bufs ++ as := by simp [hu, hanswer, answersOf]
    have hlive : ∀ q ∈ u.liveRegions, q ∈ s.liveRegions ∨ q = (b.phys.toNat, s.params.rxBufSize) := by
      intro q hq
      rw [mem_liveRegions, hu] at hq
      rw [mem_liveRegions]
      rcases hq with hib | htx | hmap | ⟨halloc, hring | ⟨c, hc, hbuf⟩⟩
      · exact .inl (.inl hib)
      · exact .inl (.inr (.inl htx))
      · exact .inl (.inr (.inr (.inl hmap)))
      · exact .inl (.inr (.inr (.inr ⟨halloc, .inl hring⟩)))
      · rcases List.mem_append.mp hc with hc | hc
        · exact .inl (.inr (.inr (.inr ⟨halloc, .inr ⟨c, hc, hbuf⟩⟩)))
        · exact .inr (List.mem_singleton.mp hc ▸ hbuf)
    have hfresh' : u.fresh (bufferRegions u.params.rxBufSize bufs ++ rs) := by
      rw [show u.params = s.params by rw [hu]; rfl]
      exact fresh_tail hfresh hlive
    obtain ⟨o, es, hpath, ho, hend⟩ := path_allocBufs hanswer' hfresh'
    have heq : { u with rx := { u.rx with buf := u.rx.buf ++ bufs }, oracle := o, history := es } =
        { s with rx := { s.rx with buf := s.rx.buf ++ b :: bufs }, oracle := o, history := es } := by
      apply State.ext <;> simp [hu]
    rw [heq] at hpath hend
    exact ⟨o, es, .prim hstep hpath (hd := by rw [hu]; rfl), ho, hend⟩

/-- R98: beside a new ring the rest of the regions is still fresh. -/
theorem fresh_ringMade {r : Ring} {e v : Nat} {p : Word} {rs : List (Nat × Nat)}
    (h : s.fresh ((p.toNat, 16 * ringSize e) :: rs)) : (ringMade r e v p (s.ringZeroed e v p)).fresh rs := by
  refine fresh_tail h fun q hq => ?_
  rw [mem_liveRegions] at hq
  rw [mem_liveRegions]
  cases r with
  | rx =>
    rcases hq with hib | htx | hmap | ⟨-, hring | ⟨c, hc, -⟩⟩
    · exact .inl (.inl hib)
    · exact .inl (.inr (.inl htx))
    · exact .inl (.inr (.inr (.inl hmap)))
    · exact .inr hring
    · exact absurd hc List.not_mem_nil
  | tx =>
    rcases hq with hib | ⟨-, hring⟩ | ⟨m, hm, -⟩ | hrx
    · exact .inl (.inl hib)
    · exact .inr hring
    · exact absurd (List.eq_of_mem_replicate hm) nofun
    · exact .inl (.inr (.inr (.inr hrx)))

/-- R241: `ring_allocate(RX)`. -/
theorem path_allocRx {e v : Nat} {p : Word} {bufs : List RxBuffer} {as : List (Option (Nat × Word))}
    {rs : List (Nat × Nat)} (hanswer : s.oracle.allocs = some (v, p) :: (answersOf bufs ++ as))
    (hfresh : s.fresh ((p.toNat, 16 * ringSize e) :: (bufferRegions s.params.rxBufSize bufs ++ rs)))
    (halign : p.toNat % 16 = 0) (hlen : bufs.length = ringSize e) :
    ∃ o es t, t = { s with
        rx := RxRing.made e v p bufs, memory := s.memory.storeAll (zeroWords p.toNat (4 * ringSize e)), oracle := o,
        history := es } ∧
      Path a i (.allocRing .rx e :: rest) s rest t (5 * ringSize e + 2) ∧ o.allocs = as ∧ t.fresh rs := by
  obtain ⟨u, hu⟩ : ∃ u, u = ringMade .rx e v p (s.ringZeroed e v p) := ⟨_, rfl⟩
  have hring := path_allocRing (a := a) (i := i) (rest := rest) (r := .rx) hanswer hfresh halign
  have hrest := fresh_ringMade (r := .rx) (v := v) hfresh
  rw [← hu] at hring hrest
  have hanswer' : u.oracle.allocs = answersOf bufs ++ as := by
    simp [hu, ringMade, State.ringZeroed, State.writeAll, hanswer]
  have hparams : u.params = s.params := by rw [hu]; rfl
  rw [← hparams] at hrest
  obtain ⟨o, es, hbufs, ho, hend⟩ := path_allocBufs (a := a) (i := i) (rest := rest) hanswer' hrest
  have heq : { u with rx := { u.rx with buf := u.rx.buf ++ bufs }, oracle := o, history := es } = { s with
      rx := RxRing.made e v p bufs, memory := s.memory.storeAll (zeroWords p.toNat (4 * ringSize e)), oracle := o,
      history := es } := by
    apply State.ext <;> simp [hu, ringMade, State.ringZeroed, State.writeAll, RxRing.made]
  rw [heq, hlen] at hbufs
  rw [heq] at hend
  exact ⟨o, es, _, rfl, (hring.trans hbufs).mono (by omega), ho, hend⟩

/-- R241: `ring_allocate(TX)`. -/
theorem path_allocTx {e v : Nat} {p : Word} {as : List (Option (Nat × Word))}
    (hanswer : s.oracle.allocs = some (v, p) :: as) (hfresh : s.fresh [(p.toNat, 16 * ringSize e)])
    (halign : p.toNat % 16 = 0) : ∃ o es,
      Path a i (.allocRing .tx e :: rest) s rest { s with
        tx := TxRing.made e v p, memory := s.memory.storeAll (zeroWords p.toNat (4 * ringSize e)), oracle := o,
        history := es } (4 * ringSize e + 2) ∧ o.allocs = as := by
  have hring := path_allocRing (a := a) (i := i) (rest := rest) (r := .tx) hanswer hfresh halign
  have heq : ringMade .tx e v p (s.ringZeroed e v p) = { s with
      tx := TxRing.made e v p, memory := s.memory.storeAll (zeroWords p.toNat (4 * ringSize e)),
      oracle := s.takeAlloc.oracle, history := (s.ringZeroed e v p).history } := by
    apply State.ext <;> simp [ringMade, State.ringZeroed, State.writeAll, TxRing.made]
  rw [heq] at hring
  exact ⟨_, _, hring, by simp [hanswer]⟩

/-! ### Arming the RX slots -/

/-- R122, R262, R293: the host writes words 0 and 2 of a slot, and hands it over by its word 1. -/
def State.handedOver (s : State) (base : Word) (k : Nat) (w0 w1 : Word) : State :=
  (((s.memWrite .host (slotAddr base k 0) (wordBytes w0)).memWrite .host (slotAddr base k 2)
    (wordBytes 0#32)).record .fenceW).memWrite .host (slotAddr base k 1) (wordBytes w1)

theorem handedOver_frame (base : Word) (k : Nat) (w0 w1 : Word) : s.handedOver base k w0 w1 =
    { s with memory := (s.handedOver base k w0 w1).memory, history := (s.handedOver base k w0 w1).history } := by
  apply State.ext <;> simp [State.handedOver]

/-- The words of the slot after it. -/
theorem handedOver_words (s : State) (base : Word) (k : Nat) (w0 w1 : Word) :
    (s.handedOver base k w0 w1).wordAt (slotAddr base k 0) = w0 ∧
    (s.handedOver base k w0 w1).wordAt (slotAddr base k 1) = w1 ∧
    (s.handedOver base k w0 w1).wordAt (slotAddr base k 2) = 0#32 ∧
    (s.handedOver base k w0 w1).wordAt (slotAddr base k 3) = s.wordAt (slotAddr base k 3) := by
  have apart : ∀ {v w : Nat}, v < 4 → w < 4 → v ≠ w →
      slotAddr base k v + 4 ≤ slotAddr base k w ∨ slotAddr base k w + 4 ≤ slotAddr base k v :=
    fun hv hw hne => slotAddr_apart hv hw fun h => hne h.2
  refine ⟨?_, memWrite_word, ?_, ?_⟩
  · rw [State.handedOver, memWrite_word_other (apart (by decide) (by decide) (by decide)), record_wordAt,
      memWrite_word_other (apart (by decide) (by decide) (by decide)), memWrite_word]
  · rw [State.handedOver, memWrite_word_other (apart (by decide) (by decide) (by decide)), record_wordAt, memWrite_word]
  · rw [State.handedOver, memWrite_word_other (apart (by decide) (by decide) (by decide)), record_wordAt,
      memWrite_word_other (apart (by decide) (by decide) (by decide)),
      memWrite_word_other (apart (by decide) (by decide) (by decide))]

/-- No byte outside the slot changes. -/
theorem handedOver_outside (base : Word) (k : Nat) (w0 w1 : Word) {x : Nat}
    (hx : x < slotAddr base k 0 ∨ slotAddr base (k + 1) 0 ≤ x) : (s.handedOver base k w0 w1).byteAt x = s.byteAt x := by
  have hout : ∀ w, w < 3 → x < slotAddr base k w ∨ slotAddr base k w + 4 ≤ x := by
    intro w hw
    unfold slotAddr at hx ⊢
    omega
  rw [State.handedOver, memWrite_other (hout 1 (by decide)), record_byteAt, memWrite_other (hout 2 (by decide)),
    memWrite_other (hout 0 (by decide))]

/-- R211: the primitives that arm one slot. -/
def armSlot (size : Nat) (x : RxBuffer × Nat) : List Prim :=
  [.slotPut .rx x.2 0 x.1.phys, .slotPut .rx x.2 2 0#32, .quiet .fenceW, .slotPut .rx x.2 1 (rxArmWord size)]

/-- R211: one slot the host owns is armed. -/
theorem path_armSlot {size k : Nat} {b : RxBuffer} (hplaced : ringPlaced s.rx.base s.rx.exp)
    (hk : k < ringSize s.rx.exp) (hown : owned (s.wordAt (slotAddr s.rx.base k 1)) = false) :
    Path a i (armSlot size (b, k) ++ rest) s rest (s.handedOver s.rx.base k b.phys (rxArmWord size)) 4 := by
  obtain ⟨al0, in0⟩ := slot_placed (w := 0) hplaced hk (by decide)
  obtain ⟨al1, in1⟩ := slot_placed (w := 1) hplaced hk (by decide)
  obtain ⟨al2, in2⟩ := slot_placed (w := 2) hplaced hk (by decide)
  have hput : ∀ {u : State} {w : Nat} {v : Word}, u.rx = s.rx → slotAddr s.rx.base k w % 4 = 0 →
      slotAddr s.rx.base k w + 4 ≤ memTop → (w = 1 ∨ owned (u.wordAt (slotAddr s.rx.base k 1)) = false) →
      perform a i (.slotPut .rx k w v) u = .ok (u.memWrite .host (slotAddr s.rx.base k w) (wordBytes v), []) := by
    intro u w v hu hal hin how
    have hbase : u.ringBase .rx = s.rx.base := by rw [← hu]; rfl
    simp only [perform, hostSlotWrite_ok (hbase.symm ▸ hal) (hbase.symm ▸ hin) (hbase.symm ▸ how), hbase, Res.bind]
  obtain ⟨u0, hu0⟩ : ∃ u, u = s.memWrite .host (slotAddr s.rx.base k 0) (wordBytes b.phys) := ⟨_, rfl⟩
  obtain ⟨u2, hu2⟩ : ∃ u, u = u0.memWrite .host (slotAddr s.rx.base k 2) (wordBytes 0#32) := ⟨_, rfl⟩
  have hown0 : owned (u0.wordAt (slotAddr s.rx.base k 1)) = false := by
    rw [hu0, memWrite_word_other (slotAddr_apart (by decide) (by decide) (by omega))]
    exact hown
  have hrx0 : u0.rx = s.rx := by rw [hu0, memWrite_rx]
  have hrx2 : u2.rx = s.rx := by rw [hu2, memWrite_rx, hrx0]
  have hput0 := hput (v := b.phys) rfl al0 in0 (.inr hown)
  have hput2 := hput (v := 0#32) hrx0 al2 in2 (.inr hown0)
  have hput1 := hput (u := u2.record .fenceW) (v := rxArmWord size) hrx2 al1 in1 (.inl rfl)
  rw [← hu0] at hput0
  rw [← hu2] at hput2
  rw [State.handedOver, ← hu0, ← hu2]
  have hlast : Path a i (.slotPut .rx k 1 (rxArmWord size) :: rest) (u2.record .fenceW) rest
      ((u2.record .fenceW).memWrite .host (slotAddr s.rx.base k 1) (wordBytes (rxArmWord size))) 1 :=
    .prim hput1 (.refl _ _ 0) (hd := memWrite_device _ _ _ _)
  exact .prim hput0 (.prim hput2 (.prim (ps := []) rfl hlast) (hd := by rw [hu2, memWrite_device]))
    (hd := by rw [hu0, memWrite_device])

/-- R211: the slots from `k` on are armed, one for each buffer. -/
theorem path_armSlots {size : Nat} : ∀ {bufs : List RxBuffer} {k : Nat} {s : State},
    ringPlaced s.rx.base s.rx.exp → k + bufs.length ≤ ringSize s.rx.exp →
    (∀ j, j < bufs.length → owned (s.wordAt (slotAddr s.rx.base (k + j) 1)) = false) →
    ∃ m es t, t = { s with memory := m, history := es } ∧
      Path a i ((bufs.zipIdx k).flatMap (armSlot size) ++ rest) s rest t (4 * bufs.length) ∧
      (∀ j b, bufs[j]? = some b →
        t.wordAt (slotAddr s.rx.base (k + j) 0) = b.phys ∧
        t.wordAt (slotAddr s.rx.base (k + j) 1) = rxArmWord size ∧
        t.wordAt (slotAddr s.rx.base (k + j) 2) = 0#32 ∧
        t.wordAt (slotAddr s.rx.base (k + j) 3) = s.wordAt (slotAddr s.rx.base (k + j) 3)) ∧
      ∀ x, x < slotAddr s.rx.base k 0 ∨ slotAddr s.rx.base (k + bufs.length) 0 ≤ x → t.byteAt x = s.byteAt x
  | [], k, s, _, _, _ => ⟨s.memory, s.history, s, rfl, .refl rest s 0, by simp, fun _ _ => rfl⟩
  | b :: bufs, k, s, hplaced, hlen, hown => by
    rw [List.length_cons] at hlen hown
    obtain ⟨u, hu⟩ : ∃ u, u = s.handedOver s.rx.base k b.phys (rxArmWord size) := ⟨_, rfl⟩
    have hframe : u = { s with memory := u.memory, history := u.history } := by
      rw [hu]
      exact handedOver_frame _ _ _ _
    have hrx : u.rx = s.rx := by rw [hframe]
    have hout : ∀ x, x < slotAddr s.rx.base k 0 ∨ slotAddr s.rx.base (k + 1) 0 ≤ x → u.byteAt x = s.byteAt x := by
      rw [hu]
      exact fun x hx => handedOver_outside s.rx.base k b.phys (rxArmWord size) hx
    have hword : ∀ j w, k + 1 ≤ j → u.wordAt (slotAddr s.rx.base j w) = s.wordAt (slotAddr s.rx.base j w) := by
      intro j w hj
      refine wordAt_eq fun x hx _ => hout x (.inr ?_)
      unfold slotAddr at hx ⊢
      omega
    have hfirst := path_armSlot (a := a) (i := i) (size := size) (b := b)
      (rest := (bufs.zipIdx (k + 1)).flatMap (armSlot size) ++ rest) hplaced (show k < ringSize s.rx.exp by omega)
      (hown 0 (by omega))
    have hwords := handedOver_words s s.rx.base k b.phys (rxArmWord size)
    rw [← hu] at hfirst hwords
    obtain ⟨m, es, t, ht, hpath, hslots, hrest⟩ := path_armSlots (bufs := bufs) (k := k + 1) (s := u)
      (hrx.symm ▸ hplaced) (by rw [hrx]; omega) (fun j hj => by
        rw [hrx, hword _ _ (by omega), Nat.add_right_comm]
        exact hown (j + 1) (by omega))
    rw [hrx] at hslots hrest
    refine ⟨m, es, t, by rw [ht, hframe], ?_, fun j c hc => ?_, fun x hx => ?_⟩
    · have hsteps : ((b :: bufs).zipIdx k).flatMap (armSlot size) ++ rest =
          armSlot size (b, k) ++ ((bufs.zipIdx (k + 1)).flatMap (armSlot size) ++ rest) := by simp
      rw [hsteps]
      exact (hfirst.trans hpath).mono (by rw [List.length_cons]; omega)
    · cases j with
      | zero =>
        cases hc
        have hkeep : ∀ w, w < 4 → t.wordAt (slotAddr s.rx.base k w) = u.wordAt (slotAddr s.rx.base k w) := by
          intro w hw
          refine wordAt_eq fun x _ hx => hrest x (.inl ?_)
          unfold slotAddr at hx ⊢
          omega
        rw [Nat.add_zero, hkeep 0 (by decide), hkeep 1 (by decide), hkeep 2 (by decide), hkeep 3 (by decide)]
        exact hwords
      | succ j =>
        have hslot := hslots j c hc
        rw [Nat.add_right_comm, hword _ 3 (by omega)] at hslot
        exact hslot
    · rw [List.length_cons] at hx
      rw [hrest x (by unfold slotAddr at hx ⊢; omega), hout x (by unfold slotAddr at hx ⊢; omega)]

end Sys2Proof.Machine
end

section
/-! SUPPORT. The Initialization Block of OPEN (41_lifecycle.md R212, R214; 20_memory.md R112): its bytes, and its address. -/

namespace Sys2Proof.Machine

variable {s u t : State} {a : Agent} {i : Instr} {rest : List Prim} {S : Strategy} {mode : Half} {er et : Nat}
  {mac : BitVec 48} {pr pt : Word}

/-! ### The bytes of the block -/

/-- R112: every field lies in the block. -/
theorem ibFields_fit : ∀ f ∈ ibFields mode er et mac pr pt, f.1 + f.2.length ≤ 28 := by
  simp [ibFields, halfBytes]

/-- R112: the bytes of the block, in address order. -/
def ibBytes (mode : Half) (er et : Nat) (mac : BitVec 48) (pr pt : Word) : List Byte :=
  (ibFields mode er et mac pr pt).flatMap fun f => f.2

/-- R212: the field writes of the block, from `b` on. -/
def ibWrites (b : Nat) (mode : Half) (er et : Nat) (mac : BitVec 48) (pr pt : Word) : List (Nat × List Byte) :=
  (ibFields mode er et mac pr pt).map fun f => (b + f.1, f.2)

theorem setBytes_append (bs cs : List Byte) : ∀ (m : Memory) (b : Nat),
    m.setBytes b (bs ++ cs) = (m.setBytes b bs).setBytes (b + bs.length) cs := by
  induction bs with
  | nil => exact fun _ _ => rfl
  | cons x bs ih =>
    intro m b
    rw [List.cons_append, Memory.setBytes, Memory.setBytes, ih, List.length_cons, Nat.add_right_comm, Nat.add_assoc]

/-- R112, R212: the fields stand one after another. -/
theorem storeAll_ibWrites (m : Memory) (b : Nat) :
    m.storeAll (ibWrites b mode er et mac pr pt) = m.setBytes b (ibBytes mode er et mac pr pt) := by
  have hhalf : ∀ v : Half, (halfBytes v).length = 2 := fun _ => rfl
  have hone : ∀ x : Byte, [x].length = 1 := fun _ => rfl
  simp only [Memory.storeAll, ibWrites, ibFields, ibBytes, List.map_cons, List.map_nil, List.foldl_cons, List.foldl_nil,
    List.flatMap_cons, List.flatMap_nil, List.append_nil, setBytes_append, hhalf, hone, byteOf_length, Nat.add_assoc,
    Nat.reduceAdd, Nat.add_zero]

theorem ibBytes_length : (ibBytes mode er et mac pr pt).length = 28 := by
  simp [ibBytes, ibFields, halfBytes]

/-- R112: what stands in memory once the block is filled. -/
structure IbFilled (t : State) (b : Nat) (mode : Half) (er et : Nat) (mac : BitVec 48) (pr pt : Word) : Prop where
  mode : t.halfAt b = mode
  rxExp : t.byteAt (b + 2) = expByte er
  txExp : t.byteAt (b + 3) = expByte et
  station : ∀ k, k < 6 → t.byteAt (b + 4 + k) = stationByte mac k
  zero : ∀ k, 10 ≤ k → k < 20 → t.byteAt (b + k) = 0#8
  rxBase : t.wordAt (b + 20) = pr
  txBase : t.wordAt (b + 24) = pt

/-- R92: the 16-bit value of its two bytes. -/
theorem halfOfBytes_extract (v : Half) : halfOfBytes (v.extractLsb' 0 8) (v.extractLsb' 8 8) = v := by
  unfold halfOfBytes
  refine BitVec.eq_of_getLsbD_eq fun i hi => ?_
  simp only [BitVec.getLsbD_append, BitVec.getLsbD_extractLsb']
  by_cases h : i < 8
  · simp [h]
  · simp [h, show i - 8 < 8 by omega, show 8 + (i - 8) = i by omega]

/-- R112, R212: the fields as they are read back. -/
theorem ibFilled_of_memory {b : Nat} (h : t.memory = s.memory.storeAll (ibWrites b mode er et mac pr pt)) :
    IbFilled t b mode er et mac pr pt := by
  have hbyte : ∀ k x, (ibBytes mode er et mac pr pt)[k]? = some x → t.byteAt (b + k) = x := by
    intro k x hx
    have hk : k < 28 := by
      rw [← ibBytes_length (mode := mode) (er := er) (et := et) (mac := mac) (pr := pr) (pt := pt)]
      exact (List.getElem?_eq_some_iff.mp hx).1
    rw [State.byteAt, h, storeAll_ibWrites, Memory.get?_setBytes, if_pos (by rw [ibBytes_length]; omega),
      Nat.add_sub_cancel_left, hx]
    rfl
  refine ⟨?_, hbyte 2 _ rfl, hbyte 3 _ rfl, fun k hk => ?_, fun k hlo hhi => ?_, ?_, ?_⟩
  · rw [State.halfAt, hbyte 1 _ rfl, show t.byteAt b = _ from hbyte 0 _ rfl]
    exact halfOfBytes_extract mode
  · rw [Nat.add_assoc]
    refine hbyte _ _ ?_
    match k, hk with
    | 0, _ | 1, _ | 2, _ | 3, _ | 4, _ | 5, _ => rfl
  · refine hbyte _ _ ?_
    interval_cases k <;> rfl
  · rw [State.wordAt, hbyte 20 _ rfl, Nat.add_assoc, hbyte 21 _ rfl, Nat.add_assoc, hbyte 22 _ rfl, Nat.add_assoc,
      hbyte 23 _ rfl]
    exact wordOfBytes_byteOf pr
  · rw [State.wordAt, hbyte 24 _ rfl, Nat.add_assoc, hbyte 25 _ rfl, Nat.add_assoc, hbyte 26 _ rfl, Nat.add_assoc,
      hbyte 27 _ rfl]
    exact wordOfBytes_byteOf pt

/-- R212: no byte outside the block changes. -/
theorem byteAt_ibWrites {b x : Nat} (h : t.memory = s.memory.storeAll (ibWrites b mode er et mac pr pt))
    (hx : x < b ∨ b + 28 ≤ x) : t.byteAt x = s.byteAt x := by
  rw [State.byteAt, h, storeAll_ibWrites, Memory.get?_setBytes, if_neg (by rw [ibBytes_length]; omega)]
  rfl

/-! ### The writes -/

/-- R212: the station address, and the fields of a block that lies in memory apart from the rings. -/
theorem path_fillIb (hspace : s.ib.phys.toNat + 28 ≤ memTop)
    (htx : s.tx.alloc = true → disjointRegions s.ib.phys.toNat 28 s.tx.base.toNat (16 * ringSize s.tx.exp) = true)
    (hrx : s.rx.alloc = true → disjointRegions s.ib.phys.toNat 28 s.rx.base.toNat (16 * ringSize s.rx.exp) = true)
    (mac : BitVec 48) : ∃ es, Path a i (.quiet (.fillIb mac) :: rest) s rest
      { s with
        station := mac, memory := s.memory.storeAll
          (ibWrites s.ib.phys.toNat s.params.initMode s.rx.exp s.tx.exp mac s.rx.base s.tx.base),
        history := es } 21 := by
  have hpath := path_writes (a := a) (i := i) (rest := rest) (s := { s with station := mac })
    (p := fun f : Nat × List Byte => Prim.ibPut f.1 f.2) (put := fun f => (s.ib.phys.toNat + f.1, f.2))
    (xs := ibFields s.params.initMode s.rx.exp s.tx.exp mac s.rx.base s.tx.base)
    (fun f hf m es => by
      have hfit := ibFields_fit f hf
      have hcheck : { s with station := mac, memory := m, history := es }.checkBytes (s.ib.phys.toNat + f.1)
          f.2.length = .ok () := by
        have hsplits := splits_out (s := s) (Nat.le_refl f.2.length) (fun h => disjointRegions_part (htx h) hfit)
          (fun h => disjointRegions_part (hrx h) hfit)
        exact checkBytes_ok (by omega) ((splits_congr rfl rfl _ _).trans hsplits)
      simp only [perform, hostBytesStep, hcheck, Res.bind]) (fun _ => by simp)
  exact ⟨_, .prim (ps := fillIbSteps mac s) rfl hpath⟩

/-! ### Register writes on an answered mode -/

/-- R172, R350, R356: a write through RDP to the modelled register RAP names. -/
theorem writeData_answered {x : Half} {d : Device} (h : answers s.params S = true) (hd : csrStore s.device x = some d) :
    writeData S .csr x s = .ok { s with
      device := d, history := .ioWrite S.width (dataPort S s.params .csr) (x.setWidth 32) :: s.history } := by
  simp only [writeData, h, if_true, record_device, hd]
  rfl

/-- R172, R173: the state after `csr_write`, which makes the device `d`. -/
def State.csrWritten (s : State) (S : Strategy) (idx x : Half) (d : Device) : State :=
  { s with
    device := d,
    history := .ioWrite S.width (dataPort S s.params .csr) (x.setWidth 32) ::
      .ioWrite S.width (rapPort S s.params) (idx.setWidth 32) :: s.history }

/-- R172, R173: the two accesses of `csr_write`. -/
theorem perform_csrWrite {idx x : Half} {d : Device} (hm : s.answeredBy S)
    (hd : csrStore { s.device with rap := idx } x = some d) :
    perform a i (.rap .bound idx) s = .ok (writeRap S idx s, []) ∧
    perform a i (.dataPut .bound .csr x) (writeRap S idx s) = .ok (s.csrWritten S idx x d, []) := by
  obtain ⟨hmode, hans⟩ := hm
  have hmode : Via.bound.resolve s.mode = some S := hmode
  have hmode' : Via.bound.resolve (writeRap S idx s).mode = some S := by rw [writeRap_mode]; exact hmode
  have hwrite : writeData S .csr x (writeRap S idx s) = .ok (s.csrWritten S idx x d) := by
    rw [writeRap_answered hans]
    exact writeData_answered (by exact hans) (by exact hd)
  constructor
  · simp only [perform, withStrategy, hmode]
  · simp only [perform, withStrategy, hmode', hwrite, Res.bind]

/-- R172, R173: `csr_write` of a modelled register, where it does not start the INIT handshake. -/
theorem path_csrWrite {idx x : Half} {d : Device} (hm : s.answeredBy S)
    (hd : csrStore { s.device with rap := idx } x = some d)
    (hstart : s.device.state ≠ .initialising → d.state ≠ .initialising) :
    Path a i (csrWrite .bound idx x ++ rest) s rest (s.csrWritten S idx x d) 2 := by
  obtain ⟨hrap, hput⟩ := perform_csrWrite (a := a) (i := i) hm hd
  have hstate := writeRap_state S idx s
  refine .step (ready_of_ne (by simp)) hrap (fun h => hstate.symm ▸ h) ?_
  exact .step (ready_of_ne (by simp)) hput (fun h => hstart (hstate ▸ h)) (.refl _ _ 0)

/-- R214: the address of the block, low half first. -/
theorem path_loadAddress (hm : s.answeredBy S) : ∃ es,
    Path a i (.quiet .loadAddress :: rest) s rest
      { s with
        device := { s.device with
          rap := 2#16, csr1 := s.ib.phys.extractLsb' 0 16, csr2 := s.ib.phys.extractLsb' 16 16 },
        history := es } 5 := by
  have hlow := path_csrWrite (a := a) (i := i) (s := s) (x := s.ib.phys.extractLsb' 0 16) (idx := 1#16)
    (rest := csrWrite .bound 2#16 (s.ib.phys.extractLsb' 16 16) ++ rest) hm rfl id
  have hhigh := path_csrWrite (a := a) (i := i) (x := s.ib.phys.extractLsb' 16 16) (idx := 2#16) (rest := rest)
    (s := s.csrWritten S 1#16 (s.ib.phys.extractLsb' 0 16)
      { s.device with rap := 1#16, csr1 := s.ib.phys.extractLsb' 0 16 }) hm rfl id
  have hpath := hlow.trans hhigh
  rw [← List.append_assoc] at hpath
  exact ⟨_, .prim (ps := loadAddressSteps s) rfl hpath⟩

end Sys2Proof.Machine
end

section
/-! SUPPORT. OPEN up to the start of the INIT handshake (41_lifecycle.md R210 to R214): the registers and the memory it
leaves; and OPEN with a device that never confirms INIT (R215, R217). -/

namespace Sys2Proof.Machine

variable {s t u : State} {a : Agent} {i : Instr} {rest : List Prim} {S : Strategy} {mac : BitVec 48} {vr vt : Nat}
  {pr pt : Word} {bufs : List RxBuffer} {as : List (Option (Nat × Word))}

/-! ### The memory -/

/-- R211, R212: what OPEN leaves in memory. -/
structure OpenMemory (s t : State) (mac : BitVec 48) (pr pt : Word) (bufs : List RxBuffer) : Prop where
  block : IbFilled t s.ib.phys.toNat s.params.initMode s.params.rxLenExp s.params.txLenExp mac pr pt
  rxSlots : ∀ j b, bufs[j]? = some b →
    t.wordAt (slotAddr pr j 0) = b.phys ∧ t.wordAt (slotAddr pr j 1) = rxArmWord s.params.rxBufSize ∧
    t.wordAt (slotAddr pr j 2) = 0#32 ∧ t.wordAt (slotAddr pr j 3) = 0#32
  txSlots : ∀ j w, j < ringSize s.params.txLenExp → w < 4 → t.wordAt (slotAddr pt j w) = 0#32
  outside : s.sameBytesOutside t [(s.ib.phys.toNat, 28), (pr.toNat, 16 * ringSize s.params.rxLenExp),
    (pt.toNat, 16 * ringSize s.params.txLenExp)]

theorem OpenMemory.congr (h : OpenMemory s u mac pr pt bufs) (hm : t.memory = u.memory) :
    OpenMemory s t mac pr pt bufs := by
  obtain ⟨⟨hmode, hrx, htx, hstation, hzero, hrxBase, htxBase⟩, hrxSlots, htxSlots, hout⟩ := h
  have hbyte : t.byteAt = u.byteAt := funext (byteAt_congr hm)
  have hword : t.wordAt = u.wordAt := funext (wordAt_congr hm)
  have hhalf : t.halfAt = u.halfAt := by
    funext x
    simp only [State.halfAt, hbyte]
  exact ⟨⟨hhalf ▸ hmode, hbyte ▸ hrx, hbyte ▸ htx, hbyte ▸ hstation, hbyte ▸ hzero, hword ▸ hrxBase, hword ▸ htxBase⟩,
    hword ▸ hrxSlots, hword ▸ htxSlots, fun x hx => (byteAt_congr hm x).trans (hout x hx)⟩

/-- A word of zero bytes. -/
theorem wordAt_zero {x : Nat} (h : ∀ k, k < 4 → s.byteAt (x + k) = 0#8) : s.wordAt x = 0#32 := by
  rw [State.wordAt, show s.byteAt x = _ from h 0 (by decide), h 1 (by decide), h 2 (by decide), h 3 (by decide)]
  decide

/-- A region shares no byte with a region. -/
theorem apart_of_disjoint {p n q m : Nat} (h : disjointRegions p n q m = true) : p + n ≤ q ∨ q + m ≤ p := by
  simpa [disjointRegions] using h

/-- R241: the memory with the slots of both new rings zero. -/
def State.ringsZeroed (s : State) (pr pt : Word) : Memory :=
  (s.memory.storeAll (zeroWords pr.toNat (4 * ringSize s.params.rxLenExp))).storeAll
    (zeroWords pt.toNat (4 * ringSize s.params.txLenExp))

theorem byteAt_ringsZeroed (h : t.memory = s.ringsZeroed pr pt) (x : Nat) : t.byteAt x =
    if pt.toNat ≤ x ∧ x < pt.toNat + 4 * (4 * ringSize s.params.txLenExp) then 0#8
    else if pr.toNat ≤ x ∧ x < pr.toNat + 4 * (4 * ringSize s.params.rxLenExp) then 0#8 else s.byteAt x := by
  rw [byteAt_zeroWords
    (s := { s with memory := s.memory.storeAll (zeroWords pr.toNat (4 * ringSize s.params.rxLenExp)) }) h,
    byteAt_zeroWords (s := s) rfl]

/-- R211: the RX slots of `z` armed with their buffers in `w`. -/
structure Armed (s z w : State) (pr : Word) (bufs : List RxBuffer) : Prop where
  slots : ∀ j b, bufs[j]? = some b →
    w.wordAt (slotAddr pr j 0) = b.phys ∧ w.wordAt (slotAddr pr j 1) = rxArmWord s.params.rxBufSize ∧
    w.wordAt (slotAddr pr j 2) = 0#32 ∧ w.wordAt (slotAddr pr j 3) = z.wordAt (slotAddr pr j 3)
  outside : ∀ x, x < pr.toNat ∨ pr.toNat + 16 * ringSize s.params.rxLenExp ≤ x → w.byteAt x = z.byteAt x

/-- R211, R212: the rings zeroed, the RX slots armed, the block filled, where the three share no byte. `z` is the state
after the zero writes, `w` the one after the arming. -/
theorem openMemory_of_steps {z w : State} (hz : z.memory = s.ringsZeroed pr pt) (harmed : Armed s z w pr bufs)
    (ht : t.memory = w.memory.storeAll (ibWrites s.ib.phys.toNat s.params.initMode s.params.rxLenExp s.params.txLenExp
      mac pr pt))
    (hlen : bufs.length = ringSize s.params.rxLenExp)
    (hrings : disjointRegions pr.toNat (16 * ringSize s.params.rxLenExp) pt.toNat
      (16 * ringSize s.params.txLenExp) = true)
    (hrx : disjointRegions s.ib.phys.toNat 28 pr.toNat (16 * ringSize s.params.rxLenExp) = true)
    (htx : disjointRegions s.ib.phys.toNat 28 pt.toNat (16 * ringSize s.params.txLenExp) = true) :
    OpenMemory s t mac pr pt bufs := by
  obtain ⟨hslots, hw⟩ := harmed
  have hrings := apart_of_disjoint hrings
  have hrx := apart_of_disjoint hrx
  have htx := apart_of_disjoint htx
  have hzbyte := byteAt_ringsZeroed hz
  have htbyte : ∀ x, x < s.ib.phys.toNat ∨ s.ib.phys.toNat + 28 ≤ x → t.byteAt x = w.byteAt x :=
    fun x hx => byteAt_ibWrites ht hx
  refine ⟨ibFilled_of_memory ht, fun j b hb => ?_, fun j v hj hv => wordAt_zero fun k hk => ?_, fun x hx => ?_⟩
  · have hj : j < ringSize s.params.rxLenExp := hlen ▸ (List.getElem?_eq_some_iff.mp hb).1
    have hkeep : ∀ v, v < 4 → t.wordAt (slotAddr pr j v) = w.wordAt (slotAddr pr j v) := by
      intro v hv
      refine wordAt_eq fun x h1 h2 => htbyte x ?_
      unfold slotAddr at h1 h2
      omega
    have hzero : z.wordAt (slotAddr pr j 3) = 0#32 := by
      refine wordAt_zero fun k hk => ?_
      rw [hzbyte]
      unfold slotAddr
      rw [if_neg (by omega), if_pos (by omega)]
    obtain ⟨h0, h1, h2, h3⟩ := hslots j b hb
    exact ⟨(hkeep 0 (by decide)).trans h0, (hkeep 1 (by decide)).trans h1, (hkeep 2 (by decide)).trans h2,
      (hkeep 3 (by decide)).trans (h3.trans hzero)⟩
  · unfold slotAddr
    rw [htbyte _ (by omega), hw _ (by omega), hzbyte, if_pos (by omega)]
  · obtain ⟨hib, hr, htail⟩ := List.forall_mem_cons.mp hx |>.imp_right List.forall_mem_cons.mp
    have ht := List.forall_mem_singleton.mp htail
    simp only at hib hr ht
    rw [htbyte x hib, hw x hr, hzbyte, if_neg (by omega), if_neg (by omega)]

/-! ### The run up to INIT -/

/-- What OPEN needs of the state, and of the answers it gets once the old rings are released (R94, R98, R210, R247). -/
structure OpenOk (s : State) (S : Strategy) (vr vt : Nat) (pr pt : Word) (bufs : List RxBuffer)
    (as : List (Option (Nat × Word))) : Prop where
  lock : s.lockOwner = none
  mode : s.answeredBy S
  quiet : s.taskPending = false ∧ s.defBusy = false
  allowed : s.attachedOrClosed = true
  sized : s.sized
  block : s.ib.alloc = true ∧ s.ib.phys.toNat + 28 ≤ memTop
  exps : s.params.rxLenExp ≤ 15 ∧ s.params.txLenExp ≤ 15
  buffers : bufs.length = ringSize s.params.rxLenExp
  answers : s.oracle.allocs = some (vr, pr) :: (answersOf bufs ++ some (vt, pt) :: as)
  fresh : s.released.fresh ((pr.toNat, 16 * ringSize s.params.rxLenExp) ::
    (pt.toNat, 16 * ringSize s.params.txLenExp) :: bufferRegions s.params.rxBufSize bufs)
  aligned : pr.toNat % 16 = 0 ∧ pt.toNat % 16 = 0

/-- The state of OPEN right before it starts the INIT handshake (R214). -/
structure BroughtUp (s u : State) (mac : BitVec 48) (vr vt : Nat) (pr pt : Word) (bufs : List RxBuffer)
    (as : List (Option (Nat × Word))) : Prop where
  frame : u = { s with
    lockOwner := some s.caller, lifecycle := .opening, station := mac,
    rx := RxRing.made s.params.rxLenExp vr pr bufs, tx := TxRing.made s.params.txLenExp vt pt,
    device := u.device, memory := u.memory, oracle := u.oracle, hostFrames := u.hostFrames, history := u.history }
  allocs : u.oracle.allocs = as
  device : u.device = { u.device with
    state := .stopped, latches := 0#16, csr1 := s.ib.phys.extractLsb' 0 16, csr2 := s.ib.phys.extractLsb' 16 16 }
  memory : OpenMemory s u mac pr pt bufs

/-- R98: the order in which fresh regions are taken does not matter. -/
theorem fresh_perm {rs qs : List (Nat × Nat)} (h : s.fresh rs) (hp : rs.Perm qs) : s.fresh qs := by
  obtain ⟨hall, hapart⟩ := h
  refine ⟨fun r hr => hall r (hp.mem_iff.mpr hr), (hp.pairwise_iff fun {r q} hrq => ?_).mp hapart⟩
  simp only [disjointRegions, Bool.or_eq_true, decide_eq_true_eq] at hrq ⊢
  omega

/-- R214: the start of the INIT handshake, and the polls. -/
def initSteps (p : Params) : List Prim := csrWrite .bound 0#16 csr0INIT ++ [.quiet (.poll p.initPollBudget)]

/-- R211, R241: both rings, made. -/
theorem path_makeRings (h : OpenOk s S vr vt pr pt bufs as) (hparams : u.params = s.params) (hmem : u.memory = s.memory)
    (hlive : u.liveRegions = s.released.liveRegions) (hallocs : u.oracle.allocs = s.oracle.allocs) : ∃ z : State,
    z = { u with
      rx := RxRing.made s.params.rxLenExp vr pr bufs, tx := TxRing.made s.params.txLenExp vt pt,
      memory := s.ringsZeroed pr pt, oracle := z.oracle, history := z.history } ∧
    z.oracle.allocs = as ∧
    Path a i (.allocRing .rx s.params.rxLenExp :: .allocRing .tx s.params.txLenExp :: rest) u rest z
      (5 * ringSize s.params.rxLenExp + 4 * ringSize s.params.txLenExp + 4) := by
  have hfresh : u.fresh ((pr.toNat, 16 * ringSize s.params.rxLenExp) :: (bufferRegions u.params.rxBufSize bufs ++
      [(pt.toNat, 16 * ringSize s.params.txLenExp)])) := by
    rw [hparams, State.fresh, hlive]
    exact fresh_perm (s := s.released) h.fresh (.cons _ (List.perm_append_singleton _ _).symm)
  obtain ⟨o, es, y, hy, hrx, ho, hfresh⟩ := path_allocRx (a := a) (i := i)
    (rest := .allocRing .tx s.params.txLenExp :: rest) (hallocs.trans h.answers) hfresh h.aligned.1 h.buffers
  obtain ⟨o', es', htx, ho'⟩ := path_allocTx (a := a) (i := i) (rest := rest) (s := y) (by rw [hy]; exact ho) hfresh
    h.aligned.2
  refine ⟨_, ?_, ho', (hrx.trans htx).mono (by omega)⟩
  rw [hy, hmem]
  rfl

/-- R211, R290: every slot of the new RX ring, armed. -/
theorem path_armRx (h : OpenOk s S vr vt pr pt bufs as) {z : State} (hparams : z.params = s.params)
    (hrx : z.rx = RxRing.made s.params.rxLenExp vr pr bufs) (hmem : z.memory = s.ringsZeroed pr pt) : ∃ m es w,
    w = { z with memory := m, history := es } ∧ Armed s z w pr bufs ∧
    Path a i (.quiet .armRx :: rest) z rest w (4 * ringSize s.params.rxLenExp + 1) := by
  have hapart := apart_of_disjoint ((List.pairwise_cons.mp h.fresh.2).1 _ List.mem_cons_self)
  have hplaced : ringPlaced z.rx.base z.rx.exp := by
    rw [hrx]
    exact ⟨show pr.toNat % 4 = 0 by have := h.aligned.1; omega, (h.fresh.1 _ List.mem_cons_self).1⟩
  have hlen : z.rx.buf.length = ringSize s.params.rxLenExp := by rw [hrx]; exact h.buffers
  have hzero : ∀ j, j < ringSize s.params.rxLenExp → z.wordAt (slotAddr pr j 1) = 0#32 := by
    intro j hj
    refine wordAt_zero fun k hk => ?_
    rw [byteAt_ringsZeroed hmem]
    unfold slotAddr
    rw [if_neg (by omega), if_pos (by omega)]
  obtain ⟨m, es, w, hw, harm, hslots, hout⟩ := path_armSlots (a := a) (i := i) (rest := rest)
    (size := s.params.rxBufSize) (bufs := z.rx.buf) (k := 0) (s := z) hplaced
    (by rw [hlen, hrx]; exact (Nat.zero_add _).le) (fun j hj => by
      rw [Nat.zero_add, show z.rx.base = pr by rw [hrx]; rfl, hzero j (hlen ▸ hj)]
      decide)
  have hpath : Path a i (.quiet .armRx :: rest) z rest w (4 * z.rx.buf.length + 1) := by
    refine .prim (ps := armSteps z) rfl ?_
    rw [show armSteps z = z.rx.buf.zipIdx.flatMap (armSlot z.params.rxBufSize) from rfl, hparams]
    exact harm
  simp only [Nat.zero_add, hrx, RxRing.made] at hslots hout
  refine ⟨m, es, w, hw, ⟨hslots, fun x hx => hout x ?_⟩, hlen ▸ hpath⟩
  rw [h.buffers]
  unfold slotAddr
  omega

theorem disjointRegions_symm {p n q m : Nat} (h : disjointRegions p n q m = true) : disjointRegions q m p n = true := by
  simp only [disjointRegions, Bool.or_eq_true, decide_eq_true_eq] at h ⊢
  omega

/-- R98: the Initialization Block and the two rings share no byte. -/
theorem OpenOk.apart (h : OpenOk s S vr vt pr pt bufs as) :
    disjointRegions pr.toNat (16 * ringSize s.params.rxLenExp) pt.toNat (16 * ringSize s.params.txLenExp) = true ∧
    disjointRegions s.ib.phys.toNat 28 pr.toNat (16 * ringSize s.params.rxLenExp) = true ∧
    disjointRegions s.ib.phys.toNat 28 pt.toNat (16 * ringSize s.params.txLenExp) = true := by
  have hblock : (s.ib.phys.toNat, 28) ∈ s.released.liveRegions := mem_liveRegions.mpr (.inl ⟨h.block.1, rfl⟩)
  exact ⟨(List.pairwise_cons.mp h.fresh.2).1 _ List.mem_cons_self,
    disjointRegions_symm ((h.fresh.1 _ List.mem_cons_self).2 _ hblock),
    disjointRegions_symm ((h.fresh.1 _ (List.mem_cons_of_mem _ List.mem_cons_self)).2 _ hblock)⟩

/-- R211: the reset of an answered device, and the release of the old rings. -/
theorem path_resetRelease (h : OpenOk s S vr vt pr pt bufs as) {x : State}
    (hx : x = { s with lockOwner := some s.caller, lifecycle := .opening, history := x.history }) :
    ∃ (d : Nat) (o : Oracle) (fs : List HostFrame) (u : State), u = { s.released with
        lockOwner := some s.caller, lifecycle := .opening, device := Device.afterReset d, oracle := o,
        hostFrames := fs, history := u.history } ∧ o.allocs = s.oracle.allocs ∧
      Path a i (.resetPort .bound :: (s.ringReleases ++ rest)) x rest u (4 * 2 ^ 15 + 7) := by
  obtain ⟨hmode, hans⟩ := h.mode
  have hmode : Via.bound.resolve x.mode = some S := by rw [hx]; exact hmode
  have hans : answers x.params S = true := by rw [hx]; exact hans
  obtain ⟨w, o, d, hreset⟩ := readReset_answered hans
  have hallocs := readReset_allocs S x
  have hpath := path_resetPort (a := a) (i := i) (rest := s.ringReleases ++ rest) hmode
  rw [hreset] at hpath hallocs
  obtain ⟨y, hy⟩ : ∃ y : State, y = { x with
      device := Device.afterReset d, oracle := o,
      history := .ioRead S.width (resetPortAddr S x.params) w :: x.history } := ⟨_, rfl⟩
  rw [← hy] at hpath
  obtain ⟨fs, hreleases⟩ := path_ringReleases (a := a) (i := i) (rest := rest) (s := y) (.inl (by rw [hy]; rfl))
  have hsame : y.ringReleases = s.ringReleases := by rw [hy, hx]; rfl
  have hlen : y.rx.buf.length + 3 * y.tx.map.length ≤ 4 * 2 ^ 15 := by
    obtain ⟨-, -, hmap, hbuf⟩ := h.sized
    have hrings : y.rx = s.rx ∧ y.tx = s.tx := by rw [hy, hx]; exact ⟨rfl, rfl⟩
    rw [hrings.1, hrings.2]
    omega
  rw [hsame] at hreleases
  refine ⟨d, o, fs, _, ?_, ?_, (hpath.trans hreleases).mono (by omega)⟩
  · rw [hy, hx]
    rfl
  · rw [hallocs, hx]

/-- R212, R214: the block, filled, and its address loaded, after the rings were made and armed. -/
theorem path_loadBlock (h : OpenOk s S vr vt pr pt bufs as) (mac : BitVec 48) {d : Nat} {z w : State}
    (hz : z.memory = s.ringsZeroed pr pt) (harmed : Armed s z w pr bufs) (hallocs : w.oracle.allocs = as)
    (hw : w = { s with
      lockOwner := some s.caller, lifecycle := .opening, rx := RxRing.made s.params.rxLenExp vr pr bufs,
      tx := TxRing.made s.params.txLenExp vt pt, device := Device.afterReset d, memory := w.memory, oracle := w.oracle,
      hostFrames := w.hostFrames, history := w.history }) : ∃ u, BroughtUp s u mac vr vt pr pt bufs as ∧
    Path a i (.quiet (.fillIb mac) :: .quiet .loadAddress :: rest) w rest u 26 := by
  obtain ⟨hapart, hrx, htx⟩ := h.apart
  obtain ⟨es, hfill⟩ := path_fillIb (a := a) (i := i) (rest := .quiet .loadAddress :: rest) (s := w)
    (by rw [hw]; exact h.block.2) (fun _ => by rw [hw]; exact htx) (fun _ => by rw [hw]; exact hrx) mac
  have hblock : ibWrites w.ib.phys.toNat w.params.initMode w.rx.exp w.tx.exp mac w.rx.base w.tx.base =
      ibWrites s.ib.phys.toNat s.params.initMode s.params.rxLenExp s.params.txLenExp mac pr pt := by
    rw [hw]
    rfl
  rw [hblock] at hfill
  obtain ⟨v, hv⟩ : ∃ v : State, v = { w with
      station := mac, memory := w.memory.storeAll (ibWrites s.ib.phys.toNat s.params.initMode s.params.rxLenExp
        s.params.txLenExp mac pr pt), history := es } := ⟨_, rfl⟩
  rw [← hv] at hfill
  have hframe : v = { s with
      lockOwner := some s.caller, lifecycle := .opening, station := mac, rx := RxRing.made s.params.rxLenExp vr pr bufs,
      tx := TxRing.made s.params.txLenExp vt pt, device := Device.afterReset d, memory := v.memory, oracle := v.oracle,
      hostFrames := v.hostFrames, history := v.history } := by
    rw [hv, hw]
  have hmemory : v.memory = w.memory.storeAll (ibWrites s.ib.phys.toNat s.params.initMode s.params.rxLenExp
      s.params.txLenExp mac pr pt) := by
    rw [hv]
  have hopen : OpenMemory s v mac pr pt bufs := openMemory_of_steps hz harmed hmemory h.buffers hapart hrx htx
  obtain ⟨es', hload⟩ := path_loadAddress (a := a) (i := i) (rest := rest) (s := v) (S := S)
    (by rw [hframe]; exact h.mode)
  obtain ⟨u, hu⟩ : ∃ u : State, u = { v with
      device := { v.device with
        rap := 2#16, csr1 := v.ib.phys.extractLsb' 0 16, csr2 := v.ib.phys.extractLsb' 16 16 },
      history := es' } := ⟨_, rfl⟩
  rw [← hu] at hload
  have hdevice : v.device = Device.afterReset d ∧ v.ib = s.ib := by rw [hframe]; exact ⟨rfl, rfl⟩
  have huallocs : u.oracle.allocs = as := by
    rw [hu, hv]
    exact hallocs
  refine ⟨u, ⟨?_, huallocs, ?_, hopen.congr (by rw [hu])⟩, hfill.trans hload⟩
  · rw [hu, hframe]
  · rw [hu, hdevice.1, hdevice.2]
    rfl

/-- R210 to R214: OPEN alone, from its issue to the start of the INIT handshake. -/
theorem path_bringUp (h : OpenOk s S vr vt pr pt bufs as) (mac : BitVec 48) : ∃ u,
    BroughtUp s u mac vr vt pr pt bufs as ∧
    Path s.caller (.openDev mac) (script (.openDev mac)) (s.record (.issued s.caller (.openDev mac)))
      (initSteps s.params) u (18 * 2 ^ 15) := by
  have hbody := openBody_of_allowed (s := s.taken (.openDev mac)) h.allowed mac
  have htaken := path_taken (i := .openDev mac) (k := s.issuer) rfl h.lock (fun _ => h.quiet) rfl
    (by rw [afterAcquire, hbody]; rfl)
  rw [afterAcquire, hbody] at htaken
  obtain ⟨x, hx⟩ : ∃ x : State, x = { s.taken (.openDev mac) with lifecycle := .opening } := ⟨_, rfl⟩
  rw [← hx] at htaken
  obtain ⟨d, o, fs, y, hy, hallocs, hreleased⟩ := path_resetRelease (a := s.caller) (i := .openDev mac)
    (rest := bringUpSteps mac s.params) h (x := x) (by rw [hx]; rfl)
  obtain ⟨z, hz, hzallocs, hmade⟩ := path_makeRings (a := s.caller) (i := .openDev mac) (u := y)
    (rest := .quiet .armRx :: .quiet (.fillIb mac) :: .quiet .loadAddress :: initSteps s.params) h (by rw [hy]; rfl)
    (by rw [hy]; rfl) (by rw [hy]; rfl) (by rw [hy]; exact hallocs)
  have hmem : z.memory = s.ringsZeroed pr pt := by rw [hz]
  obtain ⟨m, es, w, hw, harmed, harm⟩ := path_armRx (a := s.caller) (i := .openDev mac)
    (rest := .quiet (.fillIb mac) :: .quiet .loadAddress :: initSteps s.params) h (z := z) (by rw [hz, hy]; rfl)
    (by rw [hz]) hmem
  obtain ⟨u, hu, hload⟩ := path_loadBlock (a := s.caller) (i := .openDev mac) (rest := initSteps s.params) h mac (d := d)
    hmem harmed (by rw [hw]; exact hzallocs) (by rw [hw, hz, hy]; rfl)
  have hsize : ringSize s.params.rxLenExp ≤ 2 ^ 15 ∧ ringSize s.params.txLenExp ≤ 2 ^ 15 :=
    ⟨Nat.pow_le_pow_right (by decide) h.exps.1, Nat.pow_le_pow_right (by decide) h.exps.2⟩
  exact ⟨u, hu, ((((htaken.trans hreleased).trans hmade).trans harm).trans hload).mono (by omega)⟩

/-! ### A device that never confirms INIT -/

/-- R171, R357: a read of CSR0 on an answered mode, RAP being 0 already. -/
theorem csrRead_csr0 (hm : s.answeredBy S) (hrap : s.device.rap = 0#16) : ∃ (o : Oracle) (es : List Event),
    readData S .csr (writeRap S 0#16 s) = (csr0Value s.params s.device, { s with oracle := o, history := es }) ∧
    o.allocs = s.oracle.allocs := by
  obtain ⟨-, hans⟩ := hm
  have hdevice : { s.device with rap := 0#16 } = s.device := by rw [← hrap]
  have hwrite := writeRap_answered hans 0#16
  rw [hdevice] at hwrite
  obtain ⟨w, o, hread⟩ := readData_effect S .csr (writeRap S 0#16 s)
  have hvalue : (readData S .csr (writeRap S 0#16 s)).1 = csr0Value s.params s.device := by
    refine readData_csr (by rw [hwrite]; exact hans) ?_
    rw [hwrite]
    exact if_pos hrap
  have hallocs := readData_allocs S .csr (writeRap S 0#16 s)
  rw [hread] at hvalue hallocs
  rw [hwrite] at hallocs
  rw [hread, show w.extractLsb' 0 16 = _ from hvalue, hwrite]
  exact ⟨o, _, rfl, hallocs⟩

/-- R215: while IDON is clear the polls use up their budget. -/
theorem path_polls (n : Nat) : ∀ {s : State}, s.answeredBy S → s.device.rap = 0#16 →
    bitSet (csr0Value s.params s.device) csr0IDON = false → ∃ (o : Oracle) (es : List Event),
      Path a i (pollSteps n ++ rest) s (timeoutSteps ++ rest) { s with oracle := o, history := es } (2 * n) ∧
      o.allocs = s.oracle.allocs := by
  induction n with
  | zero => exact fun _ _ _ => ⟨_, _, .refl _ _ 0, rfl⟩
  | succ n ih =>
    intro s hm hrap hidon
    obtain ⟨o, es, hread, ho⟩ := csrRead_csr0 hm hrap
    have hpath := path_csrRead (a := a) (i := i) (rest := rest) (via := .bound) (k := .poll n) hm.1 0#16
    rw [hread] at hpath
    simp only [onRead, polled, hidon, Bool.false_eq_true, if_false] at hpath
    obtain ⟨o', es', hrest, ho'⟩ := ih (s := { s with oracle := o, history := es }) hm hrap hidon
    exact ⟨o', es', (hpath.trans hrest).mono (by omega), ho'.trans ho⟩

/-- R217: the STOP write and the return. -/
theorem path_timeout (hm : s.answeredBy S) : Path a i timeoutSteps s []
    ({ stoppedClosed (s.csrWritten S 0#16 csr0STOP { s.device with rap := 0#16, state := .stopped, latches := 0#16 }) with
      lockOwner := none }.giveReply a i ⟨.initTimeout, 0#16⟩) 5 := by
  have hstop := path_csrWrite (a := a) (i := i) (s := s) (idx := 0#16) (x := csr0STOP)
    (rest := .quiet .timedOut :: releaseReturn .initTimeout 0#16) hm rfl (fun _ => nofun)
  exact hstop.trans (m := 3) (.prim (ps := []) rfl path_releaseReturn)

/-- R350: a write of INIT to a stopped device starts the handshake. -/
theorem csr0Write_init {d : Device} (hstate : d.state = .stopped) (hlatches : d.latches = 0#16) :
    csr0Write d csr0INIT = { d with state := .initialising, latches := csr0INIT } := by
  have hbits : bitSet csr0INIT csr0STOP = false ∧ bitSet csr0INIT csr0INIT = true := by decide
  rw [csr0Write, hbits.1, hbits.2, hstate, hlatches]
  rfl

/-- R350: the device right after the write of INIT. -/
def Device.initStarted (d : Device) : Device := { d with rap := 0#16, state := .initialising, latches := csr0INIT }

theorem csrStore_init {d : Device} (hstate : d.state = .stopped) (hlatches : d.latches = 0#16) :
    csrStore { d with rap := 0#16 } csr0INIT = some d.initStarted :=
  congrArg some (csr0Write_init (d := { d with rap := 0#16 }) hstate hlatches)

/-- R50: IDON is a stored bit. -/
theorem bitSet_idon (p : Params) (d : Device) : bitSet (csr0Value p d) csr0IDON = d.latches.getLsbD 8 :=
  (bitSet_twoPow _ 8 (by decide)).trans (csr0Value_stored p d (by decide))

/-- R214, R215, R217: OPEN from the start of the handshake, with no step of the device in between. -/
theorem runs_initTimeout (hm : u.answeredBy S) (hstate : u.device.state = .stopped) (hlatches : u.device.latches = 0#16) :
    ∃ t m, t = { u with
        lockOwner := none, lifecycle := .closed, ienaShadow := false,
        device := { u.device with rap := 0#16, state := .stopped, latches := 0#16 }, oracle := t.oracle,
        replies := u.replied a ⟨.initTimeout, 0#16⟩, history := t.history } ∧
      t.oracle.allocs = u.oracle.allocs ∧
      t.history.take 3 = [.returned a i ⟨.initTimeout, 0#16⟩, .ioWrite S.width (dataPort S u.params .csr) 0x00000004#32,
        .ioWrite S.width (rapPort S u.params) 0#32] ∧
      m ≤ 2 * u.params.initPollBudget + 8 ∧ Runs a i (initSteps u.params) u (.ok t) m := by
  obtain ⟨hrap, hput⟩ := perform_csrWrite (a := a) (i := i) hm (csrStore_init hstate hlatches)
  obtain ⟨v, hv⟩ : ∃ v, v = u.csrWritten S 0#16 csr0INIT u.device.initStarted := ⟨_, rfl⟩
  rw [← hv] at hput
  have hmv : v.answeredBy S := by rw [hv]; exact hm
  have hdevice : v.device = u.device.initStarted := by rw [hv]; rfl
  obtain ⟨o, es, hpolls, ho⟩ := path_polls (a := a) (i := i) (rest := []) u.params.initPollBudget hmv
    (by rw [hdevice]; rfl) (by rw [bitSet_idon, hdevice]; exact (by decide : csr0INIT.getLsbD 8 = false))
  obtain ⟨w, hw⟩ : ∃ w, w = { v with oracle := o, history := es } := ⟨_, rfl⟩
  rw [← hw] at hpolls
  have htimeout := path_timeout (a := a) (i := i) (s := w) (S := S) (by rw [hw]; exact hmv)
  rw [List.append_nil] at hpolls
  obtain ⟨t, ht⟩ : ∃ t, t = { stoppedClosed (w.csrWritten S 0#16 csr0STOP
    { w.device with rap := 0#16, state := .stopped, latches := 0#16 }) with lockOwner := none }.giveReply a i
      ⟨.initTimeout, 0#16⟩ := ⟨_, rfl⟩
  rw [← ht] at htimeout
  obtain ⟨m, hm, hrun⟩ := (hpolls.trans htimeout).runs (.done t)
  have hstart : Runs a i (initSteps u.params) u (.ok t) (m + 1 + 1 + 1) :=
    .prim hrap (.prim hput (.prim (ps := pollSteps u.params.initPollBudget) rfl (by rwa [List.append_nil])))
  refine ⟨t, _, ?_, ?_, ?_, ?_, hstart⟩
  · rw [ht, hw, hv]
    rfl
  · rw [ht, hw]
    rw [hv] at ho
    exact ho
  · rw [ht, hw, hv]
    rfl
  · omega

/-- R112: an exponent byte is sixteen times the exponent. -/
theorem expByte_eq (e : Nat) : expByte e = BitVec.ofNat 8 (16 * e) := by
  apply BitVec.eq_of_toNat_eq
  rw [expByte, BitVec.toNat_shiftLeft, BitVec.toNat_ofNat, BitVec.toNat_ofNat, Nat.shiftLeft_eq]
  omega

/-- Settles O24: the bring-up, the write of INIT, polls that never see IDON, the STOP write. -/
theorem openTimesOut : Obligations.OpenTimesOut := by
  intro s mac S vr vt pr pt bufs as hready hm htask hbusy hstate hsized hib hspace hrx htx hlen hanswer hfresh hra hta
  obtain ⟨hidle, hlock, hsched⟩ := hready
  have hok : OpenOk s S vr vt pr pt bufs as := ⟨hlock, hm, ⟨htask, hbusy⟩, attachedOrClosed_iff.mpr hstate, hsized,
    ⟨hib, hspace⟩, ⟨hrx, htx⟩, hlen, hanswer, hfresh, ⟨hra, hta⟩⟩
  obtain ⟨u, hu, hpath⟩ := path_bringUp hok mac
  have hparams : u.params = s.params := by rw [hu.frame]
  obtain ⟨t, m, ht, hallocs, hhistory, hcount, hrun⟩ := runs_initTimeout (a := s.caller) (i := .openDev mac) (u := u)
    (S := S) (by rw [hu.frame]; exact hm) (by rw [hu.device]) (by rw [hu.device])
  rw [hparams] at hhistory hcount hrun
  obtain ⟨k, hk, hrun⟩ := hpath.runs hrun
  have hnext : exec (.openDev mac) s = .next t := by
    rw [exec_of_caller (i := .openDev mac) (k := s.issuer) rfl]
    exact runCommand_next hidle hsched hrun (by unfold fuel; omega)
  have htdevice : t.device = { u.device with rap := 0#16, state := .stopped, latches := 0#16 } := by rw [ht]
  obtain ⟨⟨hmode, hrxExp, htxExp, hstation, hzero, hrxBase, htxBase⟩, hrxSlots, htxSlots, hout⟩ :=
    hu.memory.congr (t := t) (by rw [ht])
  refine ⟨t, hnext, ?_, hallocs.trans hu.allocs, ?_, ?_, hhistory, hmode, ?_, ?_, hstation, hzero, hrxBase, htxBase,
    hrxSlots, htxSlots, hout⟩
  · rw [ht, hu.frame, ← hlock]
    rfl
  · rw [htdevice, hu.device]
  · rw [htdevice]
    exact csr0Value_stopped _ rfl rfl
  · rw [hrxExp, expByte_eq]
  · rw [htxExp, expByte_eq]

end Sys2Proof.Machine
end

section
/-! SUPPORT. A command with the INIT step of the device (R360) in every gap of the schedule (R17): the primitives run as
they do alone, but that a step of the device follows the write of INIT. -/

namespace Sys2Proof.Machine

/-! ### The device step beside the sequencers -/

/-- The INIT step reads neither the sequencers nor the schedule. -/
theorem devInit_around (s : State) (q : List (Agent × Activity)) (c : List (List Move)) :
    devInit (s.around q c) = (devInit s).map (·.around q c) (·.around q c) := by
  unfold devInit
  by_cases hstate : s.device.state = .initialising
  · rw [if_pos hstate, if_pos (show (s.around q c).device.state = .initialising from hstate)]
    exact bind_around q c (checkBytes_around s q c _ _) fun _ => rfl
  · rw [if_neg hstate, if_neg (show ¬ (s.around q c).device.state = .initialising from hstate)]
    rfl

/-- R368: outside INITIALISING the step does nothing. -/
theorem devInit_idle {s : State} (h : s.device.state ≠ .initialising) : devInit s = .ok s := if_neg h

/-! ### The primitives of the command, and the INIT steps -/

/-- The primitives of a command from `s` to `t`, at most `n` transitions, with the device's INIT step after each: none
changes anything but the one that follows the start of the handshake, a CSR write with the register updates after it. -/
inductive Served (a : Agent) (i : Instr) : List Prim → State → State → Nat → Prop
  | done (s : State) : Served a i [] s s 0
  | step {p : Prim} {rest ps : List Prim} {s u t : State} {n : Nat} :
    ready i p s → perform a i p s = .ok (u, ps) → u.device.state ≠ .initialising →
    Served a i (ps ++ rest) u t n → Served a i (p :: rest) s t (n + 1)
  | init {via : Via} {f : RegFile} {x : Half} {rest todo : List Prim} {s u v t : State} {n : Nat} :
    performNext a i (.dataPut via f x :: rest) s = .ok (u, todo) → devInit u = .ok v → v.device.state ≠ .initialising →
    Served a i todo v t n → Served a i (.dataPut via f x :: rest) s t (n + 1)

section Serve

variable {a : Agent} {i : Instr} {p : Prim} {todo todo' rest : List Prim} {s s' t u v : State} {m n k : Nat}
  {q : List (Agent × Activity)}

/-- A part of a run alone serves as well where the device is not initialising. -/
theorem Path.served (h : Path a i todo s todo' s' n) (hs : s.device.state ≠ .initialising)
    (hserved : s'.device.state ≠ .initialising → Served a i todo' s' t m) : ∃ k, k ≤ n + m ∧ Served a i todo s t k := by
  induction h with
  | refl _ _ n => exact ⟨m, Nat.le_add_left m n, hserved hs⟩
  | step hr hp hd _ ih =>
    obtain ⟨k, hk, hrest⟩ := ih (hd hs) hserved
    exact ⟨k + 1, by omega, .step hr hp (hd hs) hrest⟩

/-- The register updates merged into a transition. -/
theorem settle_served : ∀ {k : Nat} {todo : List Prim} {s : State} {n : Nat}, Served a i todo s t n →
    s.device.state ≠ .initialising → ∃ u todo' m, settle k a i todo s = .ok (u, todo') ∧ Served a i todo' u t m ∧
      m ≤ n ∧ u.device.state ≠ .initialising
  | 0, todo, s, n, h, hs => ⟨s, todo, n, by unfold settle; rfl, h, Nat.le_refl n, hs⟩
  | k + 1, [], s, n, h, hs => ⟨s, [], n, by unfold settle; rfl, h, Nat.le_refl n, hs⟩
  | k + 1, p :: rest, s, n, h, hs => by
    by_cases hquiet : ∃ x, p = .quiet x
    · obtain ⟨x, rfl⟩ := hquiet
      obtain _ | ⟨-, hp, hu, hrest⟩ := h
      obtain ⟨u, todo', m, hsettle, hserved, hm, hidle⟩ := settle_served (k := k) hrest hu
      refine ⟨u, todo', m, ?_, hserved, by omega, hidle⟩
      have hstep : quietStep a i x s = _ := hp
      simp only [settle, hstep, Res.bind]
      exact hsettle
    · refine ⟨s, p :: rest, n, ?_, h, Nat.le_refl n, hs⟩
      unfold settle
      split
      · rename_i hcons
        exact absurd ⟨_, (List.cons.inj hcons).1⟩ hquiet
      · rfl

/-- One transition and the INIT step after it. -/
theorem performNext_served (h : Served a i todo s t n) (hs : s.device.state ≠ .initialising) :
    ∃ u todo' v m, performNext a i todo s = .ok (u, todo') ∧ devInit u = .ok v ∧ v.device.state ≠ .initialising ∧
      Served a i todo' v t m ∧ m ≤ n - 1 := by
  cases h with
  | done => exact ⟨s, [], s, 0, rfl, devInit_idle hs, hs, .done s, Nat.le_refl 0⟩
  | step hr hp hu hrest =>
    obtain ⟨u, todo', m, hsettle, hserved, hm, hidle⟩ := settle_served (k := settleDepth) hrest hu
    refine ⟨u, todo', u, m, ?_, devInit_idle hidle, hidle, hserved, by omega⟩
    simp only [performNext, hp, Res.bind]
    exact hsettle
  | init hnext hinit hv hrest => exact ⟨_, _, _, _, hnext, hinit, hv, hrest, by omega⟩

/-- A served command does not wait (R16 `hold`). -/
theorem passes_served (h : Served a i todo s t n) (c : List (List Move)) : passes i (.ok (s.around q c, todo)) = true := by
  unfold passes
  split
  · rename_i s' rest e
    cases e
    have hr : ready i .acquire s := by cases h; assumption
    exact hr rfl
  · rfl

/-! ### The running agent -/

/-- The state in which agent `a` has the primitives `todo` of `i` to come, the others are at `q`, and the schedule holds
`n` INIT steps. -/
def State.serving (s : State) (a : Agent) (i : Instr) (q : List (Agent × Activity)) (todo : List Prim) (n : Nat) : State :=
  s.around ((activityOf i todo).toList.map (fun y => (a, y)) ++ q) (List.replicate n [.device .init])

theorem activity_serving (hq : q.lookup a = none) : (s.serving a i q todo n).activity a = activityOf i todo := by
  unfold State.serving State.around State.activity
  cases activityOf i todo with
  | none => exact hq
  | some x => simp

theorem setActivity_serving (hq : q.lookup a = none) :
    (s.serving a i q todo n).setActivity a (activityOf i todo') = s.serving a i q todo' n := by
  unfold State.serving State.around State.setActivity
  cases activityOf i todo with
  | none => simp [filter_ne_of_lookup hq]
  | some x => simp [filter_ne_of_lookup hq]

/-- R17: the INIT step of the gap. -/
theorem gap_serving (h : devInit u = .ok v) : gap (u.serving a i q todo (n + 1)) = .next (v.serving a i q todo n) := by
  have hstep := devInit_around u ((activityOf i todo).toList.map (fun y => (a, y)) ++ q) (List.replicate n [.device .init])
  rw [h] at hstep
  simp only [gap, State.serving, List.replicate_succ]
  exact congrArg (fun r : Res State => andThen (r.outcome .device none) (doMoves [])) hstep

/-- One turn: the transition, then the INIT step. -/
theorem turn_served (h : Served a i (p :: rest) s t m) (hs : s.device.state ≠ .initialising) (hq : q.lookup a = none) :
    ∃ v todo' k, enabled a (s.serving a i q (p :: rest) (n + 1)) = true ∧
      turn a (s.serving a i q (p :: rest) (n + 1)) = .next (v.serving a i q todo' n) ∧
      v.device.state ≠ .initialising ∧ Served a i todo' v t k ∧ k ≤ m - 1 := by
  obtain ⟨x, todo₁, m₁, hlead, hserved₁, hm₁, hx⟩ := settle_served (k := settleDepth) h hs
  obtain ⟨u, todo', v, k, hnext, hinit, hv, hserved, hk⟩ := performNext_served hserved₁ hx
  have hlead' : settle settleDepth a i (p :: rest) (s.serving a i q (p :: rest) (n + 1)) =
      .ok (x.serving a i q (p :: rest) (n + 1), todo₁) := by
    rw [State.serving, settle_around, hlead]
    rfl
  have hnext' : performNext a i todo₁ (x.serving a i q (p :: rest) (n + 1)) =
      .ok (u.serving a i q (p :: rest) (n + 1), todo') := by
    rw [State.serving, performNext_around, hnext]
    rfl
  have hact : (s.serving a i q (p :: rest) (n + 1)).activity a = some ⟨i, p :: rest⟩ := activity_serving hq
  have hen : enabled a (s.serving a i q (p :: rest) (n + 1)) = true := by
    simp only [enabled, hact, hlead']
    exact passes_served hserved₁ _
  have htick : tick a (s.serving a i q (p :: rest) (n + 1)) = .next (u.serving a i q todo' (n + 1)) := by
    simp only [tick, hen, if_true, hact, transition, hlead', Res.bind, hnext', setActivity_serving hq, Res.outcome]
  refine ⟨v, todo', k, hen, ?_, hv, hserved, by omega⟩
  rw [turn, htick]
  exact gap_serving hinit

theorem runAgent_served (hq : q.lookup a = none) : ∀ {N n m : Nat} {todo : List Prim} {s : State},
    Served a i todo s t m → s.device.state ≠ .initialising → m ≤ N → m ≤ n →
    ∃ n', runAgent N a (s.serving a i q todo n) = .next (t.around q (List.replicate n' [.device .init])) := by
  intro N
  induction N with
  | zero =>
    intro n m todo s h _ hN _
    cases h with
    | done => exact ⟨n, rfl⟩
    | step => omega
    | init => omega
  | succ N ih =>
    intro n m todo s h hs hN hn
    match todo, n with
    | [], n =>
      cases h
      exact ⟨n, runAgent_rest (atRest_none (activity_serving hq))⟩
    | p :: rest, 0 => cases h <;> omega
    | p :: rest, n + 1 =>
      obtain ⟨v, todo', k, hen, hturn, hv, hserved, hk⟩ := turn_served (n := n) h hs hq
      obtain ⟨n', hrun⟩ := ih hserved hv (by omega : k ≤ N) (by omega : k ≤ n)
      refine ⟨n', ?_⟩
      have hact : (s.serving a i q (p :: rest) (n + 1)).activity a = some ⟨i, p :: rest⟩ := activity_serving hq
      have hrest : atRest a (s.serving a i q (p :: rest) (n + 1)) = false := by simp [atRest, hact, hen]
      simp only [runAgent, hrest, Bool.false_eq_true, if_false, hturn, andThen]
      exact hrun

/-- The command of an idle agent. -/
theorem runCommand_served (hi : s.isIdle a = true) (hsched : s.sched = List.replicate n [.device .init])
    (hs : s.device.state ≠ .initialising) (h : Served a i (script i) (s.record (.issued a i)) t m) (hm : m ≤ fuel s)
    (hn : m ≤ n) : ∃ n', runCommand a i s = .next (t.around s.tasks (List.replicate n' [.device .init])) := by
  have hq : s.tasks.lookup a = none := by
    have hidle := hi
    simp only [State.isIdle, Bool.and_eq_true, Option.isNone_iff_eq_none] at hidle
    exact hidle.2
  obtain ⟨n', hrun⟩ := runAgent_served hq h hs hm hn
  refine ⟨n', ?_⟩
  have hissue : issue a i s = (s.record (.issued a i)).serving a i s.tasks (script i) n := by
    have hself : (s.record (.issued a i)).serving a i s.tasks [] n = s.record (.issued a i) := by
      rw [State.serving, ← hsched]
      rfl
    have hset := setActivity_serving (s := s.record (.issued a i)) (i := i) (todo := []) (todo' := script i) (n := n) hq
    rw [hself] at hset
    rw [← hset]
    cases hscript : script i with
    | nil => cases i <;> exact absurd hscript (List.cons_ne_nil _ _)
    | cons p rest =>
      rw [issue, hscript]
      rfl
  rw [runCommand, if_pos hi, hissue]
  exact hrun

end Serve

end Sys2Proof.Machine
end

section
/-! SUPPORT. OPEN with a device that takes its INIT step as soon as it may (41_lifecycle.md R214 to R216; R360). -/

namespace Sys2Proof.Machine

variable {s t u v w : State} {a : Agent} {i : Instr} {rest : List Prim} {S : Strategy} {mac : BitVec 48} {vr vt : Nat}
  {pr pt : Word} {bufs : List RxBuffer} {as : List (Option (Nat × Word))}

/-! ### What the device reads in the block -/

/-- R112: the upper four bits of an exponent byte. -/
theorem expByte_high (e : Nat) : (expByte e).extractLsb' 4 4 = BitVec.ofNat 4 e := by
  apply BitVec.eq_of_toNat_eq
  rw [expByte_eq, BitVec.extractLsb'_toNat, BitVec.toNat_ofNat, BitVec.toNat_ofNat, Nat.shiftRight_eq_div_pow]
  omega

/-- R112: the station address from its six bytes. -/
theorem stationBytes_append (mac : BitVec 48) : stationByte mac 5 ++ stationByte mac 4 ++ stationByte mac 3 ++
    stationByte mac 2 ++ stationByte mac 1 ++ stationByte mac 0 = mac := by
  simp only [stationByte]
  iterate 5 rw [BitVec.extractLsb'_append_extractLsb'_eq_extractLsb' (by decide)]
  exact BitVec.extractLsb'_eq_self

/-- R360, R112: the device latches what R212 wrote. -/
theorem latchCfg_filled {b er et : Nat} {mode : Half} (h : IbFilled v b mode er et mac pr pt) :
    latchCfg v b = ⟨mode, pr, pt, BitVec.ofNat 4 er, BitVec.ofNat 4 et, mac, 0#64⟩ := by
  obtain ⟨hmode, hrx, htx, hstation, hzero, hrxBase, htxBase⟩ := h
  have hladrf : ∀ x, 12 ≤ x → x ≤ 16 → v.wordAt (b + x) = 0#32 := fun x hlo hhi =>
    wordAt_zero fun k hk => by
      rw [Nat.add_assoc]
      exact hzero (x + k) (by omega) (by omega)
  have hpadr : v.byteAt (b + 9) ++ v.byteAt (b + 8) ++ v.byteAt (b + 7) ++ v.byteAt (b + 6) ++ v.byteAt (b + 5) ++
      v.byteAt (b + 4) = mac := by
    rw [show v.byteAt (b + 9) = _ from hstation 5 (by decide), show v.byteAt (b + 8) = _ from hstation 4 (by decide),
      show v.byteAt (b + 7) = _ from hstation 3 (by decide), show v.byteAt (b + 6) = _ from hstation 2 (by decide),
      show v.byteAt (b + 5) = _ from hstation 1 (by decide), show v.byteAt (b + 4) = _ from hstation 0 (by decide)]
    exact stationBytes_append mac
  rw [latchCfg, hmode, hrx, htx, hpadr, hrxBase, htxBase, hladrf 12 (by decide) (by decide),
    hladrf 16 (by decide) (by decide), expByte_high, expByte_high]
  rfl

/-- R360: the two halves make the address. -/
theorem ibAddr_halves {d : Device} {x : Word} (h1 : d.csr1 = x.extractLsb' 0 16) (h2 : d.csr2 = x.extractLsb' 16 16) :
    d.ibAddr = x := by
  rw [Device.ibAddr, h1, h2, BitVec.extractLsb'_append_extractLsb'_eq_extractLsb' (by decide)]
  exact BitVec.extractLsb'_eq_self

/-! ### The handshake -/

/-- R350: a write of STRT and IENA after the handshake starts the device. -/
theorem csr0Write_start {d : Device} (hstate : d.state = .initialised) (hlatches : d.latches = csr0INIT ||| csr0IDON) :
    csr0Write d (csr0STRT ||| csr0IENA) =
      { d with state := .running, latches := csr0INIT ||| csr0STRT ||| csr0IENA ||| csr0IDON } := by
  have hbits : bitSet (csr0STRT ||| csr0IENA) csr0STOP = false ∧ bitSet (csr0STRT ||| csr0IENA) csr0INIT = false ∧
      bitSet (csr0STRT ||| csr0IENA) csr0STRT = true := by decide
  rw [csr0Write, hbits.1, hbits.2.1, hbits.2.2, hstate, hlatches]
  rfl

/-- R215, R216: the poll that sees IDON, the START write and the return. -/
theorem path_start (n : Nat) (hm : w.answeredBy S) (hstate : w.device.state = .initialised)
    (hlatches : w.device.latches = csr0INIT ||| csr0IDON) (hrap : w.device.rap = 0#16) : ∃ t,
      t = { w with
        lockOwner := none, lifecycle := .running, ienaShadow := true, queueStopped := false,
        device := { w.device with
          rap := 0#16, state := .running, latches := csr0INIT ||| csr0STRT ||| csr0IENA ||| csr0IDON },
        oracle := t.oracle, replies := w.replied a ⟨.ok, 0#16⟩, history := t.history } ∧
      t.oracle.allocs = w.oracle.allocs ∧ Path a i (pollSteps (n + 1)) w [] t 7 := by
  obtain ⟨o, es, hread, ho⟩ := csrRead_csr0 hm hrap
  have hidon : bitSet (csr0Value w.params w.device) csr0IDON = true := by
    rw [bitSet_idon, hlatches]
    exact (by decide : (csr0INIT ||| csr0IDON).getLsbD 8 = true)
  have hpoll := path_csrRead (a := a) (i := i) (rest := []) (via := .bound) (k := .poll n) hm.1 0#16
  rw [hread] at hpoll
  simp only [onRead, polled, hidon, if_true, List.append_nil] at hpoll
  obtain ⟨x, hx⟩ : ∃ x, x = { w with oracle := o, history := es } := ⟨_, rfl⟩
  rw [← hx] at hpoll
  have hstore : csrStore { x.device with rap := 0#16 } (csr0STRT ||| csr0IENA) = some { w.device with
      rap := 0#16, state := .running, latches := csr0INIT ||| csr0STRT ||| csr0IENA ||| csr0IDON } := by
    rw [hx]
    exact congrArg some (csr0Write_start (d := { w.device with rap := 0#16 }) hstate hlatches)
  have hwrite := path_csrWrite (a := a) (i := i) (s := x) (S := S)
    (rest := .quiet .started :: releaseReturn .ok 0#16) (by rw [hx]; exact hm) hstore (fun _ => nofun)
  have hpath := (hpoll.trans hwrite).trans (m := 3) (.prim (ps := []) rfl path_releaseReturn)
  refine ⟨_, ?_, ?_, hpath⟩
  · rw [hx]
    rfl
  · rw [hx]
    exact ho

/-- R360: the INIT step on the block that OPEN wrote. -/
theorem devInit_opened (h : OpenOk s S vr vt pr pt bufs as) (hu : BroughtUp s u mac vr vt pr pt bufs as)
    (hv : v = u.csrWritten S 0#16 csr0INIT u.device.initStarted) :
    ∃ w, devInit v = .ok w ∧ w = { u with
      device := ⟨.initialised, csr0INIT ||| csr0IDON, 0#16, s.ib.phys.extractLsb' 0 16, s.ib.phys.extractLsb' 16 16,
        ⟨s.params.initMode, pr, pt, BitVec.ofNat 4 s.params.rxLenExp, BitVec.ofNat 4 s.params.txLenExp, mac, 0#64⟩,
        0, 0⟩,
      history := w.history } := by
  obtain ⟨-, hrx, htx⟩ := h.apart
  have hdevice : v.device = u.device.initStarted := by rw [hv]; rfl
  have haddr : v.device.ibAddr = s.ib.phys := by
    rw [hdevice, hu.device]
    exact ibAddr_halves rfl rfl
  have hsplit : v.splits s.ib.phys.toNat ibSize = false := by
    have hrings : v.tx = u.tx ∧ v.rx = u.rx := by rw [hv]; exact ⟨rfl, rfl⟩
    refine splits_out (Nat.le_refl _) (fun _ => ?_) (fun _ => ?_)
    · rw [hrings.1, hu.frame]
      exact htx
    · rw [hrings.2, hu.frame]
      exact hrx
  have hcfg := latchCfg_filled (hu.memory.congr (t := v) (by rw [hv]; rfl)).block
  have hinit := devInit_ok (s := v) (by rw [hdevice]; rfl) (by rw [haddr]; exact h.block.2) (by rw [haddr]; exact hsplit)
  rw [haddr, hcfg] at hinit
  refine ⟨_, hinit, ?_⟩
  rw [hdevice, hu.device, hv]
  rfl

/-- R214 to R216: OPEN from the start of the handshake. -/
theorem served_handshake (h : OpenOk s S vr vt pr pt bufs as) (hu : BroughtUp s u mac vr vt pr pt bufs as)
    (hbudget : 1 ≤ s.params.initPollBudget) : ∃ t m,
      t = { u with
        lockOwner := none, lifecycle := .running, ienaShadow := true, queueStopped := false,
        device := ⟨.running, csr0INIT ||| csr0STRT ||| csr0IENA ||| csr0IDON, 0#16, s.ib.phys.extractLsb' 0 16,
          s.ib.phys.extractLsb' 16 16,
          ⟨s.params.initMode, pr, pt, BitVec.ofNat 4 s.params.rxLenExp, BitVec.ofNat 4 s.params.txLenExp, mac, 0#64⟩,
          0, 0⟩,
        oracle := t.oracle, replies := u.replied a ⟨.ok, 0#16⟩, history := t.history } ∧
      t.oracle.allocs = u.oracle.allocs ∧ m ≤ 9 ∧ Served a i (initSteps s.params) u t m := by
  have hm : u.answeredBy S := by rw [hu.frame]; exact h.mode
  have hstopped : u.device.state = .stopped ∧ u.device.latches = 0#16 := by rw [hu.device]; exact ⟨rfl, rfl⟩
  obtain ⟨n, hn⟩ : ∃ n, s.params.initPollBudget = n + 1 := ⟨s.params.initPollBudget - 1, by omega⟩
  obtain ⟨hrap, hput⟩ := perform_csrWrite (a := a) (i := i) hm (csrStore_init hstopped.1 hstopped.2)
  obtain ⟨v, hv⟩ : ∃ v, v = u.csrWritten S 0#16 csr0INIT u.device.initStarted := ⟨_, rfl⟩
  rw [← hv] at hput
  obtain ⟨w, hinit, hw⟩ := devInit_opened h hu hv
  have hdevice : w.device.state = .initialised ∧ w.device.latches = csr0INIT ||| csr0IDON ∧ w.device.rap = 0#16 := by
    rw [hw]
    exact ⟨rfl, rfl, rfl⟩
  obtain ⟨t, ht, ho, hpath⟩ := path_start (a := a) (i := i) (w := w) (S := S) n (by rw [hw]; exact hm) hdevice.1
    hdevice.2.1 hdevice.2.2
  have hidle : w.device.state ≠ .initialising := by
    rw [hdevice.1]
    nofun
  obtain ⟨k, hk, hserved⟩ := hpath.served hidle (fun _ => .done t)
  have hnext : performNext a i (.dataPut .bound .csr csr0INIT :: [.quiet (.poll s.params.initPollBudget)])
      (writeRap S 0#16 u) = .ok (v, pollSteps (n + 1)) := by
    rw [performNext, hput, hn]
    rfl
  refine ⟨t, k + 1 + 1, ?_, ?_, by omega,
    .step (ready_of_ne (by simp)) hrap ?_ (.init hnext hinit hidle hserved)⟩
  · rw [ht, hw]
    rfl
  · rw [ho, hw]
  · rw [writeRap_state, hstopped.1]
    nofun

/-- Settles O23: the bring-up, the handshake with the device's step in it, the START write. -/
theorem openBringsUp : Obligations.OpenBringsUp := by
  intro s mac S n vr vt pr pt bufs as hidle hlock hsched hn hm htask hbusy hdevice hstate hsized hib hspace hrx htx
    hbudget hlen hanswer hfresh hra hta
  have hok : OpenOk s S vr vt pr pt bufs as := ⟨hlock, hm, ⟨htask, hbusy⟩, attachedOrClosed_iff.mpr hstate, hsized,
    ⟨hib, hspace⟩, ⟨hrx, htx⟩, hlen, hanswer, hfresh, ⟨hra, hta⟩⟩
  obtain ⟨u, hu, hpath⟩ := path_bringUp hok mac
  obtain ⟨x, m, hx, hallocs, hm, hserved⟩ := served_handshake (a := s.caller) (i := .openDev mac) hok hu hbudget
  obtain ⟨k, hk, hserved⟩ := hpath.served hdevice (fun _ => hserved)
  obtain ⟨n', hrun⟩ := runCommand_served hidle hsched hdevice hserved (by unfold fuel; omega) (by omega)
  obtain ⟨t, ht⟩ : ∃ t, t = x.around s.tasks (List.replicate n' [.device .init]) := ⟨_, rfl⟩
  rw [← ht] at hrun
  obtain ⟨-, hrxSlots, htxSlots, hout⟩ := hu.memory.congr (t := t) (by rw [ht, hx]; rfl)
  refine ⟨t, ?_, ?_, ?_, ?_, hrxSlots, htxSlots, hout⟩
  · rw [exec_of_caller (i := .openDev mac) (k := s.issuer) rfl]
    exact hrun
  · rw [ht, hx, hu.frame, ← hlock]
    rfl
  · rw [ht]
    exact hallocs.trans hu.allocs
  · rw [ht, hx]
    rfl

end Sys2Proof.Machine
end

section
/-! SUPPORT. RALLOC and RFREE (42_ring.md R240 to R246), and the refusals of an operand (R240, R265) or of an allocation
(R243). -/

namespace Sys2Proof.Machine

variable {s t u f : State} {a : Agent} {i : Instr} {r : Ring} {p : Prim} {why : RefusalReason} {b e k n : Nat}

/-! ### How a caller's command alone ends -/

/-- R340: `unlock` touches the lock alone. -/
theorem unlock_eq (s : State) (a : Agent) :
    s.unlock a = { s with lockOwner := if s.lockOwner = some a then none else s.lockOwner } := by
  unfold State.unlock
  split <;> rfl

/-- R24, R406: a caller's command alone that is refused; `f` is the state in which it stops. -/
theorem exec_refused (hidle : s.isIdle s.caller = true) (hsched : s.sched = [])
    (hport : (Port.command k).accepts i = true)
    (hrun : Runs s.caller i (script i) (s.record (.issued s.caller i)) (.stop (.refuse why) f) n) (hn : n ≤ 2 ^ 20) :
    ∃ q, exec i s = .refused (Refusal.of why { f.unlock s.caller with tasks := q, refusalMark := some why }) := by
  have hfuel := fuel_ge s
  obtain ⟨x, hx⟩ := runCommand_stop hidle hsched hrun (by omega)
  rw [exec_of_caller hport, hx, Res.outcome, unlock_eq, unlock_eq]
  exact ⟨_, rfl⟩

/-- R340: a caller's command alone that takes the lock, and whose body stops. -/
theorem runs_taken {w : Stop} {todo : List Prim} (hport : (Port.command k).accepts i = true) (hlock : s.lockOwner = none)
    (hquiet : teardown i = true → s.taskPending = false ∧ s.defBusy = false) (hop : operandOk s.params i = true)
    (hbody : afterAcquire i (s.taken i) = (s.taken i, todo))
    (hrun : Runs s.caller i todo (s.taken i) (.stop w f) n) :
    ∃ m, m ≤ 1 + n ∧ Runs s.caller i (script i) (s.record (.issued s.caller i)) (.stop w f) m := by
  have hpath := path_taken hport hlock hquiet hop (by rw [hbody]; rfl)
  rw [hbody] at hpath
  exact hpath.runs hrun

/-- R340: a caller's command alone whose body is one primitive, with what it expands to, and the return of OK. The lock is
free again, as it was before. -/
theorem exec_completes (hready : s.ready s.caller) (hport : (Port.command k).accepts i = true)
    (hop : operandOk s.params i = true) (hquiet : teardown i = true → s.taskPending = false ∧ s.defBusy = false)
    (hbody : afterAcquire i (s.taken i) = (s.taken i, p :: releaseReturn .ok 0#16))
    (hpath : Path s.caller i (p :: releaseReturn .ok 0#16) (s.taken i) (releaseReturn .ok 0#16) u n)
    (hn : n + 2 < 2 ^ 20) : exec i s = .next ({ u with lockOwner := s.lockOwner }.giveReply s.caller i ⟨.ok, 0#16⟩) := by
  have hexec := exec_of_path hready hport hop hquiet (by rw [hbody]; rfl)
    (by rw [hbody]; exact hpath.trans path_releaseReturn) hn
  obtain ⟨-, hlock, -⟩ := hready
  rw [hexec, hlock]

/-! ### The bodies -/

theorem ringAlloc_taken (s : State) (i : Instr) (r : Ring) : (s.taken i).ringAlloc r = s.ringAlloc r := by
  cases r <;> rfl

/-- R240: RALLOC of a ring that is not allocated, with an exponent in range. -/
theorem afterAcquire_ralloc (hstate : s.lifecycle = .attached ∨ s.lifecycle = .closed) (hlow : 1 ≤ e)
    (hhigh : e ≤ s.params.maxLenExp) (hring : s.ringAlloc r = false) :
    afterAcquire (.ralloc r e) (s.taken (.ralloc r e)) =
      (s.taken (.ralloc r e), .allocRing r e :: releaseReturn .ok 0#16) := by
  have hallowed : (s.taken (.ralloc r e)).attachedOrClosed = true := attachedOrClosed_iff.mpr hstate
  have hexp : ¬(e < 1 ∨ (s.taken (.ralloc r e)).params.maxLenExp < e) :=
    not_or.mpr ⟨Nat.not_lt.mpr hlow, Nat.not_lt.mpr hhigh⟩
  simp only [afterAcquire, rallocBody, hallowed, if_neg hexp, ringAlloc_taken, hring, Bool.not_true, Bool.false_eq_true,
    if_false]

/-- R240: RALLOC with an exponent out of range. -/
theorem afterAcquire_ralloc_outOfRange (hstate : s.lifecycle = .attached ∨ s.lifecycle = .closed)
    (hexp : e < 1 ∨ s.params.maxLenExp < e) :
    afterAcquire (.ralloc r e) (s.taken (.ralloc r e)) = (s.taken (.ralloc r e), releaseRefuse .operand) := by
  have hallowed : (s.taken (.ralloc r e)).attachedOrClosed = true := attachedOrClosed_iff.mpr hstate
  have hexp : e < 1 ∨ (s.taken (.ralloc r e)).params.maxLenExp < e := hexp
  simp only [afterAcquire, rallocBody, hallowed, if_pos hexp, Bool.not_true, Bool.false_eq_true, if_false]

/-- R245: RFREE of an allocated ring. -/
theorem afterAcquire_rfree (hstate : s.lifecycle = .attached ∨ s.lifecycle = .closed) (hring : s.ringAlloc r = true) :
    afterAcquire (.rfree r) (s.taken (.rfree r)) =
      (s.taken (.rfree r), .quiet (.releaseRing r) :: releaseReturn .ok 0#16) := by
  have hallowed : (s.taken (.rfree r)).attachedOrClosed = true := attachedOrClosed_iff.mpr hstate
  simp only [afterAcquire, rfreeBody, hallowed, ringAlloc_taken, hring, Bool.not_true, Bool.false_eq_true, if_false]

/-! ### Refusals -/

/-- R243: an allocation that fails is refused, after the call. -/
theorem allocate_failed {use : AllocUse} {size : Nat} {as : List (Option (Nat × Word))}
    (h : s.oracle.allocs = none :: as) : s.allocate use size = .stop (.refuse .alloc) { s with
      oracle := { s.oracle with allocs := as, asked := s.oracle.asked + 1 },
      history := .call (.alloc size none) :: s.history } := by
  have hanswer : s.allocAnswer = none := by simp [State.allocAnswer, h]
  simp only [State.allocate, hanswer, State.takeAlloc, h, List.tail_cons, State.record]

/-- R260, R265: XMIT with a length out of range stops before it holds for the lock (log 27). -/
theorem runs_xmit_outOfRange {addr : Word} {len : Nat} (h : len < 1 ∨ s.params.maxTxLen < len) :
    Runs a (.xmit addr len) (script (.xmit addr len)) s (.stop (.refuse .operand) s) 1 := by
  have hop : operandOk s.params (.xmit addr len) = false := by
    simp only [operandOk, xmitLenOk, decide_eq_false_iff_not]
    omega
  exact .stop (fun _ => by simp [hop]) (by simp [perform, acquireStep, hop])

/-- Settles O29: XMIT stops at its `acquire`, RALLOC with a bad exponent after its `release`, and a failed allocation
while the lock is held. -/
theorem operandRefused : Obligations.OperandRefused := by
  intro s hidle hsched
  refine ⟨fun addr len hlen => ?_, fun r e hexp hlock hstate => ?_, fun r e as hlow hhigh hlock hstate hring hfail => ?_⟩
  · obtain ⟨q, hq⟩ := exec_refused (k := s.issuer) hidle hsched rfl
      (runs_xmit_outOfRange (addr := addr) (len := len) (s := s.record _) hlen) (by decide)
    rw [unlock_eq] at hq ⊢
    exact ⟨_, hq, rfl, fun hother => if_neg hother, fun _ => rfl⟩
  · obtain ⟨m, hm, hrun⟩ := runs_taken (k := s.issuer) rfl hlock (by simp [teardown]) rfl
      (afterAcquire_ralloc_outOfRange (r := r) hstate hexp) (.prim (ps := []) rfl (.last rfl))
    obtain ⟨q, hq⟩ := exec_refused (k := s.issuer) hidle hsched rfl hrun (by omega)
    rw [unlock_eq, if_neg nofun, ← hlock] at hq
    exact ⟨_, hq, rfl, fun _ => rfl⟩
  · have hstop : perform s.caller (.ralloc r e) (.allocRing r e) (s.taken (.ralloc r e)) = .stop (.refuse .alloc)
        { s.taken (.ralloc r e) with
          oracle := { s.oracle with allocs := as, asked := s.oracle.asked + 1 },
          history := .call (.alloc (16 * ringSize e) none) :: .issued s.caller (.ralloc r e) :: s.history } := by
      rw [perform, allocRingStep, allocate_failed (s := s.taken (.ralloc r e)) hfail]
      rfl
    obtain ⟨m, hm, hrun⟩ := runs_taken (k := s.issuer) rfl hlock (by simp [teardown]) rfl
      (afterAcquire_ralloc hstate hlow hhigh hring) (.last hstop)
    obtain ⟨q, hq⟩ := exec_refused (k := s.issuer) hidle hsched rfl hrun (by omega)
    rw [unlock_eq, if_pos (by rfl)] at hq
    exact ⟨_, hq, rfl, fun _ => rfl⟩

/-! ### The ring commands -/

/-- R241: every byte of a new ring of `n` slots is zero, and no byte outside it changes. -/
theorem newRing_bytes (h : t.memory = s.memory.storeAll (zeroWords b (4 * n))) :
    (∀ x, b ≤ x → x < b + 16 * n → t.byteAt x = 0#8) ∧ s.sameBytesOutside t [(b, 16 * n)] := by
  refine ⟨fun x hlo hhi => ?_, fun x hx => ?_⟩
  · rw [byteAt_zeroWords h, if_pos (by omega)]
  · have hout : x < b ∨ b + 16 * n ≤ x := hx _ List.mem_cons_self
    rw [byteAt_zeroWords h, if_neg (by omega)]

/-- Settles O30: `ring_allocate(TX)`, between the `acquire` and the return. -/
theorem rallocTx : Obligations.RallocTx := by
  intro s e v p as hready hstate hlow hhigh he hring hanswer hfresh halign
  have hsize : ringSize e ≤ 2 ^ 15 := Nat.pow_le_pow_right (by decide) he
  obtain ⟨o, es, hpath, ho⟩ := path_allocTx (a := s.caller) (i := .ralloc .tx e) (s := s.taken (.ralloc .tx e))
    (rest := releaseReturn .ok 0#16) hanswer hfresh halign
  have hexec := exec_completes (k := s.issuer) hready rfl rfl (by simp [teardown])
    (afterAcquire_ralloc (r := .tx) hstate hlow hhigh hring) hpath (by omega)
  exact ⟨_, hexec, rfl, ho, newRing_bytes rfl⟩

/-- Settles O31: `ring_allocate(RX)` with its buffers, between the `acquire` and the return. -/
theorem rallocRx : Obligations.RallocRx := by
  intro s e v p bufs as hready hstate hlow hhigh he hring hlen hanswer hfresh halign
  have hsize : ringSize e ≤ 2 ^ 15 := Nat.pow_le_pow_right (by decide) he
  obtain ⟨o, es, u, rfl, hpath, ho, -⟩ := path_allocRx (a := s.caller) (i := .ralloc .rx e) (s := s.taken (.ralloc .rx e))
    (rs := []) (rest := releaseReturn .ok 0#16) hanswer (by rw [List.append_nil]; exact hfresh) halign hlen
  have hexec := exec_completes (k := s.issuer) hready rfl rfl (by simp [teardown])
    (afterAcquire_ralloc (r := .rx) hstate hlow hhigh hring) hpath (by omega)
  exact ⟨_, hexec, rfl, ho, newRing_bytes rfl⟩

/-- Settles O32: `ring_release`, between the `acquire` and the return. -/
theorem rfreeReleases : Obligations.RfreeReleases := by
  intro s r hready htask hbusy hstate hsized hstop hring
  obtain ⟨-, -, hmap, hbuf⟩ := hsized
  have hbody := afterAcquire_rfree hstate hring
  cases r with
  | rx =>
    have hpath := path_releaseRx (a := s.caller) (i := .rfree .rx) (s := s.taken (.rfree .rx))
      (rest := releaseReturn .ok 0#16) hstop
    have hexec := exec_completes (k := s.issuer) hready rfl rfl (fun _ => ⟨htask, hbusy⟩) hbody hpath
      (show s.rx.buf.length + 3 + 2 < 2 ^ 20 by omega)
    refine ⟨_, hexec, rfl, fun _ => rfl, fun _ => rfl, fun _ => ?_, nofun⟩
    simp [State.traced, State.giveReply, State.rxReleaseEvents, State.taken]
  | tx =>
    obtain ⟨fs, hpath⟩ := path_releaseTx (a := s.caller) (i := .rfree .tx) (s := s.taken (.rfree .tx))
      (rest := releaseReturn .ok 0#16) hstop
    have hexec := exec_completes (k := s.issuer) hready rfl rfl (fun _ => ⟨htask, hbusy⟩) hbody hpath
      (show 3 * s.tx.map.length + 3 + 2 < 2 ^ 20 by omega)
    refine ⟨_, hexec, rfl, fun _ => rfl, nofun, nofun, fun _ => ?_⟩
    simp [State.traced, State.giveReply, State.txReleaseEvents, State.taken]

end Sys2Proof.Machine
end

section
/-! SUPPORT. The commands outside RUNNING (43_transmit.md R264, R270; 45_interrupt.md R323; 41_lifecycle.md R220;
44_receive.md R290), XMIT on a full ring (R263), and RECLAIM alone (R270, R271). -/

namespace Sys2Proof.Machine

variable {s u : State} {a : Agent} {i : Instr} {r : Res State} {c : OutcomeCode} {v : Half} {addr : Word} {len n : Nat}

/-! ### A command of any agent that only returns, or stops the host queue first -/

/-- R340: the state in which a command of `a` goes on with its body: its issue is recorded and `a` holds the lock. -/
def State.lockedBy (s : State) (a : Agent) (i : Instr) : State :=
  { s.record (.issued a i) with lockOwner := some a }

/-- R340: a command alone that starts with its `acquire`, and whose body comes to the return. The lock is free again,
as it was before. -/
theorem runCommand_returns (hready : s.ready a) (hscript : script i = [.acquire]) (htear : teardown i = false)
    (hop : operandOk s.params i = true)
    (hpath : Path a i (afterAcquire i (s.lockedBy a i)).2 (afterAcquire i (s.lockedBy a i)).1 (releaseReturn c v) u n)
    (hn : n + 3 ≤ 2 ^ 20) :
    runCommand a i s = .next ({ u with lockOwner := s.lockOwner }.giveReply a i ⟨c, v⟩) := by
  obtain ⟨hidle, hlock, hsched⟩ := hready
  obtain ⟨m, hm, hbody⟩ := (hpath.trans path_releaseReturn).runs (.done _)
  have hfree : acquirable i (s.record (.issued a i)) = true := by simp [acquirable, State.lockFree, htear, hlock]
  have hrun := Runs.acquire (a := a) (rest := []) hfree hop rfl (by rw [List.append_nil]; exact hbody)
  have hfuel := fuel_ge s
  rw [hlock]
  exact runCommand_next hidle hsched (hscript ▸ hrun) (by omega)

/-- R220, R323: a command alone whose body is the return: it makes no access and changes no register. -/
theorem runCommand_no_effect (hready : s.ready a) (hscript : script i = [.acquire]) (htear : teardown i = false)
    (hop : operandOk s.params i = true)
    (hbody : afterAcquire i (s.lockedBy a i) = (s.lockedBy a i, releaseReturn c v)) :
    runCommand a i s = .next { s with
      replies := s.replied a ⟨c, v⟩, history := s.traced [.issued a i, .returned a i ⟨c, v⟩] } := by
  have hpath : Path a i (afterAcquire i (s.lockedBy a i)).2 (afterAcquire i (s.lockedBy a i)).1 (releaseReturn c v)
      (s.lockedBy a i) 0 := by
    rw [hbody]
    exact .refl _ _ 0
  exact runCommand_returns hready hscript htear hop hpath (by decide)

/-- R263: the call that stops the host queue, where it is not stopped yet. -/
theorem path_stopQueue (s : State) (rest : List Prim) :
    Path a i ((if s.queueStopped then [] else [.stopQueue]) ++ rest) s rest { s with
      queueStopped := true, history := s.traced (if s.queueStopped then [] else [.call .stopQueue]) } 1 := by
  cases hq : s.queueStopped with
  | true =>
    have hsame : { s with queueStopped := true, history := s.traced [] } = s := by rw [← hq]; rfl
    simp only [if_true, List.nil_append, hsame]
    exact .refl rest s 1
  | false =>
    exact .prim (ps := []) rfl (.refl rest _ 0)

/-! ### The bodies -/

/-- R220. -/
theorem closeBody_of_notRunning (h : s.lifecycle ≠ .running) : closeBody s = (s, releaseReturn .ok 0#16) := by
  rw [closeBody, if_pos h]

/-- R323. -/
theorem irqBody_of_notRunning (h : s.lifecycle ≠ .running) : irqBody s = (s, releaseReturn .ok 0#16) := by
  rw [irqBody, if_pos h]

/-- R264. -/
theorem xmitBody_of_notRunning (h : s.lifecycle ≠ .running) :
    xmitBody addr len s = (s, releaseReturn .queueFull 0#16) := by
  rw [xmitBody, if_pos h]

/-- R263. -/
theorem xmitBody_of_full (h : s.lifecycle = .running) (hfull : s.tx.count = ringSize s.tx.exp) :
    xmitBody addr len s =
      (s, (if s.queueStopped then [] else [.stopQueue]) ++ releaseReturn .queueFull 0#16) := by
  rw [xmitBody, if_neg (not_not_intro h), if_pos hfull]

/-- Settles O35: between the `acquire` and the return of QUEUE_FULL only the queue is stopped. -/
theorem xmitFullRing : Obligations.XmitFullRing := by
  intro s addr len hready hrunning hlow hhigh hfull
  have hpath := path_stopQueue (a := s.caller) (i := .xmit addr len) (s.lockedBy s.caller (.xmit addr len))
    (releaseReturn .queueFull 0#16)
  have hbody := xmitBody_of_full (s := s.lockedBy s.caller (.xmit addr len)) (addr := addr) (len := len) hrunning hfull
  have hexec := runCommand_returns (i := .xmit addr len) hready rfl rfl (decide_eq_true ⟨hlow, hhigh⟩)
    (by rw [afterAcquire, hbody]; exact hpath) (by decide)
  refine hexec.trans (congrArg _ ?_)
  apply State.ext
  case history =>
    simp only [State.giveReply, State.traced, State.lockedBy, State.record, List.reverse_append, List.append_assoc]
    rfl
  all_goals rfl

/-! ### RECLAIM alone -/

/-- The state in which RECLAIM runs `reclaim_body`: `def_busy` is set (R334) and the lock is held. -/
def State.reclaiming (s : State) : State := { s.lockedBy .deferred .reclaim with defBusy := true }

/-- R270, R334: the state after the end of RECLAIM. -/
def State.reclaimReturned (s : State) : State :=
  { s with lockOwner := none, defBusy := false }.giveReply .deferred .reclaim ⟨.ok, 0#16⟩

/-- R270: RECLAIM after `reclaim_body`. -/
def reclaimEnd : List Prim := [.release, .quiet .defIdle, .quiet (.ret .ok 0#16)]

theorem runs_reclaimEnd (s : State) : Runs .deferred .reclaim reclaimEnd s (.ok s.reclaimReturned) 3 :=
  .prim (ps := []) rfl (.prim (ps := []) rfl (.prim (ps := []) rfl (.done _)))

/-- R270: RECLAIM takes the lock, and goes on with its body. -/
theorem runs_reclaim (hlock : s.lockOwner = none)
    (h : Runs .deferred .reclaim (reclaimBody s.reclaiming).2 s.reclaiming r n) :
    Runs .deferred .reclaim (script .reclaim) (s.record (.issued .deferred .reclaim)) r (n + 2) := by
  have hfree : acquirable .reclaim { s.record (.issued .deferred .reclaim) with defBusy := true } = true := by
    simp [acquirable, State.lockFree, teardown, hlock]
  exact .prim (ps := []) rfl (.acquire hfree rfl rfl (by rw [List.append_nil]; exact h))

/-- R264. -/
theorem reclaimBody_of_notRunning (h : s.lifecycle ≠ .running) : reclaimBody s = (s, reclaimEnd) := by
  rw [reclaimBody, if_neg h]
  rfl

/-- R270. -/
theorem reclaimBody_of_running (h : s.lifecycle = .running) :
    reclaimBody s = (s, .quiet .reclaimLoop :: reclaimEnd) := by
  rw [reclaimBody, if_pos h]
  rfl

/-- R270: RECLAIM outside RUNNING. -/
theorem exec_reclaim_notRunning (hready : s.ready .deferred) (h : s.lifecycle ≠ .running) :
    exec .reclaim s = .next s.reclaiming.reclaimReturned := by
  obtain ⟨hidle, hlock, hsched⟩ := hready
  have hbody : reclaimBody s.reclaiming = (s.reclaiming, reclaimEnd) := reclaimBody_of_notRunning h
  have hrun := runs_reclaim hlock (by rw [hbody]; exact runs_reclaimEnd s.reclaiming)
  have hfuel := fuel_ge s
  exact runCommand_next hidle hsched hrun (by omega)

/-- R290: DRAIN outside RUNNING. -/
theorem runs_drain_notRunning (h : s.lifecycle ≠ .running) :
    Runs .deferred .drain (script .drain) (s.record (.issued .deferred .drain))
      (.ok ({ s.draining with defBusy := false }.giveReply .deferred .drain ⟨.ok, 0#16⟩)) 4 := by
  have hstart : perform .deferred .drain (.quiet .drainStart) s.draining = .ok (s.draining, []) := by
    have h : s.draining.lifecycle ≠ .running := h
    simp only [perform, quietStep, drainStartSteps, if_neg h]
  exact .prim (ps := []) rfl (.prim hstart (.prim (ps := []) rfl (.prim (ps := []) rfl (.done _))))

/-- Settles O26: each command comes from its `acquire`, or from `def_busy <- 1`, to its return. -/
theorem notRunningNoEffect : Obligations.NotRunningNoEffect := by
  intro s h
  refine ⟨fun hready => ?_, fun addr len hready hlow hhigh => ?_, fun hready => ?_, fun hready => ?_,
    fun hidle hsched => ?_⟩
  · exact runCommand_no_effect (i := .close) hready rfl rfl rfl (closeBody_of_notRunning h)
  · exact runCommand_no_effect (i := .xmit addr len) hready rfl rfl (decide_eq_true ⟨hlow, hhigh⟩)
      (xmitBody_of_notRunning h)
  · exact runCommand_no_effect (i := .irq) hready rfl rfl rfl (irqBody_of_notRunning h)
  · rw [exec_reclaim_notRunning hready h]
    obtain ⟨-, hlock, -⟩ := hready
    rw [hlock]
    rfl
  · have hfuel := fuel_ge s
    exact runCommand_next hidle hsched (runs_drain_notRunning h) (by omega)

/-! ### RECLAIM of a running block -/

/-- R108: `tx_err` reads ERR_D of `w1` and UFLO, LCOL, LCAR and RTRY of `w2`. -/
theorem txErr_bits (w1 w2 : Word) : txErr w1 w2 =
    (w1.getLsbD 30 || w2.getLsbD 30 || w2.getLsbD 28 || w2.getLsbD 27 || w2.getLsbD 26) := by
  have hmask : txErrW2 =
      BitVec.twoPow 32 30 ||| BitVec.twoPow 32 28 ||| BitVec.twoPow 32 27 ||| BitVec.twoPow 32 26 := by decide
  have herr : dERR = BitVec.twoPow 32 30 := by decide
  rw [txErr, hmask, herr]
  simp only [hasBits_or, hasBits_twoPow _ 30 (by decide), hasBits_twoPow w2 28 (by decide),
    hasBits_twoPow w2 27 (by decide), hasBits_twoPow w2 26 (by decide), Bool.or_assoc]

/-- R35: the length of the frame of an in-flight slot, as it stands in `tx_map`. -/
theorem txEntry_len (s : State) (j : Nat) :
    (s.txEntry j).len = ((s.tx.map[s.txAt j]?).join.map TxMapping.len).getD 0 := by
  unfold State.txEntry
  cases (s.tx.map[s.txAt j]?).join <;> rfl

/-- R270: RECLAIM alone in RUNNING. -/
theorem exec_reclaim_running (hready : s.ready .deferred) (hrunning : s.lifecycle = .running) (hinv : s.tx.inv)
    (hsized : s.sized) (hplaced : ringPlaced s.tx.base s.tx.exp) : ∃ k,
    exec .reclaim s = .next (s.reclaiming.reclaimed k).reclaimReturned ∧ k ≤ s.tx.count ∧
    (∀ j, j < k → owned (s.txWord j 1) = false) ∧ (k < s.tx.count → owned (s.txWord k 1) = true) ∧
    (s.reclaiming.reclaimed k).tx.inv := by
  obtain ⟨hidle, hlock, hsched⟩ := hready
  obtain ⟨k, m, hk, hfree, howned, hend, hm, hloop⟩ := reclaim_loop .deferred .reclaim reclaimEnd s.tx.count
    s.reclaiming rfl hinv hplaced
  have hbody : reclaimBody s.reclaiming = (s.reclaiming, .quiet .reclaimLoop :: reclaimEnd) :=
    reclaimBody_of_running hrunning
  have hrun := runs_reclaim hlock (by rw [hbody]; exact hloop _ _ (runs_reclaimEnd _))
  have hcount : s.tx.count ≤ 2 ^ 15 := le_trans hinv.1.2.2.1 (Nat.pow_le_pow_right (by decide) hsized.1)
  have hm : m ≤ 7 * s.tx.count + 2 := hm
  have hfuel := fuel_ge s
  exact ⟨k, runCommand_next hidle hsched hrun (by omega), hk, hfree, howned, hend⟩

/-- R24: the history of RECLAIM. -/
theorem reclaimReturned_history (s : State) (k : Nat) : (s.reclaiming.reclaimed k).reclaimReturned.history =
    s.traced ([.issued .deferred .reclaim] ++ (List.range k).flatMap s.reclaimEvents ++
      s.lastRead s.tx.base (s.txAt k) k s.tx.count ++ [.returned .deferred .reclaim ⟨.ok, 0#16⟩]) := by
  have hpushed : (s.reclaiming.reclaimed k).reclaimReturned.history = .returned .deferred .reclaim ⟨.ok, 0#16⟩ ::
      (((List.range k).flatMap s.reclaimEvents ++ s.lastRead s.tx.base (s.txAt k) k s.tx.count).reverse ++
        .issued .deferred .reclaim :: s.history) := rfl
  rw [hpushed, State.traced]
  simp only [List.reverse_append, List.reverse_cons, List.reverse_nil, List.nil_append, List.cons_append,
    List.append_assoc]

/-- R271: the counters of one reclaimed slot, by the bits of its descriptor. -/
theorem countTx_bits (s : State) (j : Nat) (c : Counters) :
    countTx s.params (s.txWord j 1) (s.txWord j 2) (s.txEntry j).len c =
    if (s.txWord j 1).getLsbD 30 || (s.txWord j 2).getLsbD 30 || (s.txWord j 2).getLsbD 28 ||
        (s.txWord j 2).getLsbD 27 || (s.txWord j 2).getLsbD 26 then
      { c with txErrors := bump s.params c.txErrors 1 }
    else
      { c with
        txPackets := bump s.params c.txPackets 1,
        txBytes := bump s.params c.txBytes (((s.tx.map[s.txAt j]?).join.map TxMapping.len).getD 0) } := by
  rw [countTx, txErr_bits, txEntry_len]

/-- Settles O37: the loop of `reclaim_body`, and the counters slot by slot. -/
theorem reclaimCompleted : Obligations.ReclaimCompleted := by
  intro s hready hrunning hinv hsized hplaced
  obtain ⟨k, hexec, hk, hfree, howned, hend⟩ := exec_reclaim_running hready hrunning hinv hsized hplaced
  obtain ⟨-, hlock, -⟩ := hready
  refine ⟨k, _, hexec, hk, hfree, howned, ?_, fun _ => rfl, hend⟩
  apply State.ext
  case lockOwner => exact hlock.symm
  case counters => exact foldl_range_congr fun c j _ => countTx_bits s j c
  case history => exact reclaimReturned_history s k
  all_goals rfl

end Sys2Proof.Machine
end

section
/-! SUPPORT. `drain_body` on an empty ring (44_receive.md R296), and DTASK of a running block (45_interrupt.md R330 to
R332): `drain_body`, `reclaim_body`, the wake test, the re-enable. -/

namespace Sys2Proof.Machine

variable {s u : State} {a : Agent} {i : Instr} {rest : List Prim} {S : Strategy} {r : Res State} {n : Nat}

/-! ### DRAIN with no completed slot -/

/-- R290, R330: `drain_body` is run in RUNNING. -/
theorem drainStartSteps_of_running (h : s.lifecycle = .running) :
    drainStartSteps s = [.quiet (.drainLoop (ringSize s.rx.exp))] := by
  rw [drainStartSteps, if_pos h]

/-- R290, R330: the deferred agent marks itself busy, and comes to the loop of `drain_body`. -/
theorem runs_drainStart (hrunning : s.lifecycle = .running)
    (h : Runs a i (.quiet (.drainLoop (ringSize s.rx.exp)) :: rest) { s with defBusy := true } r n) :
    Runs a i (.quiet .defBegin :: .quiet .drainStart :: rest) s r (n + 2) := by
  have hsteps := drainStartSteps_of_running (s := { s with defBusy := true }) hrunning
  refine .prim (ps := []) rfl (.prim (ps := drainStartSteps { s with defBusy := true }) rfl ?_)
  rw [hsteps]
  exact h

/-- R296: a `drain_body` whose first read sees OWN makes that read only. -/
theorem runs_drainLoop_owned (hn : 0 < n) (hcur : s.rx.current < ringSize s.rx.exp)
    (hplaced : ringPlaced s.rx.base s.rx.exp) (hown : owned (s.wordAt (slotAddr s.rx.base s.rx.current 1)) = true)
    {q : Nat} (h : Runs a i rest (s.noteRead .host (slotAddr s.rx.base s.rx.current 1) 4) r q) :
    Runs a i (.quiet (.drainLoop n) :: rest) s r (q + 2) := by
  obtain ⟨left, rfl⟩ : ∃ left, n = left + 1 := ⟨n - 1, by omega⟩
  obtain ⟨haligned, hspace⟩ := slot_placed (w := 1) hplaced hcur (by decide)
  have hread : perform a i (.slotGet .rx s.rx.current 1 (.drainOwn left s.rx.current)) s =
      .ok (s.noteRead .host (slotAddr s.rx.base s.rx.current 1) 4, []) := by
    simp only [perform, hostSlotRead_ok (s := s) (r := .rx) haligned hspace (.inl rfl), Res.bind, onWord, drainOwnSteps,
      State.ringBase, hown, if_true]
  exact .prim (ps := [.slotGet .rx s.rx.current 1 (.drainOwn left s.rx.current)]) rfl (.prim hread h)

/-- Settles O39: the one read, between `def_busy <- 1` and `def_busy <- 0`. -/
theorem drainEmptyRing : Obligations.DrainEmptyRing := by
  intro s hidle hsched hrunning hcur hplaced hown
  have hend (u : State) : Runs .deferred .drain [.quiet .defIdle, .quiet (.ret .ok 0#16)] u
      (.ok ({ u with defBusy := false }.giveReply .deferred .drain ⟨.ok, 0#16⟩)) 2 :=
    .prim (ps := []) rfl (.prim (ps := []) rfl (.done _))
  have hloop := runs_drainLoop_owned (s := s.draining) (Nat.two_pow_pos s.rx.exp) hcur hplaced hown (hend _)
  have hrun := runs_drainStart (s := s.record (.issued .deferred .drain)) hrunning hloop
  have hfuel := fuel_ge s
  exact ⟨_, runCommand_next hidle hsched hrun (by omega), rfl, fun _ => rfl⟩

/-! ### `reclaim_body` after stores outside the TX ring -/

/-- In `u` the TX ring has the registers and the bytes it has in `s`. -/
structure TxRingSame (s u : State) : Prop where
  params : u.params = s.params
  tx : u.tx = s.tx
  bytes : ∀ x, s.tx.base.toNat ≤ x → x < s.tx.base.toNat + 16 * ringSize s.tx.exp → u.byteAt x = s.byteAt x

namespace TxRingSame

variable (h : TxRingSame s u)

include h

theorem txAt (j : Nat) : u.txAt j = s.txAt j := by rw [State.txAt, h.tx, State.txAt]

theorem txEntry (j : Nat) : u.txEntry j = s.txEntry j := by rw [State.txEntry, h.txAt, h.tx, State.txEntry]

theorem slot_byte {j k x : Nat} (hk : k < 4) (hlow : slotAddr s.tx.base (s.txAt j) k ≤ x)
    (hhigh : x < slotAddr s.tx.base (s.txAt j) k + 4) : u.byteAt x = s.byteAt x := by
  have hslot : s.txAt j < ringSize s.tx.exp := Nat.mod_lt _ (Nat.two_pow_pos _)
  unfold slotAddr at hlow hhigh
  exact h.bytes x (by omega) (by omega)

theorem txWord (j : Nat) {k : Nat} (hk : k < 4) : u.txWord j k = s.txWord j k := by
  rw [State.txWord, h.txAt, h.tx]
  exact wordAt_eq fun x hlow hhigh => h.slot_byte hk hlow hhigh

theorem wordRead (j : Nat) {k : Nat} (hk : k < 4) :
    u.wordRead s.tx.base (s.txAt j) k = s.wordRead s.tx.base (s.txAt j) k := by
  refine congrArg (Event.memRead .host (slotAddr s.tx.base (s.txAt j) k)) (List.map_congr_left fun y hy => ?_)
  have hy := List.mem_range.mp hy
  exact h.slot_byte hk (Nat.le_add_right _ y) (by omega)

theorem lastRead (j k n : Nat) : u.lastRead s.tx.base (s.txAt j) k n = s.lastRead s.tx.base (s.txAt j) k n := by
  rw [State.lastRead, h.wordRead j (by decide), State.lastRead]

theorem reclaimEvents : u.reclaimEvents = s.reclaimEvents := by
  funext j
  rw [State.reclaimEvents, h.txEntry, h.txAt, h.tx, h.wordRead j (by decide), h.wordRead j (by decide),
    State.reclaimEvents]

theorem reclaimedCounts (k : Nat) (c : Counters) : u.reclaimedCounts k c = s.reclaimedCounts k c :=
  foldl_range_congr fun c j _ => by
    rw [h.params, h.txEntry, h.txWord j (by decide), h.txWord j (by decide)]

end TxRingSame

/-- R98: the two rings share no byte. -/
def State.ringsApart (s : State) : Prop :=
  disjointRegions s.rx.base.toNat (16 * ringSize s.rx.exp) s.tx.base.toNat (16 * ringSize s.tx.exp) = true

/-- R98: `drain_body` stores to the RX ring only. -/
theorem drained_txRingSame {k : Nat} (hk : k ≤ ringSize s.rx.exp) (hapart : s.ringsApart) :
    TxRingSame s (s.drained n k) := by
  refine ⟨rfl, rfl, fun x hlow hhigh => ?_⟩
  obtain ⟨-, hout⟩ := drained_memory (s := s) (n := n) hk
  refine hout x fun region hregion => ?_
  obtain ⟨j, -, rfl⟩ := List.mem_map.mp hregion
  have hslot : s.rxAt j < ringSize s.rx.exp := Nat.mod_lt _ (Nat.two_pow_pos _)
  simp only [State.ringsApart, disjointRegions, Bool.or_eq_true, decide_eq_true_eq] at hapart
  simp only [slotAddr]
  omega

/-- The history after more events. -/
theorem traced_append (s : State) (es fs : List Event) : s.traced (es ++ fs) = fs.reverse ++ s.traced es := by
  rw [State.traced, State.traced, List.reverse_append, List.append_assoc]

/-! ### The wake test and the re-enable -/

/-- R331: the queue is stopped and there is room. -/
def State.wakes (s : State) : Bool := s.queueStopped && decide (s.tx.count < ringSize s.tx.exp)

/-- R331: the call of the wake test. -/
def State.wakeCalls (s : State) : List Event := if s.wakes then [.call .wakeQueue] else []

/-- R331: the state after the wake test, with `wake_queue` called where the queue was stopped and there is room. -/
def State.awake (s : State) : State :=
  { s with
    queueStopped := s.queueStopped && decide (ringSize s.tx.exp ≤ s.tx.count),
    history := s.traced s.wakeCalls }

theorem path_wakeQueue :
    Path a i ((if s.queueStopped ∧ s.tx.count < ringSize s.tx.exp then [.wakeQueue] else []) ++ rest) s rest
      s.awake 1 := by
  by_cases hwakes : s.queueStopped = true ∧ s.tx.count < ringSize s.tx.exp
  · obtain ⟨hqueue, hroom⟩ := hwakes
    have hafter : s.awake = { s with queueStopped := false }.record (.call .wakeQueue) := by
      simp [State.awake, State.wakeCalls, State.wakes, hqueue, hroom, State.traced, State.record]
    rw [if_pos ⟨hqueue, hroom⟩, hafter]
    exact .prim (ps := []) rfl (.refl rest _ 0)
  · have hstay : (s.queueStopped && decide (ringSize s.tx.exp ≤ s.tx.count)) = s.queueStopped := by
      cases hqueue : s.queueStopped with
      | false => rfl
      | true => exact decide_eq_true (Nat.le_of_not_lt fun hroom => hwakes ⟨hqueue, hroom⟩)
    have hnone : s.wakes = false := by simpa [State.wakes] using hwakes
    have hsame : s.awake = s := by
      rw [State.awake, State.wakeCalls, hstay, hnone]
      rfl
    rw [if_neg hwakes, hsame]
    exact .refl rest s 1

/-- R350: a write of IENA alone starts no handshake. -/
theorem csr0Write_iena_state (d : Device) : (csr0Write d csr0IENA).state = d.state := by
  have hbits : bitSet csr0IENA csr0STOP = false ∧ bitSet csr0IENA csr0INIT = false ∧
      bitSet csr0IENA csr0STRT = false := by decide
  obtain ⟨hstop, hinit, hstrt⟩ := hbits
  simp [csr0Write, hstop, hinit, hstrt]

/-- R331, R322: the state after the wake test and the re-enable of interrupts. -/
def State.reenabled (s : State) (S : Strategy) : State :=
  { s.awake.csrWritten S 0#16 csr0IENA (csr0Write { s.device with rap := 0#16 } csr0IENA) with ienaShadow := true }

/-- R331: the wake test and the re-enable. -/
theorem path_wake (hm : s.answeredBy S) : Path a i (.quiet .wake :: rest) s rest (s.reenabled S) 5 := by
  have hwrite := path_csrWrite (a := a) (i := i) (s := s.awake) (idx := 0#16) (x := csr0IENA)
    (rest := .quiet .reenabled :: rest) hm rfl (fun h => by rwa [csr0Write_iena_state])
  have hpath := path_wakeQueue.trans (hwrite.trans (m := 1) (.prim (ps := []) rfl (.refl rest (s.reenabled S) 0)))
  refine .prim (ps := wakeSteps s) rfl ?_
  simp only [wakeSteps, List.append_assoc]
  exact hpath

/-! ### DTASK -/

/-- The state in which DTASK runs `drain_body`: its issue is recorded and `def_busy` is set (R334). -/
def State.dtasking (s : State) : State := { s.record (.issued .deferred .dtask) with defBusy := true }

/-- R330: the state in which DTASK runs `reclaim_body`: `k` RX slots are drained and the lock is held. -/
def State.dtaskLocked (s : State) (k : Nat) : State :=
  { s.dtasking.drained (ringSize s.rx.exp) k with lockOwner := some .deferred }

/-- R24: the events of DTASK until `k` slots are drained and `j` reclaimed. -/
def State.dtaskEvents (s : State) (k j : Nat) : List Event :=
  [Event.issued .deferred .dtask] ++ (List.range k).flatMap s.drainEvents ++
    s.lastRead s.rx.base (s.rxAt k) k (ringSize s.rx.exp) ++ (List.range j).flatMap s.reclaimEvents ++
    s.lastRead s.tx.base (s.txAt j) j s.tx.count

/-- R330: the state after DTASK has drained `k` slots and reclaimed `j`. -/
def State.dtaskReclaimed (s : State) (k j : Nat) : State :=
  { s with
    defBusy := true, lockOwner := some .deferred,
    rx := { s.rx with current := s.rxAt k },
    tx := { s.tx with map := s.reclaimedMap j, last := s.txAt j, count := s.tx.count - j },
    counters := s.reclaimedCounts j (s.drainedCounts k s.counters),
    hostFrames := s.reclaimedFrames j (s.drainedFrames k s.hostFrames),
    memory := (s.drained (ringSize s.rx.exp) k).memory, oracle := s.drainedOracle k,
    history := s.traced (s.dtaskEvents k j) }

/-- R331, R322: the last events of DTASK: CSR0 is written, and the command returns. -/
def State.dtaskEndEvents (s : State) (S : Strategy) : List Event :=
  [.ioWrite S.width (rapPort S s.params) 0#32, .ioWrite S.width (dataPort S s.params .csr) 0x00000040#32,
   .returned .deferred .dtask ⟨.ok, 0#16⟩]

/-- R331, R332: the state after the end of DTASK. -/
def State.dtaskReturned (s : State) (S : Strategy) : State :=
  { s with
    taskPending := false, defBusy := false, ienaShadow := true, lockOwner := none,
    queueStopped := s.queueStopped && decide (ringSize s.tx.exp ≤ s.tx.count),
    device := csr0Write { s.device with rap := 0#16 } csr0IENA,
    replies := s.replied .deferred ⟨.ok, 0#16⟩,
    history := s.traced (s.wakeCalls ++ s.dtaskEndEvents S) }

/-- R330: the locked section of DTASK in RUNNING. -/
theorem dtaskBody_of_running (h : s.lifecycle = .running) :
    dtaskBody s = (s, .quiet .reclaimLoop :: .quiet .wake :: .quiet .taskDone :: releaseReturn .ok 0#16) := by
  rw [dtaskBody, if_pos h]
  rfl

/-- R331, R332: the end of DTASK, after `reclaim_body`. -/
theorem path_dtaskEnd (hm : s.answeredBy S) :
    Path .deferred .dtask (.quiet .wake :: .quiet .taskDone :: releaseReturn .ok 0#16) s [] (s.dtaskReturned S) 8 := by
  have hpath := (path_wake (a := .deferred) (i := .dtask) (rest := .quiet .taskDone :: releaseReturn .ok 0#16) hm).trans
    (m := 3) (.prim (ps := []) rfl path_releaseReturn)
  have hend : { taskDone (s.reenabled S) with lockOwner := none }.giveReply .deferred .dtask ⟨.ok, 0#16⟩ =
      s.dtaskReturned S := by
    apply State.ext
    case history => exact (traced_append s s.wakeCalls (s.dtaskEndEvents S)).symm
    all_goals rfl
  rwa [hend] at hpath

/-- R98: `drain_body` leaves the TX ring as it is for `reclaim_body`. -/
theorem dtaskLocked_txRingSame {k : Nat} (hk : k ≤ ringSize s.rx.exp) (hapart : s.ringsApart) :
    TxRingSame s (s.dtaskLocked k) := by
  obtain ⟨-, -, hbytes⟩ := drained_txRingSame (s := s.dtasking) (n := ringSize s.rx.exp) hk hapart
  exact ⟨rfl, rfl, hbytes⟩

/-- R24: the history of DTASK until `j` slots are reclaimed. -/
theorem dtaskLocked_reclaimed_history {k : Nat} (hsame : TxRingSame s (s.dtaskLocked k)) (j : Nat) :
    ((s.dtaskLocked k).reclaimed j).history = s.traced (s.dtaskEvents k j) := by
  have hpushed : ((s.dtaskLocked k).reclaimed j).history =
      ((List.range j).flatMap (s.dtaskLocked k).reclaimEvents ++
        (s.dtaskLocked k).lastRead s.tx.base (s.txAt j) j s.tx.count).reverse ++
      (((List.range k).flatMap s.drainEvents ++ s.lastRead s.rx.base (s.rxAt k) k (ringSize s.rx.exp)).reverse ++
      .issued .deferred .dtask :: s.history) := rfl
  rw [hpushed, hsame.reclaimEvents, hsame.lastRead, State.traced, State.dtaskEvents]
  simp only [List.reverse_append, List.reverse_cons, List.nil_append, List.cons_append, List.append_assoc]

/-- R98, R330: `reclaim_body` finds in the TX ring what was there before `drain_body`. -/
theorem dtaskLocked_reclaimed {k : Nat} (hsame : TxRingSame s (s.dtaskLocked k)) (j : Nat) :
    (s.dtaskLocked k).reclaimed j = s.dtaskReclaimed k j := by
  apply State.ext
  case counters => exact hsame.reclaimedCounts j _
  case history => exact dtaskLocked_reclaimed_history hsame j
  all_goals rfl

/-- R330: DTASK from its `acquire` on, after `k` slots are drained. -/
theorem runs_dtask_locked {k : Nat} (hlock : s.lockOwner = none) (hm : s.answeredBy S)
    (hrunning : s.lifecycle = .running) (hinv : s.tx.inv) (hplaced : ringPlaced s.tx.base s.tx.exp)
    (hsame : TxRingSame s (s.dtaskLocked k)) : ∃ j m, j ≤ s.tx.count ∧
    (∀ x, x < j → owned (s.txWord x 1) = false) ∧ (j < s.tx.count → owned (s.txWord j 1) = true) ∧
    (s.dtaskReclaimed k j).tx.inv ∧ m ≤ 7 * s.tx.count + 11 ∧
    Runs .deferred .dtask [.acquire] (s.dtasking.drained (ringSize s.rx.exp) k)
      (.ok ((s.dtaskReclaimed k j).dtaskReturned S)) m := by
  obtain ⟨j, m, hj, hfree, howned, hend, hcount, hloop⟩ := reclaim_loop .deferred .dtask
    (.quiet .wake :: .quiet .taskDone :: releaseReturn .ok 0#16) s.tx.count (s.dtaskLocked k) rfl hinv hplaced
  rw [dtaskLocked_reclaimed hsame] at hend hloop
  obtain ⟨q, hq, htail⟩ := (path_dtaskEnd (s := s.dtaskReclaimed k j) hm).runs (.done _)
  have hacquire : acquirable .dtask (s.dtasking.drained (ringSize s.rx.exp) k) = true := by
    have hfree : (s.dtasking.drained (ringSize s.rx.exp) k).lockOwner = none := hlock
    simp [acquirable, State.lockFree, teardown, hfree]
  have hbody : afterAcquire .dtask (s.dtaskLocked k) = _ := dtaskBody_of_running hrunning
  have hcount : m ≤ 7 * s.tx.count + 2 := hcount
  refine ⟨j, q + m + 1, hj, fun x hx => ?_, fun hx => ?_, hend, by omega,
    .acquire hacquire rfl hbody (by rw [List.append_nil]; exact hloop _ _ htail)⟩
  · rw [← hsame.txWord x (by decide)]
    exact hfree x hx
  · rw [← hsame.txWord j (by decide)]
    exact howned hx

/-- R330 to R332: DTASK alone in RUNNING. -/
theorem exec_dtask_running (hready : s.ready .deferred) (hm : s.answeredBy S) (hrunning : s.lifecycle = .running)
    (hsized : s.sized) (hrx : Drain.Ok s) (hinv : s.tx.inv) (hplaced : ringPlaced s.tx.base s.tx.exp)
    (hapart : s.ringsApart) : ∃ k j,
    exec .dtask s = .next ((s.dtaskReclaimed k j).dtaskReturned S) ∧
    k ≤ ringSize s.rx.exp ∧ j ≤ s.tx.count ∧
    (∀ x, x < k → owned (s.rxWord x 1) = false) ∧ (k < ringSize s.rx.exp → owned (s.rxWord k 1) = true) ∧
    (∀ x, x < j → owned (s.txWord x 1) = false) ∧ (j < s.tx.count → owned (s.txWord j 1) = true) ∧
    (s.dtaskReclaimed k j).tx.inv := by
  obtain ⟨hidle, hlock, hsched⟩ := hready
  obtain ⟨k, m, hk, hrxFree, hrxOwned, hm₁, hdrain⟩ := drain_loop .deferred .dtask [.acquire] (ringSize s.rx.exp)
    s.dtasking le_rfl ⟨hrx.inv, hrx.placed, hrx.buffers⟩
  obtain ⟨j, q, hj, htxFree, htxOwned, hend, hm₂, hlocked⟩ := runs_dtask_locked hlock hm hrunning hinv hplaced
    (dtaskLocked_txRingSame hk hapart)
  have hrun := runs_drainStart (s := s.record (.issued .deferred .dtask)) hrunning (hdrain _ _ hlocked)
  obtain ⟨htxExp, hrxExp, -, -⟩ := hsized
  have hslots : ringSize s.rx.exp ≤ 2 ^ 15 := Nat.pow_le_pow_right (by decide) hrxExp
  have hcount : s.tx.count ≤ 2 ^ 15 := le_trans hinv.1.2.2.1 (Nat.pow_le_pow_right (by decide) htxExp)
  have hfuel := fuel_ge s
  exact ⟨k, j, runCommand_next hidle hsched hrun (by omega), hk, hj, hrxFree, hrxOwned, htxFree, htxOwned, hend⟩

/-- R24: the history of DTASK. -/
theorem dtaskReturned_history (s : State) (S : Strategy) (k j : Nat) :
    ((s.dtaskReclaimed k j).dtaskReturned S).history =
      s.traced (s.dtaskEvents k j ++ (s.dtaskReclaimed k j).wakeCalls ++ s.dtaskEndEvents S) := by
  rw [List.append_assoc, traced_append]
  rfl

/-- Settles O44: the drain leaves the TX ring alone, so that the reclaim finds in it what was there before. -/
theorem dtaskRuns : Obligations.DtaskRuns := by
  intro s S hready hm hrunning hsized hrxInv hrxPlaced hbuffers hinv hplaced hapart
  obtain ⟨k, j, hexec, hk, hj, hrxFree, hrxOwned, htxFree, htxOwned, hend⟩ :=
    exec_dtask_running hready hm hrunning hsized ⟨hrxInv, hrxPlaced, hbuffers⟩ hinv hplaced hapart
  obtain ⟨-, hlock, -⟩ := hready
  obtain ⟨hwords, hout⟩ := drained_memory (s := s) (n := ringSize s.rx.exp) hk
  have hmemory : ((s.dtaskReclaimed k j).dtaskReturned S).memory = (s.drained (ringSize s.rx.exp) k).memory := rfl
  refine ⟨k, j, _, hexec, hk, hj, hrxFree, hrxOwned, htxFree, htxOwned, ?_, hend, fun x hx => ?_, fun x hx => ?_⟩
  · apply State.ext
    case lockOwner => exact hlock.symm
    case history => exact dtaskReturned_history s S k j
    all_goals rfl
  · rw [wordAt_congr hmemory, wordAt_congr hmemory]
    exact hwords x hx
  · rw [byteAt_congr hmemory]
    exact hout x hx

end Sys2Proof.Machine
end

section
/-! SUPPORT. DTASK outside RUNNING (45_interrupt.md R333), and IRQ of a running block (R320 to R322, R326): the
acknowledgement clears every cause, so that the loop ends after one iteration, then the re-enable. -/

namespace Sys2Proof.Machine

variable {s : State} {a : Agent} {i : Instr} {rest : List Prim} {S : Strategy} {p : Params} {d : Device}

/-! ### DTASK outside RUNNING -/

/-- R330. -/
theorem drainStartSteps_of_notRunning (h : s.lifecycle ≠ .running) : drainStartSteps s = [] := by
  rw [drainStartSteps, if_neg h]

/-- R333. -/
theorem dtaskBody_of_notRunning (h : s.lifecycle ≠ .running) :
    dtaskBody s = (s, .quiet .taskDone :: releaseReturn .ok 0#16) := by
  rw [dtaskBody, if_neg h]
  rfl

/-- R330, R333: DTASK alone outside RUNNING. -/
theorem runs_dtask_notRunning (hlock : s.lockOwner = none) (h : s.lifecycle ≠ .running) :
    Runs .deferred .dtask (script .dtask) (s.record (.issued .deferred .dtask))
      (.ok ({ taskDone s.dtasking with lockOwner := none }.giveReply .deferred .dtask ⟨.ok, 0#16⟩)) 6 := by
  have hstart : perform .deferred .dtask (.quiet .drainStart) s.dtasking = .ok (s.dtasking, []) := by
    rw [perform, quietStep, drainStartSteps_of_notRunning (s := s.dtasking) h]
  have hfree : acquirable .dtask s.dtasking = true := by
    have hlock : s.dtasking.lockOwner = none := hlock
    simp [acquirable, State.lockFree, teardown, hlock]
  have hbody : afterAcquire .dtask { s.dtasking with lockOwner := some .deferred } = _ := dtaskBody_of_notRunning h
  exact .prim (ps := []) rfl (.prim hstart (.acquire hfree rfl hbody
    (.prim (ps := []) rfl (.prim (ps := []) rfl (.prim (ps := []) rfl (.done _))))))

/-- Settles O43: `drain_body` is left out, and the locked section only clears the flags. -/
theorem dtaskNotRunning : Obligations.DtaskNotRunning := by
  intro s hready h
  obtain ⟨hidle, hlock, hsched⟩ := hready
  have hfuel := fuel_ge s
  have hexec := runCommand_next hidle hsched (runs_dtask_notRunning hlock h) (by omega)
  rw [← hlock] at hexec
  exact hexec

/-! ### The status IRQ reads -/

/-- R50: a mask of one stored bit tests the latch. -/
theorem bitSet_csr0Value (p : Params) (d : Device) {k : Nat} (h : (8 ≤ k ∧ k ≤ 14) ∨ k = 6 ∨ k = 3 ∨ k = 1 ∨ k = 0) :
    bitSet (csr0Value p d) (BitVec.twoPow 16 k) = d.latches.getLsbD k :=
  (bitSet_twoPow _ k (by omega)).trans (csr0Value_stored p d h)

/-- R52: the handler's loop test. -/
theorem bitSet_csr0INTR (p : Params) (d : Device) : bitSet (csr0Value p d) csr0INTR = intrPending p d :=
  (bitSet_twoPow _ 7 (by decide)).trans (csr0Value_intr p d)

/-- R320: the completion causes are RINT and TINT. -/
theorem completion_csr0Value (p : Params) (d : Device) :
    completion (csr0Value p d) = (d.latches.getLsbD 10 || d.latches.getLsbD 9) := by
  have hrint : bitSet (csr0Value p d) csr0RINT = d.latches.getLsbD 10 := bitSet_csr0Value p d (k := 10) (by decide)
  have htint : bitSet (csr0Value p d) csr0TINT = d.latches.getLsbD 9 := bitSet_csr0Value p d (k := 9) (by decide)
  rw [completion, hrint, htint]

/-- R326: CERR and MISS are counted. -/
theorem countCauses_csr0Value (p q : Params) (d : Device) (c : Counters) : countCauses p (csr0Value q d) c =
    { c with
      collisions := if d.latches.getLsbD 13 then bump p c.collisions 1 else c.collisions,
      missedFrames := if d.latches.getLsbD 12 then bump p c.missedFrames 1 else c.missedFrames } := by
  have hcerr : bitSet (csr0Value q d) csr0CERR = d.latches.getLsbD 13 := bitSet_csr0Value q d (k := 13) (by decide)
  have hmiss : bitSet (csr0Value q d) csr0MISS = d.latches.getLsbD 12 := bitSet_csr0Value q d (k := 12) (by decide)
  rw [countCauses, hcerr, hmiss]

/-! ### The acknowledgement -/

/-- R452: `ACK_CLEAR_MASK` holds back IENA, and no cause. -/
structure AckMaskOk (p : Params) : Prop where
  causes : p.ackClearMask &&& 0x7F00#16 = 0#16
  iena : p.ackClearMask &&& 0x0040#16 = 0x0040#16

theorem AckMaskOk.cause_bit (h : AckMaskOk p) {k : Nat} (hk : 8 ≤ k ∧ k ≤ 14) : p.ackClearMask.getLsbD k = false := by
  have hbit := congrArg (BitVec.getLsbD · k) h.causes
  have hcause : (0x7F00#16).getLsbD k = decide (8 ≤ k ∧ k ≤ 14) := csr0Causes_bit k
  simpa only [BitVec.getLsbD_and, hcause, hk, and_self, decide_true, Bool.and_true, BitVec.getLsbD_zero] using hbit

theorem AckMaskOk.iena_bit (h : AckMaskOk p) : p.ackClearMask.getLsbD 6 = true := by
  have hbit := congrArg (BitVec.getLsbD · 6) h.iena
  simpa using hbit

/-- R321: the value written back, bit by bit. -/
theorem ackValue_bit (p : Params) (v : Half) (k : Nat) :
    (ackValue p v).getLsbD k = (v.getLsbD k && !p.ackClearMask.getLsbD k) := by
  rw [ackValue, BitVec.getLsbD_and, BitVec.getLsbD_not]
  cases hv : v.getLsbD k with
  | false => rfl
  | true => simp [BitVec.lt_of_getLsbD hv]

/-- R321, R350: every cause of the status is written 1, IENA is written 0, and TDMD stays as it is. -/
theorem latches_acked (hmask : AckMaskOk p) (hstatus : d.statusOk) :
    csr0ClearAndEnable d.latches (ackValue p (csr0Value p d)) ||| csr0Demand d.state (ackValue p (csr0Value p d)) =
      d.latches &&& 0x000B#16 := by
  obtain ⟨hmay, -⟩ := (statusOk_iff d).mp hstatus
  have hkept (k : Nat) : (0x000B#16).getLsbD k = decide (k = 3 ∨ k = 1 ∨ k = 0) :=
    getLsbD_eq_decide (fun k => k = 3 ∨ k = 1 ∨ k = 0) (by decide) (by omega) k
  refine BitVec.eq_of_getLsbD_eq fun k _ => ?_
  rw [BitVec.getLsbD_or, csr0ClearAndEnable_bit, csr0Demand_bit, BitVec.getLsbD_and, hkept, ackValue_bit, ackValue_bit,
    ackValue_bit]
  by_cases hiena : k = 6
  · simp [hiena, hmask.iena_bit]
  by_cases hcause : 8 ≤ k ∧ k ≤ 14
  · have hread : (csr0Value p d).getLsbD k = d.latches.getLsbD k := csr0Value_stored p d (.inl hcause)
    have hlow : ¬(k = 3 ∨ k = 1 ∨ k = 0) := by omega
    have hdemand : k ≠ 3 := by omega
    rw [hread, hmask.cause_bit hcause, decide_eq_false hlow]
    simp [hiena, hcause, hdemand]
  by_cases hdemand : k = 3
  · have hread : (csr0Value p d).getLsbD 3 = d.latches.getLsbD 3 := csr0Value_stored p d (by decide)
    rw [hdemand, hread]
    cases d.latches.getLsbD 3 <;> simp
  · have hother : d.latches.getLsbD k = true → k = 1 ∨ k = 0 := fun hl => by
      have hallowed := hmay k hl
      unfold DevState.mayLatch at hallowed
      omega
    cases hl : d.latches.getLsbD k with
    | false => simp [hiena, hdemand]
    | true => simp [hiena, hcause, hdemand, hother hl]

/-- R321, R350: the acknowledgement of a device that asserts INTR clears the causes and IENA, and nothing else. -/
theorem csr0Write_ack (hmask : AckMaskOk p) (hstatus : d.statusOk) (hintr : intrPending p d = true) :
    csr0Write d (ackValue p (csr0Value p d)) = { d with latches := d.latches &&& 0x000B#16 } := by
  obtain ⟨hmay, -⟩ := (statusOk_iff d).mp hstatus
  obtain ⟨b, hlow, hhigh, -, hlatched⟩ := (intrPending_iff p d).mp hintr
  have hlive : d.state ≠ .stopped := by
    intro hstop
    have hiena : b = 6 := by
      have hallowed := hmay b hlatched
      rwa [hstop, mayLatch_stopped] at hallowed
    omega
  have hstop : bitSet (ackValue p (csr0Value p d)) csr0STOP = false := by
    obtain ⟨-, -, -, -, hread, -⟩ := csr0DerivedBits p d
    rw [decide_eq_false hlive] at hread
    exact (bitSet_twoPow _ 2 (by decide)).trans (by rw [ackValue_bit, hread, Bool.false_and])
  have hstart : ¬(bitSet (ackValue p (csr0Value p d)) csr0STRT = true ∧ d.state = .initialised) := by
    rintro ⟨hstrt, hstate⟩
    have hwritten : (ackValue p (csr0Value p d)).getLsbD 1 = true := (bitSet_twoPow _ 1 (by decide)).symm.trans hstrt
    rw [ackValue_bit, csr0Value_stored p d (by decide), Bool.and_eq_true] at hwritten
    obtain ⟨hlatched, -⟩ := hwritten
    have hallowed := hmay 1 hlatched
    simp [hstate] at hallowed
  rw [csr0Write, hstop]
  simp only [Bool.false_eq_true, if_false, hlive, and_false, hstart, latches_acked hmask hstatus]

/-- R52: with the causes cleared INTR is not asserted. -/
theorem intrPending_acked (p : Params) (d : Device) (l : Half) :
    intrPending p { d with latches := l &&& 0x000B#16 } = false := by
  have hnone : l &&& 0x000B#16 &&& csr0Causes = 0#16 := by
    rw [BitVec.and_assoc, show 0x000B#16 &&& csr0Causes = 0#16 by decide, BitVec.and_zero]
  rw [intrPending, hnone, bitSet, BitVec.zero_and]
  rfl

/-- R322, R350: a write of IENA alone sets IENA. -/
theorem csr0Write_iena (d : Device) : csr0Write d csr0IENA = { d with latches := d.latches ||| csr0IENA } := by
  have hbits : bitSet csr0IENA csr0STOP = false ∧ bitSet csr0IENA csr0INIT = false ∧
      bitSet csr0IENA csr0STRT = false := by decide
  obtain ⟨hstop, hinit, hstrt⟩ := hbits
  have hiena (k : Nat) : csr0IENA.getLsbD k = decide (k = 6) := getLsbD_eq_decide (· = 6) (by decide) (by omega) k
  have hlatches : csr0ClearAndEnable d.latches csr0IENA ||| csr0Demand d.state csr0IENA = d.latches ||| csr0IENA := by
    refine BitVec.eq_of_getLsbD_eq fun k _ => ?_
    rw [BitVec.getLsbD_or, csr0ClearAndEnable_bit, csr0Demand_bit, BitVec.getLsbD_or, hiena, hiena, hiena]
    by_cases h : k = 6 <;> simp [h]
  simp [csr0Write, hstop, hinit, hstrt, hlatches]

/-! ### The run of IRQ -/

/-- R171, R320: the handler reads the status, and goes on by it. -/
theorem path_status (hm : s.answeredBy S) (ran deferred : Bool) : ∃ (o : Oracle) (es : List Event),
    Path a i (csrRead .bound 0#16 (.status ran deferred) ++ rest) s
      (statusSteps ran deferred (csr0Value s.params s.device) s ++ rest)
      { s with device := { s.device with rap := 0#16 }, oracle := o, history := es } 2 := by
  obtain ⟨hmode, hans⟩ := hm
  have hpath := path_csrRead (a := a) (i := i) (rest := rest) (via := .bound) (k := .status ran deferred) hmode 0#16
  have hvalue : (readData S .csr (writeRap S 0#16 s)).1 = csr0Value s.params s.device := by
    rw [writeRap_answered hans]
    exact readData_csr hans rfl
  obtain ⟨w, o, hread⟩ := readData_effect S .csr (writeRap S 0#16 s)
  rw [hvalue, hread, writeRap_answered hans] at hpath
  exact ⟨o, _, hpath⟩

/-- R325: a status with INTR = 0 at the first read ends the command. -/
theorem path_irq_spurious (hm : s.answeredBy S) (hintr : intrPending s.params s.device = false) :
    ∃ (o : Oracle) (es : List Event), Path a i (csrRead .bound 0#16 (.status false false)) s (releaseReturn .ok 0#16)
      { s with device := { s.device with rap := 0#16 }, oracle := o, history := es } 2 := by
  obtain ⟨o, es, hpath⟩ := path_status (a := a) (i := i) (rest := []) hm false false
  rw [statusSteps, bitSet_csr0INTR, hintr] at hpath
  simp only [List.append_nil] at hpath
  exact ⟨o, es, hpath⟩

/-- R320: the device after the acknowledgement. -/
def Device.acked (d : Device) : Device := { d with rap := 0#16, latches := d.latches &&& 0x000B#16 }

/-- R320, R326: the state after the acknowledgement of the status. -/
def State.irqAcked (s : State) : State :=
  { s with
    device := s.device.acked, ienaShadow := false,
    taskPending := s.taskPending || completion (csr0Value s.params s.device),
    counters := countCauses s.params (csr0Value s.params s.device) s.counters }

/-- R320, R321: the first read of the status, with INTR = 1, and its acknowledgement. -/
theorem path_irq_ack (hm : s.answeredBy S) (hmask : AckMaskOk s.params) (hstatus : s.device.statusOk)
    (hintr : intrPending s.params s.device = true) : ∃ (o : Oracle) (es : List Event),
    Path a i (csrRead .bound 0#16 (.status false false)) s
      (csrRead .bound 0#16 (.status true (completion (csr0Value s.params s.device))))
      { s.irqAcked with oracle := o, history := es } 5 := by
  obtain ⟨o, es, hread⟩ := path_status (a := a) (i := i) (rest := []) hm false false
  rw [statusSteps, bitSet_csr0INTR, hintr] at hread
  simp only [if_true, List.append_nil] at hread
  have hstore : csrStore { s.device with rap := 0#16 } (ackValue s.params (csr0Value s.params s.device)) =
      some s.device.acked :=
    congrArg some (csr0Write_ack (d := { s.device with rap := 0#16 }) hmask hstatus hintr)
  have hwrite := path_csrWrite (a := a) (i := i)
    (s := { s with device := { s.device with rap := 0#16 }, oracle := o, history := es })
    (rest := [.quiet (.acked (csr0Value s.params s.device) false)]) hm hstore id
  exact ⟨o, _, hread.trans (hwrite.trans (m := 1) (.prim (ps := csrRead .bound 0#16 _) rfl (.refl _ _ 0)))⟩

/-- R320, R322: the last read of the status, with INTR = 0, and the re-enable where nothing is deferred. -/
theorem path_irq_end (hm : s.answeredBy S) (hintr : intrPending s.params s.device = false) (deferred : Bool) :
    ∃ (o : Oracle) (es : List Event), Path a i (csrRead .bound 0#16 (.status true deferred)) s (releaseReturn .ok 0#16)
      { s with
        device := { s.device with
          rap := 0#16, latches := s.device.latches ||| (if deferred then 0#16 else csr0IENA) },
        ienaShadow := s.ienaShadow || !deferred, oracle := o, history := es } 5 := by
  obtain ⟨o, es, hread⟩ := path_status (a := a) (i := i) (rest := []) hm true deferred
  rw [statusSteps, bitSet_csr0INTR, hintr] at hread
  cases deferred with
  | true =>
    simp only [Bool.false_eq_true, if_false, Bool.not_true, and_false, List.nil_append, List.append_nil] at hread
    simp only [if_true, BitVec.or_zero, Bool.not_true, Bool.or_false]
    exact ⟨o, es, hread.mono (by decide)⟩
  | false =>
    simp only [Bool.false_eq_true, if_false, Bool.not_false, and_self, if_true, List.append_assoc, List.append_nil]
      at hread
    have hstore : csrStore { s.device with rap := 0#16 } csr0IENA =
        some { s.device with rap := 0#16, latches := s.device.latches ||| csr0IENA } :=
      congrArg some (csr0Write_iena { s.device with rap := 0#16 })
    have hwrite := path_csrWrite (a := a) (i := i)
      (s := { s with device := { s.device with rap := 0#16 }, oracle := o, history := es })
      (rest := .quiet .reenabled :: releaseReturn .ok 0#16) hm hstore id
    rw [Bool.not_false, Bool.or_true]
    exact ⟨o, _, hread.trans (hwrite.trans (m := 1) (.prim (ps := []) rfl (.refl _ _ 0)))⟩

/-- R320, R322: the state after the loop has serviced the causes of one status. -/
def State.irqServiced (s : State) : State :=
  { s.irqAcked with
    device := { s.device.acked with
      latches := s.device.acked.latches |||
        (if completion (csr0Value s.params s.device) then 0#16 else csr0IENA) },
    ienaShadow := !completion (csr0Value s.params s.device) }

/-- R320 to R322: with INTR = 1 the loop makes one iteration, as the device raises no cause meanwhile. -/
theorem path_irq_serviced (hm : s.answeredBy S) (hmask : AckMaskOk s.params) (hstatus : s.device.statusOk)
    (hintr : intrPending s.params s.device = true) : ∃ (o : Oracle) (es : List Event),
    Path a i (csrRead .bound 0#16 (.status false false)) s (releaseReturn .ok 0#16)
      { s.irqServiced with oracle := o, history := es } 10 := by
  obtain ⟨o, es, hack⟩ := path_irq_ack (a := a) (i := i) hm hmask hstatus hintr
  obtain ⟨o', es', hend⟩ := path_irq_end (a := a) (i := i) (s := { s.irqAcked with oracle := o, history := es }) hm
    (intrPending_acked s.params { s.device with rap := 0#16 } s.device.latches)
    (completion (csr0Value s.params s.device))
  exact ⟨o', es', hack.trans hend⟩

/-- R320. -/
theorem irqBody_of_running (h : s.lifecycle = .running) :
    irqBody s = (s, csrRead .bound 0#16 (.status false false)) := by
  rw [irqBody, if_neg (not_not_intro h)]

/-- R320: IRQ alone in RUNNING; `u` is the state its loop comes to. -/
theorem exec_irq_running {u : State} {n : Nat} (hready : s.ready .irq) (hrunning : s.lifecycle = .running)
    (hpath : Path .irq .irq (csrRead .bound 0#16 (.status false false)) (s.lockedBy .irq .irq) (releaseReturn .ok 0#16)
      u n) (hn : n + 3 ≤ 2 ^ 20) :
    exec .irq s = .next ({ u with lockOwner := s.lockOwner }.giveReply .irq .irq ⟨.ok, 0#16⟩) :=
  runCommand_returns hready rfl rfl rfl
    (by rw [afterAcquire, irqBody_of_running (s := s.lockedBy .irq .irq) hrunning]; exact hpath) hn

/-- Settles O42: with INTR = 0 the first read ends the command; with INTR = 1 the acknowledgement clears the causes and
the second read ends it. -/
theorem irqServices : Obligations.IrqServices := by
  intro s S hready hm hrunning hstatus hcauses hiena
  have hmask : AckMaskOk (s.lockedBy .irq .irq).params := ⟨hcauses, hiena⟩
  dsimp only
  rw [csr0Value_intr]
  cases hintr : intrPending s.params s.device with
  | false =>
    obtain ⟨o, es, hpath⟩ := path_irq_spurious (s := s.lockedBy .irq .irq) hm hintr
    refine ⟨_, exec_irq_running hready hrunning hpath (by decide), ?_, fun _ => rfl, rfl⟩
    apply State.ext
    case taskPending => exact (Bool.or_false _).symm
    all_goals rfl
  | true =>
    obtain ⟨o, es, hpath⟩ := path_irq_serviced (s := s.lockedBy .irq .irq) hm hmask hstatus hintr
    have hcompletion := completion_csr0Value s.params s.device
    have hcounters := countCauses_csr0Value s.params s.params s.device s.counters
    refine ⟨_, exec_irq_running hready hrunning hpath (by decide), ?_, fun _ => rfl, ?_⟩
    · apply State.ext
      case ienaShadow => exact congrArg (!·) hcompletion
      case taskPending => exact congrArg (s.taskPending || ·) hcompletion
      case counters => exact hcounters
      all_goals rfl
    · rw [← hcompletion]
      rfl

end Sys2Proof.Machine
end

section
/-! SUPPORT. CSR0 under writes and resets (48_device_agent.md R350, R351, R359), the quiescent states (R368), and which
cause a device step may latch (R352, R365 to R367). -/

namespace Sys2Proof.Machine

/-! ### A CSR0 write -/

/-- R350: `dev_state` after a CSR0 write without STOP. -/
def Device.stateWritten (d : Device) (v : Half) : DevState :=
  if v.getLsbD 0 = true ∧ d.state = .stopped then .initialising
  else if v.getLsbD 1 = true ∧ d.state = .initialised then .running else d.state

/-- R350: the start bit a CSR0 write without STOP latches, INIT or STRT. -/
def Device.startBit (d : Device) (v : Half) : Half :=
  if v.getLsbD 0 = true ∧ d.state = .stopped then csr0INIT
  else if v.getLsbD 1 = true ∧ d.state = .initialised then csr0STRT else 0#16

/-- R350: a CSR0 write without STOP changes `dev_state` and the latches only. -/
theorem csr0Write_of_noStop (d : Device) {v : Half} (h : v.getLsbD 2 = false) : csr0Write d v =
    { d with
      state := d.stateWritten v,
      latches := csr0ClearAndEnable d.latches v ||| csr0Demand d.state v ||| d.startBit v } := by
  have hstop : bitSet v csr0STOP = v.getLsbD 2 := bitSet_twoPow v 2 (by decide)
  have hinit : bitSet v csr0INIT = v.getLsbD 0 := bitSet_twoPow v 0 (by decide)
  have hstrt : bitSet v csr0STRT = v.getLsbD 1 := bitSet_twoPow v 1 (by decide)
  rw [csr0Write, hstop, hinit, hstrt, h, Device.stateWritten, Device.startBit]
  simp only [Bool.false_eq_true, if_false]
  split
  · rfl
  · split
    · rfl
    · rw [BitVec.or_zero]

/-- R351. -/
theorem csr0Write_of_stop (d : Device) {v : Half} (h : v.getLsbD 2 = true) :
    csr0Write d v = { d with state := .stopped, latches := 0#16 } := by
  have hstop : bitSet v csr0STOP = v.getLsbD 2 := bitSet_twoPow v 2 (by decide)
  rw [csr0Write, hstop, h]
  rfl

theorem startBit_bit (d : Device) (v : Half) (i : Nat) : (d.startBit v).getLsbD i =
    (decide (i = 0) && (v.getLsbD 0 && decide (d.state = .stopped)) ||
      decide (i = 1) && (v.getLsbD 1 && decide (d.state = .initialised))) := by
  have hinit : csr0INIT.getLsbD i = decide (i = 0) := getLsbD_eq_decide (· = 0) (by decide) (by omega) i
  have hstrt : csr0STRT.getLsbD i = decide (i = 1) := getLsbD_eq_decide (· = 1) (by decide) (by omega) i
  unfold Device.startBit
  split
  · next hboth =>
    obtain ⟨hv, hstate⟩ := hboth
    simp [hinit, hv, hstate]
  · next hno =>
    have hoff : (v.getLsbD 0 && decide (d.state = .stopped)) = false := by simpa using hno
    rw [hoff, Bool.and_false, Bool.false_or]
    split
    · next hboth =>
      obtain ⟨hv, hstate⟩ := hboth
      simp [hstrt, hv, hstate]
    · next hno =>
      have hoff : (v.getLsbD 1 && decide (d.state = .initialised)) = false := by simpa using hno
      rw [hoff, Bool.and_false, BitVec.getLsbD_zero]

/-- R350: every latch after a CSR0 write without STOP. -/
theorem csr0Write_bit (d : Device) {v : Half} (h : v.getLsbD 2 = false) (i : Nat) :
    (csr0Write d v).latches.getLsbD i =
      ((if i = 6 then v.getLsbD 6 else d.latches.getLsbD i && !(v.getLsbD i && decide (8 ≤ i ∧ i ≤ 14))) ||
        decide (i = 3) && v.getLsbD 3 && decide (d.state = .running) ||
        (decide (i = 0) && (v.getLsbD 0 && decide (d.state = .stopped)) ||
          decide (i = 1) && (v.getLsbD 1 && decide (d.state = .initialised)))) := by
  rw [csr0Write_of_noStop d h, BitVec.getLsbD_or, BitVec.getLsbD_or, csr0ClearAndEnable_bit, csr0Demand_bit,
    startBit_bit]

/-- R350: a cause after a CSR0 write without STOP. -/
theorem csr0Write_cause (d : Device) {v : Half} (h : v.getLsbD 2 = false) {b : Nat} (hlow : 8 ≤ b) (hhigh : b ≤ 14) :
    (csr0Write d v).latches.getLsbD b = (d.latches.getLsbD b && !v.getLsbD b) := by
  have h6 : b ≠ 6 := by omega
  have h3 : b ≠ 3 := by omega
  have h1 : b ≠ 1 := by omega
  have h0 : b ≠ 0 := by omega
  rw [csr0Write_bit d h]
  simp [h6, h3, h1, h0, hlow, hhigh]

/-- Settles O11: the bits one by one, from the equation of a latch; `dev_state` and the frame from that of the write. -/
theorem csr0WriteEffect : Obligations.Csr0WriteEffect := by
  intro d v h
  refine ⟨fun b hlow hhigh => csr0Write_cause d h hlow hhigh, ?_, ?_, ?_, ?_, ?_, ?_, ?_⟩
  case refine_5 => rw [csr0Write_of_noStop d h, Device.stateWritten]
  case refine_6 =>
    intro b hb
    have hcause : ¬(8 ≤ b ∧ b ≤ 14) := by omega
    have h6 : b ≠ 6 := by omega
    have h3 : b ≠ 3 := by omega
    have h1 : b ≠ 1 := by omega
    have h0 : b ≠ 0 := by omega
    rw [csr0Write_bit d h]
    simp [hcause, h6, h3, h1, h0]
  case refine_7 => rw [csr0Write_of_noStop d h]
  all_goals
    rw [csr0Write_bit d h]
    simp

/-! ### The quiescent states and the reset -/

/-- Settles O47: a step whose condition on `dev_state` does not hold leaves the state as it is. -/
theorem quiescentDevice : Obligations.QuiescentDevice := by
  have hother : ∀ (s : State) (m : DeviceStep), s.device.state ≠ .running → m ≠ .init → deviceStep m s = .ok s := by
    intro s m hrun hm
    cases m with
    | init => exact absurd rfl hm
    | txPoll status any cerr => exact if_neg hrun
    | receive frame fcs errs x y os => exact if_neg fun h => hrun h.1
    | cerr | babl | merr => exact if_neg hrun
  intro s m
  constructor
  · intro hquiet
    by_cases hm : m = .init
    · subst hm
      exact if_neg (by rcases hquiet with h | h <;> simp [h])
    · exact hother s m (by rcases hquiet with h | h <;> simp [h]) hm
  · exact fun h => hother s m (by simp [h])

/-- Settles O12: the write leaves the device stopped with no latch, where CSR0 reads STOP alone and no step is taken. -/
theorem stopHasPriority : Obligations.StopHasPriority := by
  intro d v h
  have hwrite := csr0Write_of_stop d h
  refine ⟨hwrite, fun p => ?_, fun s m hs => (quiescentDevice s m).1 (.inl ?_)⟩
  · rw [hwrite]
    exact csr0Value_stopped p rfl rfl
  · rw [hs, hwrite]

/-- Settles O9: the device after a reset, on the mode it answers. -/
theorem resetPortResets : Obligations.ResetPortResets := by
  intro s S h
  obtain ⟨w, o, d, hreset⟩ := readReset_answered h
  dsimp only
  rw [hreset]
  exact ⟨rfl, rfl, csr0Value_stopped _ rfl rfl, o, w, rfl⟩

/-! ### The causes a device step latches -/

/-- R362, R365: the causes of a completed TX slot. -/
def txCauses (cerr : Bool) : Half := csr0TINT ||| (if cerr then csr0CERR else 0#16)

/-- R363, R364: the cause of a received frame, or of a missed one. -/
def rxCauses (own : Bool) : Half := if own then csr0RINT else csr0MISS

/-- R360 to R366: the causes a device step latches. -/
def State.causesOf (s : State) : DeviceStep → Half
  | .init => if s.device.state = .initialising then csr0IDON else 0#16
  | .txPoll _ _ cerr =>
    if s.device.state = .running ∧ owned (s.wordAt (devTxAddr s 1)) = true then txCauses cerr else 0#16
  | .receive frame _ _ _ _ _ =>
    if s.device.state = .running ∧ 1 ≤ frame.length then rxCauses (owned (s.wordAt (devRxAddr s 1))) else 0#16
  | .cerr => if s.device.state = .running then csr0CERR else 0#16
  | .babl => if s.device.state = .running then csr0BABL else 0#16
  | .merr => if s.device.state = .running then csr0MERR else 0#16

section Latches

variable {s t : State}

theorem devInit_latches (h : devInit s = .ok t) : t.device.latches = s.device.latches ||| s.causesOf .init := by
  unfold devInit at h
  split at h
  · obtain ⟨_, -, h⟩ := bind_ok_cases h
    cases h
    rw [State.causesOf, if_pos ‹_›]
    rfl
  · cases h
    rw [State.causesOf, if_neg ‹_›, BitVec.or_zero]

theorem txComplete_latches {w1 status any : Word} {cerr : Bool} (h : txComplete w1 status any cerr s = .ok t) :
    t.device.latches = s.device.latches ||| txCauses cerr := by
  obtain ⟨_, -, h⟩ := bind_ok_cases h
  cases h
  exact BitVec.or_assoc ..

theorem txSlot_latches {status any : Word} {cerr : Bool} (h : txSlot status any cerr s = .ok t) :
    t.device.latches = s.device.latches ||| (if owned (s.wordAt (devTxAddr s 1)) then txCauses cerr else 0#16) := by
  obtain ⟨_, -, h⟩ := bind_ok_cases h
  simp only at h
  cases hown : owned (s.wordAt (devTxAddr s 1)) with
  | false =>
    rw [hown] at h
    cases h
    exact (BitVec.or_zero ..).symm
  | true =>
    rw [hown, if_neg (by decide)] at h
    split at h
    · cases h
    · obtain ⟨_, -, h⟩ := bind_ok_cases h
      exact (txComplete_latches h :)

/-- R361: a poll clears TDMD, which is no cause. -/
theorem devTxPoll_latches {status any : Word} {cerr : Bool} (h : devTxPoll status any cerr s = .ok t) :
    t.device.latches = s.device.latches ||| s.causesOf (.txPoll status any cerr) ∨
    t.device.latches = s.device.latches &&& ~~~csr0TDMD ||| s.causesOf (.txPoll status any cerr) := by
  unfold devTxPoll at h
  split at h
  · right
    have hrun : s.device.state = .running := ‹_›
    simp only [State.causesOf, hrun, true_and]
    exact txSlot_latches h
  · cases h
    left
    rw [State.causesOf, if_neg fun hrun => absurd hrun.1 ‹_›, BitVec.or_zero]

theorem rxStore_latches {off : Nat} {bs : List Byte} {w1 w2 : Word} (h : rxStore off bs w1 w2 s = .ok t) :
    t.device.latches = s.device.latches ||| csr0RINT := by
  obtain ⟨_, -, h⟩ := bind_ok_cases h
  obtain ⟨_, -, h⟩ := bind_ok_cases h
  cases h
  rfl

/-- R373: further slots latch RINT, which the first one has latched. -/
theorem oversizeMore_latches : ∀ {os : List OversizeSlot} {s : State}, oversizeMore os s = .ok t →
    s.device.latches ||| csr0RINT = s.device.latches → t.device.latches = s.device.latches
  | [], _, h, _ => by
    cases h
    rfl
  | o :: os, s, h, hrint => by
    obtain ⟨_, -, h⟩ := bind_ok_cases h
    simp only at h
    split at h
    · obtain ⟨u, hu, h⟩ := bind_ok_cases h
      have hstored : u.device.latches = s.device.latches := (rxStore_latches hu).trans hrint
      rw [oversizeMore_latches h (by rw [hstored, hrint]), hstored]
    · cases h
      rfl

theorem rxOversize_latches {w1 : Word} {os : List OversizeSlot} (h : rxOversize w1 os s = .ok t) :
    t.device.latches = s.device.latches ||| csr0RINT := by
  obtain ⟨u, hu, h⟩ := bind_ok_cases h
  have hstored := rxStore_latches hu
  rw [oversizeMore_latches h (by rw [hstored, BitVec.or_assoc, BitVec.or_self]), hstored]

theorem rxFrame_latches {frame : List Byte} {fcs errs x y w1 : Word} {os : List OversizeSlot}
    (h : rxFrame frame fcs errs x y os w1 s = .ok t) :
    t.device.latches = s.device.latches ||| rxCauses (owned w1) := by
  unfold rxFrame at h
  cases hown : owned w1 with
  | false =>
    rw [hown] at h
    cases h
    rfl
  | true =>
    rw [hown] at h
    obtain ⟨u, hu, h⟩ := bind_ok_cases h
    cases h
    split at hu
    · exact (rxStore_latches hu :)
    · exact (rxOversize_latches hu :)

theorem devReceive_latches {frame : List Byte} {fcs errs x y : Word} {os : List OversizeSlot}
    (h : devReceive frame fcs errs x y os s = .ok t) :
    t.device.latches = s.device.latches ||| s.causesOf (.receive frame fcs errs x y os) := by
  unfold devReceive at h
  split at h
  · obtain ⟨_, -, h⟩ := bind_ok_cases h
    rw [State.causesOf, if_pos ‹_›]
    exact (rxFrame_latches h :)
  · cases h
    rw [State.causesOf, if_neg ‹_›, BitVec.or_zero]

theorem devCause_latches {b : Half} (h : devCause b s = .ok t) :
    t.device.latches = s.device.latches ||| (if s.device.state = .running then b else 0#16) := by
  unfold devCause at h
  split at h <;> cases h
  · rw [if_pos ‹_›]
    rfl
  · rw [if_neg ‹_›, BitVec.or_zero]

/-- R352: a device step clears no latch but TDMD, and latches the causes of `State.causesOf`. -/
theorem deviceStep_latch {m : DeviceStep} (h : deviceStep m s = .ok t) {b : Nat} (hb : b ≠ 3) :
    t.device.latches.getLsbD b = (s.device.latches.getLsbD b || (s.causesOf m).getLsbD b) := by
  have hor : t.device.latches = s.device.latches ||| s.causesOf m →
      t.device.latches.getLsbD b = (s.device.latches.getLsbD b || (s.causesOf m).getLsbD b) := by
    intro hl
    rw [hl, BitVec.getLsbD_or]
  cases m with
  | init => exact hor (devInit_latches h)
  | txPoll status any cerr =>
    rcases devTxPoll_latches h with hl | hl
    · exact hor hl
    · have htdmd : csr0TDMD.getLsbD b = decide (b = 3) := getLsbD_eq_decide (· = 3) (by decide) (by omega) b
      have hkept : (s.device.latches &&& ~~~csr0TDMD).getLsbD b = s.device.latches.getLsbD b := by
        rw [BitVec.getLsbD_and, BitVec.getLsbD_not, htdmd, decide_eq_false hb]
        cases hset : s.device.latches.getLsbD b with
        | false => rfl
        | true => simp [BitVec.lt_of_getLsbD hset]
      rw [hl, BitVec.getLsbD_or, hkept]
  | receive frame fcs errs x y os => exact hor (devReceive_latches h)
  | cerr | babl | merr => exact hor (devCause_latches h)

/-- R367: the handshake latches IDON, a poll of an owned slot TINT, a reception into an owned slot RINT; every other
cause a step latches stands above them. -/
theorem causesOf_cases {m : DeviceStep} {b : Nat} (h : (s.causesOf m).getLsbD b = true) :
    (b = 8 ∧ m = .init ∧ s.device.state = .initialising) ∨
    (b = 9 ∧ (∃ status any cerr, m = .txPoll status any cerr) ∧ s.device.state = .running ∧
      owned (s.wordAt (devTxAddr s 1)) = true) ∨
    (b = 10 ∧ (∃ frame fcs errs x y os, m = .receive frame fcs errs x y os) ∧ s.device.state = .running ∧
      owned (s.wordAt (devRxAddr s 1)) = true) ∨ 11 ≤ b := by
  have hif : ∀ {c : Prop} [Decidable c] {w : Half}, (if c then w else 0#16).getLsbD b = true →
      c ∧ w.getLsbD b = true := by
    intro c _ w hw
    split at hw
    · exact ⟨‹c›, hw⟩
    · simp at hw
  have hbit : ∀ {k : Nat}, (BitVec.twoPow 16 k).getLsbD b = true → b = k := fun hk => by
    simp only [BitVec.getLsbD_twoPow, Bool.and_eq_true, decide_eq_true_eq] at hk
    exact hk.2.symm
  have herror : ∀ {k : Nat}, 11 ≤ k → (BitVec.twoPow 16 k).getLsbD b = true → 11 ≤ b := fun hk hset => hbit hset ▸ hk
  cases m with
  | init =>
    obtain ⟨hstate, hset⟩ := hif h
    exact .inl ⟨hbit (k := 8) hset, rfl, hstate⟩
  | txPoll status any cerr =>
    obtain ⟨⟨hrun, hown⟩, hset⟩ := hif h
    rw [txCauses, BitVec.getLsbD_or, Bool.or_eq_true] at hset
    rcases hset with hset | hset
    · exact .inr (.inl ⟨hbit (k := 9) hset, ⟨_, _, _, rfl⟩, hrun, hown⟩)
    · exact .inr (.inr (.inr (herror (k := 13) (by decide) (hif hset).2)))
  | receive frame fcs errs x y os =>
    obtain ⟨⟨hrun, -⟩, hset⟩ := hif h
    cases hown : owned (s.wordAt (devRxAddr s 1)) with
    | true =>
      rw [hown] at hset
      exact .inr (.inr (.inl ⟨hbit (k := 10) hset, ⟨_, _, _, _, _, _, rfl⟩, hrun, rfl⟩))
    | false =>
      rw [hown] at hset
      exact .inr (.inr (.inr (herror (k := 12) (by decide) hset)))
  | cerr => exact .inr (.inr (.inr (herror (k := 13) (by decide) (hif h).2)))
  | babl => exact .inr (.inr (.inr (herror (k := 14) (by decide) (hif h).2)))
  | merr => exact .inr (.inr (.inr (herror (k := 11) (by decide) (hif h).2)))

/-- R361: a poll of a slot the host owns reads its `w1` and does nothing else. -/
theorem txSlot_of_hostOwned {status any : Word} {cerr : Bool} (haligned : devTxAddr s 1 % 4 = 0)
    (hspace : devTxAddr s 1 + 4 ≤ memTop) (hown : owned (s.wordAt (devTxAddr s 1)) = false) :
    txSlot status any cerr s = .ok (s.noteRead .device (devTxAddr s 1) 4) := by
  rw [txSlot, checkWord_ok haligned hspace]
  simp only [Res.bind, hown, Bool.not_false, if_true]

end Latches

/-- Settles O59: the steps of RUNNING evaluate; a latch that becomes set is a cause of the step. -/
theorem deviceOtherSteps : Obligations.DeviceOtherSteps := by
  intro s
  refine ⟨fun hrun => ⟨if_pos hrun, if_pos hrun, if_pos hrun, fun status any cerr hcursor hplaced hown => ?_⟩,
    fun m t h => ?_⟩
  · obtain ⟨haligned, hspace⟩ := slot_placed (w := 1) hplaced hcursor (by decide)
    exact (if_pos hrun).trans (txSlot_of_hostOwned (s := demandCleared s) haligned hspace hown)
  · have hnew : ∀ {b : Nat}, b ≠ 3 → t.device.latches.getLsbD b = true ∧ s.device.latches.getLsbD b = false →
        (s.causesOf m).getLsbD b = true := by
      rintro b hb ⟨hset, hclear⟩
      simpa [deviceStep_latch h hb, hclear] using hset
    refine ⟨fun hs => ?_, fun hs => ?_, fun hs => ?_⟩
    all_goals
      have hcases := causesOf_cases (hnew (by decide) hs)
      simpa [devTxAddr, devRxAddr] using hcases

/-! ### What clears a cause -/

/-- R172, R350, R356, R358: a write of a data port that goes through, and is no CSR0 write, leaves the latches alone. -/
theorem writeData_latches {s t : State} {S : Strategy} {file : RegFile} {x : Half}
    (hother : answers s.params S = false ∨ file = .bcr ∨ s.device.rap ≠ 0#16) (h : writeData S file x s = .ok t) :
    t.device.latches = s.device.latches := by
  cases hans : answers s.params S with
  | false =>
    rw [writeData_unanswered hans] at h
    cases h
    rfl
  | true =>
    cases file with
    | bcr =>
      rw [writeData_unmodelled hans (.inl rfl)] at h
      cases h
    | csr =>
      have hrap : s.device.rap ≠ 0#16 := (hother.resolve_left (by simp [hans])).resolve_left nofun
      cases hstore : csrStore s.device x with
      | none =>
        rw [writeData_unmodelled hans (.inr hstore)] at h
        cases h
      | some d =>
        rw [writeData_answered hans hstore] at h
        cases h
        rw [csrStore, if_neg hrap] at hstore
        split at hstore
        · cases hstore
          rfl
        · split at hstore <;> cases hstore
          rfl

theorem writeRap_latches (S : Strategy) (i : Half) (s : State) :
    (writeRap S i s).device.latches = s.device.latches := by
  cases hans : answers s.params S with
  | false => rw [writeRap_unanswered hans, record_device]
  | true => rw [writeRap_answered hans]

theorem readData_device (S : Strategy) (file : RegFile) (s : State) : (readData S file s).2.device = s.device := by
  obtain ⟨w, o, hread⟩ := readData_effect S file s
  rw [hread]

/-- Settles O52: device steps only add causes, the other accesses leave the latches or the device alone, and a CSR0
write and a reset do what R350, R351 and R359 say. -/
theorem causesStayLatched : Obligations.CausesStayLatched := by
  intro s b hlow hhigh hset
  refine ⟨fun m t h => ?_, fun S file => readData_device S file s, fun S i => ?_, fun S file x t hother h => ?_,
    fun S x hans hrap => ?_, fun S hans => ?_, fun v hv => ?_, fun v hv => ?_, fun S hans => ?_⟩
  · rw [deviceStep_latch h (by omega), hset, Bool.true_or]
  · rw [writeRap_latches, hset]
  · rw [writeData_latches hother h, hset]
  · exact ⟨_, writeData_answered hans (if_pos hrap), rfl⟩
  · obtain ⟨o, es, hreset⟩ := readReset_unanswered hans
    rw [hreset]
  · rw [csr0Write_cause _ hv hlow hhigh, hset, Bool.true_and]
  · rw [csr0Write_of_stop _ hv, BitVec.getLsbD_zero]
  · obtain ⟨-, hlatches, -⟩ := resetPortResets s S hans
    rw [hlatches, BitVec.getLsbD_zero]

end Sys2Proof.Machine
end

section
/-! SUPPORT. The slot the device completes: transmit (48_device_agent.md R361, R362), the reception of a frame that fits
(R363), and a missed frame (R364). -/

namespace Sys2Proof.Machine

/-! ### The two words of a completed slot -/

/-- R362, R363: the device writes word 2 and then word 1 of slot `k`. -/
def State.slotDone (s : State) (base : Word) (k : Nat) (w1 w2 : Word) : State :=
  (s.devWrite (slotAddr base k 2) (wordBytes w2)).devWrite (slotAddr base k 1) (wordBytes w1)

section SlotDone

variable {s : State} {base : Word} {k : Nat} {w1 w2 : Word}

theorem slotDone_frame : s.slotDone base k w1 w2 =
    { s with memory := (s.slotDone base k w1 w2).memory, history := (s.slotDone base k w1 w2).history } := by
  apply State.ext <;> simp [State.slotDone]

theorem slotDone_word1 : (s.slotDone base k w1 w2).wordAt (slotAddr base k 1) = w1 := memWrite_word

theorem slotDone_word2 : (s.slotDone base k w1 w2).wordAt (slotAddr base k 2) = w2 :=
  (memWrite_word_other (slotAddr_apart (by decide) (by decide) (by omega))).trans memWrite_word

theorem slotDone_outside {x : Nat} (hx : x < slotAddr base k 1 ∨ slotAddr base k 1 + 8 ≤ x) :
    (s.slotDone base k w1 w2).byteAt x = s.byteAt x := by
  unfold slotAddr at hx
  rw [State.slotDone, devWrite_eq, devWrite_eq, memWrite_other (by unfold slotAddr; omega),
    memWrite_other (by unfold slotAddr; omega)]

end SlotDone

@[simp] theorem withDevice_byteAt (s : State) (d : Device) (x : Nat) : (s.withDevice d).byteAt x = s.byteAt x := rfl

@[simp] theorem withDevice_wordAt (s : State) (d : Device) (x : Nat) : (s.withDevice d).wordAt x = s.wordAt x := rfl

/-- A mask of all 16 bits, as `simp` writes it. -/
theorem and_ffff (v : Half) : v &&& 65535#16 = v := BitVec.and_allOnes

/-- R124: OWN is bit 31. -/
theorem owned_bit (w : Word) : owned w = w.getLsbD 31 := hasBits_twoPow w 31 (by decide)

/-! ### Transmit -/

/-- R104, R362: the error flags of a TX status. -/
theorem hasBits_txErrBits (w : Word) : hasBits w txErrBits =
    (w.getLsbD 31 || w.getLsbD 30 || w.getLsbD 28 || w.getLsbD 27 || w.getLsbD 26) := by
  have hmask : txErrBits = BitVec.twoPow 32 31 ||| BitVec.twoPow 32 30 ||| BitVec.twoPow 32 28 |||
      BitVec.twoPow 32 27 ||| BitVec.twoPow 32 26 := by decide
  rw [hmask]
  simp only [hasBits_or, hasBits_twoPow w 31 (by decide), hasBits_twoPow w 30 (by decide),
    hasBits_twoPow w 28 (by decide), hasBits_twoPow w 27 (by decide), hasBits_twoPow w 26 (by decide)]

/-- R362: the completed `w1`: OWN, ERR_D and the byte count. -/
theorem txDoneW1_bits (w1 status any : Word) :
    owned (txDoneW1 w1 status any) = false ∧
    (txDoneW1 w1 status any).getLsbD 30 = hasBits status txErrBits ∧
    (txDoneW1 w1 status any).extractLsb' 0 16 = w1.extractLsb' 0 16 := by
  unfold txDoneW1
  cases hasBits status txErrBits with
  | true => simp [owned_bit, dERR, BitVec.extractLsb'_or, BitVec.extractLsb'_and, and_ffff]
  | false => simp [owned_bit, BitVec.extractLsb'_or, BitVec.extractLsb'_and, and_ffff]

/-- R361, R362: the TX poll of a whole frame in a slot the device owns. -/
theorem devTxPoll_completes {s : State} (status any : Word) (cerr : Bool) (hrun : s.device.state = .running)
    (hcursor : s.device.devTx < s.device.cfg.txN) (hplaced : ringPlaced s.device.cfg.txBase s.device.cfg.txExp.toNat)
    (hown : owned (s.wordAt (devTxAddr s 1)) = true) (hstp : hasBits (s.wordAt (devTxAddr s 1)) dSTP = true)
    (henp : hasBits (s.wordAt (devTxAddr s 1)) dENP = true)
    (hspace : (s.wordAt (devTxAddr s 0)).toNat + bcntLen (s.wordAt (devTxAddr s 1)) ≤ memTop)
    (hsplit : s.splits (s.wordAt (devTxAddr s 0)).toNat (bcntLen (s.wordAt (devTxAddr s 1))) = false) :
    ∃ t : State, devTxPoll status any cerr s = .ok t ∧
      t = { s with
        device := (demandCleared s).device.transmitted cerr, memory := t.memory, history := t.history } ∧
      .wireTx (s.bytesAt (s.wordAt (devTxAddr s 0)).toNat (bcntLen (s.wordAt (devTxAddr s 1)))) ∈ t.history ∧
      t.wordAt (devTxAddr s 1) = txDoneW1 (s.wordAt (devTxAddr s 1)) status any ∧
      t.wordAt (devTxAddr s 2) = status ∧ s.sameBytesOutside t [(devTxAddr s 1, 8)] := by
  obtain ⟨al1, in1⟩ := slot_placed (w := 1) hplaced hcursor (by decide)
  obtain ⟨al2, in2⟩ := slot_placed (w := 2) hplaced hcursor (by decide)
  obtain ⟨u, -, hmem, hframe, hhead, hslot⟩ := tx_slot (demandCleared s) (s.wordAt (devTxAddr s 1)) status any cerr _ _
    rfl rfl rfl al1 in1 al2 in2 hown hstp henp hspace hsplit
  obtain ⟨v, hv⟩ : ∃ v, v = u.slotDone s.device.cfg.txBase s.device.devTx
      (txDoneW1 (s.wordAt (devTxAddr s 1)) status any) status := ⟨_, rfl⟩
  have hrest : v = { u with memory := v.memory, history := v.history } := by
    rw [hv]
    exact slotDone_frame
  have hhist : ∃ e1 e2, v.history = e1 :: e2 :: u.history := by
    rw [hv]
    exact ⟨_, _, rfl⟩
  obtain ⟨e1, e2, hhist⟩ := hhist
  refine ⟨v.withDevice ((demandCleared s).device.transmitted cerr), ?_, ?_, ?_, ?_, ?_, fun x hx => ?_⟩
  · rw [hv, devTxPoll, if_pos hrun, hslot]
    rfl
  · rw [hrest, hframe]
    rfl
  · rw [withDevice_history, hhist]
    exact List.mem_cons_of_mem _ (List.mem_cons_of_mem _ (List.mem_of_mem_head? hhead))
  · rw [withDevice_wordAt, hv]
    exact slotDone_word1
  · rw [withDevice_wordAt, hv]
    exact slotDone_word2
  · rw [withDevice_byteAt, hv, slotDone_outside (hx (devTxAddr s 1, 8) (List.mem_singleton.mpr rfl))]
    exact byteAt_congr hmem x

/-- Settles O49: the state after the poll, the words of its slot, and the bytes outside them. -/
theorem deviceTransmits : Obligations.DeviceTransmits := by
  intro s status any cerr hrun c n a1 w1 b len hcursor hplaced hown hstp henp hspace hsplit
  obtain ⟨t, hpoll, hframe, hwire, hword1, hword2, hout⟩ := devTxPoll_completes status any cerr hrun hcursor hplaced
    hown ((hasBits_dSTP w1).trans hstp) ((hasBits_dENP w1).trans henp) hspace hsplit
  obtain ⟨hdone, herr, hcount⟩ := txDoneW1_bits w1 status any
  rw [hasBits_txErrBits] at herr
  have hw1 : t.wordAt a1 = txDoneW1 w1 status any := hword1
  rw [← hw1] at hdone herr hcount
  exact ⟨t, hpoll, hframe, hwire, hword2, hdone, herr, hcount, hout⟩

/-! ### Receive -/

/-- R363: the receive error bits. -/
theorem hasBits_rxErrBits (w : Word) : hasBits w rxErrBits =
    (w.getLsbD 29 || w.getLsbD 28 || w.getLsbD 27 || w.getLsbD 26) := by
  have hmask : rxErrBits =
      BitVec.twoPow 32 29 ||| BitVec.twoPow 32 28 ||| BitVec.twoPow 32 27 ||| BitVec.twoPow 32 26 := by decide
  rw [hmask]
  simp only [hasBits_or, hasBits_twoPow w 29 (by decide), hasBits_twoPow w 28 (by decide),
    hasBits_twoPow w 27 (by decide), hasBits_twoPow w 26 (by decide)]

/-- R363: the completed `w1`: OWN, STP, ENP, the byte count and ERR_D. -/
theorem rxDoneW1_bits (w1 errs y : Word) :
    owned (rxDoneW1 w1 errs y) = false ∧ (rxDoneW1 w1 errs y).getLsbD 25 = true ∧
    (rxDoneW1 w1 errs y).getLsbD 24 = true ∧ (rxDoneW1 w1 errs y).extractLsb' 0 16 = w1.extractLsb' 0 16 ∧
    (rxDoneW1 w1 errs y).getLsbD 30 = hasBits errs rxErrBits := by
  unfold rxDoneW1
  cases hasBits errs rxErrBits with
  | true => simp [owned_bit, dERR, dSTP, dENP, rxErrBits, BitVec.extractLsb'_or, BitVec.extractLsb'_and, and_ffff]
  | false => simp [owned_bit, dSTP, dENP, rxErrBits, BitVec.extractLsb'_or, BitVec.extractLsb'_and, and_ffff]

/-- R363: the chosen error bits of the completed `w1`. -/
theorem rxDoneW1_errs (w1 errs y : Word) {e : Nat} (hlow : 26 ≤ e) (hhigh : e ≤ 29) :
    (rxDoneW1 w1 errs y).getLsbD e = errs.getLsbD e := by
  unfold rxDoneW1
  cases hasBits errs rxErrBits with
  | true => interval_cases e <;> simp [dERR, dSTP, dENP, rxErrBits]
  | false => interval_cases e <;> simp [dSTP, dENP, rxErrBits]

/-- R363: the completed `w2` holds MCNT. -/
theorem rxDoneW2_mcnt (n : Nat) (x : Word) : (rxDoneW2 n x).extractLsb' 0 12 = BitVec.ofNat 12 n := by
  have hmask : (0x00000FFF#32).extractLsb' 0 12 = BitVec.allOnes 12 ∧ (0xFFFFF000#32).extractLsb' 0 12 = 0#12 := by
    decide
  obtain ⟨hlow, hhigh⟩ := hmask
  rw [rxDoneW2, BitVec.extractLsb'_or, BitVec.extractLsb'_and, BitVec.extractLsb'_and, hlow, hhigh, BitVec.and_allOnes,
    BitVec.and_zero, BitVec.or_zero, ← BitVec.setWidth_eq_extractLsb' (by decide)]
  exact BitVec.setWidth_ofNat_of_le (by decide) n

/-- A store is read back as a whole. -/
theorem bytesAt_store (s : State) (a : Nat) (bs : List Byte) : (s.store a bs).bytesAt a bs.length = bs := by
  refine List.ext_getElem (by simp [State.bytesAt]) fun k _ hk => ?_
  simp [State.bytesAt, byteAt_store, hk]

/-- R363, R373: `t` is `s` after bytes of a frame are stored at `a` and the slot at `dev_rx` is completed. -/
structure RxStored (s t : State) (a : Nat) (bs : List Byte) (w1 w2 : Word) : Prop where
  frame : t = { s with device := s.device.received, memory := t.memory, history := t.history }
  word1 : t.wordAt (devRxAddr s 1) = w1
  word2 : t.wordAt (devRxAddr s 2) = w2
  byteAt : ∀ x, (x < devRxAddr s 1 ∨ devRxAddr s 1 + 8 ≤ x) → t.byteAt x = (s.store a bs).byteAt x

section RxStored

variable {s t : State} {a off : Nat} {bs : List Byte} {w1 w2 : Word}

/-- The frame and the two words are all that is stored. -/
theorem RxStored.outside (h : RxStored s t a bs w1 w2) : s.sameBytesOutside t [(a, bs.length), (devRxAddr s 1, 8)] := by
  intro x hx
  have hbuf : x < a ∨ a + bs.length ≤ x := hx (a, bs.length) (by simp)
  rw [h.byteAt x (hx (devRxAddr s 1, 8) (by simp)), byteAt_store, if_neg (by omega)]

/-- The frame is read back where it shares no byte with the two words. -/
theorem RxStored.bytesAt (h : RxStored s t a bs w1 w2)
    (hapart : a + bs.length ≤ devRxAddr s 1 ∨ devRxAddr s 1 + 8 ≤ a) : t.bytesAt a bs.length = bs := by
  calc t.bytesAt a bs.length = (s.store a bs).bytesAt a bs.length :=
        List.map_congr_left fun k hk => h.byteAt (a + k) (by have := List.mem_range.mp hk; omega)
    _ = bs := bytesAt_store s a bs

theorem devRxAddr_placed (hplaced : ringPlaced s.device.cfg.rxBase s.device.cfg.rxExp.toNat)
    (hcursor : s.device.devRx < s.device.cfg.rxN) {k : Nat} (hk : k < 4) :
    devRxAddr s k % 4 = 0 ∧ devRxAddr s k + 4 ≤ memTop :=
  slot_placed hplaced hcursor hk

/-- R363, R373: a slot is completed where the bytes fit into memory and split no descriptor word. -/
theorem rxStore_stores (haligned : devRxAddr s 2 % 4 = 0) (hplace : devRxAddr s 2 + 4 ≤ memTop)
    (hspace : (s.wordAt (devRxAddr s 0)).toNat + off + bs.length ≤ memTop)
    (hsplit : s.splits ((s.wordAt (devRxAddr s 0)).toNat + off) bs.length = false) :
    ∃ t : State, rxStore off bs w1 w2 s = .ok t ∧ RxStored s t ((s.wordAt (devRxAddr s 0)).toNat + off) bs w1 w2 := by
  obtain ⟨u, hdev, hmem, hu, hstore⟩ := rx_store s w1 w2 off bs _ rfl haligned hplace hspace hsplit
  obtain ⟨v, hv⟩ : ∃ v, v = (u.devWrite ((s.wordAt (devRxAddr s 0)).toNat + off) bs).slotDone s.device.cfg.rxBase
    s.device.devRx w1 w2 := ⟨_, rfl⟩
  refine ⟨v.withDevice s.device.received, ?_, ⟨?_, ?_, ?_, fun x hx => ?_⟩⟩
  · rw [hstore, hv, ← hdev]
    rfl
  · apply State.ext
    case device | memory | history => rfl
    all_goals
      rw [hv, hu]
      simp [State.slotDone]
  · rw [withDevice_wordAt, hv]
    exact slotDone_word1
  · rw [withDevice_wordAt, hv]
    exact slotDone_word2
  · rw [withDevice_byteAt, hv, slotDone_outside hx]
    exact byteAt_congr (by rw [devWrite_memory, hmem, store_memory]) x

end RxStored

section Reception

variable {s t : State} {frame : List Byte} {fcs errs x y w1 : Word} {os : List OversizeSlot}

/-- R363: a reception reads `w1` of the slot at `dev_rx` first. -/
theorem devReceive_reads (hrun : s.device.state = .running) (hframe : 1 ≤ frame.length)
    (hcursor : s.device.devRx < s.device.cfg.rxN)
    (hplaced : ringPlaced s.device.cfg.rxBase s.device.cfg.rxExp.toNat) :
    devReceive frame fcs errs x y os s =
      rxFrame frame fcs errs x y os (s.wordAt (devRxAddr s 1)) (s.noteRead .device (devRxAddr s 1) 4) := by
  obtain ⟨haligned, hplace⟩ := devRxAddr_placed hplaced hcursor (k := 1) (by decide)
  rw [devReceive, if_pos ⟨hrun, hframe⟩, checkWord_ok haligned hplace]
  rfl

/-- R364. -/
theorem rxFrame_missed (hown : owned w1 = false) :
    rxFrame frame fcs errs x y os w1 s = .ok (s.withDevice (s.device.latch csr0MISS)) := by
  rw [rxFrame, hown]
  rfl

/-- R363. -/
theorem rxFrame_fits (hown : owned w1 = true) (hfit : frame.length + 4 ≤ bcntLen w1)
    (hstore : rxStore 0 (frame ++ wordBytes fcs) (rxDoneW1 w1 errs y) (rxDoneW2 (frame.length + 4) x) s = .ok t) :
    rxFrame frame fcs errs x y os w1 s = .ok (t.record (.wireRx frame)) := by
  rw [rxFrame, hown, if_neg (by decide), if_pos hfit, hstore]
  rfl

/-- R373. -/
theorem rxFrame_oversize (hown : owned w1 = true) (hlong : bcntLen w1 < frame.length + 4)
    (hstore : rxOversize w1 os s = .ok t) :
    rxFrame frame fcs errs x y os w1 s = .ok (t.record (.wireRx frame)) := by
  rw [rxFrame, hown, if_neg (by decide), if_neg (Nat.not_le.mpr hlong), hstore]
  rfl

end Reception

/-- Settles O50: the state after the reception, the bytes of the buffer, the words of the slot, and the bytes outside
them; buffer and slot share no byte. -/
theorem deviceReceives : Obligations.DeviceReceives := by
  intro s frame fcs errs x y os hrun c n a1 w1 b hframe hfit hcursor hplaced hown hspace hsplit hapart
  have hlen : (frame ++ wordBytes fcs).length = frame.length + 4 := by rw [List.length_append, byteOf_length]
  obtain ⟨haligned, hplace⟩ := devRxAddr_placed hplaced hcursor (k := 2) (by decide)
  obtain ⟨t, hstore, ht⟩ := rxStore_stores (s := s.noteRead .device (devRxAddr s 1) 4) (off := 0)
    (bs := frame ++ wordBytes fcs) (w1 := rxDoneW1 w1 errs y) (w2 := rxDoneW2 (frame.length + 4) x) haligned hplace
    (by rw [hlen]; exact hspace) (by rw [hlen]; exact hsplit)
  have hbuffer : b + (frame ++ wordBytes fcs).length ≤ a1 ∨ a1 + 8 ≤ b := by
    have h := apart_of_disjoint hapart
    rw [hlen]
    simp only [a1, slotAddr] at h ⊢
    omega
  have hbytes := ht.bytesAt hbuffer
  have hout := ht.outside
  rw [hlen] at hbytes hout
  have hword1 : t.wordAt a1 = rxDoneW1 w1 errs y := ht.word1
  have hword2 : t.wordAt (slotAddr c.rxBase s.device.devRx 2) = rxDoneW2 (frame.length + 4) x := ht.word2
  obtain ⟨hdone, hstp, henp, hcount, herr⟩ := rxDoneW1_bits w1 errs y
  rw [hasBits_rxErrBits] at herr
  rw [← hword1] at hdone hstp henp hcount herr
  refine ⟨t.record (.wireRx frame), ?_, ?_, rfl, hbytes, ?_, hdone, hstp, henp, hcount, fun e hlow hhigh => ?_, herr,
    hout⟩
  · exact (devReceive_reads hrun hframe hcursor hplaced).trans (rxFrame_fits hown hfit hstore)
  · rw [ht.frame]
    rfl
  · rw [record_wordAt, hword2, rxDoneW2_mcnt]
  · rw [record_wordAt, hword1, rxDoneW1_errs w1 errs y hlow hhigh]

/-- Settles O51: the reception reads the slot's `w1` and latches MISS. -/
theorem deviceMisses : Obligations.DeviceMisses := by
  intro s frame fcs errs x y os hrun hframe hplaced hcursor hown
  exact ⟨_, (devReceive_reads hrun hframe hcursor hplaced).trans (rxFrame_missed hown), rfl, fun _ => rfl⟩

end Sys2Proof.Machine
end

section
/-! SUPPORT. An oversize frame (48_device_agent.md R370, R373): the slots it completes, one after another from
`dev_rx`. -/

namespace Sys2Proof.Machine

/-! ### The slots from `dev_rx` -/

/-- R370: the slot `j` steps from `dev_rx`. -/
def State.devSlot (s : State) (j : Nat) : Nat := (s.device.devRx + j) % s.device.cfg.rxN

/-- Word `k` of that slot: its address. -/
def State.devSlotAddr (s : State) (j k : Nat) : Nat := slotAddr s.device.cfg.rxBase (s.devSlot j) k

/-- The size of that slot's buffer. -/
def State.devSize (s : State) (j : Nat) : Nat := bcntLen (s.wordAt (s.devSlotAddr j 1))

/-- The address of that slot's buffer. -/
def State.devBuf (s : State) (j : Nat) : Nat := (s.wordAt (s.devSlotAddr j 0)).toNat

/-- R373: the bytes an oversize frame may change in that slot: its buffer, and its words 1 and 2. -/
def State.devRegions (s : State) (j : Nat) : List (Nat × Nat) :=
  [(s.devBuf j, s.devSize j), (s.devSlotAddr j 1, 8)]

/-- R94, R98, R131: the latched RX ring lies in memory, and so do its buffers, apart from it; no access within a buffer
splits a descriptor word. -/
structure DevRxOk (s : State) : Prop where
  cursor : s.device.devRx < s.device.cfg.rxN
  placed : ringPlaced s.device.cfg.rxBase s.device.cfg.rxExp.toNat
  space : ∀ j, j < s.device.cfg.rxN → s.devBuf j + s.devSize j ≤ memTop
  apart : ∀ j, j < s.device.cfg.rxN →
    disjointRegions (s.devBuf j) (s.devSize j) s.device.cfg.rxBase.toNat (16 * s.device.cfg.rxN) = true
  whole : ∀ j, j < s.device.cfg.rxN → ∀ a m, s.devBuf j ≤ a → a + m ≤ s.devBuf j + s.devSize j → s.splits a m = false

/-- R373: the host owns the slot, and it does not look like a whole good frame. -/
def NotWholeGood (w : Word) : Prop :=
  owned w = false ∧ (w.getLsbD 25 = false ∨ w.getLsbD 24 = false ∨ ∃ b, 26 ≤ b ∧ b ≤ 30 ∧ w.getLsbD b = true)

/-- R373: every choice for a slot of an oversize frame is brought into the allowed set. -/
theorem oversizeW1_notWholeGood (v : Word) : NotWholeGood (oversizeW1 v) := by
  obtain ⟨w, hw⟩ : ∃ w, w = (v &&& ~~~dOWN) ||| (if hasBits v rxErrBits then dERR else 0#32) := ⟨_, rfl⟩
  have hown : w.getLsbD 31 = false := by
    rw [hw]
    split <;> simp [dOWN, dERR]
  have herr : hasBits w dERR = w.getLsbD 30 := hasBits_twoPow w 30 (by decide)
  rw [oversizeW1, ← hw]
  simp only [herr, hasBits_dSTP, hasBits_dENP]
  split
  · next hbad =>
    refine ⟨(owned_bit w).trans hown, ?_⟩
    simp only [Bool.or_eq_true, Bool.not_eq_true'] at hbad
    rcases hbad with (h30 | h25) | h24
    · exact .inr (.inr ⟨30, by decide, by decide, h30⟩)
    · exact .inl h25
    · exact .inr (.inl h24)
  · refine ⟨?_, .inr (.inl ?_)⟩
    · rw [owned_bit, BitVec.getLsbD_and, hown, Bool.false_and]
    · rw [BitVec.getLsbD_and, show (~~~dENP).getLsbD 24 = false by decide, Bool.and_false]

/-! ### One slot after another -/

/-- R373: `t` is `s` after the `k` slots from `dev_rx` are completed for an oversize frame. -/
structure Oversized (s t : State) (k : Nat) : Prop where
  slots : k ≤ s.device.cfg.rxN
  owned : ∀ j, j < k → owned (s.wordAt (s.devSlotAddr j 1)) = true
  device : t.device = { s.device with devRx := s.devSlot k, latches := t.device.latches }
  frame : t = { s with device := t.device, memory := t.memory, history := t.history }
  words : ∀ j, j < k → NotWholeGood (t.wordAt (s.devSlotAddr j 1))
  outside : s.sameBytesOutside t ((List.range k).flatMap s.devRegions)

section Oversize

variable {s t : State} {k : Nat}

theorem rxN_pos (c : DevCfg) : 0 < c.rxN := Nat.two_pow_pos _

theorem devSlot_lt (s : State) (j : Nat) : s.devSlot j < s.device.cfg.rxN := Nat.mod_lt _ (rxN_pos _)

theorem devSlot_zero (h : DevRxOk s) : s.devSlot 0 = s.device.devRx := Nat.mod_eq_of_lt h.cursor

theorem devSlot_turn (s : State) : s.devSlot s.device.cfg.rxN = s.devSlot 0 := Nat.add_mod_right ..

theorem advance_devSlot (s : State) (k : Nat) : advance (s.devSlot k) s.device.cfg.rxN = s.devSlot (k + 1) :=
  Nat.mod_add_mod ..

/-- R98, R110: a word of a slot shares no byte with the buffer of a slot, nor with words 1 and 2 of another slot. -/
theorem word_outside_devRegions (hok : DevRxOk s) {i j l x : Nat} (hi : i < s.device.cfg.rxN)
    (hslots : s.devSlot i ≠ s.devSlot j) (hl : l < 4) (hlow : s.devSlotAddr j l ≤ x)
    (hhigh : x < s.devSlotAddr j l + 4) : ∀ r ∈ s.devRegions i, x < r.1 ∨ r.1 + r.2 ≤ x := by
  have hbuf := apart_of_disjoint (hok.apart i hi)
  have hslot := devSlot_lt s j
  unfold State.devSlotAddr slotAddr at hlow hhigh
  simp only [State.devRegions, State.devSlotAddr, slotAddr, List.forall_mem_cons, List.not_mem_nil, false_imp_iff,
    implies_true, and_true]
  constructor
  · omega
  · omega

/-- The words of the slots not yet completed are as before. -/
theorem Oversized.wordAt (hok : DevRxOk s) (h : Oversized s t k) {j l : Nat} (hj : j < s.device.cfg.rxN) (hkj : k ≤ j)
    (hl : l < 4) : t.wordAt (s.devSlotAddr j l) = s.wordAt (s.devSlotAddr j l) := by
  refine wordAt_eq fun x hlow hhigh => h.outside x fun r hr => ?_
  obtain ⟨i, hi, hr⟩ := List.mem_flatMap.mp hr
  have hij : i < j := Nat.lt_of_lt_of_le (List.mem_range.mp hi) hkj
  exact word_outside_devRegions hok (hij.trans hj) (slots_differ hij hj) hl hlow hhigh r hr

/-- What leaves everything but the device, memory and the history alone may be repeated. -/
theorem frame_trans {u : State} (h1 : t = { s with device := t.device, memory := t.memory, history := t.history })
    (h2 : u = { t with device := u.device, memory := u.memory, history := u.history }) :
    u = { s with device := u.device, memory := u.memory, history := u.history } := by
  obtain ⟨d, m, es, rfl⟩ : ∃ d m es, t = { s with device := d, memory := m, history := es } := ⟨_, _, _, h1⟩
  obtain ⟨d', m', es', rfl⟩ : ∃ d' m' es', u = { s with device := d', memory := m', history := es' } := ⟨_, _, _, h2⟩
  rfl

theorem Oversized.start (hok : DevRxOk s) : Oversized s s 0 where
  slots := Nat.zero_le _
  owned := fun _ hj => absurd hj (Nat.not_lt_zero _)
  device := by rw [devSlot_zero hok]
  frame := rfl
  words := fun _ hj => absurd hj (Nat.not_lt_zero _)
  outside := fun _ _ => rfl

theorem Oversized.record (h : Oversized s t k) (e : Event) : Oversized s (t.record e) k where
  slots := h.slots
  owned := h.owned
  device := h.device
  frame := frame_trans h.frame rfl
  words := h.words
  outside := h.outside

/-- Where the device stands before the next slot. -/
theorem Oversized.devRxAddr (h : Oversized s t k) (l : Nat) : devRxAddr t l = s.devSlotAddr k l := by
  rw [Machine.devRxAddr, h.device]
  rfl

theorem Oversized.splits (h : Oversized s t k) (a n : Nat) : t.splits a n = s.splits a n :=
  splits_congr (congrArg State.tx h.frame) (congrArg State.rx h.frame) a n

/-- R373: the slot the device stands at is completed, after bytes are stored within its buffer. -/
theorem Oversized.succ (hok : DevRxOk s) (h : Oversized s t k) (hk : k < s.device.cfg.rxN)
    (hown : Machine.owned (s.wordAt (s.devSlotAddr k 1)) = true) {u : State} {off : Nat} {bs : List Byte} {w1 w2 : Word}
    (hfit : off + bs.length ≤ s.devSize k) (hw1 : NotWholeGood w1) (hu : RxStored t u (s.devBuf k + off) bs w1 w2) :
    Oversized s u (k + 1) := by
  have hout : t.sameBytesOutside u (s.devRegions k) := by
    have hstored := hu.outside
    rw [h.devRxAddr] at hstored
    intro x hx
    simp only [State.devRegions, List.forall_mem_cons] at hx
    obtain ⟨hbuffer, hslot, -⟩ := hx
    refine hstored x ?_
    simp only [List.forall_mem_cons]
    exact ⟨by omega, hslot, nofun⟩
  have hdev : u.device = t.device.received := congrArg State.device hu.frame
  refine ⟨hk, fun j hj => ?_, ?_, frame_trans h.frame ?_, fun j hj => ?_, fun x hx => ?_⟩
  · rcases Nat.lt_succ_iff_lt_or_eq.mp hj with hlt | rfl
    · exact h.owned j hlt
    · exact hown
  · rw [hdev, Device.received, h.device, ← advance_devSlot]
  · rw [hdev]
    exact hu.frame
  · rcases Nat.lt_succ_iff_lt_or_eq.mp hj with hlt | rfl
    · have hsame : u.wordAt (s.devSlotAddr j 1) = t.wordAt (s.devSlotAddr j 1) := wordAt_eq fun x hlow hhigh =>
        hout x (word_outside_devRegions hok hk (slots_differ hlt hk).symm (by decide) hlow hhigh)
      rw [hsame]
      exact h.words j hlt
    · rw [← h.devRxAddr, hu.word1]
      exact hw1
  · rw [List.range_succ, List.flatMap_append, List.flatMap_singleton] at hx
    rw [hout x fun r hr => hx r (List.mem_append_right _ hr), h.outside x fun r hr => hx r (List.mem_append_left _ hr)]

/-- R373: bytes within the buffer of the slot the device stands at can be stored. -/
theorem Oversized.store (hok : DevRxOk s) (h : Oversized s t k) (hk : k < s.device.cfg.rxN)
    (hown : Machine.owned (s.wordAt (s.devSlotAddr k 1)) = true) {off : Nat} {bs : List Byte} {w1 w2 : Word}
    (hfit : off + bs.length ≤ s.devSize k) (hw1 : NotWholeGood w1) :
    ∃ u, rxStore off bs w1 w2 t = .ok u ∧ Oversized s u (k + 1) := by
  have hbuf : (t.wordAt (Machine.devRxAddr t 0)).toNat = s.devBuf k := by
    rw [h.devRxAddr, h.wordAt hok hk (Nat.le_refl k) (by decide), State.devBuf]
  obtain ⟨haligned, hplace⟩ := slot_placed (w := 2) hok.placed (devSlot_lt s k) (by decide)
  have hspace := hok.space k hk
  obtain ⟨u, hstore, hu⟩ := rxStore_stores (s := t) (off := off) (bs := bs) (w1 := w1) (w2 := w2)
    (by rw [h.devRxAddr]; exact haligned) (by rw [h.devRxAddr]; exact hplace) (by rw [hbuf]; omega)
    (by rw [hbuf, h.splits]; exact hok.whole k hk _ _ (by omega) (by omega))
  rw [hbuf] at hu
  exact ⟨u, hstore, h.succ hok hk hown hfit hw1 hu⟩

/-- R373: an oversize frame in the slot the device stands at. -/
theorem Oversized.one (hok : DevRxOk s) (h : Oversized s t k) (hk : k < s.device.cfg.rxN)
    (hown : Machine.owned (s.wordAt (s.devSlotAddr k 1)) = true) (o : OversizeSlot) :
    ∃ u, oversizeOne o (s.wordAt (s.devSlotAddr k 1)) t = .ok u ∧ Oversized s u (k + 1) :=
  h.store hok hk hown (by rw [List.length_take, State.devSize]; omega) (oversizeW1_notWholeGood o.w1)

/-- R370, R373: further slots while the device owns them; after a turn the first one is the host's. -/
theorem Oversized.more (hok : DevRxOk s) (hk : 1 ≤ k) (h : Oversized s t k) (os : List OversizeSlot) :
    ∃ m u, 1 ≤ m ∧ oversizeMore os t = .ok u ∧ Oversized s u m := by
  induction os generalizing t k with
  | nil => exact ⟨k, t, hk, rfl, h⟩
  | cons o os ih =>
    obtain ⟨haligned, hplace⟩ := slot_placed (w := 1) hok.placed (devSlot_lt s k) (by decide)
    have hread : Oversized s (t.noteRead .device (Machine.devRxAddr t 1) 4) k := h.record _
    rw [oversizeMore, checkWord_ok (by rw [h.devRxAddr]; exact haligned) (by rw [h.devRxAddr]; exact hplace)]
    simp only [Res.bind]
    cases hown : Machine.owned (t.wordAt (Machine.devRxAddr t 1)) with
    | false => exact ⟨k, _, hk, rfl, hread⟩
    | true =>
      rw [h.devRxAddr] at hown
      have hlt : k < s.device.cfg.rxN := by
        refine Nat.lt_of_le_of_ne h.slots fun hturn => ?_
        have hfirst : s.devSlotAddr k 1 = s.devSlotAddr 0 1 := by
          rw [State.devSlotAddr, hturn, devSlot_turn, State.devSlotAddr]
        rw [hfirst, (h.words 0 hk).1] at hown
        contradiction
      have hword := h.wordAt hok hlt (Nat.le_refl k) (l := 1) (by decide)
      rw [hword] at hown
      obtain ⟨u, hone, hu⟩ := hread.one hok hlt hown o
      rw [if_pos rfl, h.devRxAddr, hword]
      rw [h.devRxAddr] at hone
      rw [hone]
      exact ih (by omega) hu

/-- R373: the device owns the slot at `dev_rx`: it is completed, and further ones after it. -/
theorem rxOversize_completes (hok : DevRxOk s) (h : Oversized s t 0)
    (hown : Machine.owned (s.wordAt (s.devSlotAddr 0 1)) = true) (os : List OversizeSlot) :
    ∃ m u, 1 ≤ m ∧ rxOversize (s.wordAt (s.devSlotAddr 0 1)) os t = .ok u ∧ Oversized s u m := by
  obtain ⟨u, hone, hu⟩ := h.one hok (rxN_pos _) hown (os.headD ⟨0, [], 0#32, 0#32⟩)
  obtain ⟨m, v, hm, hmore, hv⟩ := hu.more hok (Nat.le_refl 1) os.tail
  refine ⟨m, v, hm, ?_, hv⟩
  rw [rxOversize, hone]
  exact hmore

end Oversize

/-- Settles O60: the slots completed one after another, and the event of the frame. -/
theorem deviceOversize : Obligations.DeviceOversize := by
  intro s frame fcs errs x y os hrun c n slot w1 buf hframe hlong hcursor hplaced hown hbuffers
  have hok : DevRxOk s := ⟨hcursor, hplaced, fun j hj => (hbuffers j hj).1, fun j hj => (hbuffers j hj).2.1,
    fun j hj => (hbuffers j hj).2.2⟩
  have haddr : devRxAddr s 1 = s.devSlotAddr 0 1 := (Oversized.start hok).devRxAddr 1
  obtain ⟨k, t, hk, hstep, ht⟩ := rxOversize_completes hok
    ((Oversized.start hok).record (.memRead .device (devRxAddr s 1) (s.bytesAt (devRxAddr s 1) 4))) hown os
  have hlatches := rxOversize_latches hstep
  have ht := ht.record (.wireRx frame)
  refine ⟨k, t.record (.wireRx frame), ?_, hk, ht.slots, ht.owned, ?_, ht.words, ht.outside⟩
  · refine (devReceive_reads hrun hframe hcursor hplaced).trans ?_
    rw [haddr] at hstep ⊢
    exact rxFrame_oversize hown hlong hstep
  · have hdev := ht.device
    rw [record_device, hlatches] at hdev
    refine ht.frame.trans ?_
    rw [record_device, hdev]
    rfl

end Sys2Proof.Machine
end
